-- ==== Sys2Proof/Word.lean ====
section
/-! DEFINITION. The word types of the Phiod P4 and their plainest arithmetic (spec/02, spec/03 R39, spec/01 R21). -/

namespace Sys2Proof

/-- A 64-bit general register, address or memory word (R22). -/
abbrev Word := BitVec 64

/-- One byte of memory. -/
abbrev Byte := BitVec 8

/-- A 7-bit, window-relative register field (R63). -/
abbrev Reg := BitVec 7

/-- A 7-bit tile field: number in [5:0], ring flag in bit 6 (R28, R64). -/
abbrev TileRef := BitVec 7

/-- A thread id: launch id in [31:24], launch-local index in [23:0] (R29). -/
abbrev Tid := BitVec 32

namespace Word

/-- x[w-1:0] sign-extended to 64 bits (R21). -/
def sext (x : Word) (w : Nat) : Word := (x.setWidth w).signExtend 64

/-- x[w-1:0] zero-extended to 64 bits (R21). -/
def zext (x : Word) (w : Nat) : Word := (x.setWidth w).setWidth 64

/-- The slice x[hi:lo] as a natural number (R21). -/
def slice (x : Word) (hi lo : Nat) : Nat := (x.toNat >>> lo) % 2 ^ (hi + 1 - lo)

/-- Bit n of x. -/
def bit (x : Word) (n : Nat) : Bool := x.getLsbD n

/-- The word all of whose bits are ones. -/
def ones : Word := BitVec.allOnes 64

end Word

/-- One bit as a natural number. -/
def bitOf (b : Bool) : Nat := if b then 1 else 0

end Sys2Proof
end

