-- ==== Sys2Proof/Syntax.lean ====
section
/-! DEFINITION. The instruction syntax: one constructor of Instr for every row of spec/opcode_table.json. Rows 0 to 132 are the
instructions of Galger (spec/04 R65 to R72); the rows after them are the part's own events and the host's commands (spec/95). -/

namespace Sys2Proof

/-- A predicate pair field (R64): pa in [2:0], pb in [5:3]. -/
structure Pair where
  pa : BitVec 3
  pb : BitVec 3
  deriving DecidableEq, Repr

/-- An encoded relative target T (R58): a signed line count and a head index. -/
structure Target where
  delta : BitVec 27
  head : BitVec 5
  deriving DecidableEq, Repr

/-- Integer width code w (R64, R87). -/
inductive Width where
  | w64 | s32 | n32
  deriving DecidableEq, Repr

/-- Loop level 0 to 2 (R77). -/
inductive Level where
  | l0 | l1 | l2
  deriving DecidableEq, Repr

/-- Scope code sc (R64). -/
inductive Scope where
  | core | quad | die | pkg | pod
  deriving DecidableEq, Repr

/-- Fence kind (R85). -/
inductive FenceKind where
  | acq | rel | full | engine
  deriving DecidableEq, Repr

/-- The three forms of mul (R89); a width goes with the low form only. -/
inductive MulKind where
  | lo (w : Width) | hs | hn
  deriving DecidableEq, Repr

/-- Functions of logic (R91). -/
inductive LogicOp where
  | and | or | xor | andn | orn | xnor
  deriving DecidableEq, Repr

/-- Functions of logi (R91). -/
inductive LogiOp where
  | and | or | xor
  deriving DecidableEq, Repr

/-- Shift operations (R92). -/
inductive ShiftOp where
  | sll | srl | sra | rol | ror
  deriving DecidableEq, Repr

/-- Forms of li (R93). -/
inductive LiKind where
  | sx | n | hi
  deriving DecidableEq, Repr

/-- Minimum and maximum, signed or natural (R94, R106). -/
inductive MinMax where
  | minS | maxS | minN | maxN
  deriving DecidableEq, Repr

/-- Functions of bits (R94). -/
inductive BitsOp where
  | clz | ctz | popc | brev | bswap
  deriving DecidableEq, Repr

/-- Integer conditions ic (R64). -/
inductive IntCond where
  | eq | ne | lt | ge | le | gt | ltn | gen | len | gtn | any | none
  deriving DecidableEq, Repr

/-- Combine modes cm (R95). -/
inductive Combine where
  | set | and | or
  deriving DecidableEq, Repr

/-- Operand types of fcmp (R98). -/
inductive FcmpType where
  | f64 | f32 | bf16 | f16
  deriving DecidableEq, Repr

/-- Conditions of fcmp (R98). -/
inductive FCond where
  | eq | ne | lt | le | gt | ge | un | ord
  deriving DecidableEq, Repr

/-- Packed lane types vt (R64). -/
inductive LaneType where
  | i8x8 | i16x4 | i32x2
  deriving DecidableEq, Repr

/-- How vadd and vsub write a lane (R104). -/
inductive SatMode where
  | wrap | ss | sn
  deriving DecidableEq, Repr

/-- Which half of a lane product vmul writes (R105). -/
inductive MulHalf where
  | lo | hs | hn
  deriving DecidableEq, Repr

/-- Operations of vshf (R107). -/
inductive VshfOp where
  | sll | srl | sra | perm
  deriving DecidableEq, Repr

/-- Operations of vred (R108). -/
inductive VredOp where
  | sum | minS | maxS | minN | maxN
  deriving DecidableEq, Repr

/-- Conditions of vcmp (R109). -/
inductive VCond where
  | eq | ne | lt | le | ltn | len
  deriving DecidableEq, Repr

/-- Float register types ft (R64). -/
inductive FT where
  | f64 | f32 | bf16x4 | f16x4 | f32x2
  deriving DecidableEq, Repr

/-- Rounding codes rm (R64), dyn taking fstat.rm. -/
inductive RM where
  | rne | rtz | rdn | rup | rmm | dyn
  deriving DecidableEq, Repr

/-- Element formats fmt (R64). -/
inductive Fmt where
  | f64 | f32 | bf16 | f16 | e4m3 | e5m2 | nb8 | i8
  deriving DecidableEq, Repr

/-- Operations of fmnx (R114). -/
inductive FmnxOp where
  | min | max | minmag | maxmag
  deriving DecidableEq, Repr

/-- Integer widths of icvt (R117). -/
inductive IntWidth where
  | i64 | i32 | i16
  deriving DecidableEq, Repr

/-- Sign operations of fsgn (R118). -/
inductive FsgnOp where
  | copy | neg | xor
  deriving DecidableEq, Repr

/-- Memory order ord (R64, R125): acq stands for acquire, release or both by the kind of access. -/
inductive Ord where
  | relaxed | acq | sc
  deriving DecidableEq, Repr

/-- Access sizes 1, 2, 4 and 8 bytes (R64). -/
inductive Size where
  | b1 | b2 | b4 | b8
  deriving DecidableEq, Repr

/-- Atomic operations ao (R64). -/
inductive AtomOp where
  | swap | cas | add | and | or | xor | minS | maxS | minN | maxN | faddF32 | faddF64
  deriving DecidableEq, Repr

/-- Placement of spawn (R137). -/
inductive Place where
  | own | quad | die
  deriving DecidableEq, Repr

/-- Functions of segq (R149). -/
inductive SegqOp where
  | ia | seg | ver
  deriving DecidableEq, Repr

/-- Modes of tscl (R166). -/
inductive TsclMode where
  | row | col | both
  deriving DecidableEq, Repr

/-- Activations of tact (R167). -/
inductive TactOp where
  | relu | gelu | silu | clamp
  deriving DecidableEq, Repr

/-- Reductions of tred (R169). -/
inductive TredOp where
  | sum | max | min
  deriving DecidableEq, Repr

/-- Moves of the ring index (R171). -/
inductive TringOp where
  | inc | add | set
  deriving DecidableEq, Repr

/-- Operations of copyr (R186). -/
inductive CopyrOp where
  | f32 | bf16 | max
  deriving DecidableEq, Repr

/-- The load and store field mx (R64), without its size for the 8-byte operations. -/
structure Mx where
  size : Size
  sx : Bool
  ord : Ord
  shift : BitVec 2
  na : Bool
  disp : BitVec 28
  deriving DecidableEq, Repr

/-- The part of mx that the full/empty operations use (R127): index shift, no-allocate, displacement. -/
structure MxFe where
  shift : BitVec 2
  na : Bool
  disp : BitVec 28
  deriving DecidableEq, Repr

/-- The x field of mma (R159): chunks less one, rows less one, columns less one, overwrite, block 32, A row stride. -/
structure MmaX where
  fmt : Fmt
  k : BitVec 8
  m : BitVec 4
  n : BitVec 4
  ow : Bool
  b32 : Bool
  stride : BitVec 15
  deriving DecidableEq, Repr

/-- The x field of topk (R173). -/
structure TopkX where
  k : BitVec 3
  g : BitVec 5
  lim : BitVec 5
  new : Bool
  deriving DecidableEq, Repr

/-- The x field of spawn (R137): entry target, window code, priority code, placement. -/
structure SpawnX where
  head : BitVec 5
  delta : BitVec 22
  win : BitVec 4
  prio : BitVec 3
  place : Place
  deriving DecidableEq, Repr

/-- What an item of a flow or a link carries (R234, R335, R338). Addresses are those of the destination's package. -/
inductive ItemBody where
  /-- engine write of bytes at an address, of a whole chunk or a run of words (class 0), with the issuer, engine queue and number of the command -/
  | write (tid : Tid) (core cmd : Nat) (ea : Word) (bytes : List Byte)
  /-- engine read request (class 0): the answer names the command and its element -/
  | read (tid : Tid) (ea : Word) (n : Nat) (core cmd elem : Nat)
  /-- a marker; ack says whether it asks for an acknowledgement (classes 0 to 2) -/
  | marker (ack : Bool) (id : Nat)
  /-- a barrier-object arrival of a command (class 0) -/
  | arrival (obj : Word) (status : Nat) (launch : Nat) (cmd : Option (Nat × Nat))
  /-- the completion of a copyr contributor on another die: core, command, status (class 0) -/
  | token (core cmd : Nat) (status : Nat)
  /-- a copyr contribution: job or launch, contributing core and command, what it contributes to and how (class 0) -/
  | contribution (job : Bool) (group core cmd : Nat) (tid : Tid) (op : CopyrOp) (tag : BitVec 16) (dst : Word) (len : Nat)
      (mask : Nat) (ranks : List Nat) (dies : Nat) (data : List Byte)
  /-- a ratom request, named by its source core and sequence number (class 1) -/
  | atomic (tid : Tid) (ea : Word) (op : AtomOp) (four sc : Bool) (operand expected : Word) (src seq : Nat)
  /-- a message, with its place among its sender's (class 2) -/
  | message (core order : Nat) (src dst : Tid) (tag : BitVec 16) (data : List Byte) (forwarded : Bool)
  /-- a wake and a kill (class 2) -/
  | wake (tid : Tid) (priv : Bool) (launch : Nat)
  | kill (tid : Tid) (priv : Bool) (launch : Nat)
  /-- a barrier arrival at package or pod scope, and barc (class 2) -/
  | barrier (group : Nat) (pod : Bool) (n : Nat) (tid : Tid) (d : Nat)
  | barset (group : Nat) (pod : Bool) (n count : Nat) (tid : Tid) (value : Word) (last : Bool)
  /-- a gondola of this package's thread tid (class 3) -/
  | gondola (tid : Tid)
  /-- replies, which carry no sequence number (R234): read data, a marker's acknowledgement, a ratom's response, the generation an
  arrival returns, the answer to barc, a generation's completion; and, between packages, an item's credit given back (log entry 34) -/
  | readData (core cmd elem : Nat) (bytes : Option (List Byte))
  | markerAck (id status : Nat)
  | atomicReply (src seq : Nat) (old : Word) (status : Nat)
  | arrived (tid : Tid) (n d : Nat) (value : BitVec 32) (epoch : Nat)
  | barsetReply (tid : Tid) (n : Nat) (ok : Bool) (value : Word) (last : Bool) (epoch : Nat)
  | generation (group : Nat) (n : Nat) (value : BitVec 32) (epoch : Nat)
  | credit (cls : Nat)
  deriving DecidableEq, Repr

/-- An item in a flow (R234, R235): source and destination die (package * 8 + die), order class, sequence number. -/
structure Item where
  src : Nat
  dst : Nat
  cls : Nat
  seq : BitVec 16
  body : ItemBody
  deriving DecidableEq, Repr

/-- What an ageing scan changes on one fibre (R277, R318). -/
inductive AgeingChange where
  | nothing
  | m0 (v : Nat)
  | thresholds (a1 a2 a3 a4 : Nat)
  | loss (output : Nat) (v : Nat)
  | guardband (die : Nat) (ps : Nat)
  deriving DecidableEq, Repr

/-- Where a soft error is met (R299). -/
inductive ErrorSite where
  | register (tid : Tid) (reg : Nat)
  | lstore (tid : Tid) (ea : Word)
  | tile (tid : Tid) (tile : Nat)
  | dieGlobal (tid : Tid) (ea : Word)
  | engine (core cmd : Nat) (ea : Word)
  | save (core : Nat) (place : Nat)
  | saveRegister (tid : Tid) (reg : Nat)
  | overwritten
  deriving DecidableEq, Repr

/-- What a self-test finds to fail (R314, R315): cores and slices (die × 256 + number), laser sources (fibre × 16 + source), and, by die, SRAM and DRAM channel
failures. -/
structure SelfTest where
  cores : List Nat
  slices : List Nat
  sources : List Nat
  srams : List Nat
  drams : List Nat
  deriving DecidableEq, Repr

/-- The rows of spec/opcode_table.json. -/
inductive Instr where
  -- group 0x00, control and system (R65)
  | nop
  | br (t : Target)
  | call (d : Reg) (t : Target)
  | jr (a : Reg)
  | jalr (d a : Reg)
  | loop (d : Reg) (level : Level) (t : Target)
  | trap (imm : BitVec 16)
  | eret
  | mfs (d : Reg) (n : BitVec 11)
  | mts (a : Reg) (n : BitVec 11)
  | gsel (a b c : BitVec 3)
  | exit
  | step (id : BitVec 16)
  | fence (sc : Scope) (kind : FenceKind)
  | sysRplan (a : Reg)
  | sysMapver
  | sysRepadd (a b : Reg)
  | sysRepdel (a b : Reg)
  | sysPath (a b : Reg)
  -- group 0x10, integer (R66)
  | add (d a b : Reg) (w : Width)
  | sub (d a b : Reg) (w : Width)
  | addi (d a : Reg) (w : Width) (imm : BitVec 32)
  | mul (d a b : Reg) (k : MulKind)
  | div (d a b : Reg) (signed : Bool) (w : Width)
  | rem (d a b : Reg) (signed : Bool) (w : Width)
  | logic (d a b : Reg) (op : LogicOp)
  | logi (d a : Reg) (op : LogiOp) (imm : BitVec 32)
  | shift (d a b : Reg) (op : ShiftOp) (w32 : Bool)
  | shifti (d a : Reg) (amt : BitVec 7) (op : ShiftOp) (w32 : Bool)
  | li (d : Reg) (k : LiKind) (imm : BitVec 32)
  | mnx (d a b : Reg) (op : MinMax)
  | lea (d a b : Reg) (sh : BitVec 2) (disp : BitVec 34)
  | bits (d a : Reg) (op : BitsOp)
  | sel (d a b c : Reg)
  | madd (d a b c : Reg) (w : Width)
  -- group 0x20, compare, predicate, bitfield, packed (R67)
  | cmp (p : Pair) (a b : Reg) (ic : IntCond) (cm : Combine) (w32 : Bool)
  | cmpi (p : Pair) (a : Reg) (ic : IntCond) (cm : Combine) (imm : BitVec 32)
  | fcmp (p : Pair) (a b : Reg) (ty : FcmpType) (cond : FCond) (cm : Combine) (sig : Bool)
  | pset (value mask : BitVec 8)
  | pmovPg (d : Reg)
  | pmovGp (a : Reg) (mask : BitVec 8)
  | plog (pd pa pb pc : BitVec 3) (table : BitVec 8)
  | bfx (d a : Reg) (pos len1 : BitVec 6) (sx : Bool)
  | bfi (d a b : Reg) (pos len1 : BitVec 6)
  | vadd (d a b : Reg) (vt : LaneType) (mode : SatMode)
  | vsub (d a b : Reg) (vt : LaneType) (mode : SatMode)
  | vmul (d a b : Reg) (vt : LaneType) (half : MulHalf)
  | vmnx (d a b : Reg) (vt : LaneType) (op : MinMax)
  | vshf (d a b : Reg) (vt : LaneType) (op : VshfOp)
  | vred (d a : Reg) (vt : LaneType) (op : VredOp)
  | vcmp (d a b : Reg) (vt : LaneType) (cond : VCond)
  -- group 0x30, floating point (R68)
  | fadd (d a b : Reg) (ft : FT) (rm : RM)
  | fsub (d a b : Reg) (ft : FT) (rm : RM)
  | fmul (d a b : Reg) (ft : FT) (rm : RM)
  | fma (d a b c : Reg) (ft : FT) (rm : RM) (np nc : Bool)
  | fdiv (d a b : Reg) (ft : FT) (rm : RM)
  | fsqrt (d a : Reg) (ft : FT) (rm : RM)
  | fmnx (d a b : Reg) (ft : FT) (op : FmnxOp)
  | fexp2 (d a : Reg) (ft : FT)
  | flog2 (d a : Reg) (ft : FT)
  | frcp (d a : Reg) (ft : FT)
  | frsq (d a : Reg) (ft : FT)
  | fcvt (d a : Reg) (ft : FT) (rm : RM) (fmt : Fmt) (from_ : Bool)
  | icvt (d a : Reg) (ft : FT) (rm : RM) (iw : IntWidth) (signed toInt : Bool)
  | fsgn (d a b : Reg) (ft : FT) (op : FsgnOp)
  | fclass (d a : Reg) (ft : FT)
  | fdot (d a b c : Reg) (ft : FT) (rm : RM)
  -- group 0x40, memory (R69)
  | ld (d a b : Reg) (x : Mx)
  | st (a b c : Reg) (x : Mx)
  | ldf (d a b : Reg) (x : MxFe)
  | lde (d a b : Reg) (x : MxFe)
  | stf (a b c : Reg) (we : Bool) (x : MxFe)
  | fem (a : Reg) (full : Bool) (count1 : BitVec 10)
  | atom (d a b c : Reg) (eight : Bool) (ord : Ord) (shift : BitVec 2) (ao : AtomOp) (disp : BitVec 24)
  | tld (t : TileRef) (a b : Reg) (disp : BitVec 28)
  | tst (t : TileRef) (a b : Reg) (disp : BitVec 28)
  | ldm (d a : Reg) (count1 : BitVec 4) (ord : Ord) (disp : BitVec 28)
  | stm (a c : Reg) (count1 : BitVec 4) (ord : Ord) (disp : BitVec 28)
  | linePref (a : Reg)
  | lineZero (a : Reg)
  | lineFlush (a : Reg)
  | lineDrop (a : Reg)
  | lineIinv (a : Reg)
  | mprot (win : BitVec 3) (a b : Reg) (r w : Bool)
  | xlatProbe (d a : Reg)
  | xlatInv (d a : Reg)
  | xlatInvall (d a : Reg)
  -- group 0x50, threads (R70)
  | spawn (d a : Reg) (tiles : BitVec 7) (p : Pair) (x : SpawnX)
  | yield
  | park (a : Reg)
  | wake (a : Reg)
  | kill (a : Reg)
  | ctxQuery (d a : Reg)
  | ctxEvict (d a : Reg)
  | ctxReseat (d a : Reg)
  | shipCore (a b : Reg)
  | shipSeg (a b : Reg)
  | cargo (a b : Reg)
  | segq (d a : Reg) (op : SegqOp)
  | send (d a b c : Reg) (tag : BitVec 16)
  | recv (d a b c : Reg) (tag : BitVec 16) (anyTag anySrc : Bool)
  | probe (d a b : Reg) (anyTag anySrc : Bool)
  | barr (d a : Reg) (sc : Scope)
  | barw (a b : Reg) (sc : Scope)
  | barc (a : Reg) (count : BitVec 24) (sc : Scope)
  -- group 0x60, matrix and plan (R71)
  | mma (t : TileRef) (a b c : Reg) (x : MmaX)
  | mmrLoad (a : Reg)
  | mmrPass
  | mmrTake
  | tzero (t : TileRef)
  | tscl (t : TileRef) (a b c : Reg) (mode : TsclMode) (bc : Bool)
  | tact (t : TileRef) (a b : Reg) (op : TactOp)
  | tcvt (p : Pair) (a : Reg) (t : TileRef) (c : Reg) (fmt : Fmt) (b32 : Bool) (stride : BitVec 16)
  | tred (a : Reg) (t : TileRef) (cols : Bool) (op : TredOp)
  | topk (t : TileRef) (a b : Reg) (x : TopkX)
  | tkrd (d a : Reg) (row : BitVec 4) (clr : Bool)
  | plan (t : TileRef) (a b c : Reg) (m1 n1 : BitVec 6)
  | bal (d a b : Reg) (p : Pair) (t : TileRef)
  | plnx (a : Reg) (t : TileRef)
  | plnd (d : Reg) (cost t : TileRef)
  | tstat (d : Reg) (t : TileRef) (clr : Bool)
  | tring (op : TringOp) (a : Reg)
  -- group 0x70, engines, light, stroke (R72)
  | copy (d a b c : Reg) (bo : Bool)
  | copyr (d a b c : Reg) (op : CopyrOp) (bo : Bool) (tag : BitVec 16)
  | ratom (d a b c : Reg) (ao : AtomOp) (ord : Ord) (four : Bool)
  | gath (d a b c : Reg) (scat : Bool) (size : Size) (bo : Bool) (count1 : BitVec 16)
  | lgrant (d a b : Reg) (fan : BitVec 3)
  | lstat (d a : Reg) (peer : Bool)
  | circ (d a b : Reg) (fibre : BitVec 6) (commit : Bool)
  | mcast (d a b c : Reg) (bo : Bool) (len1 : BitVec 20)
  | strk (n1 : BitVec 8) (len1 : BitVec 3) (stride floor : BitVec 7)
  | ringJoin (a : Reg) (log2 : BitVec 3)
  | ringDissolve (a : Reg)
  /-- ring.dissolve with a size field that is not 0 (R196) -/
  | ringDissolveSized (a : Reg) (log2 : BitVec 3)
  -- events of a core (95): g is die * 256 + core, t a thread id
  | strokeTrap (t : Tid)
  | issueSelect (g : Nat)
  | seatAssign (g : Nat)
  | quantumEnd (t : Tid)
  | parkTimeout (t : Tid)
  | strokeRepetition (t : Tid)
  | fetchLineLands (k : Nat)
  | istoreParityError (g : Nat) (ia : Word)
  -- events of the slices: a die, a slice, a place in a queue
  | sliceRequest (die sl k : Nat)
  | fillLands (die sl line : Nat)
  | stagedStorePerform (die sl k : Nat)
  | storeAck (k : Nat)
  | performedNotice (k : Nat)
  | loadReply (k : Nat)
  | faultReply (k : Nat)
  | walkComplete (die sl k : Nat)
  | faultQueueSpace (die sl : Nat)
  -- events of threads, contexts and launches
  | wakeDelivery (k : Nat)
  | killDelivery (k : Nat)
  | exitRetire (t : Tid)
  | launchComplete (lid : Nat)
  | stepRelease (lid : Nat) (dies : List Nat)
  | spawnReply (k : Nat)
  | contextGrant (g : Nat)
  -- events of the matrix engine, the epilogue unit and the latches
  | mmaStart (g : Nat)
  | mmaComplete (g : Nat)
  | epilogueComplete (g : Nat)
  | latchPassArrival (g : Nat)
  -- events of the engines and the flows: a core, a place in its engine queue, the elements moved
  | engineCommandStart (g k : Nat)
  | engineChunk (g k : Nat) (moved : List Nat)
  | tokenWrite (g k : Nat)
  | barrierObjectArrival (k : Nat)
  | reductionContribution (k : Nat)
  | reductionRound (k : Nat)
  | ratomRequest (k : Nat)
  | ratomResponse (k : Nat)
  | atomicTimeout (g k : Nat)
  | flowItemArrival (k : Nat)
  | creditGrant (die : Nat)
  | markerComplete (k : Nat)
  | markerAck (k : Nat)
  -- events of messages, barriers, the launch manager and travelling threads
  | messageArrival (k : Nat)
  | sendRetry (g k : Nat)
  | barrierUnitArrival (k : Nat)
  | barrierGeneration (k : Nat)
  | unitReply (k : Nat)
  | mapFetchReply (k : Nat)
  | departure (t : Tid)
  | slotGrant (g : Nat)
  | gondolaLanding (k : Nat)
  | landingAck (k : Nat)
  -- events of the Spool controller and the links
  | lgrantDecision (fibre : Nat)
  | waitingRaiseStart (fibre : Nat)
  | orderChangeStepA (path : Nat)
  | rampEnd (path : Nat)
  | orderRaiseStepC (path : Nat)
  | flitTransmit (path : Nat)
  | flitReceive (path peer : Nat) (raw : List Byte)
  | ack (path peer : Nat) (seq : BitVec 16)
  | nak (path peer : Nat) (seq : BitVec 16)
  | berWindowEnd (fibre colour errors : Nat)
  | retrainComplete (fibre colour : Nat) (ok : Bool)
  | lossOfLight (fibre source : Nat)
  | ageingScan (fibre : Nat) (change : AgeingChange)
  | spoolWatchdogReset
  | spoolRestart
  | bridleItemReceive (item : Item)
  | bridleOutputServe (path k : Nat)
  | circuitUp (fibre : Nat) (peer loss : Nat)
  | circuitDown (fibre : Nat)
  | windowOpen (fibre : Nat)
  | windowClose (fibre : Nat)
  | keyConfirmation (fibre peer : Nat) (peerLit tagsMatch : Bool)
  /-- KEY_CONFIRMATION with the 16 bytes of the peer's tag (R285) -/
  | keyTag (fibre peer : Nat) (tag : List Byte)
  | attestationExchange (peer : Nat) (digest : Nat) (ok : Bool)
  | keyUpdate (peer : Nat) (outgoing : Bool)
  | drainLimitExpiry
  | retopoResume
  | preemptSave (lid : Nat)
  | correctedError (die : Nat)
  | uncorrectableError (site : ErrorSite)
  | eventAreaSpace
  | thermalTrip (die : Nat)
  | bringUp
  /-- BRING_UP with what the self-test finds (R314, R315) -/
  | bringUpTested (found : SelfTest)
  -- host commands, each taken from device queue q, and host register and window accesses
  | launch (q : Nat)
  | preempt (q : Nat)
  | resume (q : Nat)
  | copyCommand (q : Nat)
  | retopo (q : Nat)
  | powerState (q : Nat)
  | powerLaserCap (q : Nat)
  | grantpol (q : Nat)
  | attestAllowList (q : Nat)
  | attestStart (q : Nat)
  | attestEndSession (q : Nat)
  | attestLeafCounter (q : Nat)
  | attestNewIdentity (q : Nat)
  | resetPackage (q : Nat)
  | resetConfigure (q : Nat)
  | resetFirmware (q : Nat)
  | spill (q : Nat)
  | qtail (q : Nat) (v : BitVec 32)
  | qctl (q : Nat) (v : Word)
  | evcons (v : Word)
  | wakeRegister (die : Nat) (t : Tid)
  | registerWrite (offset size : Nat) (v : Word)
  | hostWindowWrite (die : Nat) (offset : BitVec 48) (bytes : List Byte)
  | hostWindowRead (die : Nat) (offset : BitVec 48) (size : Nat)
  /-- HOST_WINDOW_READ of the register window (R307) -/
  | registerRead (offset size : Nat)
  | slotTableAnswer (k : Nat)
  | laserModuleReplaced (fibre source : Nat)
  deriving DecidableEq, Repr

end Sys2Proof
end

