-- ==== Sys2Proof/WellFormed.lean ====
section
/-! DEFINITION. Which operand combinations of an instruction the encoding tables admit (spec/04 R62 check 3, R65 to R72, and the
"reserved" sentences of the instruction chapters); for an event, the range of the places it names. -/

namespace Sys2Proof

/-- g0, the register field that means "none" where a register is optional (R10). -/
abbrev g0 : Reg := 0

/-- The integer width of icvt fits the register type (R117). -/
def IntWidth.fits (iw : IntWidth) : FT → Bool
  | .f64 | .f32 => iw != .i16
  | .bf16x4 | .f16x4 => iw == .i16
  | .f32x2 => iw == .i32

/-- The number of lanes of a float register type (R39, R64). -/
def FT.lanes : FT → Nat
  | .f64 | .f32 => 1
  | .bf16x4 | .f16x4 => 4
  | .f32x2 => 2

/-- The element format of a float register type (R64). -/
def FT.fmt : FT → Fmt
  | .f64 => .f64
  | .f32 | .f32x2 => .f32
  | .bf16x4 => .bf16
  | .f16x4 => .f16

/-- The width of an element format in bits (R40). -/
def Fmt.bits : Fmt → Nat
  | .f64 => 64
  | .f32 => 32
  | .bf16 | .f16 => 16
  | .e4m3 | .e5m2 | .nb8 | .i8 => 8

/-- The formats that take block scales: E4M3, E5M2, NB8 (R49, R159). -/
def Fmt.scaled : Fmt → Bool
  | .e4m3 | .e5m2 | .nb8 => true
  | _ => false

/-- An atomic operation and an access width that go together (R64, R69, R72). -/
def AtomOp.fits (ao : AtomOp) (eight : Bool) : Bool :=
  match ao with
  | .faddF32 => !eight
  | .faddF64 => eight
  | _ => true

/-- A core of the package, named die * 256 + core. -/
def coreOk (g : Nat) : Bool := g < 2048

/-- A die and a slice of it. -/
def sliceOk (die sl : Nat) : Bool := die < 8 && sl < 256

/-- Well-formedness of an instruction or event. -/
def Instr.wellFormed : Instr → Bool
  | .shifti _ _ amt _ w32 => if w32 then amt < 32 else amt < 64
  | .bfx _ _ pos len1 _ => pos.toNat + len1.toNat + 1 ≤ 64
  | .bfi _ _ _ pos len1 => pos.toNat + len1.toNat + 1 ≤ 64
  | .fexp2 _ _ ft | .flog2 _ _ ft | .frcp _ _ ft | .frsq _ _ ft => ft != .f64
  | .fcvt _ _ ft _ fmt _ => fmt != .i8 && fmt != ft.fmt && ft.lanes * fmt.bits ≤ 64
  | .icvt _ _ ft _ iw _ _ => iw.fits ft
  | .fclass _ _ ft => ft == .f64 || ft == .f32
  | .fdot _ _ _ _ ft _ => ft == .bf16x4 || ft == .f16x4 || ft == .f32x2
  | .ld _ _ _ x => !(x.sx && x.size == .b8)
  | .st _ _ _ x => !x.sx
  | .atom _ _ _ _ eight _ _ ao _ => ao.fits eight
  | .spawn _ _ tiles _ x => tiles ≤ 64 && x.prio ≤ 4
  | .barc _ count _ => count != 0
  | .mma _ _ _ c x =>
    (c == g0 || x.fmt.scaled) && (x.fmt != .f64 || x.n ≤ 7) && (!x.b32 || c != g0) && x.stride % 8 == 0
  | .tscl _ a b _ mode _ =>
    match mode with
    | .row => b == g0
    | .col => a == g0
    | .both => a != g0 && b != g0
  | .tact _ a b op => op == .clamp || (a == g0 && b == g0)
  | .tcvt _ _ _ c fmt b32 stride =>
    fmt != .f64 && fmt != .i8 && (c == g0 || fmt.scaled) && (!b32 || c != g0) && stride % 8 == 0
  | .topk _ _ _ x =>
    (x.g == 0 || x.g == 1 || x.g == 2 || x.g == 4 || x.g == 8 || x.g == 16) &&
      (if x.g == 0 then x.lim == 0 else 1 ≤ x.lim && x.lim ≤ 16)
  | .tring op a => op != .inc || a == g0
  | .ratom _ _ _ _ ao _ four => ao.fits (!four)
  | .lgrant _ _ _ fan => fan ≤ 4
  | .circ _ _ _ fibre _ => fibre ≤ 47
  | .ringJoin _ log2 => log2 ≤ 4
  | .ringDissolveSized _ log2 => 1 ≤ log2 && log2 ≤ 4
  | .issueSelect g | .seatAssign g | .istoreParityError g _ | .contextGrant g | .mmaStart g | .mmaComplete g
  | .epilogueComplete g | .latchPassArrival g | .engineCommandStart g _ | .engineChunk g _ _ | .tokenWrite g _
  | .atomicTimeout g _ | .sendRetry g _ | .slotGrant g => coreOk g
  | .sliceRequest die sl _ | .fillLands die sl _ | .stagedStorePerform die sl _ | .walkComplete die sl _
  | .faultQueueSpace die sl => sliceOk die sl
  | .creditGrant die | .correctedError die | .thermalTrip die | .wakeRegister die _ | .hostWindowWrite die _ _
  | .hostWindowRead die _ _ => die < 8
  | .keyTag f _ tag => f < 48 && tag.length == 16
  | .lgrantDecision f | .waitingRaiseStart f | .berWindowEnd f _ _ | .retrainComplete f _ _ | .lossOfLight f _
  | .ageingScan f _ | .circuitUp f _ _ | .circuitDown f | .windowOpen f | .windowClose f | .keyConfirmation f _ _ _
  | .laserModuleReplaced f _ => f < 48
  | .orderChangeStepA p | .rampEnd p | .orderRaiseStepC p | .flitTransmit p | .flitReceive p _ _ | .ack p _ _
  | .nak p _ _ | .bridleOutputServe p _ => p < 256
  | .launch q | .preempt q | .resume q | .copyCommand q | .retopo q | .powerState q | .powerLaserCap q | .grantpol q
  | .attestAllowList q | .attestStart q | .attestEndSession q | .attestLeafCounter q | .attestNewIdentity q
  | .resetPackage q | .resetConfigure q | .resetFirmware q | .spill q | .qtail q _ | .qctl q _ => q < 64
  | _ => true

/-- The rows of the table that are events or commands, which no instruction word encodes. -/
def Instr.isEvent : Instr → Bool
  | .strokeTrap .. | .issueSelect .. | .seatAssign .. | .quantumEnd .. | .parkTimeout .. | .strokeRepetition ..
  | .fetchLineLands .. | .istoreParityError .. | .sliceRequest .. | .fillLands .. | .stagedStorePerform ..
  | .storeAck .. | .performedNotice .. | .loadReply .. | .faultReply .. | .walkComplete .. | .faultQueueSpace ..
  | .wakeDelivery .. | .killDelivery .. | .exitRetire .. | .launchComplete .. | .stepRelease .. | .spawnReply ..
  | .contextGrant .. | .mmaStart .. | .mmaComplete .. | .epilogueComplete .. | .latchPassArrival ..
  | .engineCommandStart .. | .engineChunk .. | .tokenWrite .. | .barrierObjectArrival ..
  | .reductionContribution .. | .reductionRound .. | .ratomRequest .. | .ratomResponse .. | .atomicTimeout ..
  | .flowItemArrival .. | .creditGrant .. | .markerComplete .. | .markerAck .. | .messageArrival ..
  | .sendRetry .. | .barrierUnitArrival .. | .barrierGeneration .. | .unitReply .. | .mapFetchReply ..
  | .departure .. | .slotGrant .. | .gondolaLanding .. | .landingAck .. | .lgrantDecision ..
  | .waitingRaiseStart .. | .orderChangeStepA .. | .rampEnd .. | .orderRaiseStepC .. | .flitTransmit ..
  | .flitReceive .. | .ack .. | .nak .. | .berWindowEnd .. | .retrainComplete .. | .lossOfLight ..
  | .ageingScan .. | .spoolWatchdogReset | .spoolRestart | .bridleItemReceive .. | .bridleOutputServe ..
  | .circuitUp .. | .circuitDown .. | .windowOpen .. | .windowClose .. | .keyConfirmation .. | .keyTag ..
  | .attestationExchange .. | .keyUpdate .. | .drainLimitExpiry | .retopoResume | .preemptSave ..
  | .correctedError .. | .uncorrectableError .. | .eventAreaSpace | .thermalTrip .. | .bringUp | .bringUpTested .. | .launch ..
  | .preempt .. | .resume .. | .copyCommand .. | .retopo .. | .powerState .. | .powerLaserCap .. | .grantpol ..
  | .attestAllowList .. | .attestStart .. | .attestEndSession .. | .attestLeafCounter .. | .attestNewIdentity ..
  | .resetPackage .. | .resetConfigure .. | .resetFirmware .. | .spill .. | .qtail .. | .qctl .. | .evcons ..
  | .wakeRegister .. | .registerWrite .. | .hostWindowWrite .. | .hostWindowRead .. | .registerRead ..
  | .slotTableAnswer ..
  | .laserModuleReplaced .. => true
  | _ => false

end Sys2Proof
end

