-- ==== Sys2Proof/Decode.lean ====
section
/-! DEFINITION. The decoder of instruction lines (spec/04 R55 to R57, R62 to R73), total on any 64 bytes, the field codes of R64, and
the encoder written from the same tables. -/

namespace Sys2Proof

/-- The field value of w (R64). -/
def codeWidth : Width → BitVec 2
  | .w64 => 0
  | .s32 => 1
  | .n32 => 2

/-- The reading of the field w (R64); a reserved value reads as nothing. -/
def ofWidth (x : BitVec 2) : Option Width :=
  match x.toNat with
  | 0 => some .w64
  | 1 => some .s32
  | 2 => some .n32
  | _ => none

/-- The field value of loop level (R77). -/
def codeLevel : Level → BitVec 2
  | .l0 => 0
  | .l1 => 1
  | .l2 => 2

/-- The reading of the field loop level (R77); a reserved value reads as nothing. -/
def ofLevel (x : BitVec 2) : Option Level :=
  match x.toNat with
  | 0 => some .l0
  | 1 => some .l1
  | 2 => some .l2
  | _ => none

/-- The field value of sc (R64). -/
def codeScope : Scope → BitVec 4
  | .core => 0
  | .quad => 1
  | .die => 2
  | .pkg => 3
  | .pod => 4

/-- The reading of the field sc (R64); a reserved value reads as nothing. -/
def ofScope (x : BitVec 4) : Option Scope :=
  match x.toNat with
  | 0 => some .core
  | 1 => some .quad
  | 2 => some .die
  | 3 => some .pkg
  | 4 => some .pod
  | _ => none

/-- The field value of fence kind (R85). -/
def codeFenceKind : FenceKind → BitVec 4
  | .acq => 0
  | .rel => 1
  | .full => 2
  | .engine => 3

/-- The reading of the field fence kind (R85); a reserved value reads as nothing. -/
def ofFenceKind (x : BitVec 4) : Option FenceKind :=
  match x.toNat with
  | 0 => some .acq
  | 1 => some .rel
  | 2 => some .full
  | 3 => some .engine
  | _ => none

/-- The field value of logic function (R91). -/
def codeLogicOp : LogicOp → BitVec 3
  | .and => 0
  | .or => 1
  | .xor => 2
  | .andn => 3
  | .orn => 4
  | .xnor => 5

/-- The reading of the field logic function (R91); a reserved value reads as nothing. -/
def ofLogicOp (x : BitVec 3) : Option LogicOp :=
  match x.toNat with
  | 0 => some .and
  | 1 => some .or
  | 2 => some .xor
  | 3 => some .andn
  | 4 => some .orn
  | 5 => some .xnor
  | _ => none

/-- The field value of logi function (R91). -/
def codeLogiOp : LogiOp → BitVec 2
  | .and => 0
  | .or => 1
  | .xor => 2

/-- The reading of the field logi function (R91); a reserved value reads as nothing. -/
def ofLogiOp (x : BitVec 2) : Option LogiOp :=
  match x.toNat with
  | 0 => some .and
  | 1 => some .or
  | 2 => some .xor
  | _ => none

/-- The field value of shift operation (R92). -/
def codeShiftOp : ShiftOp → BitVec 3
  | .sll => 0
  | .srl => 1
  | .sra => 2
  | .rol => 3
  | .ror => 4

/-- The reading of the field shift operation (R92); a reserved value reads as nothing. -/
def ofShiftOp (x : BitVec 3) : Option ShiftOp :=
  match x.toNat with
  | 0 => some .sll
  | 1 => some .srl
  | 2 => some .sra
  | 3 => some .rol
  | 4 => some .ror
  | _ => none

/-- The field value of li form (R93). -/
def codeLiKind : LiKind → BitVec 2
  | .sx => 0
  | .n => 1
  | .hi => 2

/-- The reading of the field li form (R93); a reserved value reads as nothing. -/
def ofLiKind (x : BitVec 2) : Option LiKind :=
  match x.toNat with
  | 0 => some .sx
  | 1 => some .n
  | 2 => some .hi
  | _ => none

/-- The field value of minimum or maximum (R94). -/
def codeMinMax : MinMax → BitVec 2
  | .minS => 0
  | .maxS => 1
  | .minN => 2
  | .maxN => 3

/-- The reading of the field minimum or maximum (R94); a reserved value reads as nothing. -/
def ofMinMax (x : BitVec 2) : Option MinMax :=
  match x.toNat with
  | 0 => some .minS
  | 1 => some .maxS
  | 2 => some .minN
  | _ => some .maxN

/-- The field value of bits function (R94). -/
def codeBitsOp : BitsOp → BitVec 3
  | .clz => 0
  | .ctz => 1
  | .popc => 2
  | .brev => 3
  | .bswap => 4

/-- The reading of the field bits function (R94); a reserved value reads as nothing. -/
def ofBitsOp (x : BitVec 3) : Option BitsOp :=
  match x.toNat with
  | 0 => some .clz
  | 1 => some .ctz
  | 2 => some .popc
  | 3 => some .brev
  | 4 => some .bswap
  | _ => none

/-- The field value of ic (R64). -/
def codeIntCond : IntCond → BitVec 4
  | .eq => 0
  | .ne => 1
  | .lt => 2
  | .ge => 3
  | .le => 4
  | .gt => 5
  | .ltn => 6
  | .gen => 7
  | .len => 8
  | .gtn => 9
  | .any => 10
  | .none => 11

/-- The reading of the field ic (R64); a reserved value reads as nothing. -/
def ofIntCond (x : BitVec 4) : Option IntCond :=
  match x.toNat with
  | 0 => some .eq
  | 1 => some .ne
  | 2 => some .lt
  | 3 => some .ge
  | 4 => some .le
  | 5 => some .gt
  | 6 => some .ltn
  | 7 => some .gen
  | 8 => some .len
  | 9 => some .gtn
  | 10 => some .any
  | 11 => some .none
  | _ => none

/-- The field value of cm (R64). -/
def codeCombine : Combine → BitVec 2
  | .set => 0
  | .and => 1
  | .or => 2

/-- The reading of the field cm (R64); a reserved value reads as nothing. -/
def ofCombine (x : BitVec 2) : Option Combine :=
  match x.toNat with
  | 0 => some .set
  | 1 => some .and
  | 2 => some .or
  | _ => none

/-- The field value of fcmp type (R98). -/
def codeFcmpType : FcmpType → BitVec 3
  | .f64 => 0
  | .f32 => 1
  | .bf16 => 2
  | .f16 => 3

/-- The reading of the field fcmp type (R98); a reserved value reads as nothing. -/
def ofFcmpType (x : BitVec 3) : Option FcmpType :=
  match x.toNat with
  | 0 => some .f64
  | 1 => some .f32
  | 2 => some .bf16
  | 3 => some .f16
  | _ => none

/-- The field value of fcmp condition (R98). -/
def codeFCond : FCond → BitVec 3
  | .eq => 0
  | .ne => 1
  | .lt => 2
  | .le => 3
  | .gt => 4
  | .ge => 5
  | .un => 6
  | .ord => 7

/-- The reading of the field fcmp condition (R98); a reserved value reads as nothing. -/
def ofFCond (x : BitVec 3) : Option FCond :=
  match x.toNat with
  | 0 => some .eq
  | 1 => some .ne
  | 2 => some .lt
  | 3 => some .le
  | 4 => some .gt
  | 5 => some .ge
  | 6 => some .un
  | _ => some .ord

/-- The field value of vt (R64). -/
def codeLaneType : LaneType → BitVec 2
  | .i8x8 => 0
  | .i16x4 => 1
  | .i32x2 => 2

/-- The reading of the field vt (R64); a reserved value reads as nothing. -/
def ofLaneType (x : BitVec 2) : Option LaneType :=
  match x.toNat with
  | 0 => some .i8x8
  | 1 => some .i16x4
  | 2 => some .i32x2
  | _ => none

/-- The field value of saturation (R104). -/
def codeSatMode : SatMode → BitVec 2
  | .wrap => 0
  | .ss => 1
  | .sn => 2

/-- The reading of the field saturation (R104); a reserved value reads as nothing. -/
def ofSatMode (x : BitVec 2) : Option SatMode :=
  match x.toNat with
  | 0 => some .wrap
  | 1 => some .ss
  | 2 => some .sn
  | _ => none

/-- The field value of product half (R105). -/
def codeMulHalf : MulHalf → BitVec 2
  | .lo => 0
  | .hs => 1
  | .hn => 2

/-- The reading of the field product half (R105); a reserved value reads as nothing. -/
def ofMulHalf (x : BitVec 2) : Option MulHalf :=
  match x.toNat with
  | 0 => some .lo
  | 1 => some .hs
  | 2 => some .hn
  | _ => none

/-- The field value of vshf operation (R107). -/
def codeVshfOp : VshfOp → BitVec 2
  | .sll => 0
  | .srl => 1
  | .sra => 2
  | .perm => 3

/-- The reading of the field vshf operation (R107); a reserved value reads as nothing. -/
def ofVshfOp (x : BitVec 2) : Option VshfOp :=
  match x.toNat with
  | 0 => some .sll
  | 1 => some .srl
  | 2 => some .sra
  | _ => some .perm

/-- The field value of vred operation (R108). -/
def codeVredOp : VredOp → BitVec 3
  | .sum => 0
  | .minS => 1
  | .maxS => 2
  | .minN => 3
  | .maxN => 4

/-- The reading of the field vred operation (R108); a reserved value reads as nothing. -/
def ofVredOp (x : BitVec 3) : Option VredOp :=
  match x.toNat with
  | 0 => some .sum
  | 1 => some .minS
  | 2 => some .maxS
  | 3 => some .minN
  | 4 => some .maxN
  | _ => none

/-- The field value of vcmp condition (R109). -/
def codeVCond : VCond → BitVec 3
  | .eq => 0
  | .ne => 1
  | .lt => 2
  | .le => 3
  | .ltn => 4
  | .len => 5

/-- The reading of the field vcmp condition (R109); a reserved value reads as nothing. -/
def ofVCond (x : BitVec 3) : Option VCond :=
  match x.toNat with
  | 0 => some .eq
  | 1 => some .ne
  | 2 => some .lt
  | 3 => some .le
  | 4 => some .ltn
  | 5 => some .len
  | _ => none

/-- The field value of ft (R64). -/
def codeFT : FT → BitVec 3
  | .f64 => 0
  | .f32 => 1
  | .bf16x4 => 2
  | .f16x4 => 3
  | .f32x2 => 4

/-- The reading of the field ft (R64); a reserved value reads as nothing. -/
def ofFT (x : BitVec 3) : Option FT :=
  match x.toNat with
  | 0 => some .f64
  | 1 => some .f32
  | 2 => some .bf16x4
  | 3 => some .f16x4
  | 4 => some .f32x2
  | _ => none

/-- The field value of rm (R64). -/
def codeRM : RM → BitVec 3
  | .rne => 0
  | .rtz => 1
  | .rdn => 2
  | .rup => 3
  | .rmm => 4
  | .dyn => 5

/-- The reading of the field rm (R64); a reserved value reads as nothing. -/
def ofRM (x : BitVec 3) : Option RM :=
  match x.toNat with
  | 0 => some .rne
  | 1 => some .rtz
  | 2 => some .rdn
  | 3 => some .rup
  | 4 => some .rmm
  | 5 => some .dyn
  | _ => none

/-- The field value of fmt (R64). -/
def codeFmt : Fmt → BitVec 4
  | .f64 => 0
  | .f32 => 1
  | .bf16 => 2
  | .f16 => 3
  | .e4m3 => 4
  | .e5m2 => 5
  | .nb8 => 6
  | .i8 => 7

/-- The reading of the field fmt (R64); a reserved value reads as nothing. -/
def ofFmt (x : BitVec 4) : Option Fmt :=
  match x.toNat with
  | 0 => some .f64
  | 1 => some .f32
  | 2 => some .bf16
  | 3 => some .f16
  | 4 => some .e4m3
  | 5 => some .e5m2
  | 6 => some .nb8
  | 7 => some .i8
  | _ => none

/-- The field value of fmnx operation (R114). -/
def codeFmnxOp : FmnxOp → BitVec 2
  | .min => 0
  | .max => 1
  | .minmag => 2
  | .maxmag => 3

/-- The reading of the field fmnx operation (R114); a reserved value reads as nothing. -/
def ofFmnxOp (x : BitVec 2) : Option FmnxOp :=
  match x.toNat with
  | 0 => some .min
  | 1 => some .max
  | 2 => some .minmag
  | _ => some .maxmag

/-- The field value of icvt width (R117). -/
def codeIntWidth : IntWidth → BitVec 2
  | .i64 => 0
  | .i32 => 1
  | .i16 => 2

/-- The reading of the field icvt width (R117); a reserved value reads as nothing. -/
def ofIntWidth (x : BitVec 2) : Option IntWidth :=
  match x.toNat with
  | 0 => some .i64
  | 1 => some .i32
  | 2 => some .i16
  | _ => none

/-- The field value of fsgn operation (R118). -/
def codeFsgnOp : FsgnOp → BitVec 2
  | .copy => 0
  | .neg => 1
  | .xor => 2

/-- The reading of the field fsgn operation (R118); a reserved value reads as nothing. -/
def ofFsgnOp (x : BitVec 2) : Option FsgnOp :=
  match x.toNat with
  | 0 => some .copy
  | 1 => some .neg
  | 2 => some .xor
  | _ => none

/-- The field value of ord (R64). -/
def codeOrd : Ord → BitVec 2
  | .relaxed => 0
  | .acq => 1
  | .sc => 2

/-- The reading of the field ord (R64); a reserved value reads as nothing. -/
def ofOrd (x : BitVec 2) : Option Ord :=
  match x.toNat with
  | 0 => some .relaxed
  | 1 => some .acq
  | 2 => some .sc
  | _ => none

/-- The field value of access size (R64). -/
def codeSize : Size → BitVec 2
  | .b1 => 0
  | .b2 => 1
  | .b4 => 2
  | .b8 => 3

/-- The reading of the field access size (R64); a reserved value reads as nothing. -/
def ofSize (x : BitVec 2) : Option Size :=
  match x.toNat with
  | 0 => some .b1
  | 1 => some .b2
  | 2 => some .b4
  | _ => some .b8

/-- The field value of ao (R64). -/
def codeAtomOp : AtomOp → BitVec 4
  | .swap => 0
  | .cas => 1
  | .add => 2
  | .and => 3
  | .or => 4
  | .xor => 5
  | .minS => 6
  | .maxS => 7
  | .minN => 8
  | .maxN => 9
  | .faddF32 => 10
  | .faddF64 => 11

/-- The reading of the field ao (R64); a reserved value reads as nothing. -/
def ofAtomOp (x : BitVec 4) : Option AtomOp :=
  match x.toNat with
  | 0 => some .swap
  | 1 => some .cas
  | 2 => some .add
  | 3 => some .and
  | 4 => some .or
  | 5 => some .xor
  | 6 => some .minS
  | 7 => some .maxS
  | 8 => some .minN
  | 9 => some .maxN
  | 10 => some .faddF32
  | 11 => some .faddF64
  | _ => none

/-- The field value of spawn placement (R137). -/
def codePlace : Place → BitVec 2
  | .own => 0
  | .quad => 1
  | .die => 2

/-- The reading of the field spawn placement (R137); a reserved value reads as nothing. -/
def ofPlace (x : BitVec 2) : Option Place :=
  match x.toNat with
  | 0 => some .own
  | 1 => some .quad
  | 2 => some .die
  | _ => none

/-- The field value of segq function (R149). -/
def codeSegqOp : SegqOp → BitVec 2
  | .ia => 0
  | .seg => 1
  | .ver => 2

/-- The reading of the field segq function (R149); a reserved value reads as nothing. -/
def ofSegqOp (x : BitVec 2) : Option SegqOp :=
  match x.toNat with
  | 0 => some .ia
  | 1 => some .seg
  | 2 => some .ver
  | _ => none

/-- The field value of tscl mode (R166). -/
def codeTsclMode : TsclMode → BitVec 2
  | .row => 0
  | .col => 1
  | .both => 2

/-- The reading of the field tscl mode (R166); a reserved value reads as nothing. -/
def ofTsclMode (x : BitVec 2) : Option TsclMode :=
  match x.toNat with
  | 0 => some .row
  | 1 => some .col
  | 2 => some .both
  | _ => none

/-- The field value of tact operation (R167). -/
def codeTactOp : TactOp → BitVec 3
  | .relu => 0
  | .gelu => 1
  | .silu => 2
  | .clamp => 3

/-- The reading of the field tact operation (R167); a reserved value reads as nothing. -/
def ofTactOp (x : BitVec 3) : Option TactOp :=
  match x.toNat with
  | 0 => some .relu
  | 1 => some .gelu
  | 2 => some .silu
  | 3 => some .clamp
  | _ => none

/-- The field value of tred operation (R169). -/
def codeTredOp : TredOp → BitVec 2
  | .sum => 0
  | .max => 1
  | .min => 2

/-- The reading of the field tred operation (R169); a reserved value reads as nothing. -/
def ofTredOp (x : BitVec 2) : Option TredOp :=
  match x.toNat with
  | 0 => some .sum
  | 1 => some .max
  | 2 => some .min
  | _ => none

/-- The field value of tring operation (R171). -/
def codeTringOp : TringOp → BitVec 2
  | .inc => 0
  | .add => 1
  | .set => 2

/-- The reading of the field tring operation (R171); a reserved value reads as nothing. -/
def ofTringOp (x : BitVec 2) : Option TringOp :=
  match x.toNat with
  | 0 => some .inc
  | 1 => some .add
  | 2 => some .set
  | _ => none

/-- The field value of copyr operation (R186). -/
def codeCopyrOp : CopyrOp → BitVec 2
  | .f32 => 0
  | .bf16 => 1
  | .max => 2

/-- The reading of the field copyr operation (R186); a reserved value reads as nothing. -/
def ofCopyrOp (x : BitVec 2) : Option CopyrOp :=
  match x.toNat with
  | 0 => some .f32
  | 1 => some .bf16
  | 2 => some .max
  | _ => none

/-! ### Tail forms (R63) -/

/-- The bits [lo + n - 1 : lo] of a field. -/
abbrev xf {w : Nat} (x : BitVec w) (lo n : Nat) : BitVec n := x.extractLsb' lo n

/-- One bit as a field. -/
def bit1 (b : Bool) : BitVec 1 := if b then 1 else 0

/-- Form F4 (R63). -/
structure F4 where
  d : Reg
  a : Reg
  b : Reg
  x : BitVec 11
  deriving DecidableEq, Repr

/-- Form F6 (R63). -/
structure F6 where
  d : Reg
  a : Reg
  x : BitVec 2
  imm : BitVec 32
  deriving DecidableEq, Repr

/-- Form F8 (R63). -/
structure F8 where
  d : Reg
  a : Reg
  b : Reg
  c : Reg
  x : BitVec 36
  deriving DecidableEq, Repr

/-- The fields of an F4 tail: d [31:25], a [24:18], b [17:11], x [10:0] (R63). -/
def readF4 (t : BitVec 32) : F4 := ⟨xf t 25 7, xf t 18 7, xf t 11 7, xf t 0 11⟩

/-- The tail of F4 fields (R63). -/
def wordF4 (f : F4) : BitVec 32 := f.d ++ f.a ++ f.b ++ f.x

/-- The fields of an F6 tail: d [47:41], a [40:34], x [33:32], imm [31:0] (R63). -/
def readF6 (t : BitVec 48) : F6 := ⟨xf t 41 7, xf t 34 7, xf t 32 2, xf t 0 32⟩

/-- The tail of F6 fields (R63). -/
def wordF6 (f : F6) : BitVec 48 := f.d ++ f.a ++ f.x ++ f.imm

/-- The fields of an F8 tail: d [63:57], a [56:50], b [49:43], c [42:36], x [35:0] (R63). -/
def readF8 (t : BitVec 64) : F8 := ⟨xf t 57 7, xf t 50 7, xf t 43 7, xf t 36 7, xf t 0 36⟩

/-- The tail of F8 fields (R63). -/
def wordF8 (f : F8) : BitVec 64 := f.d ++ f.a ++ f.b ++ f.c ++ f.x

/-- The target T of a 32-bit field: delta [31:5], head [4:0] (R58). -/
def readTarget (t : BitVec 32) : Target := ⟨xf t 5 27, xf t 0 5⟩

/-- The 32 bits of a target (R58). -/
def wordTarget (t : Target) : BitVec 32 := t.delta ++ t.head

/-- The pair of a 7-bit field: pa [2:0], pb [5:3], [6] = 0 (R64). -/
def readPair (d : BitVec 7) : Option Pair := if xf d 6 1 = 0 then some ⟨xf d 0 3, xf d 3 3⟩ else none

/-- The 7 bits of a pair (R64). -/
def wordPair (p : Pair) : BitVec 7 := (0 : BitVec 1) ++ p.pb ++ p.pa

/-- The instruction where the fields marked 0 hold 0 and its other conditions hold, else nothing (R62 check 3). -/
def keep (c : Bool) (i : Instr) : Option Instr := if c then some i else none

/-- A one-bit field as a truth value. -/
def flag {w : Nat} (x : BitVec w) (n : Nat) : Bool := x.getLsbD n

/-- The field mx of loads and stores (R64): size [1:0], sign-extend [2], ord [4:3], shift [6:5], na [7], displacement [35:8]. -/
def readMx (x : BitVec 36) : Option Mx :=
  match ofSize (xf x 0 2), ofOrd (xf x 3 2) with
  | some size, some ord => some ⟨size, flag x 2, ord, xf x 5 2, flag x 7, xf x 8 28⟩
  | _, _ => none

/-- The 36 bits of mx (R64). -/
def wordMx (m : Mx) : BitVec 36 :=
  m.disp ++ bit1 m.na ++ m.shift ++ codeOrd m.ord ++ bit1 m.sx ++ codeSize m.size

/-- The part of mx the full/empty operations use: size 8, ord 0, and bit 2 as given (R69). -/
def readMxFe (x : BitVec 36) (bit2 : Bool) : Option MxFe :=
  if xf x 0 2 = 3 ∧ flag x 2 = bit2 ∧ xf x 3 2 = 0 then some ⟨xf x 5 2, flag x 7, xf x 8 28⟩ else none

/-- The 36 bits of that part (R69). -/
def wordMxFe (m : MxFe) (bit2 : Bool) : BitVec 36 :=
  m.disp ++ bit1 m.na ++ m.shift ++ (0 : BitVec 2) ++ bit1 bit2 ++ (3 : BitVec 2)

/-! ### The opcode map (R65 to R73) -/

/-- Tail lengths in bytes by opcode (R56, R65 to R72); reserved opcodes have none (R73). -/
def tailLen (op : BitVec 7) : Option Nat :=
  match op.toNat with
  | 0x00 | 0x07 | 0x0B | 0x51 => some 0
  | 0x03 | 0x06 | 0x0A | 0x0C | 0x0D | 0x23 => some 2
  | 0x02 | 0x05 | 0x12 | 0x17 | 0x1A | 0x25 | 0x5C | 0x78 => some 6
  | 0x1C | 0x1E | 0x1F | 0x21 | 0x26 | 0x27 | 0x33 | 0x3F | 0x40 | 0x41 | 0x42 | 0x43 | 0x44 | 0x46 | 0x47 | 0x48
  | 0x49 | 0x4A | 0x4C | 0x50 | 0x57 | 0x58 | 0x60 | 0x63 | 0x65 | 0x67 | 0x68 | 0x69 | 0x6A | 0x6B | 0x6C | 0x70
  | 0x71 | 0x72 | 0x73 | 0x74 | 0x76 | 0x77 => some 8
  | 0x0F | 0x2F | 0x4E | 0x4F | 0x5F | 0x6F | 0x7A | 0x7B | 0x7C | 0x7D | 0x7E | 0x7F => none
  | _ => some 4

/-- Group 0x00, control and system (R65). -/
def decodeControl (op : Nat) (tail : Word) : Option Instr :=
  let f2 : BitVec 16 := tail.setWidth 16
  let f4 := readF4 (tail.setWidth 32)
  let f6 := readF6 (tail.setWidth 48)
  match op with
  | 0x00 => some .nop
  | 0x01 => some (.br (readTarget (tail.setWidth 32)))
  | 0x02 => keep (f6.a = 0 && f6.x = 0) (.call f6.d (readTarget f6.imm))
  | 0x03 => keep (xf f2 0 9 = 0) (.jr (xf f2 9 7))
  | 0x04 => keep (f4.b = 0 && f4.x = 0) (.jalr f4.d f4.a)
  | 0x05 => (ofLevel f6.x).bind fun l => keep (f6.a = 0) (.loop f6.d l (readTarget f6.imm))
  | 0x06 => some (.trap f2)
  | 0x07 => some .eret
  | 0x08 => keep (f4.a = 0 && f4.b = 0) (.mfs f4.d f4.x)
  | 0x09 => keep (f4.d = 0 && f4.b = 0) (.mts f4.a f4.x)
  | 0x0A => keep (xf f2 9 7 = 0) (.gsel (xf f2 6 3) (xf f2 3 3) (xf f2 0 3))
  | 0x0B => some .exit
  | 0x0C => some (.step f2)
  | 0x0D =>
    (ofScope (xf f2 12 4)).bind fun sc => (ofFenceKind (xf f2 8 4)).bind fun k => keep (xf f2 0 8 = 0) (.fence sc k)
  | 0x0E =>
    if f4.d = 0 ∧ xf f4.x 4 7 = 0 then
      match (xf f4.x 0 4).toNat with
      | 0 => keep (f4.b = 0) (.sysRplan f4.a)
      | 1 => keep (f4.a = 0 && f4.b = 0) .sysMapver
      | 2 => some (.sysRepadd f4.a f4.b)
      | 3 => some (.sysRepdel f4.a f4.b)
      | 4 => some (.sysPath f4.a f4.b)
      | _ => none
    else none
  | _ => none

/-- Group 0x10, integer (R66). -/
def decodeInteger (op : Nat) (tail : Word) : Option Instr :=
  let f4 := readF4 (tail.setWidth 32)
  let f6 := readF6 (tail.setWidth 48)
  let f8 := readF8 tail
  match op with
  | 0x10 => (ofWidth (xf f4.x 0 2)).bind fun w => keep (xf f4.x 2 9 = 0) (.add f4.d f4.a f4.b w)
  | 0x11 => (ofWidth (xf f4.x 0 2)).bind fun w => keep (xf f4.x 2 9 = 0) (.sub f4.d f4.a f4.b w)
  | 0x12 => (ofWidth f6.x).bind fun w => some (.addi f6.d f6.a w f6.imm)
  | 0x13 =>
    (ofWidth (xf f4.x 2 2)).bind fun w =>
      match (xf f4.x 0 2).toNat with
      | 0 => keep (xf f4.x 4 7 = 0) (.mul f4.d f4.a f4.b (.lo w))
      | 1 => keep (xf f4.x 2 9 = 0) (.mul f4.d f4.a f4.b .hs)
      | 2 => keep (xf f4.x 2 9 = 0) (.mul f4.d f4.a f4.b .hn)
      | _ => none
  | 0x14 => (ofWidth (xf f4.x 0 2)).bind fun w => keep (xf f4.x 3 8 = 0) (.div f4.d f4.a f4.b (flag f4.x 2) w)
  | 0x15 => (ofWidth (xf f4.x 0 2)).bind fun w => keep (xf f4.x 3 8 = 0) (.rem f4.d f4.a f4.b (flag f4.x 2) w)
  | 0x16 => (ofLogicOp (xf f4.x 0 3)).bind fun o => keep (xf f4.x 3 8 = 0) (.logic f4.d f4.a f4.b o)
  | 0x17 => (ofLogiOp f6.x).bind fun o => some (.logi f6.d f6.a o f6.imm)
  | 0x18 =>
    (ofShiftOp (xf f4.x 0 3)).bind fun o => keep (xf f4.x 4 7 = 0) (.shift f4.d f4.a f4.b o (flag f4.x 3))
  | 0x19 =>
    (ofShiftOp (xf f4.x 0 3)).bind fun o => keep (xf f4.x 4 7 = 0) (.shifti f4.d f4.a f4.b o (flag f4.x 3))
  | 0x1A => (ofLiKind f6.x).bind fun k => keep (f6.a = 0) (.li f6.d k f6.imm)
  | 0x1B => (ofMinMax (xf f4.x 0 2)).bind fun o => keep (xf f4.x 2 9 = 0) (.mnx f4.d f4.a f4.b o)
  | 0x1C => keep (f8.c = 0) (.lea f8.d f8.a f8.b (xf f8.x 0 2) (xf f8.x 2 34))
  | 0x1D => (ofBitsOp (xf f4.x 0 3)).bind fun o => keep (f4.b = 0 && xf f4.x 3 8 = 0) (.bits f4.d f4.a o)
  | 0x1E => keep (f8.x = 0) (.sel f8.d f8.a f8.b f8.c)
  | 0x1F => (ofWidth (xf f8.x 0 2)).bind fun w => keep (xf f8.x 2 34 = 0) (.madd f8.d f8.a f8.b f8.c w)
  | _ => none

/-- Group 0x20, compare, predicate, bitfield and packed integer (R67). -/
def decodePacked (op : Nat) (tail : Word) : Option Instr :=
  let f2 : BitVec 16 := tail.setWidth 16
  let f4 := readF4 (tail.setWidth 32)
  let f6 := readF6 (tail.setWidth 48)
  let f8 := readF8 tail
  match op with
  | 0x20 =>
    (readPair f4.d).bind fun p => (ofIntCond (xf f4.x 0 4)).bind fun ic => (ofCombine (xf f4.x 4 2)).bind fun cm =>
      keep (xf f4.x 7 4 = 0) (.cmp p f4.a f4.b ic cm (flag f4.x 6))
  | 0x21 =>
    (readPair f8.d).bind fun p => (ofIntCond (xf f8.x 0 4)).bind fun ic => (ofCombine (xf f8.b 0 2)).bind fun cm =>
      keep (xf f8.b 2 5 = 0 && f8.c = 0) (.cmpi p f8.a ic cm (xf f8.x 4 32))
  | 0x22 =>
    (readPair f4.d).bind fun p => (ofFcmpType (xf f4.x 0 3)).bind fun ty => (ofFCond (xf f4.x 3 3)).bind fun cond =>
      (ofCombine (xf f4.x 6 2)).bind fun cm =>
        keep (xf f4.x 9 2 = 0) (.fcmp p f4.a f4.b ty cond cm (flag f4.x 8))
  | 0x23 => some (.pset (xf f2 8 8) (xf f2 0 8))
  | 0x24 =>
    match (xf f4.x 0 2).toNat with
    | 0 => keep (f4.a = 0 && f4.b = 0 && xf f4.x 2 9 = 0) (.pmovPg f4.d)
    | 1 => keep (f4.d = 0 && f4.b = 0 && xf f4.x 10 1 = 0) (.pmovGp f4.a (xf f4.x 2 8))
    | _ => none
  | 0x25 =>
    keep (xf f6.d 3 4 = 0 && f6.a = 0 && f6.x = 0 && xf f6.imm 17 15 = 0)
      (.plog (xf f6.d 0 3) (xf f6.imm 6 3) (xf f6.imm 3 3) (xf f6.imm 0 3) (xf f6.imm 9 8))
  | 0x26 =>
    keep (f8.b = 0 && f8.c = 0 && xf f8.x 13 23 = 0) (.bfx f8.d f8.a (xf f8.x 0 6) (xf f8.x 6 6) (flag f8.x 12))
  | 0x27 => keep (f8.c = 0 && xf f8.x 12 24 = 0) (.bfi f8.d f8.a f8.b (xf f8.x 0 6) (xf f8.x 6 6))
  | 0x28 =>
    (ofLaneType (xf f4.x 0 2)).bind fun vt => (ofSatMode (xf f4.x 2 2)).bind fun m =>
      keep (xf f4.x 4 7 = 0) (.vadd f4.d f4.a f4.b vt m)
  | 0x29 =>
    (ofLaneType (xf f4.x 0 2)).bind fun vt => (ofSatMode (xf f4.x 2 2)).bind fun m =>
      keep (xf f4.x 4 7 = 0) (.vsub f4.d f4.a f4.b vt m)
  | 0x2A =>
    (ofLaneType (xf f4.x 0 2)).bind fun vt => (ofMulHalf (xf f4.x 2 2)).bind fun m =>
      keep (xf f4.x 4 7 = 0) (.vmul f4.d f4.a f4.b vt m)
  | 0x2B =>
    (ofLaneType (xf f4.x 0 2)).bind fun vt => (ofMinMax (xf f4.x 2 2)).bind fun m =>
      keep (xf f4.x 4 7 = 0) (.vmnx f4.d f4.a f4.b vt m)
  | 0x2C =>
    (ofLaneType (xf f4.x 0 2)).bind fun vt => (ofVshfOp (xf f4.x 2 2)).bind fun m =>
      keep (xf f4.x 4 7 = 0) (.vshf f4.d f4.a f4.b vt m)
  | 0x2D =>
    (ofLaneType (xf f4.x 0 2)).bind fun vt => (ofVredOp (xf f4.x 2 3)).bind fun m =>
      keep (f4.b = 0 && xf f4.x 5 6 = 0) (.vred f4.d f4.a vt m)
  | 0x2E =>
    (ofLaneType (xf f4.x 0 2)).bind fun vt => (ofVCond (xf f4.x 2 3)).bind fun m =>
      keep (xf f4.x 5 6 = 0) (.vcmp f4.d f4.a f4.b vt m)
  | _ => none

/-- A float instruction of form F4 whose rm field is free and whose x[10:6] is 0 (R68). -/
def floatF4 (f4 : F4) (k : FT → RM → Option Instr) : Option Instr :=
  (ofFT (xf f4.x 0 3)).bind fun ft => (ofRM (xf f4.x 3 3)).bind fun rm => k ft rm

/-- Group 0x30, floating point (R68). -/
def decodeFloat (op : Nat) (tail : Word) : Option Instr :=
  let f4 := readF4 (tail.setWidth 32)
  let f8 := readF8 tail
  match op with
  | 0x30 => floatF4 f4 fun ft rm => keep (xf f4.x 6 5 = 0) (.fadd f4.d f4.a f4.b ft rm)
  | 0x31 => floatF4 f4 fun ft rm => keep (xf f4.x 6 5 = 0) (.fsub f4.d f4.a f4.b ft rm)
  | 0x32 => floatF4 f4 fun ft rm => keep (xf f4.x 6 5 = 0) (.fmul f4.d f4.a f4.b ft rm)
  | 0x33 =>
    (ofFT (xf f8.x 0 3)).bind fun ft => (ofRM (xf f8.x 3 3)).bind fun rm =>
      keep (xf f8.x 8 28 = 0) (.fma f8.d f8.a f8.b f8.c ft rm (flag f8.x 6) (flag f8.x 7))
  | 0x34 => floatF4 f4 fun ft rm => keep (xf f4.x 6 5 = 0) (.fdiv f4.d f4.a f4.b ft rm)
  | 0x35 => floatF4 f4 fun ft rm => keep (f4.b = 0 && xf f4.x 6 5 = 0) (.fsqrt f4.d f4.a ft rm)
  | 0x36 =>
    (ofFT (xf f4.x 0 3)).bind fun ft => (ofFmnxOp (xf f4.x 6 2)).bind fun o =>
      keep (xf f4.x 3 3 = 0 && xf f4.x 8 3 = 0) (.fmnx f4.d f4.a f4.b ft o)
  | 0x37 => (ofFT (xf f4.x 0 3)).bind fun ft => keep (f4.b = 0 && xf f4.x 3 8 = 0) (.fexp2 f4.d f4.a ft)
  | 0x38 => (ofFT (xf f4.x 0 3)).bind fun ft => keep (f4.b = 0 && xf f4.x 3 8 = 0) (.flog2 f4.d f4.a ft)
  | 0x39 => (ofFT (xf f4.x 0 3)).bind fun ft => keep (f4.b = 0 && xf f4.x 3 8 = 0) (.frcp f4.d f4.a ft)
  | 0x3A => (ofFT (xf f4.x 0 3)).bind fun ft => keep (f4.b = 0 && xf f4.x 3 8 = 0) (.frsq f4.d f4.a ft)
  | 0x3B =>
    floatF4 f4 fun ft rm => (ofFmt (xf f4.x 6 4)).bind fun fmt =>
      keep (f4.b = 0) (.fcvt f4.d f4.a ft rm fmt (flag f4.x 10))
  | 0x3C =>
    floatF4 f4 fun ft rm => (ofIntWidth (xf f4.x 6 2)).bind fun iw =>
      keep (f4.b = 0 && xf f4.x 10 1 = 0) (.icvt f4.d f4.a ft rm iw (flag f4.x 8) (flag f4.x 9))
  | 0x3D =>
    (ofFT (xf f4.x 0 3)).bind fun ft => (ofFsgnOp (xf f4.x 6 2)).bind fun o =>
      keep (xf f4.x 3 3 = 0 && xf f4.x 8 3 = 0) (.fsgn f4.d f4.a f4.b ft o)
  | 0x3E => (ofFT (xf f4.x 0 3)).bind fun ft => keep (f4.b = 0 && xf f4.x 3 8 = 0) (.fclass f4.d f4.a ft)
  | 0x3F =>
    (ofFT (xf f8.x 0 3)).bind fun ft => (ofRM (xf f8.x 3 3)).bind fun rm =>
      keep (xf f8.x 6 30 = 0) (.fdot f8.d f8.a f8.b f8.c ft rm)
  | _ => none

/-- Group 0x40, memory (R69). -/
def decodeMemory (op : Nat) (tail : Word) : Option Instr :=
  let f4 := readF4 (tail.setWidth 32)
  let f8 := readF8 tail
  match op with
  | 0x40 => (readMx f8.x).bind fun m => keep (f8.c = 0) (.ld f8.d f8.a f8.b m)
  | 0x41 => (readMx f8.x).bind fun m => keep (f8.d = 0) (.st f8.a f8.b f8.c m)
  | 0x42 => (readMxFe f8.x false).bind fun m => keep (f8.c = 0) (.ldf f8.d f8.a f8.b m)
  | 0x43 => (readMxFe f8.x false).bind fun m => keep (f8.c = 0) (.lde f8.d f8.a f8.b m)
  | 0x44 => (readMxFe f8.x (flag f8.x 2)).bind fun m => keep (f8.d = 0) (.stf f8.a f8.b f8.c (flag f8.x 2) m)
  | 0x45 => keep (f4.d = 0 && f4.b = 0) (.fem f4.a (flag f4.x 0) (xf f4.x 1 10))
  | 0x46 =>
    (ofOrd (xf f8.x 3 2)).bind fun ord => (ofAtomOp (xf f8.x 8 4)).bind fun ao =>
      keep (xf f8.x 1 1 = 1 && xf f8.x 2 1 = 0 && xf f8.x 7 1 = 0)
        (.atom f8.d f8.a f8.b f8.c (flag f8.x 0) ord (xf f8.x 5 2) ao (xf f8.x 12 24))
  | 0x47 => keep (f8.c = 0 && xf f8.x 0 8 = 0) (.tld f8.d f8.a f8.b (xf f8.x 8 28))
  | 0x48 => keep (f8.c = 0 && xf f8.x 0 8 = 0) (.tst f8.d f8.a f8.b (xf f8.x 8 28))
  | 0x49 =>
    (ofOrd (xf f8.x 4 2)).bind fun ord =>
      keep (f8.b = 0 && f8.c = 0 && xf f8.x 6 2 = 0) (.ldm f8.d f8.a (xf f8.x 0 4) ord (xf f8.x 8 28))
  | 0x4A =>
    (ofOrd (xf f8.x 4 2)).bind fun ord =>
      keep (f8.d = 0 && f8.b = 0 && xf f8.x 6 2 = 0) (.stm f8.a f8.c (xf f8.x 0 4) ord (xf f8.x 8 28))
  | 0x4B =>
    if f4.d = 0 ∧ f4.b = 0 ∧ xf f4.x 3 8 = 0 then
      match (xf f4.x 0 3).toNat with
      | 0 => some (.linePref f4.a)
      | 1 => some (.lineZero f4.a)
      | 2 => some (.lineFlush f4.a)
      | 3 => some (.lineDrop f4.a)
      | 4 => some (.lineIinv f4.a)
      | _ => none
    else none
  | 0x4C =>
    keep (xf f8.d 3 4 = 0 && f8.c = 0 && xf f8.x 2 34 = 0)
      (.mprot (xf f8.d 0 3) f8.a f8.b (flag f8.x 0) (flag f8.x 1))
  | 0x4D =>
    if f4.b = 0 ∧ xf f4.x 2 9 = 0 then
      match (xf f4.x 0 2).toNat with
      | 0 => some (.xlatProbe f4.d f4.a)
      | 1 => some (.xlatInv f4.d f4.a)
      | 2 => some (.xlatInvall f4.d f4.a)
      | _ => none
    else none
  | _ => none

/-- Group 0x50, threads, migration, messages and barriers (R70). -/
def decodeThreads (op : Nat) (tail : Word) : Option Instr :=
  let f4 := readF4 (tail.setWidth 32)
  let f6 := readF6 (tail.setWidth 48)
  let f8 := readF8 tail
  match op with
  | 0x50 =>
    (readPair f8.c).bind fun p => (ofPlace (xf f8.x 34 2)).bind fun place =>
      some (.spawn f8.d f8.a f8.b p ⟨xf f8.x 0 5, xf f8.x 5 22, xf f8.x 27 4, xf f8.x 31 3, place⟩)
  | 0x51 => some .yield
  | 0x52 => keep (f4.d = 0 && f4.b = 0 && f4.x = 0) (.park f4.a)
  | 0x53 => keep (f4.d = 0 && f4.b = 0 && f4.x = 0) (.wake f4.a)
  | 0x54 =>
    if f4.d = 0 ∧ xf f4.x 1 10 = 0 then
      (if flag f4.x 0 then some (.shipSeg f4.a f4.b) else some (.shipCore f4.a f4.b))
    else none
  | 0x55 => keep (f4.d = 0 && f4.x = 0) (.cargo f4.a f4.b)
  | 0x56 => (ofSegqOp (xf f4.x 0 2)).bind fun o => keep (f4.b = 0 && xf f4.x 2 9 = 0) (.segq f4.d f4.a o)
  | 0x57 => keep (xf f8.x 16 20 = 0) (.send f8.d f8.a f8.b f8.c (xf f8.x 0 16))
  | 0x58 =>
    keep (xf f8.x 18 18 = 0) (.recv f8.d f8.a f8.b f8.c (xf f8.x 0 16) (flag f8.x 16) (flag f8.x 17))
  | 0x59 => keep (xf f4.x 2 9 = 0) (.probe f4.d f4.a f4.b (flag f4.x 0) (flag f4.x 1))
  | 0x5A => (ofScope (xf f4.x 0 4)).bind fun sc => keep (f4.b = 0 && xf f4.x 4 7 = 0) (.barr f4.d f4.a sc)
  | 0x5B => (ofScope (xf f4.x 0 4)).bind fun sc => keep (f4.d = 0 && xf f4.x 4 7 = 0) (.barw f4.a f4.b sc)
  | 0x5C =>
    (ofScope (xf f6.imm 28 4)).bind fun sc =>
      keep (f6.d = 0 && f6.x = 0 && xf f6.imm 24 4 = 0) (.barc f6.a (xf f6.imm 0 24) sc)
  | 0x5D => keep (f4.d = 0 && f4.b = 0 && f4.x = 0) (.kill f4.a)
  | 0x5E =>
    if f4.b = 0 ∧ xf f4.x 3 8 = 0 then
      match (xf f4.x 0 3).toNat with
      | 0 => some (.ctxQuery f4.d f4.a)
      | 1 => some (.ctxEvict f4.d f4.a)
      | 2 => some (.ctxReseat f4.d f4.a)
      | _ => none
    else none
  | _ => none

/-- Group 0x60, matrix, epilogue, top-k and plan (R71). -/
def decodeMatrix (op : Nat) (tail : Word) : Option Instr :=
  let f4 := readF4 (tail.setWidth 32)
  let f8 := readF8 tail
  match op with
  | 0x60 =>
    (ofFmt ((xf f8.x 0 3).setWidth 4)).bind fun fmt =>
      some (.mma f8.d f8.a f8.b f8.c
        ⟨fmt, xf f8.x 3 8, xf f8.x 11 4, xf f8.x 15 4, flag f8.x 19, flag f8.x 20, xf f8.x 21 15⟩)
  | 0x61 =>
    if f4.d = 0 ∧ f4.b = 0 ∧ xf f4.x 2 9 = 0 then
      match (xf f4.x 0 2).toNat with
      | 0 => some (.mmrLoad f4.a)
      | 1 => keep (f4.a = 0) .mmrPass
      | 2 => keep (f4.a = 0) .mmrTake
      | _ => none
    else none
  | 0x62 => keep (f4.a = 0 && f4.b = 0 && f4.x = 0) (.tzero f4.d)
  | 0x63 =>
    (ofTsclMode (xf f8.x 0 2)).bind fun m =>
      keep (xf f8.x 3 33 = 0) (.tscl f8.d f8.a f8.b f8.c m (flag f8.x 2))
  | 0x64 => (ofTactOp (xf f4.x 0 3)).bind fun o => keep (xf f4.x 3 8 = 0) (.tact f4.d f4.a f4.b o)
  | 0x65 =>
    (readPair f8.d).bind fun p => (ofFmt ((xf f8.x 0 3).setWidth 4)).bind fun fmt =>
      keep (xf f8.x 20 16 = 0) (.tcvt p f8.a f8.b f8.c fmt (flag f8.x 3) (xf f8.x 4 16))
  | 0x66 =>
    (ofTredOp (xf f4.x 1 2)).bind fun o => keep (f4.d = 0 && xf f4.x 3 8 = 0) (.tred f4.a f4.b (flag f4.x 0) o)
  | 0x67 =>
    keep (f8.c = 0 && xf f8.x 14 22 = 0)
      (.topk f8.d f8.a f8.b ⟨xf f8.x 0 3, xf f8.x 3 5, xf f8.x 8 5, flag f8.x 13⟩)
  | 0x68 => keep (f8.b = 0 && f8.c = 0 && xf f8.x 5 31 = 0) (.tkrd f8.d f8.a (xf f8.x 0 4) (flag f8.x 4))
  | 0x69 => keep (xf f8.x 12 24 = 0) (.plan f8.d f8.a f8.b f8.c (xf f8.x 0 6) (xf f8.x 6 6))
  | 0x6A => (readPair f8.c).bind fun p => keep (xf f8.x 7 29 = 0) (.bal f8.d f8.a f8.b p (xf f8.x 0 7))
  | 0x6B => keep (f8.d = 0 && f8.b = 0 && f8.c = 0 && xf f8.x 7 29 = 0) (.plnx f8.a (xf f8.x 0 7))
  | 0x6C => keep (f8.a = 0 && f8.c = 0 && xf f8.x 7 29 = 0) (.plnd f8.d f8.b (xf f8.x 0 7))
  | 0x6D => keep (f4.a = 0 && xf f4.x 1 10 = 0) (.tstat f4.d f4.b (flag f4.x 0))
  | 0x6E => (ofTringOp (xf f4.x 0 2)).bind fun o => keep (f4.d = 0 && f4.b = 0 && xf f4.x 2 9 = 0) (.tring o f4.a)
  | _ => none

/-- Group 0x70, engines, light and stroke (R72). -/
def decodeEngines (op : Nat) (tail : Word) : Option Instr :=
  let f4 := readF4 (tail.setWidth 32)
  let f6 := readF6 (tail.setWidth 48)
  let f8 := readF8 tail
  match op with
  | 0x70 => keep (xf f8.x 1 35 = 0) (.copy f8.d f8.a f8.b f8.c (flag f8.x 0))
  | 0x71 =>
    (ofCopyrOp (xf f8.x 0 2)).bind fun o =>
      keep (xf f8.x 19 17 = 0) (.copyr f8.d f8.a f8.b f8.c o (flag f8.x 2) (xf f8.x 3 16))
  | 0x72 =>
    (ofAtomOp (xf f8.x 0 4)).bind fun ao => (ofOrd (xf f8.x 4 2)).bind fun ord =>
      keep (xf f8.x 7 29 = 0) (.ratom f8.d f8.a f8.b f8.c ao ord (flag f8.x 6))
  | 0x73 =>
    (ofSize (xf f8.x 1 2)).bind fun size =>
      keep (xf f8.x 20 16 = 0) (.gath f8.d f8.a f8.b f8.c (flag f8.x 0) size (flag f8.x 3) (xf f8.x 4 16))
  | 0x74 => keep (f8.c = 0 && xf f8.x 3 33 = 0) (.lgrant f8.d f8.a f8.b (xf f8.x 0 3))
  | 0x75 => keep (f4.b = 0 && xf f4.x 1 10 = 0) (.lstat f4.d f4.a (flag f4.x 0))
  | 0x76 => keep (f8.c = 0 && xf f8.x 7 29 = 0) (.circ f8.d f8.a f8.b (xf f8.x 0 6) (flag f8.x 6))
  | 0x77 => keep (xf f8.x 21 15 = 0) (.mcast f8.d f8.a f8.b f8.c (flag f8.x 0) (xf f8.x 1 20))
  | 0x78 =>
    keep (f6.d = 0 && f6.a = 0 && f6.x = 0 && xf f6.imm 25 7 = 0)
      (.strk (xf f6.imm 0 8) (xf f6.imm 8 3) (xf f6.imm 11 7) (xf f6.imm 18 7))
  | 0x79 =>
    if f4.d = 0 ∧ f4.b = 0 ∧ xf f4.x 4 7 = 0 then
      let size : BitVec 3 := xf f4.x 0 3
      some (if !flag f4.x 3 then .ringJoin f4.a size else if size = 0 then .ringDissolve f4.a else .ringDissolveSized f4.a size)
    else none
  | _ => none

/-- The instruction of an opcode and its tail, zero-extended to 64 bits; nothing where a field holds a reserved value (R62 check
3) or the opcode is reserved (R73). -/
def decodeInstr (op : BitVec 7) (tail : Word) : Option Instr :=
  let n := op.toNat
  let i :=
    if n < 0x10 then decodeControl n tail
    else if n < 0x20 then decodeInteger n tail
    else if n < 0x30 then decodePacked n tail
    else if n < 0x40 then decodeFloat n tail
    else if n < 0x50 then decodeMemory n tail
    else if n < 0x60 then decodeThreads n tail
    else if n < 0x70 then decodeMatrix n tail
    else decodeEngines n tail
  i.bind fun i => keep i.wellFormed i

/-! ### Lines (R55 to R57) -/

/-- Byte n of a line, 0 beyond it. -/
def lineByte (line : List Byte) (n : Nat) : Byte := line.getD n 0

/-- The little-endian value of n bytes from a place in a line (R55, R56). -/
def lineLE (line : List Byte) (at_ : Nat) : Nat → Nat
  | 0 => 0
  | n + 1 => (lineByte line at_).toNat + 256 * lineLE line (at_ + 1) n

/-- Head h of a line (R55). -/
def lineHead (line : List Byte) (h : Nat) : BitVec 16 := BitVec.ofNat 16 (lineLE line (2 * h) 2)

/-- The opcode of a head, bits [14:8] (R55). -/
def headOp (head : BitVec 16) : BitVec 7 := xf head 8 7

/-- The L bit of a head (R55). -/
def headLast (head : BitVec 16) : Bool := head.getLsbD 15

/-- The guard truth table of a head, bits [7:0] (R55). -/
def headTT (head : BitVec 16) : BitVec 8 := xf head 0 8

/-- What stands at a head index of a line (R57, R58). -/
inductive HeadRead where
  /-- a well-formed head with its tail -/
  | found (head : BitVec 16) (tail : Word)
  /-- the first head that is not well formed -/
  | malformed (head : BitVec 16)
  /-- a place beyond the line's heads, or beyond the first that is not well formed -/
  | absent
  deriving DecidableEq, Repr

/-- The walk over the heads of a line from head h on, with s bytes of tails before it, to the wanted head (R57). -/
def walkLine (line : List Byte) (want : Nat) : Nat → Nat → Nat → HeadRead
  | 0, _, _ => .absent
  | fuel + 1, h, s =>
    let head := lineHead line h
    match tailLen (headOp head) with
    | none => if h = want then .malformed head else .absent
    | some n =>
      if 2 * h + 2 + (s + n) > 64 ∨ (h = 31 ∧ ¬ headLast head) then
        (if h = want then .malformed head else .absent)
      else if h = want then .found head (BitVec.ofNat 64 (lineLE line (64 - (s + n)) n))
      else if headLast head then .absent
      else walkLine line want fuel (h + 1) (s + n)

/-- Head h of a line (R57). -/
def readHead (line : List Byte) (h : Nat) : HeadRead := walkLine line h 32 0 0

/-! ### The encoder -/

/-- An instruction with no tail. -/
def enc0 (op : BitVec 7) : Option (BitVec 7 × Word) := some (op, 0)

/-- An instruction with a 16-bit tail. -/
def enc2 (op : BitVec 7) (t : BitVec 16) : Option (BitVec 7 × Word) := some (op, t.setWidth 64)

/-- An instruction whose tail is a target. -/
def enc4T (op : BitVec 7) (t : Target) : Option (BitVec 7 × Word) := some (op, (wordTarget t).setWidth 64)

/-- An instruction of form F4. -/
def enc4 (op : BitVec 7) (d a b : Reg) (x : BitVec 11) : Option (BitVec 7 × Word) :=
  some (op, (wordF4 ⟨d, a, b, x⟩).setWidth 64)

/-- An instruction of form F6. -/
def enc6 (op : BitVec 7) (d a : Reg) (x : BitVec 2) (imm : BitVec 32) : Option (BitVec 7 × Word) :=
  some (op, (wordF6 ⟨d, a, x, imm⟩).setWidth 64)

/-- An instruction of form F8. -/
def enc8 (op : BitVec 7) (d a b c : Reg) (x : BitVec 36) : Option (BitVec 7 × Word) :=
  some (op, wordF8 ⟨d, a, b, c, x⟩)

/-- The field x[3:0] of mul: half in [1:0], width in [3:2] (R66). -/
def codeMulKind : MulKind → BitVec 4
  | .lo w => codeWidth w ++ (0 : BitVec 2)
  | .hs => 1
  | .hn => 2

/-- The opcode and the tail of an instruction (R65 to R72); nothing for an event, which no word encodes. -/
def encode : Instr → Option (BitVec 7 × Word)
  | .nop => enc0 0x00
  | .br t => enc4T 0x01 t
  | .call d t => enc6 0x02 d 0 0 (wordTarget t)
  | .jr a => enc2 0x03 (a ++ (0 : BitVec 9))
  | .jalr d a => enc4 0x04 d a 0 0
  | .loop d l t => enc6 0x05 d 0 (codeLevel l) (wordTarget t)
  | .trap imm => enc2 0x06 imm
  | .eret => enc0 0x07
  | .mfs d n => enc4 0x08 d 0 0 n
  | .mts a n => enc4 0x09 0 a 0 n
  | .gsel a b c => enc2 0x0A ((0 : BitVec 7) ++ a ++ b ++ c)
  | .exit => enc0 0x0B
  | .step id => enc2 0x0C id
  | .fence sc k => enc2 0x0D (codeScope sc ++ codeFenceKind k ++ (0 : BitVec 8))
  | .sysRplan a => enc4 0x0E 0 a 0 0
  | .sysMapver => enc4 0x0E 0 0 0 1
  | .sysRepadd a b => enc4 0x0E 0 a b 2
  | .sysRepdel a b => enc4 0x0E 0 a b 3
  | .sysPath a b => enc4 0x0E 0 a b 4
  | .add d a b w => enc4 0x10 d a b ((0 : BitVec 9) ++ codeWidth w)
  | .sub d a b w => enc4 0x11 d a b ((0 : BitVec 9) ++ codeWidth w)
  | .addi d a w imm => enc6 0x12 d a (codeWidth w) imm
  | .mul d a b k => enc4 0x13 d a b ((0 : BitVec 7) ++ codeMulKind k)
  | .div d a b s w => enc4 0x14 d a b ((0 : BitVec 8) ++ bit1 s ++ codeWidth w)
  | .rem d a b s w => enc4 0x15 d a b ((0 : BitVec 8) ++ bit1 s ++ codeWidth w)
  | .logic d a b o => enc4 0x16 d a b ((0 : BitVec 8) ++ codeLogicOp o)
  | .logi d a o imm => enc6 0x17 d a (codeLogiOp o) imm
  | .shift d a b o w32 => enc4 0x18 d a b ((0 : BitVec 7) ++ bit1 w32 ++ codeShiftOp o)
  | .shifti d a amt o w32 => enc4 0x19 d a amt ((0 : BitVec 7) ++ bit1 w32 ++ codeShiftOp o)
  | .li d k imm => enc6 0x1A d 0 (codeLiKind k) imm
  | .mnx d a b o => enc4 0x1B d a b ((0 : BitVec 9) ++ codeMinMax o)
  | .lea d a b s disp => enc8 0x1C d a b 0 (disp ++ s)
  | .bits d a o => enc4 0x1D d a 0 ((0 : BitVec 8) ++ codeBitsOp o)
  | .sel d a b c => enc8 0x1E d a b c 0
  | .madd d a b c w => enc8 0x1F d a b c ((0 : BitVec 34) ++ codeWidth w)
  | .cmp p a b ic cm w32 => enc4 0x20 (wordPair p) a b ((0 : BitVec 4) ++ bit1 w32 ++ codeCombine cm ++ codeIntCond ic)
  | .cmpi p a ic cm imm => enc8 0x21 (wordPair p) a ((0 : BitVec 5) ++ codeCombine cm) 0 (imm ++ codeIntCond ic)
  | .fcmp p a b ty cond cm sig =>
    enc4 0x22 (wordPair p) a b
      ((0 : BitVec 2) ++ bit1 sig ++ codeCombine cm ++ codeFCond cond ++ codeFcmpType ty)
  | .pset v m => enc2 0x23 (v ++ m)
  | .pmovPg d => enc4 0x24 d 0 0 0
  | .pmovGp a m => enc4 0x24 0 a 0 ((0 : BitVec 1) ++ m ++ (1 : BitVec 2))
  | .plog pd pa pb pc table =>
    enc6 0x25 ((0 : BitVec 4) ++ pd) 0 0 ((0 : BitVec 15) ++ table ++ pa ++ pb ++ pc)
  | .bfx d a pos len1 sx => enc8 0x26 d a 0 0 ((0 : BitVec 23) ++ bit1 sx ++ len1 ++ pos)
  | .bfi d a b pos len1 => enc8 0x27 d a b 0 ((0 : BitVec 24) ++ len1 ++ pos)
  | .vadd d a b vt m => enc4 0x28 d a b ((0 : BitVec 7) ++ codeSatMode m ++ codeLaneType vt)
  | .vsub d a b vt m => enc4 0x29 d a b ((0 : BitVec 7) ++ codeSatMode m ++ codeLaneType vt)
  | .vmul d a b vt m => enc4 0x2A d a b ((0 : BitVec 7) ++ codeMulHalf m ++ codeLaneType vt)
  | .vmnx d a b vt m => enc4 0x2B d a b ((0 : BitVec 7) ++ codeMinMax m ++ codeLaneType vt)
  | .vshf d a b vt m => enc4 0x2C d a b ((0 : BitVec 7) ++ codeVshfOp m ++ codeLaneType vt)
  | .vred d a vt m => enc4 0x2D d a 0 ((0 : BitVec 6) ++ codeVredOp m ++ codeLaneType vt)
  | .vcmp d a b vt m => enc4 0x2E d a b ((0 : BitVec 6) ++ codeVCond m ++ codeLaneType vt)
  | .fadd d a b ft rm => enc4 0x30 d a b ((0 : BitVec 5) ++ codeRM rm ++ codeFT ft)
  | .fsub d a b ft rm => enc4 0x31 d a b ((0 : BitVec 5) ++ codeRM rm ++ codeFT ft)
  | .fmul d a b ft rm => enc4 0x32 d a b ((0 : BitVec 5) ++ codeRM rm ++ codeFT ft)
  | .fma d a b c ft rm np nc =>
    enc8 0x33 d a b c ((0 : BitVec 28) ++ bit1 nc ++ bit1 np ++ codeRM rm ++ codeFT ft)
  | .fdiv d a b ft rm => enc4 0x34 d a b ((0 : BitVec 5) ++ codeRM rm ++ codeFT ft)
  | .fsqrt d a ft rm => enc4 0x35 d a 0 ((0 : BitVec 5) ++ codeRM rm ++ codeFT ft)
  | .fmnx d a b ft o => enc4 0x36 d a b ((0 : BitVec 3) ++ codeFmnxOp o ++ (0 : BitVec 3) ++ codeFT ft)
  | .fexp2 d a ft => enc4 0x37 d a 0 ((0 : BitVec 8) ++ codeFT ft)
  | .flog2 d a ft => enc4 0x38 d a 0 ((0 : BitVec 8) ++ codeFT ft)
  | .frcp d a ft => enc4 0x39 d a 0 ((0 : BitVec 8) ++ codeFT ft)
  | .frsq d a ft => enc4 0x3A d a 0 ((0 : BitVec 8) ++ codeFT ft)
  | .fcvt d a ft rm fmt from_ => enc4 0x3B d a 0 (bit1 from_ ++ codeFmt fmt ++ codeRM rm ++ codeFT ft)
  | .icvt d a ft rm iw sg toInt =>
    enc4 0x3C d a 0 ((0 : BitVec 1) ++ bit1 toInt ++ bit1 sg ++ codeIntWidth iw ++ codeRM rm ++ codeFT ft)
  | .fsgn d a b ft o => enc4 0x3D d a b ((0 : BitVec 3) ++ codeFsgnOp o ++ (0 : BitVec 3) ++ codeFT ft)
  | .fclass d a ft => enc4 0x3E d a 0 ((0 : BitVec 8) ++ codeFT ft)
  | .fdot d a b c ft rm => enc8 0x3F d a b c ((0 : BitVec 30) ++ codeRM rm ++ codeFT ft)
  | .ld d a b x => enc8 0x40 d a b 0 (wordMx x)
  | .st a b c x => enc8 0x41 0 a b c (wordMx x)
  | .ldf d a b x => enc8 0x42 d a b 0 (wordMxFe x false)
  | .lde d a b x => enc8 0x43 d a b 0 (wordMxFe x false)
  | .stf a b c we x => enc8 0x44 0 a b c (wordMxFe x we)
  | .fem a full count1 => enc4 0x45 0 a 0 (count1 ++ bit1 full)
  | .atom d a b c eight ord sh ao disp =>
    enc8 0x46 d a b c (disp ++ codeAtomOp ao ++ (0 : BitVec 1) ++ sh ++ codeOrd ord ++ (1 : BitVec 2) ++ bit1 eight)
  | .tld t a b disp => enc8 0x47 t a b 0 (disp ++ (0 : BitVec 8))
  | .tst t a b disp => enc8 0x48 t a b 0 (disp ++ (0 : BitVec 8))
  | .ldm d a count1 ord disp => enc8 0x49 d a 0 0 (disp ++ (0 : BitVec 2) ++ codeOrd ord ++ count1)
  | .stm a c count1 ord disp => enc8 0x4A 0 a 0 c (disp ++ (0 : BitVec 2) ++ codeOrd ord ++ count1)
  | .linePref a => enc4 0x4B 0 a 0 0
  | .lineZero a => enc4 0x4B 0 a 0 1
  | .lineFlush a => enc4 0x4B 0 a 0 2
  | .lineDrop a => enc4 0x4B 0 a 0 3
  | .lineIinv a => enc4 0x4B 0 a 0 4
  | .mprot win a b r w => enc8 0x4C ((0 : BitVec 4) ++ win) a b 0 ((0 : BitVec 34) ++ bit1 w ++ bit1 r)
  | .xlatProbe d a => enc4 0x4D d a 0 0
  | .xlatInv d a => enc4 0x4D d a 0 1
  | .xlatInvall d a => enc4 0x4D d a 0 2
  | .spawn d a tiles p x =>
    enc8 0x50 d a tiles (wordPair p) (codePlace x.place ++ x.prio ++ x.win ++ x.delta ++ x.head)
  | .yield => enc0 0x51
  | .park a => enc4 0x52 0 a 0 0
  | .wake a => enc4 0x53 0 a 0 0
  | .shipCore a b => enc4 0x54 0 a b 0
  | .shipSeg a b => enc4 0x54 0 a b 1
  | .cargo a b => enc4 0x55 0 a b 0
  | .segq d a o => enc4 0x56 d a 0 ((0 : BitVec 9) ++ codeSegqOp o)
  | .send d a b c tag => enc8 0x57 d a b c ((0 : BitVec 20) ++ tag)
  | .recv d a b c tag anyTag anySrc => enc8 0x58 d a b c ((0 : BitVec 18) ++ bit1 anySrc ++ bit1 anyTag ++ tag)
  | .probe d a b anyTag anySrc => enc4 0x59 d a b ((0 : BitVec 9) ++ bit1 anySrc ++ bit1 anyTag)
  | .barr d a sc => enc4 0x5A d a 0 ((0 : BitVec 7) ++ codeScope sc)
  | .barw a b sc => enc4 0x5B 0 a b ((0 : BitVec 7) ++ codeScope sc)
  | .barc a count sc => enc6 0x5C 0 a 0 (codeScope sc ++ (0 : BitVec 4) ++ count)
  | .kill a => enc4 0x5D 0 a 0 0
  | .ctxQuery d a => enc4 0x5E d a 0 0
  | .ctxEvict d a => enc4 0x5E d a 0 1
  | .ctxReseat d a => enc4 0x5E d a 0 2
  | .mma t a b c x =>
    enc8 0x60 t a b c (x.stride ++ bit1 x.b32 ++ bit1 x.ow ++ x.n ++ x.m ++ x.k ++ (codeFmt x.fmt).setWidth 3)
  | .mmrLoad a => enc4 0x61 0 a 0 0
  | .mmrPass => enc4 0x61 0 0 0 1
  | .mmrTake => enc4 0x61 0 0 0 2
  | .tzero t => enc4 0x62 t 0 0 0
  | .tscl t a b c m bc => enc8 0x63 t a b c ((0 : BitVec 33) ++ bit1 bc ++ codeTsclMode m)
  | .tact t a b o => enc4 0x64 t a b ((0 : BitVec 8) ++ codeTactOp o)
  | .tcvt p a t c fmt b32 stride =>
    enc8 0x65 (wordPair p) a t c ((0 : BitVec 16) ++ stride ++ bit1 b32 ++ (codeFmt fmt).setWidth 3)
  | .tred a t cols o => enc4 0x66 0 a t ((0 : BitVec 8) ++ codeTredOp o ++ bit1 cols)
  | .topk t a b x => enc8 0x67 t a b 0 ((0 : BitVec 22) ++ bit1 x.new ++ x.lim ++ x.g ++ x.k)
  | .tkrd d a row clr => enc8 0x68 d a 0 0 ((0 : BitVec 31) ++ bit1 clr ++ row)
  | .plan t a b c m1 n1 => enc8 0x69 t a b c ((0 : BitVec 24) ++ n1 ++ m1)
  | .bal d a b p t => enc8 0x6A d a b (wordPair p) ((0 : BitVec 29) ++ t)
  | .plnx a t => enc8 0x6B 0 a 0 0 ((0 : BitVec 29) ++ t)
  | .plnd d cost t => enc8 0x6C d 0 cost 0 ((0 : BitVec 29) ++ t)
  | .tstat d t clr => enc4 0x6D d 0 t ((0 : BitVec 10) ++ bit1 clr)
  | .tring o a => enc4 0x6E 0 a 0 ((0 : BitVec 9) ++ codeTringOp o)
  | .copy d a b c bo => enc8 0x70 d a b c ((0 : BitVec 35) ++ bit1 bo)
  | .copyr d a b c o bo tag => enc8 0x71 d a b c ((0 : BitVec 17) ++ tag ++ bit1 bo ++ codeCopyrOp o)
  | .ratom d a b c ao ord four => enc8 0x72 d a b c ((0 : BitVec 29) ++ bit1 four ++ codeOrd ord ++ codeAtomOp ao)
  | .gath d a b c scat size bo count1 =>
    enc8 0x73 d a b c ((0 : BitVec 16) ++ count1 ++ bit1 bo ++ codeSize size ++ bit1 scat)
  | .lgrant d a b fan => enc8 0x74 d a b 0 ((0 : BitVec 33) ++ fan)
  | .lstat d a peer => enc4 0x75 d a 0 ((0 : BitVec 10) ++ bit1 peer)
  | .circ d a b fibre commit => enc8 0x76 d a b 0 ((0 : BitVec 29) ++ bit1 commit ++ fibre)
  | .mcast d a b c bo len1 => enc8 0x77 d a b c ((0 : BitVec 15) ++ len1 ++ bit1 bo)
  | .strk n1 len1 stride floor => enc6 0x78 0 0 0 ((0 : BitVec 7) ++ floor ++ stride ++ len1 ++ n1)
  | .ringJoin a log2 => enc4 0x79 0 a 0 ((0 : BitVec 8) ++ log2)
  | .ringDissolve a => enc4 0x79 0 a 0 8
  | .ringDissolveSized a log2 => enc4 0x79 0 a 0 ((0 : BitVec 7) ++ bit1 true ++ log2)
  | _ => none

/-- The head of an opcode, an L bit and a truth table (R55). -/
def makeHead (last : Bool) (op : BitVec 7) (tt : BitVec 8) : BitVec 16 := bit1 last ++ op ++ tt

/-- The low n bytes of a number, lowest first. -/
def bytesLE (w : Nat) : Nat → List Byte
  | 0 => []
  | n + 1 => BitVec.ofNat 8 w :: bytesLE (w / 256) n

/-- A line that begins with a head and ends with the n bytes of its tail (R55, R56); the padding is 0x00. -/
def oneHeadLine (head : BitVec 16) (tail n : Nat) : List Byte :=
  bytesLE head.toNat 2 ++ List.replicate (62 - n) 0 ++ bytesLE tail n

/-- The line that holds one instruction, executed whatever the predicates (TT 0xFF); nothing for an event. -/
def encodeLine (i : Instr) : Option (List Byte) :=
  (encode i).bind fun (op, tail) =>
    (tailLen op).map fun n => oneHeadLine (makeHead true op 0xFF) tail.toNat n

/-- The instruction of head h of a line, where one stands there and holds no reserved value. -/
def decodeLine (line : List Byte) (h : Nat) : Option Instr :=
  match readHead line h with
  | .found head tail => decodeInstr (headOp head) tail
  | _ => none

/-- The line of an instruction given as one number w of nbits bits, as spec/opcode_table.json numbers them: the head is the first
16-bit word. A row of 16 bits has its tail, if any, all zeros. -/
def tableLine (nbits w : Nat) : List Byte :=
  let head := BitVec.ofNat 16 (w >>> (nbits - 16))
  oneHeadLine head (w % 2 ^ (nbits - 16)) ((tailLen (headOp head)).getD 0)

/-- The instruction the decoder reads from a word numbered as the opcode table numbers it. -/
def decodeTableWord (nbits w : Nat) : Option Instr := decodeLine (tableLine nbits w) 0

end Sys2Proof
end

