-- ==== Sys2Proof/Config.lean ====
section
/-! DEFINITION. What an implementation of the part fixes and what the spec leaves open: constants with no body, of which no proof
can know a value (log entry 3). -/

namespace Sys2Proof.Config

/-- A value the spec leaves open, a new one for each number (log entry 3). -/
opaque freeValue : Nat → BitVec 64

/-- The set of a slice a line index falls in, taken modulo 128 (R219 gives no index function; log entry 7). -/
opaque sliceSet : Nat → Nat

/-- The context a thread takes among the free ones (R138, R259 say "a free context"; log entry 8). -/
opaque pickContext : List Nat → Nat

/-- The package at the root of a job's pod barriers, its lowest-numbered package, which only the host knows (R240; log entry 9). -/
opaque jobRoot : Nat → Nat

/-- The header bytes of an overflow-queue entry (R152 gives their size and no layout; log entry 10), by entry and byte. -/
opaque overflowHeader : Nat → Nat → BitVec 8

/-- The implementation images of records (R296, R297: "not architectural"; log entry 11), by launch, core or thread, and byte. -/
opaque recordImage : Nat → Nat → Nat → BitVec 8

/-- The link cipher's keystream (R272, R287: AES-256-GCM under keys of a session): by peer, direction (out), key number, item counter and byte
(log entry 12). -/
opaque keystream : Nat → Bool → Nat → Nat → Nat → BitVec 8

/-- The GCM tag of an item's plaintext (R287): by peer, direction (out), key number, item counter and content (log entry 12). -/
opaque gcmTag : Nat → Bool → Nat → Nat → List (BitVec 8) → Nat → BitVec 8

/-- The tag an end sends to confirm a key (R285: a truncated HMAC-SHA-256), by peer, session id, confirmation key, count of circuit-ups and byte (log
entry 12). -/
opaque confirmTag : Nat → Nat → Nat → Nat → Nat → BitVec 8

/-- The ticks a colour retrains for, about 50 us (R275; log entry 97), by fibre and colour. -/
opaque retrainTicks : Nat → Nat → BitVec 32

/-- Whether the root of a job's pod barriers in another package is full at a tick of this part's counter, which only that package knows (R241; log
entry 98). -/
opaque rootFull : Nat → Nat → Bool

/-- The 16 header bytes of an item on a link (R335 gives their number and no layout; log entry 33). -/
opaque itemHeader : Item → Nat → BitVec 8

/-- Whether a firmware image carries a valid signature under the Dambex root key (R320; log entry 12). -/
opaque firmwareSigned : List (BitVec 8) → Bool

/-- The version a firmware image declares (R320; log entry 12). -/
opaque firmwareVersion : List (BitVec 8) → Nat

/-- A new public key in an LMS/HSS identity of a generation (R319; log entry 12), byte by byte. -/
opaque publicKey : Nat → Nat → BitVec 8

/-- Whether the one tie of R44 between two codes with bit 0 = 0, that of 0x08 and 0x16, goes to the greater magnitude (log entry 16). -/
opaque nb8EvenTie : Bool

/-- The host address of the discovery record, held in the part's VCL configuration space (R307, R314; log entry 28). -/
opaque recordAddress : Nat

/-- The signatures, each a leaf, that one exchange with a peer makes (R284 and R286 do not say; log entry 29). -/
opaque exchangeLeaves : BitVec 20

/-- The signatures made by an exchange that fails, with a peer and so many leaves used before it; at most those of a whole exchange are taken (log entry 29). -/
opaque failedLeaves : Nat → Nat → BitVec 20

/-- What a read of a register of the register window that is only written answers, at an offset and a tick (R307 gives it no value; log entry 119). -/
opaque writeOnly : Nat → Nat → BitVec 64

/-- The length of a public key in bytes (R319; log entry 12). -/
opaque publicKeyBytes : Nat

/-- The major version of a firmware version (R307's STATUS names it, R315 gives the version no layout; log entry 12). -/
opaque firmwareMajor : BitVec 64 → BitVec 8

end Sys2Proof.Config
end

