-- ==== Sys2Proof/Machine/Tab.lean ====
section
/-! DEFINITION. Sparse tables, sets of numbers and byte memories as sorted lists: the one shape in which the state holds anything
that is addressed by number. -/

namespace Sys2Proof.Machine

/-- A table from numbers to data, sorted by number, no number twice. -/
abbrev Tab (α : Type) := List (Nat × α)

/-- A set of numbers, strictly rising. -/
abbrev NatSet := List Nat

/-- Byte memory: strictly rising addresses, no entry equal to 0, which every unlisted address reads as (log entry 1). -/
abbrev Memory := List Host.Cell

/-- The entry of key k. -/
def tabGet {α : Type} : Tab α → Nat → Option α
  | [], _ => none
  | (j, v) :: t, k => if k = j then some v else tabGet t k

/-- The entry of key k, or a default. -/
def tabGetD {α : Type} (t : Tab α) (k : Nat) (d : α) : α := (tabGet t k).getD d

/-- The table with entry k set to v. -/
def tabPut {α : Type} : Tab α → Nat → α → Tab α
  | [], k, v => [(k, v)]
  | (j, w) :: t, k, v =>
    if k = j then (k, v) :: t else if k < j then (k, v) :: (j, w) :: t else (j, w) :: tabPut t k v

/-- The table without entry k. -/
def tabDel {α : Type} : Tab α → Nat → Tab α
  | [], _ => []
  | (j, w) :: t, k => if k = j then tabDel t k else (j, w) :: tabDel t k

/-- Whether a number is in a set. -/
def setHas (s : NatSet) (k : Nat) : Bool := s.contains k

/-- The set with k. -/
def setAdd : NatSet → Nat → NatSet
  | [], k => [k]
  | j :: t, k => if k = j then j :: t else if k < j then k :: j :: t else j :: setAdd t k

/-- The set without k. -/
def setDel : NatSet → Nat → NatSet
  | [], _ => []
  | j :: t, k => if k = j then setDel t k else j :: setDel t k

/-- The byte at an address: what is listed, else 0. -/
def Memory.get (m : Memory) (a : Nat) : Byte := tabGetD m a 0

/-- Memory with one byte written; writing 0 removes the entry. -/
def Memory.set (m : Memory) (a : Nat) (b : Byte) : Memory := if b = 0 then tabDel m a else tabPut m a b

/-- n bytes from an address, lowest first. -/
def Memory.bytes (m : Memory) (a : Nat) : Nat → List Byte
  | 0 => []
  | n + 1 => m.get a :: Memory.bytes m (a + 1) n

/-- Memory with bytes written from an address on. -/
def Memory.write (m : Memory) (a : Nat) : List Byte → Memory
  | [] => m
  | b :: bs => Memory.write (m.set a b) (a + 1) bs

/-- Memory with n bytes from an address on set to 0. -/
def Memory.clear (m : Memory) (a n : Nat) : Memory := m.filter fun c => decide (c.1 < a ∨ a + n ≤ c.1)

/-- Keys strictly rising from a bound on. -/
def risingFrom {α : Type} : Nat → Tab α → Bool
  | _, [] => true
  | lo, (j, _) :: t => decide (lo ≤ j) && risingFrom (j + 1) t

/-- The canonical form of a memory. -/
def Memory.wf (m : Memory) : Bool := risingFrom 0 m && m.all fun c => c.2 != 0

/-- The little-endian number of a list of bytes. -/
def leNat : List Byte → Nat
  | [] => 0
  | b :: bs => b.toNat + 256 * leNat bs

/-- The little-endian value of bytes as a word. -/
def leWord (bs : List Byte) : Word := BitVec.ofNat 64 (leNat bs)

/-- The n low bytes of a number, lowest first. -/
def natLE (w : Nat) : Nat → List Byte
  | 0 => []
  | n + 1 => BitVec.ofNat 8 w :: natLE (w / 256) n

/-- The n low bytes of a word, lowest first. -/
def wordLE (w : Word) (n : Nat) : List Byte := natLE w.toNat n

/-- The 8-byte word at an address. -/
def Memory.word (m : Memory) (a : Nat) : Word := leWord (m.bytes a 8)

/-- The place of the first element that satisfies p. -/
def findIx {α : Type} (p : α → Bool) : List α → Option Nat
  | [] => none
  | x :: xs => if p x then some 0 else (findIx p xs).map (· + 1)

/-- The list without its element k. -/
def dropIx {α : Type} (xs : List α) (k : Nat) : List α := xs.eraseIdx k

/-- The list with element k replaced. -/
def setIx {α : Type} (xs : List α) (k : Nat) (x : α) : List α := xs.set k x

/-- The least element of a list of numbers under a key, the first among equals. -/
def argMin (key : Nat → Nat) : List Nat → Option Nat
  | [] => none
  | x :: xs => match argMin key xs with
    | none => some x
    | some y => if key x ≤ key y then some x else some y

end Sys2Proof.Machine
end

