-- ==== Sys2Proof/Machine/State.lean ====
section
/-! DEFINITION. The state of the part: threads, cores, dies, launches, what is in flight between them, light, links and the host's
side, as plain data (spec/02 and the chapters named at each structure), the reasons a step can stop, and the state after reset. -/

namespace Sys2Proof.Machine

/-- Why the machine stops. Both reasons are the model's own, raised where the model is driven outside its interface; neither stands
for anything a program or the host does to the part (log entry 2). -/
inductive Fault where
  /-- raised by step where the agenda names an instruction that is no event; safe: no run of the part has such an agenda -/
  | agendaNotEvent
  /-- raised by an instruction's meaning where no thread's turn is open; safe: only ISSUE_SELECT opens a turn -/
  | noIssuingThread
  deriving DecidableEq, Repr

/-- Why an instruction has no meaning. -/
inductive Refusal where
  /-- raised by an arm of exec whose instruction is not modelled; safe: the machine stops -/
  | notModelled (mnemonic : String)
  deriving DecidableEq, Repr

/-! ### Threads (R22, R29, R38) -/

/-- Special registers of Thread scope that are not derived from elsewhere (R29). -/
structure Specials where
  gsel : BitVec 9
  plive : BitVec 8
  fstat : BitVec 15
  qmax : BitVec 3
  trb : BitVec 6
  trs : BitVec 7
  tri : BitVec 6
  livelo : Word
  livehi : Word
  cargo : Word
  tvb : Word
  tepc : Word
  tcause : Word
  tval : Word
  tgsel : Word
  deriving DecidableEq, Repr

/-- One hardware loop level (R33, R77). -/
structure LoopState where
  active : Bool
  start : Word
  stop : Word
  lc : BitVec 32
  deriving DecidableEq, Repr

/-- A captured body instruction (R193, R297): head, tail and the guard's value at capture. -/
structure BodyInstr where
  head : BitVec 16
  tail : Word
  guard : Bool
  deriving DecidableEq, Repr

/-- What a request to a slice asks for (R123, R126 to R133, R59). -/
inductive ReqKind where
  | ld (d : Nat) (size : Size) (sx : Bool)
  | ldm (d count : Nat)
  | st (bytes : List Byte) (sc : Bool)
  | ldf (d : Nat)
  | lde (d : Nat)
  | stf (v : Word) (we : Bool)
  | fem (full : Bool) (count : Nat)
  | atom (ao : AtomOp) (eight : Bool) (operand expected : Word) (d : Nat)
  | pref
  | zero
  | flush
  | drop
  | fetch
  deriving DecidableEq, Repr

/-- A request of a core's port to its die's slices: ordered where it is performed at the line and in the die's single order (.sc, R228), acq
where its thread's later accesses wait for the earlier loads too (R125, R228). -/
structure Req where
  id : Nat
  core : Nat
  tid : Tid
  ea : Word
  kind : ReqKind
  na : Bool
  rep : Option (Nat × Nat)
  last : Bool
  ordered : Bool
  acq : Bool
  deriving DecidableEq, Repr

/-- A load repetition of a stroke that has been sent and not yet answered with data (R195): the request as it was sent, and whether its
answer was a fault. -/
structure StrokeLoad where
  req : Req
  faulted : Bool
  deriving DecidableEq, Repr

/-- Stroke state (R22, R193 to R195): operands, captured body, the predicates and the control fields of fstat at its place in program order
(R197, R202), the next repetition (j, i), the loads in flight, those to be sent again, the stores not yet performed, the ordered repetition
that holds later memory repetitions, whether the last one that came back was an acquire, the trap it stopped on, and whether that trap has
been taken and not returned from. id stands, among the request numbers, for the memory accesses it has not yet sent. -/
structure Stroke where
  id : Nat
  n1 : BitVec 8
  len1 : BitVec 3
  stride : BitVec 7
  floor : BitVec 7
  body : List BodyInstr
  preds : BitVec 8
  fstat : BitVec 15
  j : Nat
  i : Nat
  loads : List StrokeLoad
  resend : List Req
  stores : List Nat
  barrierReq : Option Nat
  acquire : Bool
  trap : Option (Nat × Word)
  stopped : Bool
  deriving DecidableEq, Repr

/-- What happens when a parked thread's reason resolves: the instruction is complete, its head's L bit given, or issues again. -/
inductive Resume where
  | done (last : Bool)
  | again
  deriving DecidableEq, Repr

/-- The mark of a gondola whose thread skips the head it lands at (R77): the IA of its loop and the level that becomes inactive. -/
abbrev SkipMark := Option (Word × Level)

/-- Park reasons (R136) with what each waits for. -/
inductive Park where
  /-- 1 reply -/
  | reply (r : Resume)
  /-- 2 register wait, of an instruction that issues again (R32, R195) -/
  | register (i : Instr)
  /-- 3 empty word filled: a word of L-store or die-global memory, or (latch) the own incoming latch (R164) -/
  | emptyWord (r : Resume)
  /-- 4 full word emptied -/
  | fullWord (r : Resume)
  /-- 5 engine queue -/
  | engineQueue
  /-- 6 send queue -/
  | sendQueue
  /-- 7 matrix done -/
  | matrix (r : Resume)
  /-- 8 barrier -/
  | barrier (sc : Scope) (n : Nat) (gen : BitVec 32) (last : Bool)
  /-- 9 park: the core cycle of the timeout, if any -/
  | timed (until_ : Option Nat) (last : Bool)
  /-- 10 step -/
  | step (id : BitVec 16) (last : Bool)
  /-- 11 fence: what it waits for (loads, stores, engine commands up to a number, marker acknowledgements), then how it resumes -/
  | fence (loads stores : Bool) (engines : Option Nat) (marks : Nat) (r : Resume)
  /-- 11 fence: a wider one that first waits until the thread's remote atomics are on their flows (R238), within its scope -/
  | fenceSent (pod : Bool)
  /-- 12 exit -/
  | exit
  /-- 13 receive table -/
  | recvTable
  /-- 14 departure, to a core, continuing at an IA, under a map version; skip marks that the head at that IA is to be skipped -/
  | departure (dest : Nat) (pc : Word) (ver : BitVec 32) (skip : SkipMark)
  /-- parked for a reason, by its number, when its launch was pre-empted, and resumed at a core cycle: it is to issue its waiting instruction again
  (R298, R330; log entry 111) -/
  | reissue (code since : Nat)
  deriving DecidableEq, Repr

/-- Thread states (R38). Trapped is Seated-ready with the handler flag set; Exited threads are no longer in the table. -/
inductive Status where
  | seated (seat since : Nat)
  | ready
  | parked (p : Park)
  | faulted
  | blocked (dest : Nat) (pc : Word) (ver : BitVec 32) (skip : SkipMark)
  | inFlight (dest : Nat) (pc : Word) (ver : BitVec 32) (skip : SkipMark)
  | spilled (dest : Nat) (pc : Word) (ver : BitVec 32) (skip : SkipMark)
  | pooled
  deriving DecidableEq, Repr

/-- What has come for an evicted thread's park (R144; log entry 93): it goes on, or takes an exception. -/
inductive KeptEnd where
  | resume (r : Resume)
  | trap (cause : Nat) (value : Word)
  deriving DecidableEq, Repr

/-- What the core and the launch manager keep for a thread beside its context. -/
structure ThreadIO where
  /-- core cycle of the thread's last turn, by the clock of the die it stands on (R204; log entry 90) -/
  lastIssue : Option Nat
  /-- core cycle it became Ready-unseated at (R208), by the same clock -/
  readyAt : Nat
  /-- turns since it took its seat (R209), and whether its last turn ended its quantum -/
  quantum : Nat
  quantumDue : Bool
  /-- a posted store of the thread has faulted and is not yet served: the thread is Faulted, with or without a wait beneath (R124; log entry 62) -/
  storeFault : Bool
  /-- dies it sent class-1 or class-2 items to since the last wider fence, with the number the last such item went out under; more than 16 stand
  for every die (R238) -/
  dests : Tab Nat
  /-- cargo declaration: address and length (R148) -/
  cargoDecl : Option (Nat × Nat)
  /-- save-record slot (R297) and landing slot (R258) held -/
  record : Option Nat
  landing : Option Nat
  /-- being killed (R143); Faulted since this core cycle (R215); context lent (R215); woken while lent (R216) -/
  dying : Bool
  faultedAt : Nat
  lent : Bool
  woken : Bool
  /-- no context, but its tiles kept on its core (lent or evicted; log entry 25) -/
  keepsTiles : Bool
  /-- it landed to skip a head that is not there: the IA of its loop, which traps at its first turn (R77) -/
  skipFail : Option Word
  /-- its state before PREEMPT's step 1 was Ready-unseated or Seated-ready (R294) -/
  wasReady : Bool
  /-- evicted (R144) in a park that goes on when it is seated again, with what has come for it meanwhile (log entry 93) -/
  kept : Option (Park × Option KeptEnd)
  deriving DecidableEq, Repr

/-- A thread (R22): where it stands, its context and windows, its registers, and its special, loop and stroke state. -/
structure Thread where
  core : Nat
  ctx : Option Nat
  status : Status
  wbase : Nat
  wsize : Nat
  tbase : Nat
  tcount : Nat
  pc : Word
  privileged : Bool
  handler : Bool
  entries : Nat
  prio : Nat
  regs : Tab Word
  preds : BitVec 8
  sp : Specials
  loop0 : LoopState
  loop1 : LoopState
  loop2 : LoopState
  stroke : Option Stroke
  pending : NatSet
  io : ThreadIO
  deriving DecidableEq, Repr

/-! ### Cores -/

/-- A protection window of L-store (R134). -/
structure ProtWindow where
  base : Nat
  size : Nat
  r : Bool
  w : Bool
  deriving DecidableEq, Repr

/-- What a waiter of a word asks for (R128). -/
inductive WaitFor where
  | ldf (d : Nat)
  | lde (d : Nat)
  | stfwe (v : Word)
  deriving DecidableEq, Repr

/-- A waiter in an L-store word's list, oldest first (R128). -/
structure Waiter where
  word : Nat
  tid : Tid
  want : WaitFor
  deriving DecidableEq, Repr

/-- Barrier state: member count, arrivals, generation (R154); of a job's pod barrier also the number of barc made at its root, by which a package tells an
older generation from a newer (R240; log entry 72). -/
structure Bar where
  m : Nat
  a : Nat
  n : BitVec 32
  epoch : Nat := 0
  deriving DecidableEq, Repr

/-- A tile's status (R157). -/
structure TileStatus where
  of_ : Bool
  nv : Bool
  sa : Bool
  kind : BitVec 2
  rsc : BitVec 8
  deriving DecidableEq, Repr

/-- A C-store tile (R156, R157). -/
structure Tile where
  bytes : Memory
  st : TileStatus
  deriving DecidableEq, Repr

/-- An operation of the matrix queue (R159 to R163). -/
structure MmaOp where
  tid : Tid
  tile : Nat
  a : Nat
  b : Option Nat
  c : Option Nat
  x : MmaX
  started : Bool
  begun : Nat
  chunks : Nat
  /-- flags raised and not yet in its thread's fstat, which takes them at completion (R157) -/
  flags : BitVec 6
  deriving DecidableEq, Repr

/-- An operation of the epilogue unit (R158), with the operand values read at issue, the physical tiles it names, and all that it waits for an mma to be
done with. -/
structure EpOp where
  tid : Tid
  instr : Instr
  head : BitVec 16
  va : Word
  vb : Word
  vc : Word
  tile : Nat
  tile2 : Nat
  tiles : List Nat
  deriving DecidableEq, Repr

/-- A candidate consumed by the top-k tree (R173). -/
structure Cand where
  score : BitVec 32
  index : Nat
  deriving DecidableEq, Repr

/-- The top-k tree (R172): header and the candidates of each row, oldest first. -/
structure TopkTree where
  header : Option (BitVec 13)
  rows : Tab (List Cand)
  deriving DecidableEq, Repr

/-- The plan state (R175). -/
structure PlanState where
  tile : Option Nat
  m : Nat
  n : Nat
  a : List (BitVec 32)
  b : List (BitVec 32)
  u : List (BitVec 32)
  v : List (BitVec 32)
  infeasible : Bool
  inProgress : Bool
  s : Nat
  h : Bool
  limit : Nat
  tol : BitVec 32
  /-- flags of the bal in progress, not yet in its thread's fstat (R157) -/
  flags : BitVec 6
  deriving DecidableEq, Repr

/-- The matrix side of a core: tiles, latches, queues, top-k and plan (R156 to R179, R196). -/
structure CoreMatrix where
  tiles : Tab Tile
  operand : Memory
  incoming : Memory
  incomingFull : Bool
  ring : Option (Nat × Nat)
  passing : List Tid
  takes : List Tid
  transit : Option (Memory × Tid × Nat)
  queue : List MmaOp
  epilogue : List EpOp
  topk : TopkTree
  plan : PlanState
  deriving DecidableEq, Repr

/-- The kinds of engine command (R185 to R189). -/
inductive EngKind where
  | copy
  | copyr (op : CopyrOp) (tag : BitVec 16)
  | ratom (ao : AtomOp) (ord : Ord) (four : Bool) (expected : Word)
  | gath (scat : Bool) (size : Size) (count : Nat)
  | mcast (path : Nat)
  deriving DecidableEq, Repr

/-- How far an engine command has come: moving data, waiting for the answers its completion needs, ready to complete, or waiting for its
arrival at a barrier object to be made (R180, R237). -/
inductive EngPhase where
  | waiting
  | moving
  | answers (n : Nat)
  | finished
  | arriving
  deriving DecidableEq, Repr

/-- An engine command in a core's queue (R180, R181), or a host COPY in a die's engines (R306): operands, the elements moved and those asked
of another package (2 n when element n is asked for, 2 n + 1 when it has come), the accesses it waits for before it may leave (R187, R247),
data read and not yet written or read for a later element of the word, the other dies it has written to. For a ratom len is its sequence number once
it is sent; cut says that its home has been out of reach since sentAt (R187). entry is where the fault of a host COPY stands in a die's queue. -/
structure EngCmd where
  id : Nat
  tid : Tid
  launch : Nat
  kind : EngKind
  reg : Nat
  object : Option Word
  dst : Word
  src : Word
  len : Nat
  operand : Word
  phase : EngPhase
  moved : NatSet
  status : Nat
  old : Word
  sentAt : Nat
  cut : Bool
  uncorr : Bool
  faulted : Bool
  entry : Option (Nat × Nat)
  asked : NatSet
  after : NatSet
  buf : Memory
  dies : NatSet
  host : Option (Nat × Nat)
  /-- the indexes of a gather or scatter read so far, by element (R188, R247) -/
  index : Tab Nat := []
  deriving DecidableEq, Repr

/-- An entry of the send queue (R152). -/
structure SendEntry where
  tid : Tid
  dst : Tid
  reg : Nat
  buf : Nat
  len : Nat
  tag : BitVec 16
  order : Nat
  after : NatSet
  refusals : Nat
  retryAt : Nat
  inFlight : Bool
  deriving DecidableEq, Repr

/-- A posted receive (R153). -/
structure Posted where
  tid : Tid
  reg : Nat
  src : Option Tid
  tag : Option (BitVec 16)
  buf : Nat
  cap : Nat
  deriving DecidableEq, Repr

/-- An entry of the overflow queue (R152): its place among the 16; its data lie in L-store. -/
structure Overflow where
  place : Nat
  order : Nat
  dst : Tid
  src : Tid
  tag : BitVec 16
  len : Nat
  deriving DecidableEq, Repr

/-- The message side of a core (R150 to R153). -/
structure CoreMsg where
  sends : List SendEntry
  posted : List Posted
  overflow : List Overflow
  refused : List (Tid × Tid)
  deriving DecidableEq, Repr

/-- The memory port of a core (R211, R212): requests not yet left, in port order; requests left and not acknowledged or answered;
stores not yet performed; faulted posted stores. -/
structure CorePort where
  held : List Req
  unacked : List Req
  unperformed : List (Nat × Tid)
  loads : List (Nat × Tid)
  faulted : List Req
  deriving DecidableEq, Repr

/-- A line of an I-store, in order of use, the least recent first (R59). -/
structure CodeLine where
  base : Word
  bytes : List Byte
  deriving DecidableEq, Repr

/-- A landing slot of a travelling launch's core (R257, R258): what its network interface holds for it. -/
structure LandSlot where
  occupied : Bool
  granted : Option Tid
  landedAt : Nat
  deriving DecidableEq, Repr

/-- The issue side of a core: contexts' seats and queues, the seats held at the last step and the core cycle each free one was left (R206),
I-store, segment (R59, R203, R208, R254 to R260). -/
structure CoreIssue where
  sLast : Nat
  lastTurn : Option Nat
  held : NatSet
  left : Tab Nat
  queue0 : List Tid
  queue1 : List Tid
  queue2 : List Tid
  queue3 : List Tid
  istore : List CodeLine
  segment : Option Nat
  mapCache : List Nat
  slots : Tab LandSlot
  slotRequests : List Tid
  draining : Bool
  deriving DecidableEq, Repr

/-- A core. -/
structure Core where
  launch : Nat
  lstore : Memory
  lempty : NatSet
  waiters : List Waiter
  windows : List ProtWindow
  bars : Tab Bar
  iss : CoreIssue
  mx : CoreMatrix
  engine : List EngCmd
  atomSeq : Nat
  msg : CoreMsg
  port : CorePort
  /-- words that hold an uncorrectable error (R299): L-store word w as w, word w of tile t as 2^17 + 128 t + w -/
  errors : NatSet
  deriving DecidableEq, Repr

/-! ### Dies -/

/-- A translation held in a TLB (R225, R313): virtual and physical page base, size, permissions, backing. -/
structure Xlat where
  vbase : Nat
  pbase : Nat
  big : Bool
  r : Bool
  w : Bool
  lpddr : Bool
  deriving DecidableEq, Repr

/-- A line of a slice (R219, R221); a zero line has no data way. -/
structure Line where
  l : Nat
  pa : Nat
  lpddr : Bool
  data : Memory
  empty : NatSet
  dirty : Bool
  zero : Bool
  deriving DecidableEq, Repr

/-- A miss-status register (R220). -/
structure Mshr where
  l : Nat
  pa : Nat
  lpddr : Bool
  reqs : List Req
  deriving DecidableEq, Repr

/-- A staged store (R222); after counts the requests of its line's miss list that reached the slice before it (R223). -/
structure Staged where
  id : Nat
  core : Nat
  tid : Tid
  l : Nat
  pa : Nat
  lpddr : Bool
  off : Nat
  bytes : List Byte
  na : Bool
  after : Nat
  deriving DecidableEq, Repr

/-- A fault service queue entry (R226). -/
structure FaultEntry where
  tid : Tid
  core : Nat
  slice : Nat
  kind : Nat
  w : Bool
  p : Bool
  ea : Word
  stamp : Word
  /-- the host COPY that waits for the server to return the entry (R306): engine queue and number -/
  cmd : Option (Nat × Nat)
  /-- an item of a host COPY at this die waits for the entry in the command's place (R306) -/
  item : Bool := false
  deriving DecidableEq, Repr

/-- A cache slice (R218 to R226): what has left a core for it and not arrived, in order of sending (R217); lines in order of use, the least
recent first. -/
structure Slice where
  coming : List Req
  lines : List Line
  mshrs : List Mshr
  ingress : List Req
  stage : List Staged
  waiters : List Req
  tlb : List Xlat
  walks : List Req
  held : List FaultEntry
  deriving DecidableEq, Repr

/-- A contribution held for a reduction (R186, R250): its job or launch, the contributing die (package * 8 + die), core and command, the
plan's mask and ranks, the data in the form received. -/
structure Contribution where
  job : Bool
  group : Nat
  die : Nat
  core : Nat
  cmd : Nat
  tid : Tid
  op : CopyrOp
  dst : Word
  len : Nat
  mask : Nat
  ranks : List Nat
  /-- the mask's dies that belong to the contributing launch -/
  dies : Nat
  data : List Byte
  tag : BitVec 16
  deriving DecidableEq, Repr

/-- An entry of the atomic deduplication cache (R187, R251). -/
structure Dedup where
  src : Nat
  seq : Nat
  old : Word
  status : Nat
  deriving DecidableEq, Repr

/-- A flow of a die as source or as destination (R234, R235); bad lists the commands a write of which has failed its check. -/
structure Flow where
  src : Nat
  dst : Nat
  cls : Nat
  next : BitVec 16
  expect : BitVec 16
  undelivered : Nat
  bad : NatSet
  deriving DecidableEq, Repr

/-- An item delivered that waits at its home: whether its page fault is reported, and, of a host COPY, the fault service entry it waits for (R181, R236,
R306). -/
structure Stuck where
  item : Item
  told : Bool
  entry : Option (Nat × Nat)
  deriving DecidableEq, Repr

/-- A die: power and clock (R2, R316), memory behind the slices (R37), slices, engines' shared state (R181, R186, R187), counts. -/
structure Die where
  power : Nat
  clock : Nat
  part : Nat
  dram : Memory
  dramEmpty : NatSet
  lpddr : Memory
  slices : Tab Slice
  faultIx : Nat
  corrected : Nat
  guardProposed : Nat
  guardApplied : Nat
  engine : List EngCmd
  contributions : List Contribution
  dedup : List Dedup
  reorder : List Item
  outgoing : List Item
  /-- items delivered, or what is left of them, that wait for a page or a line, the oldest first (R181, R236) -/
  stuck : List Stuck
  /-- the die's words, by offset / 8, that hold an uncorrectable error (R299) -/
  errors : NatSet
  deriving DecidableEq, Repr

/-! ### Launches (R309, R253, R86) -/

/-- The fields of a launch descriptor (R309). -/
structure Desc where
  entry : Nat
  threads : Nat
  window : Nat
  tiles : Nat
  prio : Nat
  travelling : Bool
  supervisor : Bool
  qtrap : Bool
  pack : Bool
  dmin : Nat
  dmax : Nat
  core0 : Nat
  cores : Nat
  fsv : Nat
  job : Nat
  map : Word
  spill : Word
  spillLimit : Nat
  data : Word
  dataLen : Nat
  ovq : Nat
  arg : Word
  discard : List (Nat × Nat)
  dtiles : Word
  prot : List ProtWindow
  paths : List Word
  tvb : Nat
  tvbOn : Bool
  deriving DecidableEq, Repr

/-- A segment of the launch's map (R253); replicas as cores die * 256 + core of this package. -/
structure Segment where
  id : Nat
  base : Word
  len : Nat
  reps : List Nat
  deriving DecidableEq, Repr

/-- Where a launch stands: running, being pre-empted to a context area for a queue's command, with the dies' core cycles when that began, or
pre-empted. -/
inductive Phase where
  | live
  | preempting (area : Word) (q slot : Nat) (clocks : List Nat)
  | preempted (area : Word)
  deriving DecidableEq, Repr

/-- A launch: descriptor, threads still to be numbered, dies, map and changes recorded, reduction plan, barrier units' state. -/
structure Launch where
  desc : Desc
  phase : Phase
  next : Nat
  dies : NatSet
  cores : NatSet
  segments : List Segment
  mapVer : BitVec 32
  mapChanges : List (Bool × Nat × Nat)
  rplan : Option (Nat × List Nat)
  pool : List Tid
  quadBars : Tab Bar
  dieBars : Tab Bar
  pkgBars : Tab Bar
  /-- what the implementation images of a pre-empted launch's core records stand for (R296) -/
  savedCores : Tab Core
  deriving DecidableEq, Repr

/-! ### What is in flight inside the package (R217, R234) -/

/-- Notes on the reply channel from a slice to a core, in order for one slice and one core (R217). -/
inductive Note where
  | ack (req : Req)
  | performed (id : Nat) (tid : Tid)
  /-- the performed notice of a store that has met an uncorrectable error (R299) -/
  | spoiled (id : Nat) (tid : Tid) (ea : Word)
  | reply (req : Req) (data : List Byte) (flags : Nat)
  | fault (req : Req) (entry : FaultEntry)
  | trap8 (req : Req) (ea : Word)
  | inval (tid : Tid) (d : Nat) (last : Bool) (wait : NatSet)
  deriving DecidableEq, Repr

/-- A note with its slice (die * 256 + slice) and core. -/
structure NoteAt where
  slice : Nat
  core : Nat
  note : Note
  deriving DecidableEq, Repr

/-- A wake or kill on its way (R142, R143) from a core or a die's unit, in order for one source and one target (R217), behind the stores it is
ordered after. -/
structure Signal where
  src : Nat
  /-- the die of the pod it was delivered at -/
  at_ : Nat
  tid : Tid
  priv : Bool
  launch : Nat
  after : NatSet
  deriving DecidableEq, Repr

/-- A child whose placement is being settled (R138): its entry, the cores it may go to, its state but for its place. -/
structure SpawnNote where
  parent : Tid
  d : Nat
  pair : Pair
  place : Place
  last : Bool
  state : Thread
  deriving DecidableEq, Repr

/-- The answer of the launch manager or a ring or barrier unit to a thread that waits for it (R86, R155, R240, R321), or what it has asked of its die's
ring unit. -/
inductive UnitNote where
  | ringAsk (tid : Tid) (die : Nat) (dissolve : Bool) (log2 : Nat) (tval : Word) (last : Bool)
  | ring (tid : Tid) (die : Nat) (ok : Bool) (tval : Word) (last : Bool)
  | sys (tid : Tid) (ok : Bool) (tval : Word) (last : Bool)
  | barc (tid : Tid) (sc : Scope) (n : Nat) (ok : Bool) (tval : Word) (last : Bool)
  | gen (tid : Tid) (sc : Scope) (d : Nat) (value : BitVec 32)
  deriving DecidableEq, Repr

/-- A barrier arrival or barc on its way to its unit (R155, R231, R240): an arrival waits for its thread's earlier accesses, then, at a wider
scope, for the acknowledgements of markers once they are sent (R238). -/
structure BarrierNote where
  id : Nat
  after : NatSet
  marks : Option Nat
  tid : Tid
  sc : Scope
  n : Nat
  unit : Nat
  d : Nat
  count : Option Nat
  tval : Word
  last : Bool
  /-- the die of the pod the request came from; whether it is at its unit -/
  from_ : Nat
  arrived : Bool
  deriving DecidableEq, Repr

/-- What a thread does when a segment-map entry has come: it departs for a replica, continuing at an IA, issues again, or has its segq
answered. -/
inductive MapCont where
  | depart (pc : Word) (skip : SkipMark)
  | again
  | answer (d : Nat) (v : Word) (last : Bool)
  deriving DecidableEq, Repr

/-- A fetch of a segment-map entry (R255); none where no segment holds what was asked for. -/
structure MapNote where
  tid : Tid
  seg : Option Nat
  cont : MapCont
  deriving DecidableEq, Repr

/-- An arrival at a barrier object (R184) named from a core, performed after every write of its command: for a launch of this package or,
0, of another; local_ where the object lies in that core's own L-store and issue has checked it. -/
structure ObjNote where
  launch : Nat
  core : Nat
  local_ : Bool
  obj : Word
  status : Nat
  cmd : Option (Nat × Nat)
  /-- the dies of the flow it came on, if it came on one -/
  via : Option (Nat × Nat)
  deriving DecidableEq, Repr

/-- A remote atomic at its home, or its response on the way back (R187, R251). -/
structure RatomNote where
  src : Nat
  home : Nat
  tid : Tid
  seq : Nat
  sc : Bool
  ea : Word
  op : AtomOp
  four : Bool
  operand : Word
  expected : Word
  old : Word
  status : Nat
  faulted : Bool
  deriving DecidableEq, Repr

/-- A message at the receiver's core (R152), with the send-queue entry it came from. -/
structure MsgNote where
  srcCore : Nat
  dstCore : Nat
  src : Tid
  dst : Tid
  tag : BitVec 16
  data : List Byte
  order : Nat
  forwarded : Bool
  /-- the dies of the flow it came on, if it came on one -/
  via : Option (Nat × Nat)
  deriving DecidableEq, Repr

/-- What a source core holds for a gondola until its landing is acknowledged (R260): context, windows, record slot, own landing slot. -/
structure Held where
  core : Nat
  ctx : Option Nat
  wbase : Nat
  wsize : Nat
  tbase : Nat
  tcount : Nat
  record : Option Nat
  landing : Option Nat
  deriving DecidableEq, Repr

/-- What the gondola of a step carries beside the thread (R243): its tiles with their status, numbered from 0, its posted receives, and its overflow
entries. -/
structure StepLoad where
  tiles : Tab Tile
  posted : List Posted
  overflow : List MsgNote
  deriving DecidableEq, Repr

/-- A gondola in flight to a core and slot (R147, R258), or, where it is a step's, to a die of the launch (R243). -/
structure GondolaNote where
  held : Held
  tid : Tid
  dest : Nat
  slot : Nat
  cargo : List Byte
  source : Nat
  ver : BitVec 32
  skip : SkipMark
  pc : Word
  arrived : Bool
  step : Option StepLoad
  deriving DecidableEq, Repr

/-- A marker in its flow, and whether it is delivered (R236); who (a fence), cmd or bar (a barrier arrival) waits for its acknowledgement. -/
structure MarkNote where
  id : Nat
  src : Nat
  dst : Nat
  cls : Nat
  who : Option Tid
  cmd : Option (Nat × Nat)
  bar : Option Nat
  ackWanted : Bool
  delivered : Bool
  status : Nat
  deriving DecidableEq, Repr

/-- What is in flight; a number k in an event is a place in the list the event's row names. -/
structure Net where
  nextReq : Nat
  notes : List NoteAt
  wakes : List Signal
  kills : List Signal
  spawns : List SpawnNote
  units : List UnitNote
  barriers : List BarrierNote
  gens : List (Scope × Nat × Nat × BitVec 32)
  maps : List MapNote
  objects : List ObjNote
  contributions : List Contribution
  rounds : List (Bool × List Contribution)
  ratoms : List RatomNote
  responses : List RatomNote
  items : List Item
  flows : List Flow
  marks : List MarkNote
  markAcks : List MarkNote
  messages : List MsgNote
  gondolas : List GondolaNote
  landAcks : List GondolaNote
  /-- page faults met by a network interface or the launch manager and reported (R324; log entry 117): for a thread, or for device queue q as 2^32 + q,
  die and page of 64 KiB -/
  pageWaits : List (Nat × Nat × Nat)
  deriving DecidableEq, Repr

/-! ### Light (R262 to R278) -/

/-- A path-table entry (R263). -/
structure PathEntry where
  fibre : Nat
  first : Nat
  count : Nat
  L : Nat
  owner : Nat
  valid : Bool
  peers : List Nat
  deriving DecidableEq, Repr

/-- The step a grant change stands at (R266, R268). -/
inductive TransStep where
  | stepA
  | waiting
  | ramp (ends : Nat)
  | stepC (due : Nat)
  deriving DecidableEq, Repr

/-- A grant change in progress (R268). -/
structure Transition where
  gOld : Nat
  gNew : Nat
  mNew : Nat
  m1 : Nat
  fNew : Nat
  accepted : Nat
  step : TransStep
  /-- the Spool controller restarted during its rise: step C comes a full 4.0 us after the ramp's end (R278) -/
  interrupted : Bool
  deriving DecidableEq, Repr

/-- Link states (R191, R288). -/
inductive LinkState where
  | dark | training | attesting | up | settling | draining | down
  deriving DecidableEq, Repr

/-- A flit as numbered on a path (R272): sequence number, kind, class, first, destination die, item length, its place in the item, its payload as it
is before encryption, the peer, key number and item counter it is encrypted under once it has been sent (R287), peers yet to acknowledge it, and the
number of the engine command it belongs to, if any. -/
structure FlitRec where
  cmd : Option Nat
  seq : BitVec 16
  kind : Nat
  cls : Nat
  first : Bool
  die : Nat
  len : Nat
  place : Nat
  payload : List Byte
  under : Option (Nat × Nat × Nat)
  unacked : List Nat
  deriving DecidableEq, Repr

/-- An item received whole, decrypted and checked, on its way into the Bridle (R279, R287). -/
structure WholeItem where
  cls : Nat
  die : Nat
  bytes : List Byte
  deriving DecidableEq, Repr

/-- One flit stream of a path (R262, R274, R282). What is sent to all peers of a standing path stands under 0; what is sent to one peer of a
slotted path, and what is received from a peer, under its package number + 1. -/
structure Stream where
  next : BitVec 16
  replay : List FlitRec
  resendFrom : Option (BitVec 16)
  expect : BitVec 16
  /-- the receiver waits for a flit it has named in a nak; a nak, an acknowledgement is still to be sent -/
  nakked : Bool
  nakDue : Bool
  ackDue : Bool
  queue : List FlitRec
  partItem : List (List Byte)
  whole : List WholeItem
  /-- the flits of the item that partItem begins -/
  partLen : Nat := 0
  deriving DecidableEq, Repr

/-- A path (R262 to R276): its entry, light, transition, link state, streams. -/
structure Path where
  entry : PathEntry
  grant : Nat
  order : Nat
  fan : Nat
  trans : Option Transition
  /-- a release accepted while a transition runs, with the fan-out code it asks for (R265) -/
  release : Option Nat
  state : LinkState
  /-- the next flit boundary, in twelfths of a nanosecond of the cycle counter's time (R273) -/
  nextFlit : Nat
  /-- the colours that have lost their light and leave the stripe set at the next flit boundary (R276) -/
  leaving : NatSet
  /-- the 80 bytes of the flit last sent (R272) -/
  wire : List Byte
  /-- its beats of two bytes, by colour, in the order of their slots; none where a slot carries none (R273) -/
  beats : Tab (List (Option (Byte × Byte))) := []
  /-- the order that ageing lowers to at the next flit boundary while a change runs past its step A (R277) -/
  drop : Option Nat := none
  lastSettle : Nat
  acceptNo : Nat
  /-- the destination package served last at this output (R280) -/
  served : Nat
  streams : Tab Stream
  deriving DecidableEq, Repr

/-- A slot of a slot table (R192). -/
structure SlotEntry where
  peer : Nat
  port : Nat
  dur : Nat
  guard : Nat
  deriving DecidableEq, Repr

/-- A fibre's ageing record (R315). -/
structure AgeRecord where
  changes : Nat
  stamp : Word
  kind : Nat
  deriving DecidableEq, Repr

/-- Where a slotted fibre stands in its slot (R282). -/
inductive WindowState where
  | closed
  | opened
  | tail
  deriving DecidableEq, Repr

/-- A fibre: budget and bounds (R264, R317), measured losses, sources, slot tables and circuit (R281 to R285). -/
structure Fibre where
  budget : Nat
  m0 : Nat
  m0min : Nat
  m0max : Nat
  tmax : Nat
  lmax : Nat
  tAdd : List Nat
  lMeas : Tab Nat
  sources : BitVec 16
  /-- colours retraining: one more than the tick it began at, or 0 where it has not begun (R275, R278); failures in a row; colours that stay out; the
  bits of colours' error windows counted so far, and the tick up to which -/
  training : Tab Nat
  failures : Tab Nat
  dead : NatSet
  windows : Tab (Nat × Nat)
  slots : List SlotEntry
  staged : Option (List SlotEntry)
  committed : Option (List SlotEntry)
  slotIx : Nat
  up : Bool
  upTick : Nat
  /-- the package the slot names; on a standing fibre the packages whose circuits are up are in reached -/
  peer : Nat
  reached : NatSet
  window : WindowState
  /-- the peers reached whose keys are confirmed on the circuit (R285), circuit-ups, and the part's own tag last sent -/
  confirmed : NatSet
  ups : Nat
  tag : List Byte
  /-- whether a path of the fibre held a grant at the circuit-up (R337); the peers whose tags have not matched on the circuit (R285) -/
  litUp : Bool := false
  barred : NatSet := []
  age : AgeRecord
  deriving DecidableEq, Repr

/-- An lgrant or circ request waiting for the Spool controller (R190, R192, R265). -/
inductive SpoolReq where
  | lgrant (tid : Tid) (d path g fan : Nat) (priv : Bool) (launch : Nat) (last : Bool)
  | circ (tid : Tid) (d fibre : Nat) (commit : Bool) (slots : List SlotEntry) (malformed : Bool) (last : Bool)
  deriving DecidableEq, Repr

/-- The Spool controller's side: paths, fibres, requests, watchdog (R262 to R278). -/
structure Spool where
  paths : Tab Path
  fibres : Tab Fibre
  requests : List SpoolReq
  restarting : Bool
  resetAt : Nat
  accepts : Nat
  deriving DecidableEq, Repr

/-! ### The Bridle, peers and topology (R279 to R291) -/

/-- An item in a destination queue of the Bridle (R279): the item, the package it goes to, since when it waits. -/
structure QueuedItem where
  item : Item
  dest : Nat
  since : Nat
  /-- the slotted path that alone takes it, for a multicast's item (R189, R337) -/
  via : Option Nat := none
  deriving DecidableEq, Repr

/-- A peer package (R284 to R287); the session id and the confirmation key stand as numbers. -/
structure Peer where
  session : Bool
  sid : Nat
  confirmKey : Nat
  attesting : Bool
  failed : Bool
  txKey : Nat
  txCount : Nat
  rxKey : Nat
  rxCount : Nat
  deriving DecidableEq, Repr

/-- A topology change in progress (R290). -/
structure Retopo where
  q : Nat
  slot : Nat
  peers : NatSet
  paths : NatSet
  routes : Tab (List Nat)
  fibres : List (Nat × List SlotEntry)
  start : Nat
  limit : Nat
  drained : Bool
  deriving DecidableEq, Repr

/-- Links between packages. -/
structure Links where
  routes : Tab (List Nat)
  queues : List QueuedItem
  peers : Tab Peer
  allow : List Nat
  used : Nat
  gen : Nat
  retopo : Option Retopo
  deriving DecidableEq, Repr

/-! ### The host's side (R301, R305 to R320) -/

/-- A device queue (R305, R307): registers, and the commands started and not completed, in slot order. -/
structure HostQueue where
  base : Nat
  log2 : Nat
  enabled : Bool
  head : BitVec 32
  tail : BitVec 32
  started : BitVec 32
  done : List (BitVec 32)
  deriving DecidableEq, Repr

/-- An event record (R301). -/
structure EventRec where
  type : Nat
  die : Nat
  core : Nat
  tid : Tid
  stamp : Word
  seq : Nat
  detail : List Word
  deriving DecidableEq, Repr

/-- The host interface: queues, event area, configuration, firmware; the host's memory as the part has written it (R307). -/
structure HostIf where
  queues : Tab HostQueue
  evProd : Nat
  evCons : Nat
  evDrop : Nat
  dropped : Nat
  evSeq : Nat
  evHeld : List EventRec
  evBase : Word
  evSize : Nat
  status : Nat
  faultBase : Word
  ptBase : Word
  atomTimeout : Nat
  ber : Nat
  laserCap : Nat
  fwVersion : Word
  fwRollback : Word
  fwPending : Option Word
  memory : Memory
  lastRead : Option (List Byte)
  deriving DecidableEq, Repr

/-! ### The whole -/

/-- What an implementation fixes, and what a self-test fuses off (R3, R314, R315; log entry 4). -/
structure PartConfig where
  package : Nat
  lcap : Nat
  fusedCores : NatSet
  /-- what a self-test has found to fail (R314): slices, laser sources, and the dies' self-test words (R315) -/
  fusedSlices : NatSet := []
  fusedSources : NatSet := []
  tests : List Word := []
  deriving DecidableEq, Repr

/-- A move of the agenda: an event and the earliest tick of the cycle counter it happens at (log entry 2). -/
structure Move where
  tick : Nat
  ev : Instr
  deriving DecidableEq, Repr

/-- The turn being executed (R204, R205): core, thread, IA, head and tail as fetched, and the instruction they hold; for a repetition of
a stroke, which is no turn, its (j, i). -/
structure Issue where
  core : Nat
  tid : Tid
  ia : Word
  head : BitVec 16
  tail : Word
  instr : Instr
  rep : Option (Nat × Nat)
  deriving DecidableEq, Repr

/-- The state of the part. -/
structure State where
  cfg : PartConfig
  cycle : Word
  agenda : List Move
  focus : Nat
  issue : Option Issue
  fresh : Nat
  threads : Tab Thread
  cores : Tab Core
  dies : Tab Die
  launches : Tab Launch
  podBars : Tab (Tab Bar)
  /-- the other packages that have asked something of a pod barrier's root here (R240) -/
  podPeers : Tab NatSet
  net : Net
  spool : Spool
  links : Links
  host : HostIf
  deriving DecidableEq, Repr

/-! ### Reset values -/

/-- Special registers at thread creation in a window (R29). -/
def Specials.reset : Specials :=
  { gsel := 0x00A, plive := 0xFF, fstat := 0, qmax := 2, trb := 0, trs := 0, tri := 0, livelo := 0, livehi := 0,
    cargo := BitVec.allOnes 64, tvb := 0, tepc := 0, tcause := 0, tval := 0, tgsel := 0 }

/-- An inactive loop level (R33). -/
def LoopState.reset : LoopState := { active := false, start := 0, stop := 0, lc := 0 }

/-- A thread's side state at creation. -/
def ThreadIO.reset : ThreadIO :=
  { lastIssue := none, readyAt := 0, quantum := 0, quantumDue := false, storeFault := false, dests := [], cargoDecl := none,
    record := none, landing := none, dying := false, faultedAt := 0, lent := false, woken := false, keepsTiles := false, skipFail := none, wasReady := false, kept := none }

/-- A tile at thread creation or reset: every byte 0, kind 0, status clear (R156, R157). -/
def Tile.reset : Tile := { bytes := [], st := { of_ := false, nv := false, sa := false, kind := 0, rsc := 0 } }

/-- No plan bound (R175). -/
def PlanState.reset : PlanState :=
  { tile := none, m := 0, n := 0, a := [], b := [], u := [], v := [], infeasible := false, inProgress := false,
    s := 0, h := false, limit := 0, tol := 0, flags := 0 }

/-- The matrix side of an idle core: incoming latch empty (R164), tree unset (R172). -/
def CoreMatrix.reset : CoreMatrix :=
  { tiles := [], operand := [], incoming := [], incomingFull := false, ring := none, passing := [], takes := [],
    transit := none, queue := [], epilogue := [], topk := { header := none, rows := [] }, plan := PlanState.reset }

/-- The issue side of an idle core: the selector stands at seat 15 (R204). -/
def CoreIssue.reset : CoreIssue :=
  { sLast := 15, lastTurn := none, held := [], left := [], queue0 := [], queue1 := [], queue2 := [], queue3 := [], istore := [],
    segment := none, mapCache := [], slots := [], slotRequests := [], draining := false }

/-- A core after reset. -/
def Core.reset : Core :=
  { launch := 0, lstore := [], lempty := [], waiters := [], windows := [], bars := [], iss := CoreIssue.reset,
    mx := CoreMatrix.reset, engine := [], atomSeq := 0,
    msg := { sends := [], posted := [], overflow := [], refused := [] },
    port := { held := [], unacked := [], unperformed := [], loads := [], faulted := [] },
    errors := [] }

/-- A slice after reset. -/
def Slice.reset : Slice :=
  { coming := [], lines := [], mshrs := [], ingress := [], stage := [], waiters := [], tlb := [], walks := [], held := [] }

/-- A die after reset: P0 (R314). -/
def Die.reset : Die :=
  { power := 0, clock := 0, part := 0, dram := [], dramEmpty := [], lpddr := [], slices := [], faultIx := 0,
    corrected := 0, guardProposed := 0, guardApplied := 0, engine := [], contributions := [], dedup := [],
    reorder := [], outgoing := [], stuck := [], errors := [] }

/-- A barrier at launch (R154). -/
def Bar.reset : Bar := { m := 1, a := 0, n := 0 }

/-- A path-table entry after reset (R263). -/
def PathEntry.reset : PathEntry :=
  { fibre := 0, first := 0, count := 0, L := 0, owner := 0, valid := false, peers := List.replicate 16 0xFFFF }

/-- A stream before its first flit. -/
def Stream.reset : Stream :=
  { next := 0, replay := [], resendFrom := none, expect := 0, nakked := false, nakDue := false, ackDue := false, queue := [], partItem := [], whole := [] }

/-- A path after reset: DARK, fan-out 1 (R314). -/
def Path.reset : Path :=
  { entry := PathEntry.reset, grant := 0, order := 0, fan := 0, trans := none, release := none,
    state := .dark, nextFlit := 0, leaving := [], wire := [], lastSettle := 0,
    acceptNo := 0, served := 0, streams := [] }

/-- A fibre after reset: budget 4,096, M0 2 (R264), bounds of R317, every source working, standing mode, no circuit. -/
def Fibre.reset : Fibre :=
  { budget := 4096, m0 := 2, m0min := 2, m0max := 4, tmax := 2, lmax := 15, tAdd := [0, 0, 0, 0], lMeas := [],
    sources := BitVec.allOnes 16, training := [], failures := [], dead := [], windows := [], slots := [], staged := none, committed := none, slotIx := 0, up := false, upTick := 0,
    peer := 0xFFFF, reached := [], window := .closed, confirmed := [], ups := 0, tag := [], age := { changes := 0, stamp := 0, kind := 0 } }

/-- A peer before any session. -/
def Peer.reset : Peer :=
  { session := false, sid := 0, confirmKey := 0, attesting := false, failed := false, txKey := 0, txCount := 0, rxKey := 0, rxCount := 0 }

/-- A device queue after reset (R307). -/
def HostQueue.reset : HostQueue :=
  { base := 0, log2 := 0, enabled := false, head := 0, tail := 0, started := 0, done := [] }

/-- The host interface after reset: every register 0; atomic timeout 10,000 us, BER threshold 168 and laser cap 196,608 (R275,
R316, R320); fault-queue and page-table bases 0 (log entry 1). -/
def HostIf.reset : HostIf :=
  { queues := [], evProd := 0, evCons := 0, evDrop := 0, dropped := 0, evSeq := 0, evHeld := [], evBase := 0, evSize := 0,
    status := 0, faultBase := 0, ptBase := 0, atomTimeout := 10000, ber := 168, laserCap := 196608, fwVersion := 0,
    fwRollback := 0, fwPending := none, memory := [], lastRead := none }

/-- Nothing in flight. -/
def Net.reset : Net :=
  { nextReq := 0, notes := [], wakes := [], kills := [], spawns := [], units := [], barriers := [], gens := [],
    maps := [], objects := [], contributions := [], rounds := [], ratoms := [], responses := [], items := [],
    flows := [], marks := [], markAcks := [], messages := [], gondolas := [], landAcks := [], pageWaits := [] }

/-- The machine right after reset: no launch, no thread, every die in P0, every path DARK, the cycle counter 0 (R35, R314). -/
def State.reset : State :=
  { cfg := { package := 0, lcap := 0x80000, fusedCores := [] }
    cycle := 0
    agenda := []
    focus := 0
    issue := none
    fresh := 0
    threads := []
    cores := []
    dies := []
    launches := []
    podBars := []
    podPeers := []
    net := Net.reset
    spool := { paths := [], fibres := [], requests := [], restarting := false, resetAt := 0, accepts := 0 }
    links := { routes := [], queues := [], peers := [], allow := [], used := 0, gen := 0, retopo := none }
    host := HostIf.reset }

end Sys2Proof.Machine
end

