-- ==== Sys2Proof/Machine/Access.lean ====
section
/-! DEFINITION. Reading and replacing one part of the state: threads, cores, dies, slices, launches, registers, predicates. -/

namespace Sys2Proof.Machine

/-- An instruction's outcome. -/
abbrev Out := Host.Outcome State Fault Refusal

/-! ### Parts of the state -/

/-- The thread with a tid, if it is live. -/
def State.thread? (s : State) (tid : Tid) : Option Thread := tabGet s.threads tid.toNat

/-- The state with a thread's record replaced or added. -/
def State.setThread (s : State) (tid : Tid) (t : Thread) : State := { s with threads := tabPut s.threads tid.toNat t }

/-- The state without a thread. -/
def State.dropThread (s : State) (tid : Tid) : State := { s with threads := tabDel s.threads tid.toNat }

/-- A change of a thread, if it is live. -/
def State.modThread (s : State) (tid : Tid) (f : Thread → Thread) : State :=
  match s.thread? tid with
  | some t => s.setThread tid (f t)
  | none => s

/-- Core g = die * 256 + core. -/
def State.core (s : State) (g : Nat) : Core := tabGetD s.cores g Core.reset

/-- The state with a core replaced. -/
def State.setCore (s : State) (g : Nat) (c : Core) : State := { s with cores := tabPut s.cores g c }

/-- A change of a core. -/
def State.modCore (s : State) (g : Nat) (f : Core → Core) : State := s.setCore g (f (s.core g))

/-- Die d. -/
def State.die (s : State) (d : Nat) : Die := tabGetD s.dies d Die.reset

/-- The state with a die replaced. -/
def State.setDie (s : State) (d : Nat) (x : Die) : State := { s with dies := tabPut s.dies d x }

/-- A change of a die. -/
def State.modDie (s : State) (d : Nat) (f : Die → Die) : State := s.setDie d (f (s.die d))

/-- Slice k of die d. -/
def State.slice (s : State) (d k : Nat) : Slice := tabGetD (s.die d).slices k Slice.reset

/-- The state with a slice replaced. -/
def State.setSlice (s : State) (d k : Nat) (x : Slice) : State :=
  s.modDie d fun die => { die with slices := tabPut die.slices k x }

/-- A change of a slice. -/
def State.modSlice (s : State) (d k : Nat) (f : Slice → Slice) : State := s.setSlice d k (f (s.slice d k))

/-- A launch, if it is known. -/
def State.launch? (s : State) (lid : Nat) : Option Launch := tabGet s.launches lid

/-- The state with a launch replaced or added. -/
def State.setLaunch (s : State) (lid : Nat) (l : Launch) : State := { s with launches := tabPut s.launches lid l }

/-- A change of a launch, if it is known. -/
def State.modLaunch (s : State) (lid : Nat) (f : Launch → Launch) : State :=
  match s.launch? lid with
  | some l => s.setLaunch lid (f l)
  | none => s

/-- A change of what is in flight. -/
def State.modNet (s : State) (f : Net → Net) : State := { s with net := f s.net }

/-- A change of the host interface. -/
def State.modHost (s : State) (f : HostIf → HostIf) : State := { s with host := f s.host }

/-- A path of the path table. -/
def State.path (s : State) (p : Nat) : Path := tabGetD s.spool.paths p Path.reset

/-- A change of a path. -/
def State.modPath (s : State) (p : Nat) (f : Path → Path) : State :=
  { s with spool := { s.spool with paths := tabPut s.spool.paths p (f (s.path p)) } }

/-- A fibre. -/
def State.fibre (s : State) (f : Nat) : Fibre := tabGetD s.spool.fibres f Fibre.reset

/-- A change of a fibre. -/
def State.modFibre (s : State) (f : Nat) (g : Fibre → Fibre) : State :=
  { s with spool := { s.spool with fibres := tabPut s.spool.fibres f (g (s.fibre f)) } }

/-- A peer package. -/
def State.peer (s : State) (p : Nat) : Peer := tabGetD s.links.peers p Peer.reset

/-- A change of a peer. -/
def State.modPeer (s : State) (p : Nat) (f : Peer → Peer) : State :=
  { s with links := { s.links with peers := tabPut s.links.peers p (f (s.peer p)) } }

/-- A free value, and the state in which the next one differs (log entry 3). -/
def State.takeFree (s : State) : State := { s with fresh := s.fresh + 1 }

/-- A new request number. -/
def State.takeReq (s : State) : State := s.modNet fun n => { n with nextReq := n.nextReq + 1 }

/-- The launch id of a tid (R29). -/
def tidLaunch (tid : Tid) : Nat := tid.toNat / 0x1000000

/-- The launch-local index of a tid (R29). -/
def tidIndex (tid : Tid) : Nat := tid.toNat % 0x1000000

/-- A tid from a launch id and a launch-local index (R29). -/
def makeTid (lid ix : Nat) : Tid := BitVec.ofNat 32 (lid * 0x1000000 + ix)

/-- The threads on a core. -/
def State.threadsOn (s : State) (g : Nat) : List (Tid × Thread) :=
  (s.threads.filter fun e => e.2.core == g).map fun e => (BitVec.ofNat 32 e.1, e.2)

/-- The threads of a launch. -/
def State.threadsOf (s : State) (lid : Nat) : List (Tid × Thread) :=
  (s.threads.filter fun e => e.1 / 0x1000000 == lid).map fun e => (BitVec.ofNat 32 e.1, e.2)

/-- The core cycle a core stands at: the cycles of its die's clock (R2, R316). -/
def State.coreClock (s : State) (g : Nat) : Nat := (s.die (g / 256)).clock

/-! ### Registers and predicates of a thread -/

/-- Register n of the window; g0 reads as 0 (R22, R24). -/
def Thread.reg (t : Thread) (n : Nat) : Word := if n = 0 then 0 else tabGetD t.regs n 0

/-- Register n written; a write to g0 is discarded (R24). -/
def Thread.setReg (t : Thread) (n : Nat) (v : Word) : Thread :=
  if n = 0 then t else { t with regs := tabPut t.regs n v }

/-- A register named by a field. -/
def Thread.g (t : Thread) (r : Reg) : Word := t.reg r.toNat

/-- Predicate n (R26). -/
def Thread.pred (t : Thread) (n : BitVec 3) : Bool := t.preds.getLsbD n.toNat

/-- Predicate n written (R26). -/
def Thread.setPred (t : Thread) (n : BitVec 3) (b : Bool) : Thread :=
  let bit : BitVec 8 := (1 : BitVec 8) <<< n.toNat
  { t with preds := if b then t.preds ||| bit else t.preds &&& ~~~bit }

/-- A predicate pair written with two values, only pa where pa = pb (R138, R168, R176). -/
def Thread.setPair (t : Thread) (p : Pair) (x y : Bool) : Thread :=
  if p.pa = p.pb then t.setPred p.pa x else (t.setPred p.pa x).setPred p.pb y

/-- Register n made pending, but for g0 (R24, R32). -/
def Thread.setPending (t : Thread) (n : Nat) : Thread := if n = 0 then t else { t with pending := setAdd t.pending n }

/-- Register n no longer pending (R32). -/
def Thread.clearPending (t : Thread) (n : Nat) : Thread := { t with pending := setDel t.pending n }

/-- A pending register written by an engine, a reply or a message (R32). -/
def Thread.land (t : Thread) (n : Nat) (v : Word) : Thread := (t.setReg n v).clearPending n

/-- Flags merged into fstat; sticky (R31). -/
def Thread.raise (t : Thread) (flags : BitVec 6) : Thread :=
  { t with sp := { t.sp with fstat := t.sp.fstat ||| flags.setWidth 15 } }

/-- The loop level N (R33). -/
def Thread.loop (t : Thread) (l : Level) : LoopState :=
  match l with
  | .l0 => t.loop0
  | .l1 => t.loop1
  | .l2 => t.loop2

/-- The loop level N replaced. -/
def Thread.setLoop (t : Thread) (l : Level) (x : LoopState) : Thread :=
  match l with
  | .l0 => { t with loop0 := x }
  | .l1 => { t with loop1 := x }
  | .l2 => { t with loop2 := x }

/-- Seated in the Trapped state or Seated-ready (R38). -/
def Thread.isSeated (t : Thread) : Bool :=
  match t.status with
  | .seated .. => true
  | _ => false

/-! ### Addresses (R36, R29, R182) -/

/-- The 48-bit offset of a die-global address. -/
def eaOffset (ea : Word) : Nat := ea.slice 47 0

/-- The die field of a die-global address. -/
def eaDie (ea : Word) : Nat := ea.slice 50 48

/-- The package field of a die-global address. -/
def eaPackage (ea : Word) : Nat := ea.slice 62 51

/-- Whether an address is die-global (bit 63 = 1). -/
def eaGlobal (ea : Word) : Bool := ea.bit 63

/-- Whether an address has the own-L-store form, bits [63:61] = 000. -/
def eaLocal (ea : Word) : Bool := ea.slice 63 61 == 0

/-- Whether an address has the host form, bits [63:61] = 001. -/
def eaHost (ea : Word) : Bool := ea.slice 63 61 == 1

/-- Whether a host-form EA names host memory: its bits [60:56] are 0 (R36). -/
def eaHostOk (ea : Word) : Bool := ea.slice 63 56 == 0x20

/-- The die-global address of an offset on a die of a package. -/
def globalEA (pkg die off : Nat) : Word :=
  BitVec.ofNat 64 (2 ^ 63 + pkg * 2 ^ 51 + die * 2 ^ 48 + off % 2 ^ 48)

/-- The gcore layout of a core of a package: package [22:11], die [10:8], core [7:0] (R29). -/
def gcoreOf (pkg g : Nat) : Nat := pkg * 2048 + g

/-- Whether a remote L-store address (R182) is well laid out. -/
def remoteOk (ea : Word) : Bool :=
  ea.slice 63 62 == 1 && ea.slice 61 55 == 0 && ea.slice 31 19 == 0

/-- The gcore of a remote L-store address (R182). -/
def remoteCore (ea : Word) : Nat := ea.slice 54 32

/-- The L-store offset of a remote L-store address (R182). -/
def remoteOffset (ea : Word) : Nat := ea.slice 18 0

end Sys2Proof.Machine
end

