-- ==== Sys2Proof/Machine/Store.lean ====
section
/-! DEFINITION. Die-global memory behind the slices (spec/13): translation, lines, fills and write-backs, the stage, the wait lists of
words at their home, and the accesses the part's own units make at the line (R223, R245). -/

namespace Sys2Proof.Machine

/-! ### Physical memory of a die (R37, R313) -/

/-- The full/empty bits of 16 words of stacked DRAM from a physical address on: the words of the line that are empty. -/
def dramEmpties (die : Die) (pa : Nat) : NatSet :=
  (List.range 16).filter fun i => setHas die.dramEmpty (pa / 8 + i)

/-- The 128 bytes at a physical address (R219); every physical address is taken as memory of its die (R2, R313; log entry 106). -/
def dramBytes (die : Die) (lpddr : Bool) (pa : Nat) : Memory :=
  ((if lpddr then die.lpddr else die.dram).filter fun c => decide (pa ≤ c.1 ∧ c.1 < pa + 128)).map fun c => (c.1 - pa, c.2)

/-- A line as memory behind the slices holds it. -/
def dramLine (die : Die) (l pa : Nat) (lpddr : Bool) : Line :=
  { l := l, pa := pa, lpddr := lpddr, data := dramBytes die lpddr pa,
    empty := if lpddr then [] else dramEmpties die pa, dirty := false, zero := false }

/-- Memory behind the slices with a line's bytes and full/empty bits written (R219); see log entry 106. -/
def writeBack (die : Die) (ln : Line) : Die :=
  let bytes := ln.data.bytes 0 128
  if ln.lpddr then { die with lpddr := die.lpddr.write ln.pa bytes }
  else
    let cleared := die.dramEmpty.filter fun w => decide (w < ln.pa / 8 ∨ ln.pa / 8 + 16 ≤ w)
    { die with
      dram := die.dram.write ln.pa bytes
      dramEmpty := ln.empty.foldl (fun e i => setAdd e (ln.pa / 8 + i)) cleared }

/-! ### Homes (R218) -/

/-- The line index of an offset, offset[47:7]. -/
def lineOf (off : Nat) : Nat := off % 2 ^ 48 / 128

/-- The home slice of a line index (R218). -/
def homeSlice (l : Nat) : Nat :=
  ((l % 256) ^^^ (l / 2 ^ 8 % 256) ^^^ (l / 2 ^ 16 % 256) ^^^ (l / 2 ^ 24 % 256) ^^^ (l / 2 ^ 32 % 256)) ^^^ (l / 2 ^ 40 % 2)

/-- The set of a slice a line belongs to, one of 128 (R219). -/
def setOf (l : Nat) : Nat := Config.sliceSet l % 128

/-- The line of a slice with an index. -/
def Slice.line? (sl : Slice) (l : Nat) : Option Line := sl.lines.find? fun x => x.l == l

/-- The slice with a line replaced and made the most recently used. -/
def Slice.putLine (sl : Slice) (ln : Line) : Slice :=
  { sl with lines := (sl.lines.filter fun x => x.l != ln.l) ++ [ln] }

/-- The slice without a line. -/
def Slice.dropLine (sl : Slice) (l : Nat) : Slice := { sl with lines := sl.lines.filter fun x => x.l != l }

/-- Whether a line is pinned: a fill in flight, a staged store, or a waiter (R219). An engine write is at the line in one step and none is pending
between steps. -/
def Slice.pinned (sl : Slice) (l : Nat) : Bool :=
  sl.mshrs.any (fun m => m.l == l) || sl.stage.any (fun x => x.l == l)
    || sl.waiters.any (fun r => lineOf (eaOffset r.ea) == l)

/-- Whether a new line (with or without a data way) finds room in its set, and the victim it needs, if any (R219): the least recently
used line that is not pinned, a data line where a data way is needed. -/
def Slice.victim (sl : Slice) (l : Nat) (needData : Bool) : Bool × Option Line :=
  let here := sl.lines.filter fun x => setOf x.l == setOf l && x.l != l
  let fills := (sl.mshrs.filter fun m => setOf m.l == setOf l && m.l != l && (sl.line? m.l).isNone).length
  let data := (here.filter fun x => !x.zero).length + fills
  let tags := here.length + fills
  if needData && data ≥ 16 then
    match here.find? (fun x => !x.zero && !sl.pinned x.l) with
    | some v => (true, some v)
    | none => (false, none)
  else if tags ≥ 32 then
    match here.find? (fun x => !sl.pinned x.l) with
    | some v => (true, some v)
    | none => (false, none)
  else (true, none)

/-- A die with a line taken out of a slice, written back where it is dirty or a zero line (R219). -/
def evict (die : Die) (k : Nat) (v : Line) : Die :=
  let die := if v.dirty || v.zero then writeBack die v else die
  { die with slices := tabPut die.slices k ((tabGetD die.slices k Slice.reset).dropLine v.l) }

/-- Room made in a slice for a line: the die after the victim has gone, or nothing where every candidate is pinned. -/
def makeRoom (die : Die) (k l : Nat) (needData : Bool) : Option Die :=
  match (tabGetD die.slices k Slice.reset).victim l needData with
  | (true, some v) => some (evict die k v)
  | (true, none) => some die
  | (false, _) => none

/-! ### Translation (R225, R313) -/

/-- The physical word at an address of a die's stacked DRAM, as a walker reads it: from the line where a slice holds it. -/
def physWord (die : Die) (pa : Nat) : Word :=
  let base := pa / 128 * 128
  let held := die.slices.findSome? fun e => e.2.lines.find? fun x => x.pa == base && !x.lpddr
  match held with
  | some ln => ln.data.word (pa % 128)
  | none => die.dram.word pa

/-- The word at an address the host configured: host memory for the host form, physical stacked DRAM of the named die for a
die-global address, of this die otherwise (log entry 13). -/
def physAt (s : State) (d : Nat) (a : Word) : Word :=
  if eaHostOk a then s.host.memory.word (a.slice 55 0)
  else if eaGlobal a then physWord (s.die (eaDie a)) (eaOffset a)
  else physWord (s.die d) a.toNat

/-- A page-table entry: valid with its reserved fields 0 (R313). -/
def pteOk (e : Word) : Bool := e.bit 0 && e.slice 7 5 == 0 && e.slice 63 48 == 0

/-- The address field of a page-table entry, [47:8] (R313). -/
def pteAddr (e : Word) : Nat := e.slice 47 8 * 256

/-- The leaf of a page-table entry; no address of its field is refused for its size (R313; log entry 106). -/
def pteLeaf (e : Word) (off : Nat) (big : Bool) : Xlat :=
  let size := if big then 2 ^ 21 else 2 ^ 16
  { vbase := off / size * size, pbase := pteAddr e / size * size, big := big, r := e.bit 2, w := e.bit 3, lpddr := e.bit 4 }

/-- The walk of a die's page table for an offset (R313). -/
def walk (s : State) (d off : Nat) : Option Xlat :=
  let die := s.die d
  let root := physAt s d (s.host.ptBase + BitVec.ofNat 64 (8 * d))
  let e1 := physWord die (root.toNat % 2 ^ 48 + 8 * (off / 2 ^ 39 % 512))
  if !pteOk e1 then none
  else
    let e2 := physWord die (pteAddr e1 + 8 * (off / 2 ^ 30 % 512))
    if !pteOk e2 then none
    else
      let e3 := physWord die (pteAddr e2 + 8 * (off / 2 ^ 21 % 512))
      if !pteOk e3 then none
      else if e3.bit 1 then some (pteLeaf e3 off true)
      else
        let e4 := physWord die (pteAddr e3 + 8 * (off / 2 ^ 16 % 32))
        if pteOk e4 then some (pteLeaf e4 off false) else none

/-- The translation of an offset in a TLB. -/
def Slice.tlb? (sl : Slice) (off : Nat) : Option Xlat :=
  sl.tlb.find? fun x => decide (x.vbase ≤ off ∧ off < x.vbase + (if x.big then 2 ^ 21 else 2 ^ 16))

/-- A TLB with a translation added, the oldest of 512 going where it is full (R225). -/
def Slice.addTlb (sl : Slice) (x : Xlat) : Slice :=
  let kept := if sl.tlb.length ≥ 512 then sl.tlb.drop 1 else sl.tlb
  { sl with tlb := kept ++ [x] }

/-- The physical address of an offset under a translation. -/
def Xlat.pa (x : Xlat) (off : Nat) : Nat := x.pbase + (off - x.vbase)

/-- The translation a unit of the part uses at an offset's home slice: its TLB, else a walk, which fills the TLB. -/
def translate (s : State) (d off : Nat) : State × Option Xlat :=
  let k := homeSlice (lineOf off)
  match (s.slice d k).tlb? off with
  | some x => (s, some x)
  | none =>
    match walk s d off with
    | some x => (s.modSlice d k fun sl => sl.addTlb x, some x)
    | none => (s, none)

/-! ### Wait lists at the home (R128) -/

/-- A reply of a slice put on its way. -/
def sendNote (s : State) (slice core : Nat) (n : Note) : State :=
  s.modNet fun net => { net with notes := net.notes ++ [{ slice := slice, core := core, note := n }] }

/-- Whether the word of a waiter's address is full in a line. -/
def Line.full (ln : Line) (i : Nat) : Bool := !setHas ln.empty i

/-- The line with a word's full/empty bit set; a zero line whose bits do not change stays one (R221). -/
def Line.setFull (ln : Line) (i : Nat) (full : Bool) : Line :=
  if ln.lpddr then ln
  else { ln with empty := if full then setDel ln.empty i else setAdd ln.empty i, dirty := true, zero := ln.zero && full }

/-- The line with bytes written; a zero line whose bytes do not change stays one (R221). -/
def Line.write (ln : Line) (off : Nat) (bytes : List Byte) : Line :=
  { ln with data := ln.data.write off bytes, dirty := true, zero := ln.zero && bytes.all (· == 0) }

/-- One pass over the waiters of word i, oldest first (R128): the line, the waiters left, the replies, whether one was served. -/
def servePass (ln : Line) (i : Nat) : List Req → Line × List Req × List (Req × List Byte) × Bool
  | [] => (ln, [], [], false)
  | q :: qs =>
    if lineOf (eaOffset q.ea) ≠ ln.l ∨ eaOffset q.ea % 128 / 8 ≠ i then
      let (ln', rest, out, b) := servePass ln i qs
      (ln', q :: rest, out, b)
    else
      match q.kind with
      | .ldf _ =>
        if ln.full i then
          let (ln', rest, out, _) := servePass ln i qs
          (ln', rest, (q, ln.data.bytes (8 * i) 8) :: out, true)
        else
          let (ln', rest, out, b) := servePass ln i qs
          (ln', q :: rest, out, b)
      | .lde _ =>
        if ln.full i then
          let (ln', rest, out, _) := servePass (ln.setFull i false) i qs
          (ln', rest, (q, ln.data.bytes (8 * i) 8) :: out, true)
        else
          let (ln', rest, out, b) := servePass ln i qs
          (ln', q :: rest, out, b)
      | .stf v _ =>
        if ln.full i then
          let (ln', rest, out, b) := servePass ln i qs
          (ln', q :: rest, out, b)
        else
          let (ln', rest, out, _) := servePass ((ln.write (8 * i) (wordLE v 8)).setFull i true) i qs
          (ln', rest, (q, []) :: out, true)
      | _ =>
        let (ln', rest, out, b) := servePass ln i qs
        (ln', q :: rest, out, b)

/-- Passes over the wait list until one serves nothing (R128). -/
def serveAll : Nat → Line → Nat → List Req → Line × List Req × List (Req × List Byte)
  | 0, ln, _, ws => (ln, ws, [])
  | fuel + 1, ln, i, ws =>
    let (ln', ws', out, again) := servePass ln i ws
    if again then
      let (ln'', ws'', out') := serveAll fuel ln' i ws'
      (ln'', ws'', out ++ out')
    else (ln', ws', out)

/-- The erroneous words a write of n bytes leaves: it replaces those it covers whole. -/
def wordsLeft (errors : NatSet) (off n : Nat) : NatSet := errors.filter fun w => !(decide (off ≤ 8 * w) && decide (8 * w + 8 ≤ off + n))

/-- The first erroneous word a read of n bytes meets. -/
def wordMet (errors : NatSet) (off n : Nat) : Option Nat := errors.find? fun w => decide (off < 8 * w + 8) && decide (8 * w < off + n)

/-- The words of a die that a write covers whole hold no error any more (R299). -/
def dieWritten (s : State) (d off n : Nat) : State :=
  if (s.die d).errors.isEmpty then s else s.modDie d fun die => { die with errors := wordsLeft die.errors off n }

/-- The reply to a waiter served, whose bytes are none for a store: what it stored replaces an error, and a read that meets one is marked, flags
bit 6 (R299). -/
def sendServed (s : State) (d k : Nat) (r : Req) (bytes : List Byte) : State :=
  let off := eaOffset r.ea
  if bytes.isEmpty then sendNote (dieWritten s d off 8) (d * 256 + k) r.core (.reply r [] 0)
  else sendNote s (d * 256 + k) r.core (.reply r bytes (if (wordMet (s.die d).errors off 8).isSome then 64 else 0))

/-- A line put into a slice with the waiters of some of its words served, and the replies sent (R128). -/
def putServed (s : State) (d : Nat) (ln : Line) (words : List Nat) : State :=
  let k := homeSlice ln.l
  let sl := s.slice d k
  let (ln', ws, out) := words.foldl
    (fun (acc : Line × List Req × List (Req × List Byte)) i =>
      let (x, y, z) := serveAll (sl.waiters.length + 1) acc.1 i acc.2.1
      (x, y, acc.2.2 ++ z))
    (ln, sl.waiters, [])
  out.foldl (fun s r => sendServed s d k r.1 r.2) (s.setSlice d k { sl.putLine ln' with waiters := ws })

/-! ### Accesses at the line (R223, R245) -/

/-- Whether the line's fill is in flight and has not landed (R220). -/
def Slice.filling (sl : Slice) (l : Nat) : Bool := (sl.line? l).isNone && sl.mshrs.any fun m => m.l == l

/-- Whether an engine's access to a line is at it now: no request that reached the slice before waits for the line, and the line has the way it
needs (R219 to R223, R245). -/
def lineReady (s : State) (d l : Nat) (w : Bool) : Bool :=
  let sl := s.slice d (homeSlice l)
  let here (r : Req) : Bool := lineOf (eaOffset r.ea) == l
  !(sl.mshrs.any fun m => m.l == l) && !sl.ingress.any here && !sl.walks.any here &&
    match sl.line? l with
    | some ln => !(ln.zero && (w || sl.stage.any fun x => x.l == l)) || (sl.victim l true).1
    | none => (sl.victim l true).1

/-- The line at an offset, the most recently used now, brought into its slice, or as memory holds it where every candidate victim is pinned (log entry 91). -/
def fetchLine (s : State) (d l pa : Nat) (lpddr : Bool) : State × Line :=
  let k := homeSlice l
  match (s.slice d k).line? l with
  | some ln => (s.modSlice d k fun sl => sl.putLine ln, ln)
  | none =>
    let ln := dramLine (s.die d) l pa lpddr
    match makeRoom (s.die d) k l true with
    | some die =>
      let s := s.setDie d die
      (s.modSlice d k fun sl => sl.putLine ln, ln)
    | none => (s, ln)

/-- A changed line stored: in its slice where the slice holds it, else in memory. A zero line that becomes a data line takes a data way, which a
request or an engine access has made sure of (R221; log entry 91). -/
def storeLine (s : State) (d : Nat) (ln : Line) (words : List Nat) : State :=
  let k := homeSlice ln.l
  match (s.slice d k).line? ln.l with
  | some old =>
    let die := s.die d
    let s := if old.zero && !ln.zero then s.setDie d ((makeRoom die k ln.l true).getD die) else s
    putServed s d ln words
  | none =>
    let s := s.modDie d fun die => writeBack die ln
    let served := putServed s d ln words
    match (served.slice d k).line? ln.l with
    | some ln' => (served.modDie d fun die => writeBack die ln').modSlice d k fun sl => sl.dropLine ln.l
    | none => served

/-- Whether a write of n bytes meets an uncorrectable error: it writes a word that holds one in part (R299). -/
def writeMet (errors : NatSet) (off n : Nat) : Bool := (wordMet (wordsLeft errors off n) off n).isSome

/-- One staged store performed: written into its line, and its performed notice sent (R222); one that meets an uncorrectable error writes nothing, and
its notice says so (R299). -/
def performStaged (s : State) (d : Nat) (x : Staged) : State :=
  let k := homeSlice x.l
  let off := 128 * x.l + x.off
  let s := s.modSlice d k fun sl => { sl with stage := sl.stage.filter fun y => y.id != x.id }
  if writeMet (s.die d).errors off x.bytes.length then
    sendNote s (d * 256 + k) x.core (.spoiled x.id x.tid (globalEA s.cfg.package d off))
  else
  let s :=
    if x.na && ((s.slice d k).line? x.l).isNone then
      s.modDie d fun die => writeBack die ((dramLine die x.l x.pa x.lpddr).write x.off x.bytes)
    else
      let (s, ln) := fetchLine s d x.l x.pa x.lpddr
      storeLine s d (ln.write x.off x.bytes) []
  let s := dieWritten s d off x.bytes.length
  sendNote s (d * 256 + k) x.core (.performed x.id x.tid)

/-- Every store staged for a line performed, in staging order (R223). -/
def flushStage (s : State) (d l : Nat) : State :=
  ((s.slice d (homeSlice l)).stage.filter fun x => x.l == l).foldl (fun s x => performStaged s d x) s

/-- The line at a translated offset, its staged stores performed first: what an access of R223 acts on. An engine's access waits while the line has
a miss list (lineReady); the part's other units act on memory before its fill lands, and leave its staged stores in their order (log entry 91). -/
def lineAt (s : State) (d off : Nat) (x : Xlat) : State × Line :=
  let l := lineOf off
  let sl := s.slice d (homeSlice l)
  if sl.filling l then (s, dramLine (s.die d) l (x.pa (l * 128)) x.lpddr)
  else
    let s := if sl.mshrs.any fun m => m.l == l then s else flushStage s d l
    fetchLine s d l (x.pa (l * 128)) x.lpddr

/-- The pieces of a run of bytes that lie in one line each: offset and length. -/
def pieces (off n : Nat) : List (Nat × Nat) :=
  let first := min n (128 - off % 128)
  let rest := n - first
  let full := (List.range (rest / 128)).map fun i => (off + first + 128 * i, 128)
  let last := rest % 128
  (if first = 0 then [] else [(off, first)]) ++ full ++ (if last = 0 then [] else [(off + rest + first - last, last)])

/-- Whether an engine's access to a run of bytes is at every line of it now (lineReady). -/
def rangeReady (s : State) (d off n : Nat) (w : Bool) : Bool := (pieces off n).all fun p => lineReady s d (lineOf p.1) w

/-- The lines of a run of bytes that an engine has left wholly 0 and full, as zero lines (R221). -/
def zeroLines (s : State) (d off n : Nat) : State :=
  (pieces off n).foldl
    (fun s p => s.modSlice d (homeSlice (lineOf p.1)) fun sl =>
      { sl with lines := sl.lines.map fun ln =>
          if ln.l == lineOf p.1 && p.2 == 128 && ln.data.isEmpty && ln.empty.isEmpty && !ln.lpddr then { ln with zero := true, dirty := true }
          else ln })
    s

/-- A read of n bytes at the line on a die, if every page is readable; the units of the part make it (R245). -/
def dieRead (s : State) (d off n : Nat) : State × Option (List Byte) :=
  (pieces off n).foldl
    (fun (acc : State × Option (List Byte)) p =>
      match acc with
      | (s, none) => (s, none)
      | (s, some bs) =>
        match translate s d p.1 with
        | (s, some x) =>
          if x.r then
            let (s, ln) := lineAt s d p.1 x
            (s, some (bs ++ ln.data.bytes (p.1 % 128) p.2))
          else (s, none)
        | (s, none) => (s, none))
    (s, some [])

/-- Whether every page of a range on a die is mapped with a permission. -/
def rangeMapped (s : State) (d off n : Nat) (w : Bool) : Bool :=
  (pieces off n).all fun p =>
    match (translate s d p.1).2 with
    | some x => if w then x.w else x.r
    | none => false

/-- The words of a line that a run of bytes touches. -/
def wordsOf (off n : Nat) : List Nat :=
  if n = 0 then [] else (List.range ((off % 128 + n - 1) / 8 - off % 128 / 8 + 1)).map fun i => off % 128 / 8 + i

/-- A write of one piece at its line; with fill, each word touched is set full and its waiters served (R248). A whole line of zeros left
full becomes a zero line (R221). -/
def writePiece (s : State) (d off : Nat) (x : Xlat) (bytes : List Byte) (fill : Bool) : State :=
  let (s, ln) := lineAt s d off x
  let ws := wordsOf off bytes.length
  let ln := ln.write (off % 128) bytes
  let ln := if fill then ws.foldl (fun ln i => ln.setFull i true) ln else ln
  let ln := if fill && bytes.length == 128 && (bytes.all fun b => b == 0) && !ln.lpddr then { ln with zero := true } else ln
  storeLine (dieWritten s d off bytes.length) d ln (if fill then ws else [])

/-- A write of bytes at the line on a die, where every page is writable: each line in turn, whole words at a time. -/
def dieWrite (s : State) (d off : Nat) (bytes : List Byte) (fill : Bool) : State × Bool :=
  if rangeMapped s d off bytes.length true then
    ((pieces off bytes.length).foldl
      (fun (acc : State × List Byte) p =>
        match translate acc.1 d p.1 with
        | (s, some x) => (writePiece s d p.1 x (acc.2.take p.2) fill, acc.2.drop p.2)
        | (s, none) => (s, acc.2.drop p.2))
      (s, bytes)).1 |> fun s => (s, true)
  else (s, false)

/-- A read by a unit of the package at a host or die-global address. -/
def partRead (s : State) (ea : Word) (n : Nat) : State × Option (List Byte) :=
  if eaHostOk ea then (s, some (s.host.memory.bytes (ea.slice 55 0) n))
  else if eaGlobal ea && eaPackage ea == s.cfg.package then dieRead s (eaDie ea) (eaOffset ea) n
  else (s, none)

/-- A write by a unit of the package at a host or die-global address; full/empty bits are not changed. -/
def partWrite (s : State) (ea : Word) (bytes : List Byte) : State × Bool :=
  if eaHostOk ea then (s.modHost fun h => { h with memory := h.memory.write (ea.slice 55 0) bytes }, true)
  else if eaGlobal ea && eaPackage ea == s.cfg.package then dieWrite s (eaDie ea) (eaOffset ea) bytes false
  else (s, false)

/-! ### I-stores (R59) -/

/-- Every copy of the code lines that a run of bytes of a die touches dropped from the I-stores of the die's cores in normal mode (R59, R133). -/
def dropCode (s : State) (d off n : Nat) : State :=
  let reached (base : Word) : Bool := let a := eaOffset base; eaDie base == d && decide (a < off + n ∧ off < a + 64)
  { s with
    cores := s.cores.map fun e =>
      if e.1 / 256 = d ∧ e.2.iss.segment = none then
        (e.1, { e.2 with iss := { e.2.iss with istore := e.2.iss.istore.filter fun c => !reached c.base } })
      else e }

end Sys2Proof.Machine
end

