-- ==== Sys2Proof/Machine/Ops.lean ====
section
/-! DEFINITION. The named operations every meaning is written over: event records, seats and states of threads, flow of control with its
loop-end check, taking an exception and returning from it, parking, killing and retiring, L-store access and its wait lists. -/

namespace Sys2Proof.Machine

/-! ### Event records (R301, R302) -/

/-- The 64 bytes of an event record (R301). -/
def eventBytes (pkg : Nat) (r : EventRec) : List Byte :=
  natLE (r.type + pkg * 2 ^ 16 + r.die * 2 ^ 28 + r.core * 2 ^ 32) 8 ++ natLE r.tid.toNat 8 ++ wordLE r.stamp 8
    ++ natLE r.seq 8 ++ (List.range 4).flatMap fun i => wordLE (r.detail.getD i 0) 8

/-- One record written to the event area (R308). -/
def storeEvent (s : State) (r : EventRec) : State :=
  let at_ := s.host.evBase + BitVec.ofNat 64 (64 * (s.host.evProd % s.host.evSize))
  let s := (partWrite s at_ (eventBytes s.cfg.package r)).1
  s.modHost fun h => { h with evProd := h.evProd + 1 }

/-- Whether the event area has a free record (R308). -/
def eventSpace (s : State) : Bool := decide (s.host.evProd - s.host.evCons < s.host.evSize)

/-- An event record produced: written, held, or dropped and counted (R301). -/
def emit (s : State) (type die core : Nat) (tid : Tid) (detail : List Word) : State :=
  let r : EventRec :=
    { type := type, die := die, core := core, tid := tid, stamp := s.cycle, seq := s.host.evSeq, detail := detail }
  let s := s.modHost fun h => { h with evSeq := h.evSeq + 1 }
  if s.host.evHeld.isEmpty && s.host.dropped == 0 && eventSpace s then storeEvent s r
  else if s.host.evHeld.length < 256 then s.modHost fun h => { h with evHeld := h.evHeld ++ [r] }
  else s.modHost fun h => { h with evDrop := h.evDrop + 1, dropped := h.dropped + 1 }

/-- An event record about a thread. -/
def emitThread (s : State) (type : Nat) (tid : Tid) (t : Thread) (detail : List Word) : State :=
  emit s type (t.core / 256) (t.core % 256) tid detail

/-! ### Seats and seat queues (R203, R206, R208) -/

/-- The thread that holds a seat of a core. -/
def seatHolder (s : State) (g seat : Nat) : Option (Tid × Thread) :=
  (s.threadsOn g).find? fun e =>
    match e.2.status with
    | .seated k _ => k == seat
    | _ => false

/-- The seat queue of a priority class (R208). -/
def CoreIssue.queue (c : CoreIssue) (prio : Nat) : List Tid :=
  match prio with
  | 0 => c.queue0
  | 1 => c.queue1
  | 2 => c.queue2
  | _ => c.queue3

/-- The issue side with the queue of a class replaced. -/
def CoreIssue.setQueue (c : CoreIssue) (prio : Nat) (q : List Tid) : CoreIssue :=
  match prio with
  | 0 => { c with queue0 := q }
  | 1 => { c with queue1 := q }
  | 2 => { c with queue2 := q }
  | _ => { c with queue3 := q }

/-- A queue with a thread at its tail, before those that joined it in the same core cycle from higher contexts (R208; log entry 61). -/
def insertReady (s : State) (now ctx : Nat) (tid : Tid) : List Tid → List Tid
  | [] => [tid]
  | x :: xs =>
    let later : Bool := match s.thread? x with
      | some t => t.io.readyAt == now && t.status == .ready && decide (ctx < t.ctx.getD 0)
      | none => false
    if later then tid :: x :: xs else x :: insertReady s now ctx tid xs

/-- A thread at the tail of its class's seat queue; those that join it in one core cycle stand in order of context (R208). -/
def joinQueue (s : State) (tid : Tid) (t : Thread) : State :=
  let now := s.coreClock t.core
  (s.modCore t.core fun c =>
    { c with iss := c.iss.setQueue t.prio (insertReady s now (t.ctx.getD 0) tid (c.iss.queue t.prio)) }).setThread tid
    { t with io := { t.io with readyAt := now } }

/-- A thread out of every seat queue of its core. -/
def leaveQueues (s : State) (g : Nat) (tid : Tid) : State :=
  s.modCore g fun c =>
    { c with iss := { c.iss with
        queue0 := c.iss.queue0.erase tid
        queue1 := c.iss.queue1.erase tid
        queue2 := c.iss.queue2.erase tid
        queue3 := c.iss.queue3.erase tid } }

/-- A thread whose wait is over becomes Ready-unseated, or Faulted where a posted store of it has faulted (R124, R208). -/
def makeReady (s : State) (tid : Tid) : State :=
  match s.thread? tid with
  | none => s
  | some t =>
    if t.io.storeFault && !t.io.dying then
      s.setThread tid { t with status := .faulted, io := { t.io with faultedAt := s.coreClock t.core } }
    else joinQueue (s.setThread tid { t with status := .ready }) tid { t with status := .ready }

/-- A thread parks: it leaves its seat (R206). -/
def parkThread (s : State) (tid : Tid) (p : Park) : State := s.modThread tid fun t => { t with status := .parked p }

/-! ### Flow of control (R75, R78, R256) -/

/-- The base of the line an IA lies in (R58). -/
def lineBase (ia : Word) : Word := ia &&& ~~~(63 : Word)

/-- The head index of an IA (R58). -/
def headIndex (ia : Word) : Nat := ia.slice 5 1

/-- The IA after the head at an IA whose L bit is given (R75). -/
def nextIA (ia : Word) (last : Bool) : Word := if last then lineBase ia + 64 else ia + 2

/-- Whether a thread's launch runs in travelling mode. -/
def travelling (s : State) (tid : Tid) : Bool :=
  match s.launch? (tidLaunch tid) with
  | some l => l.desc.travelling
  | none => false

/-- The segment of a launch that holds an IA (R253). -/
def segmentOf (l : Launch) (ia : Word) : Option Segment :=
  l.segments.find? fun g => decide (g.base.toNat ≤ ia.toNat ∧ ia.toNat < g.base.toNat + g.len)

/-- The replica of a segment a thread is sent to: index tid mod replica count (R146, R256). -/
def replicaOf (g : Segment) (tid : Tid) : Nat := g.reps.getD (tid.toNat % g.reps.length) 0

/-- Whether a core pins the segment. -/
def pins (s : State) (core : Nat) (g : Segment) : Bool := (s.core core).iss.segment == some g.id

/-- The park of a thread that flows to a segment its core does not pin (R146, R255, R256): it fetches the map entry, or departs. One that is to skip
the head there stands at its loop until it has (R77). -/
def shipTo (s : State) (tid : Tid) (t : Thread) (l : Launch) (g : Segment) (target : Word) (skip : SkipMark) : State :=
  let t := if skip.isSome then t else { t with pc := target }
  if (s.core t.core).iss.mapCache.contains g.id then
    s.setThread tid { t with status := .parked (.departure (replicaOf g tid) target l.mapVer skip) }
  else
    (s.setThread tid { t with status := .parked (.reply .again) }).modNet fun n =>
      { n with maps := n.maps ++ [{ tid := tid, seg := some g.id, cont := .depart target skip }] }

/-- Where flow goes in travelling mode. -/
inductive FlowTo where
  | here
  | ship (l : Launch) (g : Segment)
  | nowhere
  deriving DecidableEq, Repr

/-- Whether flow to an IA stays on the core, ships the thread, or reaches no segment (R76, R256). -/
def flowTo (s : State) (tid : Tid) (core : Nat) (target : Word) : FlowTo :=
  match s.launch? (tidLaunch tid) with
  | none => .here
  | some l =>
    if !l.desc.travelling then .here
    else match segmentOf l target with
      | none => .nowhere
      | some g => if pins s core g then .here else .ship l g

/-! ### Killing (R143) -/

/-- A thread out of every list it waits in: the part keeps no trace of it there (R129). -/
def leaveLists (s : State) (tid : Tid) (t : Thread) : State :=
  let s := leaveQueues s t.core tid
  let s := s.modCore t.core fun c =>
    { c with
      waiters := c.waiters.filter fun w => w.tid != tid
      mx := { c.mx with passing := c.mx.passing.filter (· != tid), takes := c.mx.takes.filter (· != tid) } }
  let d := t.core / 256
  let gone := ((s.die d).slices.flatMap fun e => e.2.waiters.filter fun q => q.tid == tid).map (·.id)
  let s := s.modDie d fun die =>
    { die with slices := die.slices.map fun e => (e.1, { e.2 with waiters := e.2.waiters.filter fun q => q.tid != tid }) }
  let s := s.modCore t.core fun c =>
    { c with port := { c.port with
        loads := c.port.loads.filter fun e => !gone.contains e.1
        unacked := c.port.unacked.filter fun q => !gone.contains q.id } }
  let s :=
    { s with
      cores := s.cores.map fun (e : Nat × Core) =>
        (e.1, { e.2 with iss := { e.2.iss with slotRequests := e.2.iss.slotRequests.filter (· != tid) } }) }
  s.modNet fun n => { n with maps := n.maps.filter fun m => m.tid != tid }

/-- A killed thread out of every wait list, its receives and the messages that wait for it discarded (R143 steps 1 and 2). -/
def withdraw (s : State) (tid : Tid) (t : Thread) : State :=
  (leaveLists s tid t).modCore t.core fun c =>
    { c with
      msg := { c.msg with
        posted := c.msg.posted.filter fun p => p.tid != tid
        overflow := c.msg.overflow.filter fun o => o.dst != tid
        refused := c.msg.refused.filter fun r => r.1 != tid } }

/-- Word 0 of a landing slot among an L-store's words (R257). -/
def slotWord (s : State) (k : Nat) : Nat := (s.cfg.lcap - 0x22000 + k * 0x4400) / 8

/-- A core with a landing slot freed, whose word 0 becomes empty (R258). -/
def Core.freeSlot (c : Core) (k w : Nat) : Core := { c with iss := { c.iss with slots := tabDel c.iss.slots k }, lempty := setAdd c.lempty w }

/-- A landing slot of a core freed (R258); its waiters are served with the step (lserveWaiting). -/
def freeSlot (s : State) (g k : Nat) : State := s.modCore g fun c => c.freeSlot k (slotWord s k)

/-- A landing slot of a thread freed: of a pre-empted launch, in what is kept of its core. -/
def freeThreadSlot (s : State) (tid : Tid) (t : Thread) (k : Nat) : State :=
  match (s.launch? (tidLaunch tid)).map (·.phase) with
  | some (Phase.preempted _) =>
    s.modLaunch (tidLaunch tid) fun l =>
      { l with savedCores := l.savedCores.map fun (e : Nat × Core) => if e.1 = t.core then (e.1, e.2.freeSlot k (slotWord s k)) else e }
  | _ => freeSlot s t.core k

/-- The tiles of a window discarded (R83). -/
def dropTiles (s : State) (g base n : Nat) : State :=
  s.modCore g fun c => { c with mx := { c.mx with tiles := c.mx.tiles.filter fun e => decide (e.1 < base ∨ base + n ≤ e.1) } }

/-- A thread's context, window, tiles and landing slot released, and the thread gone (R83, R258). -/
def retireThread (s : State) (tid : Tid) : State :=
  match s.thread? tid with
  | none => s
  | some t =>
    let s := if t.ctx.isSome then dropTiles s t.core t.tbase t.tcount else s
    let s := match t.io.landing with
      | some k => freeThreadSlot s tid t k
      | none => s
    let s := s.modLaunch (tidLaunch tid) fun l => { l with pool := l.pool.filter (· != tid) }
    s.dropThread tid

/-- A kill reaches its target (R143): a target without a context is gone with its record, unless a posted store of it is still to be served;
one in flight is killed when it lands, and any other leaves its lists and waits to retire. -/
def killThread (s : State) (tid : Tid) : State :=
  match s.thread? tid with
  | none => s
  | some t =>
    match t.status with
    | .inFlight .. => s.setThread tid { t with io := { t.io with dying := true } }
    | .pooled | .spilled .. | .blocked .. => if t.io.storeFault then dying s tid t else retireThread (withdraw s tid t) tid
    | _ => if t.ctx.isNone && !t.io.storeFault then retireThread (withdraw s tid t) tid else dying s tid t
where
  dying (s : State) (tid : Tid) (t : Thread) : State :=
    (withdraw s tid t).setThread tid
      { t with status := .parked .exit, stroke := none, io := { t.io with dying := true, record := none, lent := false, woken := false } }

/-! ### Taking an exception and returning from one (R292, R80) -/

/-- The value tgsel takes at trap entry: p0 to p7 in [7:0], gsel in [16:8] (R29). -/
def tgselOf (t : Thread) : Word := ((t.sp.gsel ++ t.preds).setWidth 64)

/-- The thread after trap entry with a cause and a value (R292); a Trapped thread's quantum does not end (R209). -/
def Thread.enterTrap (t : Thread) (ia : Word) (cause : Nat) (value : Word) : Thread :=
  { t with
    sp := { t.sp with tepc := ia, tcause := BitVec.ofNat 64 cause, tval := value, tgsel := tgselOf t }
    privileged := true
    handler := true
    entries := t.entries + 1
    io := { t.io with quantumDue := false }
    pc := t.sp.tvb + BitVec.ofNat 64 (64 * cause) }

/-- Trap entry with fuel for the entries that a vector outside every segment makes in turn (R292, R256). -/
def trapFuel : Nat → State → Tid → Word → Nat → Word → State
  | 0, s, _, _, _, _ => s
  | fuel + 1, s, tid, ia, cause, value =>
    match s.thread? tid with
    | none => s
    | some t =>
      if !t.sp.tvb.bit 63 then
        killThread (emitThread s 0x0010 tid t [BitVec.ofNat 64 cause, value, if cause = 0x09 then t.pc else ia]) tid
      else if t.entries + 1 ≥ 8 then
        killThread (emitThread s 0x0011 tid t [BitVec.ofNat 64 cause, value, ia]) tid
      else
        let t' := t.enterTrap ia cause value
        match flowTo s tid t.core t'.pc with
        | .here => s.setThread tid t'
        | .ship l g => shipTo (s.setThread tid t') tid t' l g t'.pc none
        | .nowhere => trapFuel fuel (s.setThread tid t') tid ia 0x0D t'.pc

/-- Taking an exception (R292): tepc, tcause, tval and tgsel are saved, the thread becomes privileged, and flow goes to tvb + 64 * cause;
with no vector, or on the eighth entry without an eret between, the thread is killed with an event record. -/
def trapEntry (s : State) (tid : Tid) (ia : Word) (cause : Nat) (value : Word) : State := trapFuel 9 s tid ia cause value

/-- Cause 0x11, an uncorrectable register-file error: no entry, the thread is killed and REGFILE written (R292). -/
def registerError (s : State) (tid : Tid) (reg : Nat) : State :=
  match s.thread? tid with
  | none => s
  | some t => killThread (emitThread s 0x0012 tid t [BitVec.ofNat 64 reg]) tid

/-- Whether a thread is privileged outside a handler: in a supervisor launch (R22, R80). -/
def launchPrivilege (s : State) (tid : Tid) : Bool :=
  match s.launch? (tidLaunch tid) with
  | some l => l.desc.supervisor
  | none => false

/-- The thread after a return from its handler (R80): gsel and predicates from tgsel, the privilege held before entry. -/
def Thread.leaveTrap (t : Thread) (priv : Bool) : Thread :=
  { t with
    sp := { t.sp with gsel := t.sp.tgsel.extractLsb' 8 9 }
    preds := t.sp.tgsel.extractLsb' 0 8
    privileged := priv
    handler := false
    entries := 0 }

/-! ### Completing an instruction -/

/-- The loop-end check of one level (R78): the thread, and whether flow returned to the body's start. -/
def loopEnd (t : Thread) (l : Level) (ia : Word) : Thread × Bool :=
  let x := t.loop l
  if x.active && x.stop == ia then
    let lc := if x.lc = 0 then 0 else x.lc - 1
    if lc = 0 then (t.setLoop l { x with lc := 0, active := false }, false)
    else ({ t.setLoop l { x with lc := lc } with pc := x.start }, true)
  else (t, false)

/-- The loop-end checks of an instruction at an IA that completed with sequential flow (R78): levels 2, 1, 0 in turn, else flow to the given
next head. -/
def seqFlow (t : Thread) (ia next : Word) : Thread :=
  match loopEnd t .l2 ia with
  | (t, true) => t
  | (t, false) =>
    match loopEnd t .l1 ia with
    | (t, true) => t
    | (t, false) =>
      match loopEnd t .l0 ia with
      | (t, true) => t
      | (t, false) => { t with pc := next }

/-- The thread after an instruction at an IA completed with sequential flow (R78). -/
def seqThread (t : Thread) (ia : Word) (last : Bool) : Thread := seqFlow t ia (nextIA ia last)

/-- Flow of a thread to its pc from the instruction at an IA: it stays, ships, or traps with cause 0x0D (R256; log entry 46). -/
def settleFlow (s : State) (tid : Tid) (ia : Word) (t : Thread) : State :=
  match flowTo s tid t.core t.pc with
  | .here => s.setThread tid t
  | .ship l g => shipTo s tid t l g t.pc none
  | .nowhere => trapEntry (s.setThread tid t) tid ia 0x0D t.pc

/-- The instruction at a thread's IA completes with sequential flow. -/
def completeSeq (s : State) (tid : Tid) (ia : Word) (last : Bool) : State :=
  match s.thread? tid with
  | none => s
  | some t => settleFlow s tid ia (seqThread t ia last)

/-- Whether a thread is parked. -/
def Thread.isParked (t : Thread) : Bool :=
  match t.status with
  | .parked _ => true
  | _ => false

/-- The park a thread stands in, or was evicted in and still waits in (R144). -/
def Thread.park? (t : Thread) : Option Park :=
  match t.status, t.io.kept with
  | .parked p, _ => some p
  | .pooled, some (p, none) => some p
  | _, _ => none

/-- A thread that waits in a park waits in another. -/
def Thread.repark (t : Thread) (p : Park) : Thread :=
  match t.status with
  | .parked _ => { t with status := .parked p }
  | _ => { t with io := { t.io with kept := some (p, none) } }

/-- What comes for the park an evicted thread waits in, kept until it is seated again (R144; log entry 93). -/
def keepEnd (s : State) (tid : Tid) (t : Thread) (e : KeptEnd) : State :=
  match t.status, t.io.kept with
  | .pooled, some (p, none) => s.setThread tid { t with io := { t.io with kept := some (p, some e) } }
  | _, _ => s

/-- A waiting thread takes an exception at its IA (R292): it is Ready-unseated in its handler, unless that kills or ships it. -/
def trapWaiting (s : State) (tid : Tid) (cause : Nat) (value : Word) : State :=
  match s.thread? tid with
  | none => s
  | some t =>
    if t.io.dying then s
    else if !t.isParked then keepEnd s tid t (.trap cause value)
    else
      let s := trapEntry s tid t.pc cause value
      match s.thread? tid with
      | some t' => if t'.status == t.status && !t'.io.dying then makeReady s tid else s
      | none => s

/-- A parked thread's reason resolves: the instruction completes or will issue again, and the thread becomes Ready-unseated. -/
def resumeThread (s : State) (tid : Tid) (r : Resume) : State :=
  match s.thread? tid with
  | none => s
  | some t =>
    if t.io.dying then s
    else if !t.isParked then keepEnd s tid t (.resume r)
    else
      match r with
      | .again => makeReady s tid
      | .done last =>
        let s := completeSeq s tid t.pc last
        match s.thread? tid with
        | some t' => if t'.status == t.status && !t'.io.dying then makeReady s tid else s
        | none => s

/-- Threads resumed in a given order. -/
def resumeAll (s : State) (l : List (Tid × Resume)) : State := l.foldl (fun s e => resumeThread s e.1 e.2) s

/-! ### L-store (R36, R37, R122, R128, R134) -/

/-- Whether a range of L-store lies below lcap and in one window with the needed permissions (R122 check 2, R134). -/
def lstoreOk (s : State) (g off n : Nat) (r w : Bool) : Bool :=
  decide (off + n ≤ s.cfg.lcap) &&
    (s.core g).windows.any fun x =>
      x.size != 0 && decide (x.base ≤ off ∧ off + n ≤ x.base + x.size) && (!r || x.r) && (!w || x.w)

/-- Whether an L-store word is full. -/
def Core.wordFull (c : Core) (w : Nat) : Bool := !setHas c.lempty w

/-- A core with an L-store word's bit set. -/
def Core.setWordFull (c : Core) (w : Nat) (full : Bool) : Core :=
  { c with lempty := if full then setDel c.lempty w else setAdd c.lempty w }

/-- One pass over the wait list of an L-store word, oldest first (R128). -/
def lservePass (c : Core) (w : Nat) : List Waiter → Core × List Waiter × List (Waiter × Word) × Bool
  | [] => (c, [], [], false)
  | q :: qs =>
    if q.word ≠ w then
      let (c', rest, out, b) := lservePass c w qs
      (c', q :: rest, out, b)
    else
      match q.want with
      | .ldf _ =>
        if c.wordFull w then
          let (c', rest, out, _) := lservePass c w qs
          (c', rest, (q, c.lstore.word (8 * w)) :: out, true)
        else
          let (c', rest, out, b) := lservePass c w qs
          (c', q :: rest, out, b)
      | .lde _ =>
        if c.wordFull w then
          let (c', rest, out, _) := lservePass (c.setWordFull w false) w qs
          (c', rest, (q, c.lstore.word (8 * w)) :: out, true)
        else
          let (c', rest, out, b) := lservePass c w qs
          (c', q :: rest, out, b)
      | .stfwe v =>
        if c.wordFull w then
          let (c', rest, out, b) := lservePass c w qs
          (c', q :: rest, out, b)
        else
          let (c', rest, out, _) :=
            lservePass { c.setWordFull w true with
              lstore := c.lstore.write (8 * w) (wordLE v 8)
              errors := wordsLeft c.errors (8 * w) 8 } w qs
          (c', rest, (q, 0) :: out, true)

/-- Passes until one serves nothing (R128). -/
def lserveAll : Nat → Core → Nat → List Waiter → Core × List Waiter × List (Waiter × Word)
  | 0, c, _, ws => (c, ws, [])
  | fuel + 1, c, w, ws =>
    let (c', ws', out, again) := lservePass c w ws
    if again then
      let (c'', ws'', out') := lserveAll fuel c' w ws'
      (c'', ws'', out ++ out')
    else (c', ws', out)

/-- The result of a served L-store waiter: its register written, its thread ready (R128, R214). -/
def finishWaiter (s : State) (q : Waiter) (v : Word) : State :=
  match s.thread? q.tid with
  | none => s
  | some t =>
    let t := match q.want with
      | .ldf d | .lde d => t.setReg d v
      | .stfwe _ => t
    let s := s.setThread q.tid t
    match t.status with
    | .parked (.emptyWord r) | .parked (.fullWord r) => resumeThread s q.tid r
    | _ => s

/-! ### Uncorrectable errors (R299) -/

/-- The number a word of a tile has among a core's words. -/
def tilePlace (tile w : Nat) : Nat := 2 ^ 17 + 128 * tile + w

/-- Whether a tile holds an erroneous word. -/
def tileMet (c : Core) (tile : Nat) : Bool := c.errors.any fun w => decide (tilePlace tile 0 ≤ w) && decide (w < tilePlace (tile + 1) 0)

/-- A tile written whole: its erroneous words are replaced. -/
def tileWritten (c : Core) (tile : Nat) : Core :=
  { c with errors := c.errors.filter fun w => !(decide (tilePlace tile 0 ≤ w) && decide (w < tilePlace (tile + 1) 0)) }

/-- An UNCORR record: the address or tile, and the unit, for which the spec gives no numbering (log entry 3). -/
def uncorrEvent (s : State) (die core : Nat) (tid : Tid) (what : Word) : State :=
  (emit s 0x0020 die core tid [what, Config.freeValue s.fresh]).takeFree

/-- A thread that meets an uncorrectable error in an access is killed, with a record (log entry 87). -/
def uncorrThread (s : State) (tid : Tid) (what : Word) : State :=
  match s.thread? tid with
  | none => s
  | some t => killThread (uncorrEvent s (t.core / 256) (t.core % 256) tid what) tid

/-- The waiters served on a word finished in order: one that took the word while it held an uncorrectable error is killed (R299). -/
def finishWaiters (s : State) (w : Nat) : Bool → List (Waiter × Word) → State
  | _, [] => s
  | met, (q, v) :: rest =>
    match q.want with
    | .stfwe _ => finishWaiters (finishWaiter s q v) w false rest
    | .ldf _ | .lde _ =>
      finishWaiters (if met then uncorrThread s q.tid (BitVec.ofNat 64 (8 * w)) else finishWaiter s q v) w met rest

/-! ### The wait list of a word (R128) -/

/-- A queue whose members among those served stand, in the places they have, in the order of the serving. -/
def servedOrder : List Tid → List Tid → List Tid
  | _, [] => []
  | order, x :: xs =>
    match order with
    | y :: ys => if order.contains x then y :: servedOrder ys xs else x :: servedOrder order xs
    | [] => x :: xs

/-- A core's seat queues with the threads served together in the order of the serving (R214). -/
def orderServed (s : State) (g : Nat) (served : List Tid) : State :=
  s.modCore g fun c =>
    let put (q : List Tid) : List Tid := servedOrder (served.filter fun x => q.contains x) q
    { c with iss := { c.iss with
        queue0 := put c.iss.queue0
        queue1 := put c.iss.queue1
        queue2 := put c.iss.queue2
        queue3 := put c.iss.queue3 } }

/-- The wait list of an L-store word served after a change of the word (R128, R214). -/
def lserve (s : State) (g w : Nat) : State :=
  let c := s.core g
  let (c', ws, out) := lserveAll (c.waiters.length + 1) c w c.waiters
  let s := finishWaiters (s.setCore g { c' with waiters := ws }) w (wordMet c.errors (8 * w) 8).isSome out
  if out.length < 2 then s else orderServed s g (out.map (·.1.tid))

/-- Whether the head of a waiter's list could be served: its word stands as it asks for (R128). -/
def Waiter.served (c : Core) (q : Waiter) : Bool :=
  match q.want with
  | .ldf _ | .lde _ => c.wordFull q.word
  | .stfwe _ => !c.wordFull q.word

/-- The wait lists of every word of a core that something else than an access at the port has changed served (R128, R258). -/
def lserveWaiting (s : State) (g : Nat) : State :=
  ((s.core g).waiters.filter fun q => q.served (s.core g)).foldl (fun s q => lserve s g q.word) s

/-! ### Bytes of L-store (R37) -/

/-- A plain write of L-store bytes; full/empty bits are not changed (R37). -/
def lwrite (s : State) (g off : Nat) (bytes : List Byte) : State :=
  s.modCore g fun c => { c with lstore := c.lstore.write off bytes, errors := wordsLeft c.errors off bytes.length }

/-- A write of L-store bytes that sets each word touched full and serves its waiters (R37, R248). -/
def lwriteFull (s : State) (g off : Nat) (bytes : List Byte) : State :=
  let ws := if bytes.length = 0 then [] else
    (List.range ((off + bytes.length - 1) / 8 - off / 8 + 1)).map fun i => off / 8 + i
  let s := lwrite s g off bytes
  let s := s.modCore g fun c => ws.foldl (fun c w => c.setWordFull w true) c
  ws.foldl (fun s w => lserve s g w) s

/-- A read of L-store bytes. -/
def lread (s : State) (g off n : Nat) : List Byte := (s.core g).lstore.bytes off n

end Sys2Proof.Machine
end

