-- ==== Sys2Proof/Machine/Operands.lean ====
section
/-! DEFINITION. Operand forms: the registers and tiles an instruction names, the decode checks made on them (R62 checks 2, 4 and 5),
effective addresses and their checks (R121, R122), and what holds an instruction back (R32, R195). -/

namespace Sys2Proof.Machine

/-! ### Registers named (R62, R65 to R72) -/

/-- The register fields of an instruction in the order d, a, b, c, each with the length of the run it begins (R62 check 4). -/
def regSpans : Instr → List (Reg × Nat)
  | .call d _ | .loop d _ _ | .mfs d _ | .li d _ _ | .pmovPg d => [(d, 1)]
  | .jr a | .mts a _ | .sysRplan a | .pmovGp a _ | .fem a _ _ | .linePref a | .lineZero a | .lineFlush a | .lineDrop a
  | .lineIinv a | .park a | .wake a | .kill a | .barc a _ _ | .mmrLoad a | .plnx a _ | .tring _ a | .ringJoin a _
  | .ringDissolve a | .ringDissolveSized a _ | .cmpi _ a _ _ _ => [(a, 1)]
  | .jalr d a | .addi d a _ _ | .logi d a _ _ | .shifti d a _ _ _ | .bits d a _ | .bfx d a _ _ _ | .vred d a _ _
  | .fsqrt d a _ _ | .fexp2 d a _ | .flog2 d a _ | .frcp d a _ | .frsq d a _ | .fcvt d a _ _ _ _
  | .icvt d a _ _ _ _ _ | .fclass d a _ | .xlatProbe d a | .xlatInv d a | .xlatInvall d a | .ctxQuery d a
  | .ctxEvict d a | .ctxReseat d a | .segq d a _ | .barr d a _ | .tkrd d a _ _ | .lstat d a _ | .spawn d a _ _ _ =>
    [(d, 1), (a, 1)]
  | .sysRepadd a b | .sysRepdel a b | .sysPath a b | .cmp _ a b _ _ _ | .fcmp _ a b _ _ _ _ | .mprot _ a b _ _
  | .shipCore a b | .shipSeg a b | .cargo a b | .barw a b _ | .tact _ a b _ | .topk _ a b _ | .tld _ a b _
  | .tst _ a b _ => [(a, 1), (b, 1)]
  | .add d a b _ | .sub d a b _ | .mul d a b _ | .div d a b _ _ | .rem d a b _ _ | .logic d a b _ | .shift d a b _ _
  | .mnx d a b _ | .lea d a b _ _ | .bfi d a b _ _ | .vadd d a b _ _ | .vsub d a b _ _ | .vmul d a b _ _
  | .vmnx d a b _ _ | .vshf d a b _ _ | .vcmp d a b _ _ | .fadd d a b _ _ | .fsub d a b _ _ | .fmul d a b _ _
  | .fdiv d a b _ _ | .fmnx d a b _ _ | .fsgn d a b _ _ | .ld d a b _ | .ldf d a b _ | .lde d a b _
  | .probe d a b _ _ | .bal d a b _ _ | .lgrant d a b _ | .circ d a b _ _ => [(d, 1), (a, 1), (b, 1)]
  | .sel d a b c | .madd d a b c _ | .fma d a b c _ _ _ _ | .fdot d a b c _ _ | .atom d a b c _ _ _ _ _
  | .send d a b c _ | .recv d a b c _ _ _ | .copy d a b c _ | .copyr d a b c _ _ _ | .gath d a b c _ _ _ _
  | .mcast d a b c _ _ => [(d, 1), (a, 1), (b, 1), (c, 1)]
  | .ratom d a b c _ _ _ => [(d, 2), (a, 1), (b, 1), (c, 1)]
  | .st a b c _ | .stf a b c _ _ | .mma _ a b c _ | .tscl _ a b c _ _ | .plan _ a b c _ _ => [(a, 1), (b, 1), (c, 1)]
  | .ldm d a count1 _ _ => [(d, count1.toNat + 1), (a, 1)]
  | .stm a c count1 _ _ => [(a, 1), (c, count1.toNat + 1)]
  | .tcvt _ a _ c _ _ _ => [(a, 1), (c, 1)]
  | .tred a _ _ _ => [(a, 1)]
  | .plnd d _ _ | .tstat d _ _ => [(d, 1)]
  | _ => []

/-- The registers an instruction writes, now or later (R32). -/
def regWrites : Instr → List Nat
  | .call d _ | .mfs d _ | .li d _ _ | .pmovPg d | .jalr d _ | .addi d _ _ _ | .logi d _ _ _ | .shifti d _ _ _ _
  | .bits d _ _ | .bfx d _ _ _ _ | .vred d _ _ _ | .fsqrt d _ _ _ | .fexp2 d _ _ | .flog2 d _ _ | .frcp d _ _
  | .frsq d _ _ | .fcvt d _ _ _ _ _ | .icvt d _ _ _ _ _ _ | .fclass d _ _ | .xlatProbe d _ | .xlatInv d _
  | .xlatInvall d _ | .ctxQuery d _ | .ctxEvict d _ | .ctxReseat d _ | .segq d _ _ | .barr d _ _ | .tkrd d _ _ _
  | .lstat d _ _ | .spawn d _ _ _ _ | .add d _ _ _ | .sub d _ _ _ | .mul d _ _ _ | .div d _ _ _ _ | .rem d _ _ _ _
  | .logic d _ _ _ | .shift d _ _ _ _ | .mnx d _ _ _ | .lea d _ _ _ _ | .bfi d _ _ _ _ | .vadd d _ _ _ _
  | .vsub d _ _ _ _ | .vmul d _ _ _ _ | .vmnx d _ _ _ _ | .vshf d _ _ _ _ | .vcmp d _ _ _ _ | .fadd d _ _ _ _
  | .fsub d _ _ _ _ | .fmul d _ _ _ _ | .fdiv d _ _ _ _ | .fmnx d _ _ _ _ | .fsgn d _ _ _ _ | .ld d _ _ _
  | .ldf d _ _ _ | .lde d _ _ _ | .probe d _ _ _ _ | .bal d _ _ _ _ | .lgrant d _ _ _ | .circ d _ _ _ _
  | .sel d _ _ _ | .madd d _ _ _ _ | .fma d _ _ _ _ _ _ _ | .fdot d _ _ _ _ _ | .atom d _ _ _ _ _ _ _ _
  | .send d _ _ _ _ | .recv d _ _ _ _ _ _ | .plnd d _ _ | .tstat d _ _ => [d.toNat]
  | .copy d _ _ _ bo | .copyr d _ _ _ _ bo _ | .gath d _ _ _ _ _ bo _ | .mcast d _ _ _ bo _ =>
    if bo then [] else [d.toNat]
  | .ratom d _ _ _ _ _ _ => if d = 0 then [] else [d.toNat, d.toNat + 1]
  | .ldm d _ count1 _ _ => (List.range (count1.toNat + 1)).map fun i => d.toNat + i
  | _ => []

/-- The registers an instruction reads (R32): those its fields name as sources. One whose value the rule then ignores counts as read (segq.ver), but not
a source or tag field that any-source or any-tag makes name nothing (log entry 107). -/
def regReads : Instr → List Nat
  | .jr a | .mts a _ | .sysRplan a | .pmovGp a _ | .fem a _ _ | .linePref a | .lineZero a | .lineFlush a | .lineDrop a
  | .lineIinv a | .park a | .wake a | .kill a | .barc a _ _ | .mmrLoad a | .plnx a _ | .ringJoin a _
  | .ringDissolve a | .ringDissolveSized a _ | .cmpi _ a _ _ _ | .jalr _ a | .addi _ a _ _ | .logi _ a _ _ | .shifti _ a _ _ _ | .bits _ a _
  | .bfx _ a _ _ _ | .vred _ a _ _ | .fsqrt _ a _ _ | .fexp2 _ a _ | .flog2 _ a _ | .frcp _ a _ | .frsq _ a _
  | .fcvt _ a _ _ _ _ | .icvt _ a _ _ _ _ _ | .fclass _ a _ | .xlatProbe _ a | .xlatInv _ a | .ctxQuery _ a
  | .ctxEvict _ a | .ctxReseat _ a | .barr _ a _ | .tkrd _ a _ _ | .lstat _ a _ | .spawn _ a _ _ _
  | .tred a _ _ _ | .ldm _ a _ _ _ | .tring _ a | .segq _ a _ | .xlatInvall _ a => [a.toNat]
  | .loop d _ _ => [d.toNat]
  | .li d k _ => if k = .hi then [d.toNat] else []
  | .sysRepadd a b | .sysRepdel a b | .sysPath a b | .cmp _ a b _ _ _ | .fcmp _ a b _ _ _ _ | .mprot _ a b _ _
  | .shipCore a b | .shipSeg a b | .cargo a b | .barw a b _ | .tact _ a b _ | .topk _ a b _ | .tld _ a b _
  | .tst _ a b _ | .add _ a b _ | .sub _ a b _ | .mul _ a b _ | .div _ a b _ _ | .rem _ a b _ _ | .logic _ a b _
  | .shift _ a b _ _ | .mnx _ a b _ | .lea _ a b _ _ | .vadd _ a b _ _ | .vsub _ a b _ _ | .vmul _ a b _ _
  | .vmnx _ a b _ _ | .vshf _ a b _ _ | .vcmp _ a b _ _ | .fadd _ a b _ _ | .fsub _ a b _ _ | .fmul _ a b _ _
  | .fdiv _ a b _ _ | .fmnx _ a b _ _ | .fsgn _ a b _ _ | .ld _ a b _ | .ldf _ a b _ | .lde _ a b _
  | .bal _ a b _ _ | .lgrant _ a b _ | .circ _ a b _ _ | .bfi _ a b _ _ => [a.toNat, b.toNat]
  | .probe _ a b anyTag anySrc => (if anySrc then [] else [a.toNat]) ++ if anyTag then [] else [b.toNat]
  | .sel _ a b c | .madd _ a b c _ | .fma _ a b c _ _ _ _ | .fdot _ a b c _ _ | .send _ a b c _
  | .st a b c _ | .stf a b c _ _ | .mma _ a b c _ | .tscl _ a b c _ _ | .plan _ a b c _ _ => [a.toNat, b.toNat, c.toNat]
  | .recv _ a b c _ _ anySrc => (if anySrc then [] else [a.toNat]) ++ [b.toNat, c.toNat]
  | .atom d a b c _ _ _ ao _ => [a.toNat, b.toNat, c.toNat] ++ if ao = .cas then [d.toNat] else []
  | .copy d a b c bo | .copyr d a b c _ bo _ | .gath d a b c _ _ bo _ | .mcast d a b c bo _ =>
    [a.toNat, b.toNat, c.toNat] ++ if bo then [d.toNat] else []
  | .ratom _ a b c _ _ _ => [a.toNat, b.toNat, c.toNat]
  | .stm a c count1 _ _ => a.toNat :: (List.range (count1.toNat + 1)).map fun i => c.toNat + i
  | .tcvt _ a _ c _ _ _ => [a.toNat, c.toNat]
  | _ => []

/-- The tile fields of an instruction that name one tile (R28). -/
def tileFields : Instr → List TileRef
  | .tld t _ _ _ | .tst t _ _ _ | .mma t _ _ _ _ | .tzero t | .tscl t _ _ _ _ _ | .tact t _ _ _ | .topk t _ _ _ => [t]
  | .tcvt _ _ t _ _ _ _ | .tred _ t _ _ | .tstat _ t _ => [t]
  | _ => []

/-- The tile fields that name the first of 16 tiles of a plan or cost (R71). -/
def planFields : Instr → List TileRef
  | .plan t _ _ _ _ _ | .bal _ _ _ _ t | .plnx _ t => [t]
  | .plnd _ cost t => [t, cost]
  | _ => []

/-- The instructions of the privileged opcodes (R62 check 2). -/
def privilegedInstr : Instr → Bool
  | .eret | .sysRplan _ | .sysMapver | .sysRepadd _ _ | .sysRepdel _ _ | .sysPath _ _ | .mprot _ _ _ _ _
  | .xlatProbe _ _ | .xlatInv _ _ | .xlatInvall _ _ | .ctxQuery _ _ | .ctxEvict _ _ | .ctxReseat _ _
  | .circ _ _ _ _ _ | .ringJoin _ _ | .ringDissolve _ | .ringDissolveSized _ _ => true
  | _ => false

/-- The privileged opcodes (R62 check 2). -/
def privilegedOp (op : BitVec 7) : Bool :=
  op == 0x07 || op == 0x0E || op == 0x4C || op == 0x4D || op == 0x5E || op == 0x76 || op == 0x79

/-- The instructions of group 0x40 (R195: "memory instruction"). -/
def memoryInstr : Instr → Bool
  | .ld .. | .st .. | .ldf .. | .lde .. | .stf .. | .fem .. | .atom .. | .tld .. | .tst .. | .ldm .. | .stm ..
  | .linePref _ | .lineZero _ | .lineFlush _ | .lineDrop _ | .lineIinv _ | .mprot .. | .xlatProbe .. | .xlatInv ..
  | .xlatInvall .. => true
  | _ => false

/-! ### Tiles (R28) -/

/-- The window tile a tile field names, if it names one (R28). -/
def tileIndex (t : Thread) (f : TileRef) : Option Nat :=
  let n := f.toNat % 64
  if f.getLsbD 6 then
    if t.sp.trs = 0 ∨ t.sp.trb.toNat + t.sp.trs.toNat > t.tcount then none
    else some (t.sp.trb.toNat + (t.sp.tri.toNat + n) % t.sp.trs.toNat)
  else if n < t.tcount then some n else none

/-- The physical tile a tile field names (R28), 0 where it names none. -/
def physTile (t : Thread) (f : TileRef) : Nat := t.tbase + (tileIndex t f).getD 0

/-- Whether a plan or cost field names 16 tiles of the window (R71). -/
def planTilesOk (t : Thread) (f : TileRef) : Bool := !f.getLsbD 6 && f.toNat % 64 + 16 ≤ t.tcount

/-! ### Decode checks on operands (R62) -/

/-- R62 checks 2, 4 and 5 of an instruction in a thread, its head given: the cause and value of the first that fails.
Of several fields that fail one check, the first in the order d, a, b, c, and the plan before the cost, gives the value (log entry 108). -/
def decodeCheck (i : Instr) (t : Thread) (head : BitVec 16) : Option (Nat × Word) :=
  if privilegedInstr i && !t.privileged then some (0x04, head.setWidth 64)
  else
    match (regSpans i).find? fun r => decide (t.wsize < r.1.toNat + r.2) with
    | some r => some (0x02, r.1.setWidth 64)
    | none =>
      match (tileFields i).find? fun f => (tileIndex t f).isNone with
      | some f => some (0x03, f.setWidth 64)
      | none =>
        match (planFields i).find? fun f => !planTilesOk t f with
        | some f => some (0x03, f.setWidth 64)
        | none => none

/-! ### Strokes' shifted fields (R194, R195) -/

/-- A register field of a body instruction in repetition i (R195). -/
def shiftField (floor stride : BitVec 7) (i : Nat) (r : Reg) : Reg :=
  if r = 0 ∨ r < floor then r else BitVec.ofNat 7 (r.toNat + i * stride.toNat)

/-- A body instruction with its register fields shifted for a repetition; only the instructions R194 permits have one. -/
def shiftInstr (f : Reg → Reg) : Instr → Instr
  | .add d a b w => .add (f d) (f a) (f b) w
  | .sub d a b w => .sub (f d) (f a) (f b) w
  | .addi d a w imm => .addi (f d) (f a) w imm
  | .mul d a b k => .mul (f d) (f a) (f b) k
  | .div d a b s w => .div (f d) (f a) (f b) s w
  | .rem d a b s w => .rem (f d) (f a) (f b) s w
  | .logic d a b o => .logic (f d) (f a) (f b) o
  | .logi d a o imm => .logi (f d) (f a) o imm
  | .shift d a b o w => .shift (f d) (f a) (f b) o w
  | .shifti d a amt o w => .shifti (f d) (f a) amt o w
  | .li d k imm => .li (f d) k imm
  | .mnx d a b o => .mnx (f d) (f a) (f b) o
  | .lea d a b s disp => .lea (f d) (f a) (f b) s disp
  | .bits d a o => .bits (f d) (f a) o
  | .sel d a b c => .sel (f d) (f a) (f b) (f c)
  | .madd d a b c w => .madd (f d) (f a) (f b) (f c) w
  | .pmovPg d => .pmovPg (f d)
  | .bfx d a pos len sx => .bfx (f d) (f a) pos len sx
  | .bfi d a b pos len => .bfi (f d) (f a) (f b) pos len
  | .vadd d a b vt m => .vadd (f d) (f a) (f b) vt m
  | .vsub d a b vt m => .vsub (f d) (f a) (f b) vt m
  | .vmul d a b vt m => .vmul (f d) (f a) (f b) vt m
  | .vmnx d a b vt m => .vmnx (f d) (f a) (f b) vt m
  | .vshf d a b vt m => .vshf (f d) (f a) (f b) vt m
  | .vred d a vt m => .vred (f d) (f a) vt m
  | .vcmp d a b vt m => .vcmp (f d) (f a) (f b) vt m
  | .fadd d a b ft rm => .fadd (f d) (f a) (f b) ft rm
  | .fsub d a b ft rm => .fsub (f d) (f a) (f b) ft rm
  | .fmul d a b ft rm => .fmul (f d) (f a) (f b) ft rm
  | .fma d a b c ft rm np nc => .fma (f d) (f a) (f b) (f c) ft rm np nc
  | .fdiv d a b ft rm => .fdiv (f d) (f a) (f b) ft rm
  | .fsqrt d a ft rm => .fsqrt (f d) (f a) ft rm
  | .fmnx d a b ft o => .fmnx (f d) (f a) (f b) ft o
  | .fexp2 d a ft => .fexp2 (f d) (f a) ft
  | .flog2 d a ft => .flog2 (f d) (f a) ft
  | .frcp d a ft => .frcp (f d) (f a) ft
  | .frsq d a ft => .frsq (f d) (f a) ft
  | .fcvt d a ft rm fmt from_ => .fcvt (f d) (f a) ft rm fmt from_
  | .icvt d a ft rm iw sg ty => .icvt (f d) (f a) ft rm iw sg ty
  | .fsgn d a b ft o => .fsgn (f d) (f a) (f b) ft o
  | .fclass d a ft => .fclass (f d) (f a) ft
  | .fdot d a b c ft rm => .fdot (f d) (f a) (f b) (f c) ft rm
  | .ld d a b x => .ld (f d) (f a) (f b) x
  | .st a b c x => .st (f a) (f b) (f c) x
  | i => i

/-- The instruction of repetition (j, i) of a stroke, if its guard holds (R193, R195). -/
def strokeInstr (k : Stroke) (j i : Nat) : Option Instr :=
  match k.body[j]? with
  | some b =>
    if b.guard then (decodeInstr (headOp b.head) b.tail).map (shiftInstr (shiftField k.floor k.stride i)) else none
  | none => none

/-- The destinations of a request (R32). -/
def ReqKind.dests : ReqKind → List Nat
  | .ld d _ _ | .ldf d | .lde d | .atom _ _ _ _ d => [d]
  | .ldm d count => (List.range count).map (d + ·)
  | _ => []

/-- The instructions outside group 0x40 that read the thread's L-store when the matrix engine or the epilogue unit reaches them (R158). -/
def lstoreReader : Instr → Bool
  | .mma .. | .mmrLoad _ | .tscl .. | .plan .. => true
  | _ => false

/-- The instructions outside group 0x40 that write the thread's L-store when the epilogue unit reaches them (R158). -/
def lstoreWriter : Instr → Bool
  | .tcvt .. | .tred .. | .tkrd .. | .plnx .. => true
  | _ => false

/-- Whether a stroke's body instruction is a load. -/
def isLd : Instr → Bool
  | .ld .. => true
  | _ => false

/-- Whether a stroke's body instruction is a store. -/
def isSt : Instr → Bool
  | .st .. => true
  | _ => false

/-- Whether the sequencer still has repetitions to perform or to send again (R34). -/
def Stroke.running (k : Stroke) : Bool := decide (k.j ≤ k.len1.toNat) || !k.resend.isEmpty

/-- Whether everything the stroke started is done (R83, R146). -/
def Stroke.finished (k : Stroke) : Bool := !k.running && k.loads.isEmpty && k.stores.isEmpty

/-- The repetitions of a stroke not yet performed, in order (R195). -/
def Stroke.remaining (k : Stroke) : List (Nat × Nat) :=
  let n := k.n1.toNat + 1
  let rows := (List.range (k.len1.toNat + 1)).filter fun j => decide (k.j ≤ j)
  rows.flatMap fun j => ((List.range n).filter fun i => decide (k.j < j ∨ k.i ≤ i)).map fun i => (j, i)

/-- The instructions of the repetitions not yet performed whose guard holds. -/
def Stroke.todo (k : Stroke) : List Instr := k.remaining.filterMap fun r => strokeInstr k r.1 r.2

/-- The instructions of the repetitions that stand before what the thread issues now: none where the stroke's trap is being handled, since the
handler's instructions stand before them (R197; log entry 14). -/
def Stroke.unsent (k : Stroke) : List Instr := if k.stopped then [] else k.todo

/-- Whether a memory access of the stroke is still to be performed. -/
def Stroke.memoryLeft (k : Stroke) : Bool :=
  k.todo.any memoryInstr || !k.loads.isEmpty || !k.stores.isEmpty || !k.resend.isEmpty

/-- The loads of a stroke that were answered with a fault, or are to be sent again for it: their destinations are still to be written (R195). -/
def Stroke.reissues (k : Stroke) : List Req := (k.loads.filter fun l => l.faulted).map (·.req) ++ k.resend

/-- Whether loads of a stroke are not yet at its core's port, or faulted: earlier loads of its thread (R197). -/
def Stroke.loadsLeft (k : Stroke) : Bool := !k.reissues.isEmpty || k.unsent.any isLd

/-- Whether stores of a stroke are not yet at its core's port: earlier stores of its thread (R197). -/
def Stroke.storesLeft (k : Stroke) : Bool := k.unsent.any isSt

/-- The registers the remaining repetitions write and read, and whether a later memory access waits: one of the stroke's is still to be performed, or
an acquire among them for earlier loads (R228). -/
def Stroke.holds (k : Stroke) : List Nat × List Nat × Bool :=
  let is := k.unsent
  (is.flatMap regWrites ++ k.reissues.flatMap fun r => r.kind.dests, is.flatMap regReads,
    is.any memoryInstr || !k.loads.isEmpty || !k.stores.isEmpty || !k.resend.isEmpty || k.acquire)

/-! ### What holds an instruction back (R32, R195) -/

/-- The instructions a stroke may hold that raise flags in fstat (R47). -/
def raisesFlags : Instr → Bool
  | .fadd .. | .fsub .. | .fmul .. | .fma .. | .fdiv .. | .fsqrt .. | .fmnx .. | .fexp2 .. | .flog2 .. | .frcp .. | .frsq .. | .fcvt ..
  | .icvt .. | .fdot .. => true
  | _ => false

/-- The instructions that read or write the flags of fstat as a register (R81). -/
def namesFstat : Instr → Bool
  | .mfs _ n => n == 0x012
  | .mts _ n => n == 0x012
  | _ => false

/-- An arrival at a core's barrier, which counts at once (R155). -/
def coreArrival : Instr → Bool
  | .barr _ _ .core => true
  | _ => false

/-- Whether an instruction does not issue yet: it names a pending register, or a register or memory access of the thread's stroke, fstat with the
flags its repetitions raise among them (R202); an instruction whose L-store accesses the matrix engine or the epilogue unit makes keeps its place
behind those of the stroke too (R158, R198), and a barrier arrival at core scope behind the accesses it has not sent (R155). -/
def hazard (i : Instr) (t : Thread) : Bool :=
  let rs := regReads i
  let ws := (regWrites i).filter (· != 0)
  (rs ++ ws).any (fun r => setHas t.pending r) ||
    match t.stroke with
    | none => false
    | some k =>
      let (sw, sr, mem) := k.holds
      let sw := sw.filter (· != 0)
      (rs ++ ws).any (fun r => sw.contains r) || ws.any (fun r => sr.contains r) || (memoryInstr i && mem)
        || ((lstoreReader i || lstoreWriter i) && (k.storesLeft || k.acquire)) || (lstoreWriter i && k.loadsLeft)
        || (namesFstat i && k.unsent.any raisesFlags) || (coreArrival i && (k.loadsLeft || k.storesLeft))

/-! ### Effective addresses and their checks (R121, R122) -/

/-- The effective address of a base, an index, a shift and a displacement (R121). -/
def effAddr (t : Thread) (a b : Reg) (shift : BitVec 2) (disp : Word) : Word := t.g a + (t.g b <<< shift.toNat) + disp

/-- The effective address of a load or store field (R121). -/
def eaMx (t : Thread) (a b : Reg) (shift : BitVec 2) (disp : BitVec 28) : Word :=
  effAddr t a b shift (disp.signExtend 64)

/-- The number of bytes of a size code (R64). -/
def Size.n : Size → Nat
  | .b1 => 1
  | .b2 => 2
  | .b4 => 4
  | .b8 => 8

/-- What the checks of an address find (R122). -/
inductive Access where
  | trap (cause : Nat) (tval : Word)
  | lstore (off : Nat)
  | global
  | shipHome
  deriving DecidableEq, Repr

/-- The checks of R122 for an access of n bytes at an alignment, with the permissions it needs. -/
def checkAccess (s : State) (tid : Tid) (t : Thread) (ea : Word) (n align : Nat) (r w : Bool) : Access :=
  if ea.toNat % align ≠ 0 then .trap 0x05 ea
  else if eaHost ea then .trap 0x07 ea
  else if !eaGlobal ea then
    (if lstoreOk s t.core (ea.slice 62 0) n r w then .lstore (ea.slice 62 0) else .trap 0x06 ea)
  else if eaPackage ea ≠ s.cfg.package then .trap 0x07 ea
  else if eaDie ea = t.core / 256 then .global
  else if travelling s tid then .shipHome
  else .trap 0x07 ea

/-- The checks of R122 for an operand that must lie in the issuing core's own L-store: the failing cause, if any. -/
def checkLocal (s : State) (t : Thread) (ea : Word) (n align : Nat) (r w : Bool) : Option Nat :=
  if ea.toNat % align ≠ 0 then some 0x05
  else if !eaLocal ea then some 0x06
  else if lstoreOk s t.core (ea.slice 62 0) n r w then none
  else some 0x06

end Sys2Proof.Machine
end

