-- ==== Sys2Proof/Machine/Turn.lean ====
section
/-! DEFINITION. One turn of a thread (spec/12 R204, R205): how time passes on a die, how an instruction's meaning is entered, and how a
turn ends: completed, transferred, trapped, parked or to be tried again. -/

namespace Sys2Proof.Machine

/-! ### Time (R2, R35, R316) -/

/-- Fifths of a core cycle in one tick of 2.0 GHz, by power state: P0 2.0, P1 1.6, P2 1.2 GHz, P3 gated (R2). -/
def clockRate (power : Nat) : Nat :=
  match power with
  | 0 => 5
  | 1 => 4
  | 2 => 3
  | _ => 0

/-- A die's clock after n ticks. -/
def Die.advance (d : Die) (n : Nat) : Die :=
  let x := d.part + n * clockRate d.power
  { d with clock := d.clock + x / 5, part := x % 5 }

/-- The state n ticks later: the cycle counter and the clock of every die (R35; log entry 64). -/
def advance (s : State) (n : Nat) : State :=
  { s with
    cycle := s.cycle + BitVec.ofNat 64 n
    dies := (List.range 8).map fun d => (d, (s.die d).advance n) }

/-- The state at a tick, or as it stands where that tick is past (log entry 64). -/
def advanceTo (s : State) (tick : Nat) : State := if s.cycle.toNat < tick then advance s (tick - s.cycle.toNat) else s

/-! ### The end of a turn (R205, R209) -/

/-- Whether a thread of a class at least as high waits for a seat on a core (R209). -/
def classWaits (s : State) (g prio : Nat) : Bool :=
  (List.range 4).any fun p => decide (p ≤ prio) && !((s.core g).iss.queue p).isEmpty

/-- The turn ends: no instruction is being executed, and a thread whose quantum is over is due to leave its seat (R209). -/
def closeTurn (s : State) (u : Issue) : State :=
  let s := { s with issue := none }
  match s.thread? u.tid with
  | none => s
  | some t =>
    if t.isSeated && !t.handler && decide (4096 ≤ t.io.quantum) && classWaits s t.core t.prio then
      s.setThread u.tid { t with io := { t.io with quantumDue := true } }
    else s

/-- A change of a thread's stroke. -/
def modStroke (s : State) (tid : Tid) (f : Stroke → Stroke) : State :=
  s.modThread tid fun t => { t with stroke := t.stroke.map f }

/-- A stroke after one of its repetitions (R195). -/
def Stroke.next (k : Stroke) : Stroke := if k.i < k.n1.toNat then { k with i := k.i + 1 } else { k with j := k.j + 1, i := 0 }

/-- The bits of fstat that control and do not record: rm, en and QTRAP, [14:6] (R31). -/
def fstatControl : BitVec 15 := 0x7FC0

/-- A thread and its stroke with the predicates and the control bits of fstat changed one for the other: what a repetition, which stands at the
place of its strk (R197, R202), reads; a second change restores the thread. -/
def Thread.strokeView (t : Thread) : Thread :=
  match t.stroke with
  | none => t
  | some k =>
    { t with
      preds := k.preds
      sp := { t.sp with fstat := (k.fstat &&& fstatControl) ||| (t.sp.fstat &&& ~~~fstatControl) }
      stroke := some
        { k with preds := t.preds, fstat := (t.sp.fstat &&& fstatControl) ||| (k.fstat &&& ~~~fstatControl) } }

/-- A repetition has come to its end: no instruction is being executed, and its thread has its own predicates and fstat again. -/
def endRepetition (s : State) (tid : Tid) : State := { s with issue := none }.modThread tid Thread.strokeView

/-- A trap recorded by a stroke, to be taken at the thread's next boundary (R292): for cause 0x0B bit 63 of the value marks the stroke. -/
def Stroke.stop (k : Stroke) (cause : Nat) (value : Word) : Stroke :=
  { k with trap := some (cause, if cause = 0x0B then value ||| (1 : Word) <<< 63 else value) }

/-- Whether a thread stands where nothing of an instruction has been done: it waits for a seat or a turn, or parks to issue again (R32, R228). -/
def Thread.unissued (t : Thread) : Bool :=
  match t.status with
  | .seated .. | .ready | .parked (.register _) | .parked (.fence _ _ _ _ .again) | .parked (.fenceSent _)
  | .parked .engineQueue | .parked .sendQueue | .parked .recvTable | .parked (.reissue ..) => true
  | _ => false

/-- The instruction completes with sequential flow (R78); a repetition of a stroke is done (R195). -/
def finishSeq (u : Issue) (s : State) : Out :=
  match u.rep with
  | none => .next (closeTurn (completeSeq s u.tid u.ia (headLast u.head)) u)
  | some _ => .next (modStroke (endRepetition s u.tid) u.tid Stroke.next)

/-- The instruction takes an exception (R292); a repetition stops its stroke. -/
def finishTrap (u : Issue) (s : State) (cause : Nat) (value : Word) : Out :=
  match u.rep with
  | none => .next (closeTurn (trapEntry s u.tid u.ia cause value) u)
  | some _ => .next (modStroke (endRepetition s u.tid) u.tid fun k => k.stop cause value)

/-- The thread parks (R136); a repetition is not sent yet (R195). -/
def finishPark (u : Issue) (s : State) (p : Park) : Out :=
  match u.rep with
  | none => .next (closeTurn (parkThread s u.tid p) u)
  | some _ => .next (endRepetition s u.tid)

/-- An attempt that does not issue and keeps the seat (R205); a repetition is not sent yet (R195). -/
def finishRetry (u : Issue) (s : State) : Out :=
  match u.rep with
  | none => .next (closeTurn s u)
  | some _ => .next (endRepetition s u.tid)

/-- The thread, as given, transfers to its pc (R75, R76). -/
def finishJump (u : Issue) (s : State) (t : Thread) : Out := .next (closeTurn (settleFlow s u.tid u.ia t) u)

/-- The instruction writes a register and completes. -/
def finishReg (u : Issue) (s : State) (t : Thread) (d : Reg) (v : Word) : Out :=
  finishSeq u (s.setThread u.tid (t.setReg d.toNat v))

/-- The instruction replaces its thread's record and completes. -/
def finishThread (u : Issue) (s : State) (t : Thread) : Out := finishSeq u (s.setThread u.tid t)

/-- Whether an instruction does not issue yet (R32, R195); a repetition of a stroke waits for pending registers only. -/
def blocked (i : Instr) (u : Issue) (t : Thread) : Bool :=
  match u.rep with
  | none => hazard i t
  | some _ => (regReads i ++ regWrites i).any fun r => r != 0 && setHas t.pending r

/-! ### Uncorrectable errors met (R299) -/

/-- The end of a turn, or of a repetition, in which its thread is killed. -/
def finishKilled (u : Issue) (s : State) : Out :=
  match u.rep with
  | none => .next (closeTurn s u)
  | some _ => .next (endRepetition s u.tid)

/-- An access of the turn's thread to runs of bytes of its own L-store that it reads, or writes in part: one that meets an uncorrectable error kills the
thread and does nothing else; the record has the EA of the run (R299, R302; log entry 87). -/
def reading (u : Issue) (s : State) (t : Thread) (runs : List (Nat × Nat)) (o : Out) : Out :=
  match runs.find? fun r => (wordMet (s.core t.core).errors r.1 r.2).isSome with
  | some r => finishKilled u (uncorrThread s u.tid (BitVec.ofNat 64 r.1))
  | none => o

/-- The same for a tile that the turn's thread reads (R299). -/
def readingTile (u : Issue) (s : State) (t : Thread) (p : Nat) (o : Out) : Out :=
  if tileMet (s.core t.core) p then finishKilled u (uncorrThread s u.tid (BitVec.ofNat 64 p)) else o

/-- The entry of an instruction's meaning: its thread, its decode checks on operands (R62), what holds it back (R32, R195). -/
def perform (i : Instr) (s : State) (k : Issue → Thread → Out) : Out :=
  match s.issue with
  | none => .fault .noIssuingThread
  | some u =>
    match s.thread? u.tid with
    | none => .fault .noIssuingThread
    | some t =>
      match decodeCheck i t u.head with
      | some (cause, v) => finishTrap u s cause v
      | none =>
        if blocked i u t then finishPark u s (.register i)
        else k u t

/-! ### The guard (R60) -/

/-- The guard index 4 P[a] + 2 P[b] + P[c] (R60). -/
def guardIndex (t : Thread) : Nat :=
  4 * bitOf (t.pred (t.sp.gsel.extractLsb' 6 3)) + 2 * bitOf (t.pred (t.sp.gsel.extractLsb' 3 3))
    + bitOf (t.pred (t.sp.gsel.extractLsb' 0 3))

/-- Whether a head executes in a thread (R60). -/
def guardTrue (t : Thread) (head : BitVec 16) : Bool := (headTT head).getLsbD (guardIndex t)

/-! ### Fetch (R59) -/

/-- What a fetch of the head at an IA finds. -/
inductive Fetched where
  | miss
  | head (r : HeadRead)
  deriving DecidableEq, Repr

/-- The I-store line that holds an IA. -/
def codeLine? (c : Core) (ia : Word) : Option CodeLine := c.iss.istore.find? fun l => l.base == lineBase ia

/-- The head at an IA from a core's I-store. -/
def fetchHead (c : Core) (ia : Word) : Fetched :=
  match codeLine? c ia with
  | none => .miss
  | some l => .head (readHead l.bytes (headIndex ia))

/-- An I-store with a line made the most recently used. -/
def useLine (c : Core) (ia : Word) : Core :=
  match codeLine? c ia with
  | none => c
  | some l => { c with iss := { c.iss with istore := (c.iss.istore.filter fun x => x.base != l.base) ++ [l] } }

/-- The set of the I-store a line falls in, IA[13:6] (R59). -/
def codeSet (base : Word) : Nat := base.slice 13 6

/-- A line put into an I-store in normal mode, the least recently used of a full set replaced (R59). -/
def putCode (c : Core) (l : CodeLine) : Core :=
  let kept := c.iss.istore.filter fun x => x.base != l.base
  let set := kept.filter fun x => codeSet x.base == codeSet l.base
  let kept := if set.length ≥ 4 then
      match set with
      | v :: _ => kept.filter fun x => x.base != v.base
      | [] => kept
    else kept
  { c with iss := { c.iss with istore := kept ++ [l] } }

/-! ### The memory port (R211, R212, R224) -/

/-- A request the port treats as a load: it waits for earlier stores' acknowledgements (R212; log entry 79). -/
def ReqKind.isLoad : ReqKind → Bool
  | .ld .. | .ldm .. | .ldf _ | .lde _ | .atom .. | .flush | .fetch => true
  | _ => false

/-- A request that may write: it waits for earlier loads' replies (R211, R223, R224). -/
def ReqKind.isStore : ReqKind → Bool
  | .st .. | .stf .. | .fem .. | .lde _ | .atom .. | .zero => true
  | _ => false

/-- A request of R223 or a store: it leaves only after every earlier load of the core has its reply (R224). -/
def ReqKind.afterLoads : ReqKind → Bool
  | .ld .. | .ldm .. | .pref | .fetch => false
  | _ => true

/-- A request that is answered with a reply, as a load for R224 (log entry 63). -/
def ReqKind.answered : ReqKind → Bool
  | .ld .. | .ldm .. | .ldf _ | .lde _ | .atom .. | .fetch => true
  | _ => false

/-- A posted store, which holds an entry of the global store queue (R123). -/
def ReqKind.posted : ReqKind → Bool
  | .st .. | .zero => true
  | _ => false

/-- Whether the request at the head of a port may leave (R212, R224; log entry 63): no earlier one stands faulted; a load follows the
acknowledgements of every earlier store, a store the replies of every earlier load and the acknowledgements of the posted stores to its line before
it, so that the stores of a line are performed in the order of the queue, a faulted one among them (R124, R198). -/
def mayLeave (p : CorePort) (r : Req) : Bool :=
  (p.faulted.all fun q => decide (r.id < q.id)) && (!r.kind.isLoad || p.unacked.isEmpty)
    && (!r.kind.afterLoads ||
      (p.loads.isEmpty && !p.unacked.any fun q => q.kind.posted && lineOf (eaOffset q.ea) == lineOf (eaOffset r.ea)))

/-- The port after its head has left. -/
def portSend (p : CorePort) (r : Req) : CorePort :=
  { p with
    held := p.held.drop 1
    unacked := if r.kind.isStore then p.unacked ++ [r] else p.unacked
    unperformed := match r.kind with
      | .st _ false => p.unperformed ++ [(r.id, r.tid)]
      | _ => p.unperformed
    loads := if r.kind.answered then p.loads ++ [(r.id, r.tid)] else p.loads }

/-- Requests leave a core's port for their home slices while its rules let the head leave; each is on its way until the slice has it (R217). -/
def pumpFuel : Nat → State → Nat → State
  | 0, s, _ => s
  | fuel + 1, s, g =>
    let p := (s.core g).port
    match p.held with
    | [] => s
    | r :: _ =>
      if mayLeave p r then
        let k := homeSlice (lineOf (eaOffset r.ea))
        let s := s.modCore g fun c => { c with port := portSend p r }
        let s := s.modSlice (g / 256) k fun sl => { sl with coming := sl.coming ++ [r] }
        pumpFuel fuel s g
      else s

/-- Every request that may leave a core's port leaves it. -/
def pump (s : State) (g : Nat) : State := pumpFuel ((s.core g).port.held.length + 1) s g

/-- A request joins the end of its core's port. -/
def portAdd (s : State) (r : Req) : State :=
  let s := s.takeReq.modCore r.core fun c => { c with port := { c.port with held := c.port.held ++ [r] } }
  pump s r.core

/-- The posted stores in a core's global store queue: not yet left, or left and not yet acknowledged (R123). -/
def storeQueue (c : Core) : Nat :=
  (c.port.held.filter fun r => r.kind.posted).length + (c.port.unacked.filter fun r => r.kind.posted).length
    + c.port.faulted.length

/-- Whether every posted store of a thread is acknowledged (R123). -/
def storesAcked (s : State) (tid : Tid) (t : Thread) : Bool :=
  let p := (s.core t.core).port
  !(p.held.any fun r => r.tid == tid && r.kind.posted) && !(p.unacked.any fun r => r.tid == tid && r.kind.posted)
    && !(p.faulted.any fun r => r.tid == tid)

/-- Whether every store of a thread that has come to the port is performed at die scope (R222, R227). -/
def storesDone (s : State) (tid : Tid) (t : Thread) : Bool :=
  let p := (s.core t.core).port
  !(p.held.any fun r => r.tid == tid && r.kind.isStore) && !(p.unacked.any fun r => r.tid == tid)
    && !(p.faulted.any fun r => r.tid == tid) && !(p.unperformed.any fun e => e.2 == tid)

/-- Whether every load of a thread that has come to the port has its reply (R227). -/
def loadsDone (s : State) (tid : Tid) (t : Thread) : Bool :=
  let p := (s.core t.core).port
  !(p.held.any fun r => r.tid == tid && r.kind.answered) && !(p.loads.any fun e => e.2 == tid)

/-- Whether a thread's stroke has loads (or stores) before what the thread issues now that are not at the port yet (R197). -/
def strokeLeft (t : Thread) (loads stores : Bool) : Bool :=
  match t.stroke with
  | some k => (loads && k.loadsLeft) || (stores && k.storesLeft)
  | none => false

/-- Whether every load before what a thread issues now has its reply, those of its stroke among them (R85, R197). -/
def earlierLoads (s : State) (tid : Tid) (t : Thread) : Bool := loadsDone s tid t && !strokeLeft t true false

/-- Whether every store before what a thread issues now is performed at die scope, those of its stroke among them (R85, R197). -/
def earlierStores (s : State) (tid : Tid) (t : Thread) : Bool := storesDone s tid t && !strokeLeft t false true

/-- The number that stands for the accesses of a thread's stroke not yet at the port, where it has such (R197). -/
def strokeOpen (t : Thread) (loads stores : Bool) : NatSet :=
  match t.stroke with
  | some k => if strokeLeft t loads stores then [k.id] else []
  | none => []

/-- The numbers of a thread's loads that have no reply yet. -/
def loadsOpen (s : State) (tid : Tid) (t : Thread) : NatSet :=
  let p := (s.core t.core).port
  ((p.held.filter fun r => r.tid == tid && r.kind.answered).map (·.id)) ++ ((p.loads.filter fun e => e.2 == tid).map (·.1))
    ++ strokeOpen t true false

/-- The numbers of a thread's stores that are not yet performed. -/
def storesOpen (s : State) (tid : Tid) (t : Thread) : NatSet :=
  let p := (s.core t.core).port
  strokeOpen t false true ++ ((p.held.filter fun r => r.tid == tid && r.kind.isStore).map (·.id)) ++ ((p.unacked.filter fun r => r.tid == tid).map (·.id))
    ++ ((p.faulted.filter fun r => r.tid == tid).map (·.id))
    ++ ((p.unperformed.filter fun e => e.2 == tid).map (·.1))

/-- Whether one of the requests named is not yet performed, or one of the strokes named has accesses left (R197). -/
def stillOpen (s : State) (ids : NatSet) : Bool :=
  (s.threads.any fun e => match e.2.stroke with
    | some k => ids.contains k.id && k.memoryLeft
    | none => false) ||
  s.cores.any fun e =>
    let p := e.2.port
    (p.held.any fun r => ids.contains r.id) || (p.unacked.any fun r => ids.contains r.id) ||
      (p.faulted.any fun r => ids.contains r.id) || (p.unperformed.any fun x => ids.contains x.1) ||
      (p.loads.any fun x => ids.contains x.1)

/-! ### Selection (R204) and one turn -/

/-- Whether the thread in a seat is eligible at a core cycle (R204). -/
def eligible (s : State) (now : Nat) (t : Thread) (tid : Tid) : Bool :=
  let live := match s.launch? (tidLaunch tid) with
    | some l => l.phase == .live
    | none => true
  match t.status with
  | .seated _ since =>
    decide (since < now) && live && !t.io.quantumDue &&
      (match t.io.lastIssue with
       | some c => decide (c + 8 ≤ now)
       | none => true) &&
      (match t.stroke with
       | some k => k.trap.isNone || k.stopped
       | none => true)
  | _ => false

/-- The first eligible seat after the one that issued last (R204). -/
def selectSeat (s : State) (g now : Nat) : Nat → Nat → Option (Nat × Tid × Thread)
  | 0, _ => none
  | fuel + 1, k =>
    let seat := ((s.core g).iss.sLast + k) % 16
    match seatHolder s g seat with
    | some (tid, t) => if eligible s now t tid then some (seat, tid, t) else selectSeat s g now fuel (k + 1)
    | none => selectSeat s g now fuel (k + 1)

/-- The turn counted: the seat, the cycle of the last issue, the quantum (R204, R209). -/
def countTurn (s : State) (g now seat : Nat) (tid : Tid) (t : Thread) : State :=
  let s := s.modCore g fun c => { c with iss := { c.iss with sLast := seat, lastTurn := some now } }
  s.setThread tid { t with io := { t.io with lastIssue := some now, quantum := t.io.quantum + 1 } }

/-- A fetch that misses: the line is asked of its home slice, and the thread parks (R59; log entry 79). -/
def fetchMiss (s : State) (g : Nat) (tid : Tid) (ia : Word) : State :=
  parkThread
    (portAdd s { id := s.net.nextReq, core := g, tid := tid, ea := lineBase ia, kind := .fetch, na := false, rep := none,
                 last := false, ordered := false, acq := false })
    tid (.reply .again)

/-- Whether a target lies on another die or package than a core (R58). -/
def elsewhere (s : State) (core : Nat) (target : Word) : Bool :=
  eaPackage target != s.cfg.package || eaDie target != core / 256

/-- A turn that is over without an instruction's meaning. -/
def endTurn (s : State) (g : Nat) (tid : Tid) (ia : Word) : Out :=
  .next (closeTurn s { core := g, tid := tid, ia := ia, head := 0, tail := 0, instr := .nop, rep := none })

/-- One turn of a thread (R62): fetch, decode checks, guard; an instruction that must execute is left as the turn's instruction. A thread that
stands at an IA its core does not pin, restored there after a transfer, ships (R256; log entry 46). In normal mode an IA off the own die, come to by
sequential flow or a trap vector, is not fetched and takes R58's cause 0x07 there (R59; log entry 104). A head index at or beyond the first bad head
of a malformed line gives the target IA as tval, as one at or beyond H does (log entry 105). -/
def takeTurn (s : State) (g : Nat) (tid : Tid) (t : Thread) : Out :=
  let ia := t.pc
  match t.io.skipFail with
  | some at_ =>
    endTurn (trapEntry (s.setThread tid { t with io := { t.io with skipFail := none } }) tid at_ 0x01 ia) g tid ia
  | none =>
  match flowTo s tid g ia with
  | .ship l x => endTurn (shipTo s tid t l x ia none) g tid ia
  | .nowhere => endTurn (trapEntry s tid ia 0x0D ia) g tid ia
  | .here =>
  if !travelling s tid && elsewhere s g ia then endTurn (trapEntry s tid ia 0x07 ia) g tid ia
  else
  match fetchHead (s.core g) ia with
  | .miss => endTurn (fetchMiss s g tid ia) g tid ia
  | .head r =>
    let s := s.modCore g fun c => useLine c ia
    match r with
    | .malformed head => endTurn (trapEntry s tid ia 0x01 (head.setWidth 64)) g tid ia
    | .absent => endTurn (trapEntry s tid ia 0x01 ia) g tid ia
    | .found head tail =>
      if privilegedOp (headOp head) && !t.privileged then endTurn (trapEntry s tid ia 0x04 (head.setWidth 64)) g tid ia
      else
        match decodeInstr (headOp head) tail with
        | none => endTurn (trapEntry s tid ia 0x01 (head.setWidth 64)) g tid ia
        | some i =>
          match decodeCheck i t head with
          | some (cause, v) => endTurn (trapEntry s tid ia cause v) g tid ia
          | none =>
            if guardTrue t head then
              .next { s with issue := some { core := g, tid := tid, ia := ia, head := head, tail := tail, instr := i, rep := none } }
            else endTurn (completeSeq s tid ia (headLast head)) g tid ia

/-- ISSUE_SELECT (R204): in one core cycle at most one seat takes a turn. -/
def execIssueSelect (g : Nat) (s : State) : Out :=
  let now := s.coreClock g
  if (s.die (g / 256)).power ≥ 3 ∨ (s.core g).iss.lastTurn = some now then .next s
  else
    match selectSeat s g now 16 1 with
    | none => .next s
    | some (seat, tid, t) =>
      let s := countTurn s g now seat tid t
      takeTurn s g tid t

/-! ### A program placed for the next step -/

/-- The tid the model places a program under: index 0 of launch 1. -/
def placedTid : Tid := 0x01000000

/-- A supervisor launch of one thread, with no other field set. -/
def placedLaunch : Launch :=
  { desc :=
      { entry := 0, threads := 1, window := 128, tiles := 64, prio := 0, travelling := false, supervisor := true,
        qtrap := false, pack := false, dmin := 1, dmax := 1, core0 := 0, cores := 256, fsv := 0, job := 0, map := 0,
        spill := 0, spillLimit := 2048, data := 0, dataLen := 0, ovq := 0, arg := 0, discard := [], dtiles := 0,
        prot := [], paths := [], tvb := 0, tvbOn := false }
    phase := .live, next := 1, dies := [0], cores := [0], segments := [], mapVer := 0, mapChanges := [], rplan := none,
    pool := [], quadBars := [], dieBars := [], pkgBars := [], savedCores := [] }

/-- A thread in seat 0 of a core, privileged, with the largest windows, at an IA. -/
def placedThread (g since : Nat) (pc : Word) : Thread :=
  { core := g, ctx := some 0, status := .seated 0 since, wbase := 0, wsize := 128, tbase := 0, tcount := 64, pc := pc,
    privileged := true, handler := false, entries := 0, prio := 0, regs := [], preds := 0,
    sp := { Specials.reset with livelo := 0xFFFFFFFFFFFFFFFE, livehi := BitVec.allOnes 64 },
    loop0 := LoopState.reset, loop1 := LoopState.reset, loop2 := LoopState.reset, stroke := none, pending := [],
    io := ThreadIO.reset }

/-- A line held in the focus core's I-store and a thread seated to run its first head at the next step (log entry 15). -/
def placeLine (s : State) (line : List Byte) : State :=
  let g := s.focus
  let pc := globalEA s.cfg.package (g / 256 % 8) 0
  let s := s.modDie (g / 256) fun d => { d with power := 0 }
  let s := s.setLaunch 1 placedLaunch
  let s :=
    { s with
      threads := s.threads.map fun (e : Nat × Thread) =>
        match e.2.status with
        | .seated 0 _ => if e.2.core = g then (e.1, { e.2 with status := .ready }) else e
        | _ => e }
  let s := s.setThread placedTid (placedThread g (s.coreClock g) pc)
  let s := s.modCore g fun c =>
    putCode { c with launch := 1, iss := { c.iss with sLast := 15, segment := none } } { base := pc, bytes := line }
  { s with agenda := [], issue := none }

end Sys2Proof.Machine
end

