-- ==== Sys2Proof/Machine/Flags.lean ====
section
/-! DEFINITION. The float flags of fstat (R31, R47), the rounding mode in force (R46), packed lanes (R39), and how a float instruction
ends (R47, R110). -/

namespace Sys2Proof.Machine

/-- Float flags in the bit positions of fstat[5:0] (R31). -/
abbrev Flags := BitVec 6

/-- Inexact. -/
def flagNX : Flags := 0x01

/-- Underflow. -/
def flagUF : Flags := 0x02

/-- Overflow. -/
def flagOF : Flags := 0x04

/-- Division by zero. -/
def flagDZ : Flags := 0x08

/-- Invalid. -/
def flagNV : Flags := 0x10

/-- Saturation. -/
def flagSA : Flags := 0x20

/-- A flag where a condition holds. -/
def flagIf (b : Bool) (f : Flags) : Flags := if b then f else 0

/-- Rounding modes (R46). -/
inductive Mode where
  | rne | rtz | rdn | rup | rmm
  deriving DecidableEq, Repr

/-- The mode fstat.rm names (R31); its reserved values cannot be written. -/
def fstatMode (t : Thread) : Mode :=
  match (t.sp.fstat.extractLsb' 6 3).toNat with
  | 1 => .rtz
  | 2 => .rdn
  | 3 => .rup
  | 4 => .rmm
  | _ => .rne

/-- The rounding mode of a field in a thread (R46). -/
def modeOf (t : Thread) (rm : RM) : Mode :=
  match rm with
  | .rne => .rne
  | .rtz => .rtz
  | .rdn => .rdn
  | .rup => .rup
  | .rmm => .rmm
  | .dyn => fstatMode t

/-- Whether raised flags meet a trap enable; SA has none (R47). -/
def flagTrap (t : Thread) (f : Flags) : Bool := f.setWidth 5 &&& t.sp.fstat.extractLsb' 9 5 != 0

/-- Lane i of width w of a word (R39). -/
def lane (w : Nat) (x : Word) (i : Nat) : Nat := (x.toNat >>> (w * i)) % 2 ^ w

/-- A word from the lanes of width w, lane 0 first (R39). -/
def ofLanes (w : Nat) : List Nat → Nat
  | [] => 0
  | v :: vs => v % 2 ^ w + 2 ^ w * ofLanes w vs

/-- A word made lane by lane; bits above the lanes are 0. -/
def mapLanes (w n : Nat) (f : Nat → Nat) : Word := BitVec.ofNat 64 (ofLanes w ((List.range n).map f))

/-- Lane results with the flags of all lanes together (R47). -/
def flagLanes (w n : Nat) (f : Nat → Nat × Flags) : Word × Flags :=
  let rs := (List.range n).map f
  (BitVec.ofNat 64 (ofLanes w (rs.map (·.1))), rs.foldl (fun a r => a ||| r.2) 0)

/-- A float instruction ends: cause 0x0B where a raised flag is enabled, else its register is written and the flags merged (R47). -/
def finishFloat (u : Issue) (s : State) (t : Thread) (d : Reg) (r : Word × Flags) : Out :=
  if flagTrap t r.2 then finishTrap u s 0x0B (r.2.setWidth 64)
  else finishReg u s (t.raise r.2) d r.1

/-- An instruction whose effect is a register and flags, from its thread. -/
def performFloat (i : Instr) (d : Reg) (s : State) (f : Thread → Word × Flags) : Out :=
  perform i s fun u t => finishFloat u s t d (f t)

end Sys2Proof.Machine
end

