-- ==== Sys2Proof/Machine/Float.lean ====
section
/-! DEFINITION. Exact values of the float formats, rounding and conversion (spec/03 R40 to R46), and the exact sums and products over which
every float operation is defined (R46, R48, R111, R112). -/

namespace Sys2Proof.Machine

/-- An exact value: NaN (signalling or not), infinity, or (-1)^neg * m * 2^e, zero when m = 0. -/
inductive FVal where
  | nan (signalling : Bool)
  | inf (neg : Bool)
  | num (neg : Bool) (m : Nat) (e : Int)
  deriving DecidableEq, Repr

/-- A binary layout (R40): fraction bits, exponent bits, the largest finite magnitude as mantissa and exponent, and whether overflow
gives infinity by the rounding mode (R42). -/
structure Layout where
  fb : Nat
  eb : Nat
  maxM : Nat
  maxE : Int
  ieee : Bool
  hasInf : Bool
  deriving DecidableEq, Repr

/-- The binary layouts (R40); NB8 and i8 have none of their own. -/
def layoutOf : Fmt → Layout
  | .f64 => { fb := 52, eb := 11, maxM := 2 ^ 53 - 1, maxE := 971, ieee := true, hasInf := true }
  | .f32 => { fb := 23, eb := 8, maxM := 2 ^ 24 - 1, maxE := 104, ieee := true, hasInf := true }
  | .bf16 => { fb := 7, eb := 8, maxM := 2 ^ 8 - 1, maxE := 120, ieee := true, hasInf := true }
  | .f16 => { fb := 10, eb := 5, maxM := 2 ^ 11 - 1, maxE := 5, ieee := true, hasInf := true }
  | .e4m3 => { fb := 3, eb := 4, maxM := 14, maxE := 5, ieee := false, hasInf := false }
  | .e5m2 => { fb := 2, eb := 5, maxM := 7, maxE := 13, ieee := false, hasInf := true }
  | .nb8 | .i8 => { fb := 0, eb := 0, maxM := 1, maxE := 14, ieee := false, hasInf := false }

/-- The exponent bias (R40). -/
def Layout.bias (l : Layout) : Int := 2 ^ (l.eb - 1) - 1

/-- The least normal exponent. -/
def Layout.emin (l : Layout) : Int := 1 - l.bias

/-- The canonical NaN of a format (R40). -/
def nanOf : Fmt → Nat
  | .f64 => 0x7FF8000000000000
  | .f32 => 0x7FC00000
  | .bf16 => 0x7FC0
  | .f16 => 0x7E00
  | .e4m3 => 0x7F
  | .e5m2 => 0x7E
  | .nb8 => 0x80
  | .i8 => 0

/-- The sign bit of a code at its place. -/
def signBit (f : Fmt) (neg : Bool) : Nat := if neg then 2 ^ (f.bits - 1) else 0

/-! ### Decoding (R40, R41, R43) -/

/-- The value of an NB8 code (R43). -/
def decodeNb8 (c : Nat) : FVal :=
  let neg := c / 128 % 2 == 1
  let b := c % 128
  let tapered (n k f base : Nat) : FVal :=
    let e := b / 2 ^ f % 2 ^ k
    let x : Int := if b / 2 ^ (n - 1) % 2 = 1 then ((base + e : Nat) : Int) else -((base + e : Nat) : Int) - 1
    .num neg (2 ^ f + b % 2 ^ f) (x - f)
  if b = 0 then (if neg then .nan false else .num false 0 0)
  else if b = 1 then .num neg 1 14
  else if b ≥ 64 then tapered 6 0 5 0
  else if b ≥ 32 then tapered 5 1 3 1
  else if b ≥ 16 then tapered 4 2 1 3
  else if b ≥ 8 then tapered 3 2 0 7
  else if b ≥ 4 then tapered 2 1 0 11
  else tapered 1 0 0 13

/-- The value of a code of a binary layout (R40, R41). -/
def decodeBinary (f : Fmt) (c : Nat) : FVal :=
  let l := layoutOf f
  let frac := c % 2 ^ l.fb
  let ex := c / 2 ^ l.fb % 2 ^ l.eb
  let neg := c / 2 ^ (f.bits - 1) % 2 == 1
  if ex = 0 then .num neg frac (l.emin - l.fb)
  else if f = .e4m3 then (if c % 128 = 127 then .nan false else .num neg (2 ^ l.fb + frac) (ex - l.bias - l.fb))
  else if ex = 2 ^ l.eb - 1 then
    (if frac = 0 then .inf neg else .nan (l.ieee && frac / 2 ^ (l.fb - 1) == 0))
  else .num neg (2 ^ l.fb + frac) (ex - l.bias - l.fb)

/-- The signed value of the low w bits of a number. -/
def signedOf (w v : Nat) : Int := if v % 2 ^ w < 2 ^ (w - 1) then ((v % 2 ^ w : Nat) : Int) else ((v % 2 ^ w : Nat) : Int) - 2 ^ w

/-- An integer as an exact value. -/
def ofInt (v : Int) : FVal := .num (decide (v < 0)) v.natAbs 0

/-- The value of a code of a format. -/
def decodeF (f : Fmt) (c : Nat) : FVal :=
  match f with
  | .nb8 => decodeNb8 c
  | .i8 => ofInt (signedOf 8 c)
  | f => decodeBinary f c

/-! ### Rounding and encoding (R42, R44, R46) -/

/-- Whether a magnitude rounds up, from its odd bit, its remainder and the remainder's unit (R46). -/
def roundsUp (rm : Mode) (neg odd : Bool) (rem unit : Nat) : Bool :=
  match rm with
  | .rne => decide (unit < 2 * rem) || (2 * rem == unit && odd)
  | .rmm => decide (unit ≤ 2 * rem)
  | .rtz => false
  | .rdn => decide (0 < rem) && neg
  | .rup => decide (0 < rem) && !neg

/-- m * 2^e as a count of units 2^q, rounded, and whether that is inexact. -/
def roundUnits (rm : Mode) (neg : Bool) (m : Nat) (e q : Int) : Nat × Bool :=
  if q ≤ e then (m * 2 ^ (e - q).toNat, false)
  else
    let unit := 2 ^ (q - e).toNat
    let n := m / unit
    let rem := m % unit
    (if roundsUp rm neg (n % 2 == 1) rem unit then n + 1 else n, rem != 0)

/-- Whether a * 2^x exceeds b * 2^y. -/
def exceeds (a : Nat) (x : Int) (b : Nat) (y : Int) : Bool :=
  if y ≤ x then decide (b < a * 2 ^ (x - y).toNat) else decide (b * 2 ^ (y - x).toNat < a)

/-- The exponent of the leading bit of m * 2^e, m not 0. -/
def leadExp (m : Nat) (e : Int) : Int := e + Nat.log2 m

/-- Whether m * 2^e is tiny after rounding (R42): rounded to the precision with no bound on the exponent, it lies below the least normal. -/
def tinyAfter (l : Layout) (rm : Mode) (neg : Bool) (m : Nat) (e : Int) : Bool :=
  let q := leadExp m e - l.fb
  exceeds 1 l.emin (roundUnits rm neg m e q).1 q

/-- What overflow gives in a layout (R42). -/
def overflowCode (f : Fmt) (rm : Mode) (neg : Bool) : Nat × Flags :=
  let l := layoutOf f
  let inf := (2 ^ l.eb - 1) * 2 ^ l.fb
  let big := match f with
    | .e4m3 => 0x7E
    | _ => inf - 1
  if l.ieee then
    let toInf := match rm with
      | .rne | .rmm => true
      | .rtz => false
      | .rdn => neg
      | .rup => !neg
    (signBit f neg + if toInf then inf else big, flagOF ||| flagNX)
  else (signBit f neg + big, flagSA ||| flagNX)

/-- A nonzero finite magnitude rounded into a binary layout (R42). DESIGN CHOICE: it overflows where the value rounded with an unbounded exponent exceeds
the largest (log entry 100). -/
def encodeBinary (f : Fmt) (rm : Mode) (neg : Bool) (m : Nat) (e : Int) : Nat × Flags :=
  let l := layoutOf f
  let qmin := l.emin - l.fb
  let lead := leadExp m e - l.fb
  let q := if lead < qmin then qmin else lead
  let r := roundUnits rm neg m e q
  if exceeds r.1 q l.maxM l.maxE then overflowCode f rm neg
  else
    (signBit f neg + (q - qmin).toNat * 2 ^ l.fb + r.1,
      flagIf r.2 flagNX ||| flagIf (r.2 && tinyAfter l rm neg m e) flagUF)

/-- The positive NB8 code of 2^x * (1 + frac / 2^f), f the fraction width of x's row (R43). -/
def nb8Code (x : Int) (frac : Nat) : Nat :=
  let d := if 0 ≤ x then 1 else 0
  let a := if 0 ≤ x then x.toNat else (-x - 1).toNat
  if a = 0 then 64 + 32 * d + frac
  else if a ≤ 2 then 32 + 16 * d + 8 * (a - 1) + frac
  else if a ≤ 6 then 16 + 8 * d + 2 * (a - 3) + frac
  else if a ≤ 10 then 8 + 4 * d + (a - 7)
  else if a ≤ 12 then 4 + 2 * d + (a - 11)
  else if a = 13 then 2 + d
  else 1

/-- The fraction width of the NB8 row of an exponent (R43). -/
def nb8Width (x : Int) : Nat :=
  let a := if 0 ≤ x then x.toNat else (-x - 1).toNat
  if a = 0 then 5 else if a ≤ 2 then 3 else if a ≤ 6 then 1 else 0

/-- A nonzero finite magnitude converted into NB8 (R44). -/
def encodeNb8 (neg : Bool) (m : Nat) (e : Int) : Nat × Flags :=
  let sign := if neg then 0x80 else 0
  if exceeds m e 1 14 then (sign + 0x01, flagSA ||| flagNX)
  else if exceeds 1 (-15) m e then (0x00, flagUF ||| flagNX)
  else if exceeds 1 (-14) m e then (sign + 0x02, flagUF ||| flagNX)
  else
    let x := leadExp m e
    let f := nb8Width x
    let q := x - f
    let unit := 2 ^ (q - e).toNat
    let n := if q ≤ e then m * 2 ^ (e - q).toNat else m / unit
    let rem := if q ≤ e then 0 else m % unit
    let low := nb8Code x (n - 2 ^ f)
    let high := if n + 1 = 2 ^ (f + 1) then nb8Code (x + 1) 0 else nb8Code x (n + 1 - 2 ^ f)
    let up :=
      if 2 * rem = unit then
        (if low % 2 = 0 && high % 2 = 0 then Config.nb8EvenTie else low % 2 == 1 && high % 2 == 0)
      else decide (unit < 2 * rem)
    (sign + if rem = 0 then low else if up then high else low, flagIf (rem != 0) flagNX)

/-- A value rounded once into a format (R41, R42, R44); i8 is no destination. -/
def encodeF (f : Fmt) (rm : Mode) (v : FVal) : Nat × Flags :=
  match v with
  | .nan sig => (nanOf f, flagIf sig flagNV)
  | .inf neg =>
    match f with
    | .nb8 => ((if neg then 0x80 else 0) + 0x01, flagSA)
    | .e4m3 => (signBit f neg + 0x7E, flagSA)
    | _ => (signBit f neg + (2 ^ (layoutOf f).eb - 1) * 2 ^ (layoutOf f).fb, 0)
  | .num neg m e =>
    match f with
    | .nb8 => if m = 0 then (0, 0) else encodeNb8 neg m e
    | _ => if m = 0 then (signBit f neg, 0) else encodeBinary f rm neg m e

/-! ### Exact operations -/

/-- Whether a value is NaN. -/
def FVal.isNan : FVal → Bool
  | .nan _ => true
  | _ => false

/-- NV for a signalling NaN used as an operand (R41). -/
def FVal.signal : FVal → Flags
  | .nan true => flagNV
  | _ => 0

/-- A value with its sign changed. -/
def FVal.neg : FVal → FVal
  | .nan s => .nan s
  | .inf n => .inf (!n)
  | .num n m e => .num (!n) m e

/-- The sign of a value that is no NaN. -/
def FVal.isNeg : FVal → Bool
  | .nan _ => false
  | .inf n => n
  | .num n _ _ => n

/-- A value times 2^k, exactly (R45). -/
def FVal.scale (v : FVal) (k : Int) : FVal :=
  match v with
  | .num n m e => .num n m (e + k)
  | v => v

/-- An exact product (R111): NaN operands, and 0 times infinity with NV. -/
def mulF (a b : FVal) : FVal × Flags :=
  match a, b with
  | .nan x, .nan y => (.nan false, flagIf (x || y) flagNV)
  | .nan x, _ => (.nan false, flagIf x flagNV)
  | _, .nan y => (.nan false, flagIf y flagNV)
  | .inf x, .inf y => (.inf (x != y), 0)
  | .inf x, .num y m _ => if m = 0 then (.nan false, flagNV) else (.inf (x != y), 0)
  | .num x m _, .inf y => if m = 0 then (.nan false, flagNV) else (.inf (x != y), 0)
  | .num x m e, .num y n k => (.num (x != y) (m * n) (e + k), 0)

/-- The least exponent of the finite terms. -/
def minExp : List FVal → Int
  | [] => 0
  | .num _ m e :: vs => if m = 0 then minExp vs else if e < minExp vs then e else minExp vs
  | _ :: vs => minExp vs

/-- The finite terms added as a count of 2^e0. -/
def addUnits (e0 : Int) : List FVal → Int
  | [] => 0
  | .num n m e :: vs =>
    let x : Int := ((m * 2 ^ (e - e0).toNat : Nat) : Int)
    (if n then -x else x) + addUnits e0 vs
  | _ :: vs => addUnits e0 vs

/-- Whether there are terms and every one is -0: an empty sum is +0 (R46, R48, R179). -/
def allMinusZero (vs : List FVal) : Bool :=
  !vs.isEmpty && vs.all fun v => match v with
    | .num n m _ => n && m == 0
    | _ => false

/-- Whether terms of both signs are among the summands (R46). -/
def mixedSigns (vs : List FVal) : Bool := (vs.any (·.isNeg)) && vs.any fun v => !v.isNeg

/-- An exact sum and its flags: NaN terms, infinities of both signs with NV; a zero sum is -0 where every term is -0 or the caller's rule
for other zero sums says so (R46, R48). DESIGN CHOICE: infinities of both signs beside a quiet NaN raise no NV (log entry 101). -/
def sumF (minusZero : Bool) (vs : List FVal) : FVal × Flags :=
  if vs.any (·.isNan) then (.nan false, flagIf (vs.any fun v => v.signal != 0) flagNV)
  else if vs.contains (.inf false) && vs.contains (.inf true) then (.nan false, flagNV)
  else if vs.contains (.inf false) then (.inf false, 0)
  else if vs.contains (.inf true) then (.inf true, 0)
  else
    let e0 := minExp vs
    let v := addUnits e0 vs
    if v = 0 then (.num (allMinusZero vs || minusZero) 0 0, 0)
    else (.num (decide (v < 0)) v.natAbs e0, 0)

/-- An exact sum of an operation that rounds in a mode (R46). -/
def addF (rm : Mode) (vs : List FVal) : FVal × Flags := sumF (rm == .rdn && mixedSigns vs) vs

/-- An exact quotient, as a dyadic with a sticky bit below every rounding point (R111). -/
def divF (a b : FVal) : FVal × Flags :=
  match a, b with
  | .nan x, .nan y => (.nan false, flagIf (x || y) flagNV)
  | .nan x, _ => (.nan false, flagIf x flagNV)
  | _, .nan y => (.nan false, flagIf y flagNV)
  | .inf _, .inf _ => (.nan false, flagNV)
  | .inf x, .num y _ _ => (.inf (x != y), 0)
  | .num x _ _, .inf y => (.num (x != y) 0 0, 0)
  | .num x m e, .num y n k =>
    if n = 0 then (if m = 0 then (.nan false, flagNV) else (.inf (x != y), flagDZ))
    else if m = 0 then (.num (x != y) 0 0, 0)
    else
      let sh := 64 + Nat.log2 n
      let q := m * 2 ^ sh / n
      let r := m * 2 ^ sh % n
      (.num (x != y) (2 * q + bitOf (r != 0)) (e - k - sh - 1), 0)

/-- The integer square root by bits, from bit k - 1 down. -/
def isqrtFrom : Nat → Nat → Nat → Nat
  | 0, _, r => r
  | k + 1, m, r => let c := r + 2 ^ k; isqrtFrom k m (if c * c ≤ m then c else r)

/-- The square root of a value, as a dyadic with a sticky bit (R113). -/
def sqrtF (a : FVal) : FVal × Flags :=
  match a with
  | .nan x => (.nan false, flagIf x flagNV)
  | .inf n => if n then (.nan false, flagNV) else (.inf false, 0)
  | .num n m e =>
    if m = 0 then (.num n 0 0, 0)
    else if n then (.nan false, flagNV)
    else
      let even := e % 2 = 0
      let m2 := (if even then m else 2 * m) * 2 ^ 128
      let e2 := (if even then e else e - 1) - 128
      let r := isqrtFrom 92 m2 0
      (.num false (2 * r + bitOf (r * r != m2)) (e2 / 2 - 1), 0)

/-- The order of two values, none where one is NaN; -0 equals +0 (R98). -/
def cmpF (a b : FVal) : Option Ordering :=
  if a.isNan || b.isNan then none
  else
    match a, b with
    | .inf x, .inf y => some (if x = y then .eq else if x then .lt else .gt)
    | .inf x, _ => some (if x then .lt else .gt)
    | _, .inf y => some (if y then .gt else .lt)
    | a, b =>
      let v := addUnits (minExp [a, b]) [a, b.neg]
      some (if v = 0 then .eq else if v < 0 then .lt else .gt)

/-- The magnitude of a value. -/
def FVal.abs : FVal → FVal
  | .nan s => .nan s
  | .inf _ => .inf false
  | .num _ m e => .num false m e

/-- Whether a precedes b in the order of min, -0 before +0 (R114). -/
def below (a b : FVal) : Bool :=
  match cmpF a b with
  | some .lt => true
  | some .eq => a.isNeg && !b.isNeg
  | _ => false

/-- A result rounded into a format with the flags of the operation that formed it. -/
def roundF (f : Fmt) (rm : Mode) (r : FVal × Flags) : Nat × Flags :=
  let c := encodeF f rm r.1
  (c.1, r.2 ||| c.2)

end Sys2Proof.Machine
end

