-- ==== Sys2Proof/Machine/Integer.lean ====
section
/-! DEFINITION. Integer instructions, group 0x10 (spec/05 R87 to R94). None sets a flag or traps on a value. -/

namespace Sys2Proof.Machine

/-- The value written at an integer width (R87). -/
def atWidth (w : Width) (r : Word) : Word :=
  match w with
  | .w64 => r
  | .s32 => r.sext 32
  | .n32 => r.zext 32

/-- The high 64 bits of a product of integers (R89). -/
def highProduct (p : Int) : Word := BitVec.ofInt 64 (p / 2 ^ 64)

/-- The product written by mul (R89). -/
def mulValue (k : MulKind) (a b : Word) : Word :=
  match k with
  | .lo w => atWidth w (a * b)
  | .hs => highProduct (a.toInt * b.toInt)
  | .hn => highProduct ((a.toNat : Int) * (b.toNat : Int))

/-- Quotient and remainder at a width of n bits (R90). -/
def divRem {n : Nat} (signed : Bool) (x y : BitVec n) : BitVec n × BitVec n :=
  if y = 0 then (BitVec.allOnes n, x)
  else if signed then (if x = BitVec.intMin n ∧ y = BitVec.allOnes n then (x, 0) else (x.sdiv y, x.srem y))
  else (x / y, x % y)

/-- The quotient and remainder of div and rem at a width code, as written (R90). -/
def divRemValue (signed : Bool) (w : Width) (a b : Word) : Word × Word :=
  match w with
  | .w64 => divRem signed a b
  | .s32 =>
    let r := divRem signed (a.setWidth 32) (b.setWidth 32)
    (r.1.signExtend 64, r.2.signExtend 64)
  | .n32 =>
    let r := divRem signed (a.setWidth 32) (b.setWidth 32)
    (r.1.setWidth 64, r.2.setWidth 64)

/-- The functions of logic (R91). -/
def logicValue (op : LogicOp) (a y : Word) : Word :=
  match op with
  | .and => a &&& y
  | .or => a ||| y
  | .xor => a ^^^ y
  | .andn => a &&& ~~~y
  | .orn => a ||| ~~~y
  | .xnor => ~~~(a ^^^ y)

/-- The functions of logi (R91). -/
def logiValue (op : LogiOp) (a y : Word) : Word :=
  match op with
  | .and => a &&& y
  | .or => a ||| y
  | .xor => a ^^^ y

/-- A shift or rotation by n within a width (R92). -/
def shiftBits {w : Nat} (op : ShiftOp) (v : BitVec w) (n : Nat) : BitVec w :=
  match op with
  | .sll => v <<< n
  | .srl => v >>> n
  | .sra => v.sshiftRight n
  | .rol => v.rotateLeft n
  | .ror => v.rotateRight n

/-- The result of a shift by an amount (R92). -/
def shiftValue (op : ShiftOp) (w32 : Bool) (a : Word) (amt : Nat) : Word :=
  if w32 then (shiftBits op (a.setWidth 32) (amt % 32)).signExtend 64 else shiftBits op a (amt % 64)

/-- The value li writes over an old value (R93). -/
def liValue (k : LiKind) (imm : BitVec 32) (old : Word) : Word :=
  match k with
  | .sx => imm.signExtend 64
  | .n => imm.setWidth 64
  | .hi => imm ++ (old.setWidth 32)

/-- Minimum or maximum of two values of a width (R94, R106). -/
def minMax {w : Nat} (op : MinMax) (a b : BitVec w) : BitVec w :=
  match op with
  | .minS => if b.slt a then b else a
  | .maxS => if a.slt b then b else a
  | .minN => if b.ult a then b else a
  | .maxN => if a.ult b then b else a

/-- Leading zeros of a value of n bits, n for 0 (R94). -/
def leadingZeros (x : Word) : Nat :=
  (List.range 64).foldl (fun acc i => if x.getLsbD i then 63 - i else acc) 64

/-- Trailing zeros, 64 for 0 (R94). -/
def trailingZeros (x : Word) : Nat :=
  ((List.range 64).find? fun i => x.getLsbD i).getD 64

/-- Set bits (R94). -/
def popCount (x : Word) : Nat := ((List.range 64).filter fun i => x.getLsbD i).length

/-- Bit i moves to 63 - i (R94). -/
def reverseBits (x : Word) : Word := x.reverse

/-- Byte i moves to 7 - i (R94). -/
def swapBytes (x : Word) : Word := leWord (wordLE x 8).reverse

/-- The functions of bits (R94). -/
def bitsValue (op : BitsOp) (x : Word) : Word :=
  match op with
  | .clz => BitVec.ofNat 64 (leadingZeros x)
  | .ctz => BitVec.ofNat 64 (trailingZeros x)
  | .popc => BitVec.ofNat 64 (popCount x)
  | .brev => reverseBits x
  | .bswap => swapBytes x

/-- An instruction whose one effect is to write d with a value of its thread (R87). -/
def performReg (i : Instr) (d : Reg) (s : State) (v : Thread → Word) : Out :=
  perform i s fun u t => finishReg u s t d (v t)

/-- ADD (R88). -/
def execAdd (d a b : Reg) (w : Width) (s : State) : Out :=
  performReg (.add d a b w) d s fun t => atWidth w (t.g a + t.g b)

/-- SUB (R88). -/
def execSub (d a b : Reg) (w : Width) (s : State) : Out :=
  performReg (.sub d a b w) d s fun t => atWidth w (t.g a - t.g b)

/-- ADDI (R88). -/
def execAddi (d a : Reg) (w : Width) (imm : BitVec 32) (s : State) : Out :=
  performReg (.addi d a w imm) d s fun t => atWidth w (t.g a + imm.signExtend 64)

/-- MUL (R89). -/
def execMul (d a b : Reg) (k : MulKind) (s : State) : Out :=
  performReg (.mul d a b k) d s fun t => mulValue k (t.g a) (t.g b)

/-- DIV (R90). -/
def execDiv (d a b : Reg) (signed : Bool) (w : Width) (s : State) : Out :=
  performReg (.div d a b signed w) d s fun t => (divRemValue signed w (t.g a) (t.g b)).1

/-- REM (R90). -/
def execRem (d a b : Reg) (signed : Bool) (w : Width) (s : State) : Out :=
  performReg (.rem d a b signed w) d s fun t => (divRemValue signed w (t.g a) (t.g b)).2

/-- LOGIC (R91). -/
def execLogic (d a b : Reg) (op : LogicOp) (s : State) : Out :=
  performReg (.logic d a b op) d s fun t => logicValue op (t.g a) (t.g b)

/-- LOGI (R91). -/
def execLogi (d a : Reg) (op : LogiOp) (imm : BitVec 32) (s : State) : Out :=
  performReg (.logi d a op imm) d s fun t => logiValue op (t.g a) (imm.signExtend 64)

/-- SHIFT (R92): the amount is G[b][5:0], or [4:0] at 32 bits. -/
def execShift (d a b : Reg) (op : ShiftOp) (w32 : Bool) (s : State) : Out :=
  performReg (.shift d a b op w32) d s fun t => shiftValue op w32 (t.g a) (t.g b).toNat

/-- SHIFTI (R92). -/
def execShifti (d a : Reg) (amt : BitVec 7) (op : ShiftOp) (w32 : Bool) (s : State) : Out :=
  performReg (.shifti d a amt op w32) d s fun t => shiftValue op w32 (t.g a) amt.toNat

/-- LI (R93). -/
def execLi (d : Reg) (k : LiKind) (imm : BitVec 32) (s : State) : Out :=
  performReg (.li d k imm) d s fun t => liValue k imm (t.g d)

/-- MNX (R94). -/
def execMnx (d a b : Reg) (op : MinMax) (s : State) : Out :=
  performReg (.mnx d a b op) d s fun t => minMax op (t.g a) (t.g b)

/-- LEA (R94). -/
def execLea (d a b : Reg) (sh : BitVec 2) (disp : BitVec 34) (s : State) : Out :=
  performReg (.lea d a b sh disp) d s fun t => effAddr t a b sh (disp.signExtend 64)

/-- BITS (R94). -/
def execBits (d a : Reg) (op : BitsOp) (s : State) : Out :=
  performReg (.bits d a op) d s fun t => bitsValue op (t.g a)

/-- SEL (R94). -/
def execSel (d a b c : Reg) (s : State) : Out :=
  performReg (.sel d a b c) d s fun t => (t.g a &&& t.g c) ||| (t.g b &&& ~~~(t.g c))

/-- MADD (R88). -/
def execMadd (d a b c : Reg) (w : Width) (s : State) : Out :=
  performReg (.madd d a b c w) d s fun t => atWidth w (t.g a * t.g b + t.g c)

end Sys2Proof.Machine
end

