-- ==== Sys2Proof/Machine/Memory.lean ====
section
/-! DEFINITION. Memory, full/empty and atomic instructions, group 0x40, as the issuing core performs them (spec/07 R121 to R135, spec/12 R211
to R213, spec/13 R222 to R228): the checks, what happens in L-store at once, and what is sent to the home slice. -/

namespace Sys2Proof.Machine

/-! ### Values -/

/-- A loaded value extended to 64 bits (R126). -/
def loadValue (n : Nat) (sx : Bool) (bytes : List Byte) : Word :=
  if sx then (leWord bytes).sext (8 * n) else (leWord bytes).zext (8 * n)

/-- The new value of an atomic's word and the flags it raises; operands and results in the low 4 or 8 bytes (R130). -/
def atomValue (ao : AtomOp) (eight : Bool) (old y expected : Word) : Word × Flags :=
  let n := if eight then 64 else 32
  let cut (x : Word) : Word := Word.zext x n
  let pick (op : MinMax) : Word :=
    if eight then minMax op old y else (minMax op (old.setWidth 32) (y.setWidth 32)).setWidth 64
  let fmt : Fmt := if eight then .f64 else .f32
  match ao with
  | .swap => (cut y, 0)
  | .cas => (if cut old = cut expected then cut y else cut old, 0)
  | .add => (cut (old + y), 0)
  | .and => (cut (old &&& y), 0)
  | .or => (cut (old ||| y), 0)
  | .xor => (cut (old ^^^ y), 0)
  | .minS => (pick .minS, 0)
  | .maxS => (pick .maxS, 0)
  | .minN => (pick .minN, 0)
  | .maxN => (pick .maxN, 0)
  | .faddF32 | .faddF64 =>
    let r := roundF fmt .rne (addF .rne [decodeF fmt (cut old).toNat, decodeF fmt (cut y).toNat])
    (BitVec.ofNat 64 r.1, r.2)

/-! ### Shipping to a home die (R122 check 5, R256) -/

/-- The segment a core pins, from its launch's map. -/
def currentSegment (s : State) (tid : Tid) (core : Nat) : Option Segment :=
  match s.launch? (tidLaunch tid), (s.core core).iss.segment with
  | some l, some id => l.segments.find? fun g => g.id == id
  | _, _ => none

/-- The park of a thread whose memory instruction has its home on another die of the package: it departs for a replica of its segment
there, or takes cause 0x0D where none lies there (R256). -/
def shipHome (u : Issue) (s : State) (t : Thread) (ea : Word) (pc : Word) : Out :=
  match currentSegment s u.tid t.core, s.launch? (tidLaunch u.tid) with
  | some g, some l =>
    let reps := g.reps.filter fun c => c / 256 == eaDie ea
    if reps.isEmpty then finishTrap u s 0x0D ea
    else if (s.core t.core).iss.mapCache.contains g.id then
      .next (closeTurn (parkThread (s.setThread u.tid { t with pc := pc }) u.tid
        (.departure (reps.getD (u.tid.toNat % reps.length) 0) pc l.mapVer none)) u)
    else
      .next (closeTurn (parkThread
        (s.modNet fun n => { n with maps := n.maps ++ [{ tid := u.tid, seg := some g.id, cont := .again }] }) u.tid (.reply .again)) u)
  | _, _ => finishTrap u s 0x0D ea

/-- A memory instruction whose home is on another die: its thread ships, or its stroke's thread does once the earlier repetitions are
performed and nothing is pending (R195); one that waits to retire goes there too, and exits there. -/
def finishShipHome (u : Issue) (s : State) (t : Thread) (ea : Word) : Out :=
  match u.rep, t.stroke with
  | none, _ => shipHome u s t ea u.ia
  | some _, some k =>
    let s := endRepetition s u.tid
    let t := t.strokeView
    if k.loads.isEmpty && k.stores.isEmpty && t.pending.isEmpty && (t.unissued || t.status == .parked .exit) then shipHome u (leaveQueues s t.core u.tid) t ea t.pc
    else .next s
  | some _, none => finishRetry u s

/-! ### What holds a memory access back (R125, R195, R228) -/

/-- Whether a release may leave: the thread's earlier loads have their replies and its stores are performed (R228). -/
def releaseReady (s : State) (tid : Tid) (t : Thread) : Bool := loadsDone s tid t && storesDone s tid t

/-- The park of a release that may not leave yet; the instruction issues again (R228). -/
def parkRelease (u : Issue) (s : State) : Out := finishPark u s (.fence true true none 0 .again)

/-- Whether a stroke's memory repetition must wait: for an ordered repetition's answer and, after an acquire, the thread's earlier loads; for a
load to the same line, or, a store, for every earlier load (R195, R228). -/
def repWaits (u : Issue) (s : State) (t : Thread) (store : Bool) (line : Option Nat) : Bool :=
  match u.rep, t.stroke with
  | some _, some k =>
    k.barrierReq.isSome || (k.acquire && !loadsDone s u.tid t)
      || (if store then !k.loads.isEmpty else k.loads.any fun l => line == some (lineOf (eaOffset l.req.ea)))
  | _, _ => false

/-- A register written by an access performed at the port, the thread's later accesses, or its stroke's, waiting for earlier loads where it
acquires (R228). -/
def finishAccess (u : Issue) (s : State) (t : Thread) (d : Reg) (v : Word) (acquire : Bool) : Out :=
  if acquire && !loadsDone s u.tid t then
    match u.rep with
    | none => finishPark u (s.setThread u.tid (t.setReg d.toNat v)) (.fence true false none 0 (.done (headLast u.head)))
    | some _ => finishReg u s { t with stroke := t.stroke.map fun k => { k with acquire := true } } d v
  else finishReg u s t d v

/-- A request of the turn to the home slice. -/
def makeReq (u : Issue) (s : State) (t : Thread) (kind : ReqKind) (ea : Word) (ord : Ord) (na : Bool) : Req :=
  { id := s.net.nextReq, core := t.core, tid := u.tid, ea := ea, kind := kind, na := na, rep := u.rep,
    last := headLast u.head, ordered := ord == .sc, acq := ord != .relaxed }

/-- A load-like request sent: its destinations become pending and the thread parks until the reply; with no destination it goes on unless
its order field or its kind holds it (R123, R125). -/
def sendLoad (u : Issue) (s : State) (t : Thread) (kind : ReqKind) (ea : Word) (dests : List Nat) (ord : Ord) (na stay : Bool) :
    Out :=
  let req := makeReq u s t kind ea ord na
  let ds := dests.filter (· != 0)
  let t' := ds.foldl Thread.setPending t
  match u.rep with
  | none =>
    let s := portAdd (s.setThread u.tid t') req
    if ds.isEmpty && !stay then
      if ord = .relaxed then finishSeq u s else finishPark u s (.fence true false none 0 (.done req.last))
    else finishPark u s (.reply (.done req.last))
  | some _ =>
    let add (k : Stroke) : Stroke :=
      { k with
        loads := k.loads ++ [{ req := req, faulted := false }]
        barrierReq := if ord = .relaxed then k.barrierReq else some req.id
        acquire := ord != .relaxed }
    finishSeq u (modStroke (portAdd (s.setThread u.tid t') req) u.tid add)

/-- A posted store sent, or tried again where the core's global store queue is full (R123); an .sc store holds its thread's later accesses
until it is performed (R228). -/
def sendStore (u : Issue) (s : State) (t : Thread) (kind : ReqKind) (ea : Word) (ord : Ord) (na : Bool) : Out :=
  if 32 ≤ storeQueue (s.core t.core) then finishRetry u s
  else
    let req := makeReq u s t kind ea ord na
    let s := portAdd s req
    match u.rep with
    | none => if ord = .sc then finishPark u s (.fence false true none 0 (.done req.last)) else finishSeq u s
    | some _ =>
      finishSeq u (modStroke s u.tid fun k =>
        { k with stores := k.stores ++ [req.id], barrierReq := if ord = .sc then some req.id else k.barrierReq, acquire := ord == .sc })

/-! ### Loads and stores (R126, R132) -/

/-- LD (R126). -/
def execLd (d a b : Reg) (x : Mx) (s : State) : Out :=
  perform (.ld d a b x) s fun u t =>
    let ea := eaMx t a b x.shift x.disp
    let n := Size.n x.size
    match checkAccess s u.tid t ea n n true false with
    | .trap cause v => finishTrap u s cause v
    | .shipHome => finishShipHome u s t ea
    | .lstore off =>
      if repWaits u s t false none then finishRetry u s
      else if x.ord = .sc && !releaseReady s u.tid t then parkRelease u s
      else reading u s t [(off, n)] (finishAccess u s t d (loadValue n x.sx (lread s t.core off n)) (x.ord != .relaxed))
    | .global =>
      if repWaits u s t false (some (lineOf (eaOffset ea))) then finishRetry u s
      else if x.ord = .sc && !releaseReady s u.tid t then parkRelease u s
      else sendLoad u s t (.ld d.toNat x.size x.sx) ea [d.toNat] x.ord x.na false

/-- ST (R126). -/
def execSt (a b c : Reg) (x : Mx) (s : State) : Out :=
  perform (.st a b c x) s fun u t =>
    let ea := eaMx t a b x.shift x.disp
    let n := Size.n x.size
    let bytes := wordLE (t.g c) n
    match checkAccess s u.tid t ea n n false true with
    | .trap cause v => finishTrap u s cause v
    | .shipHome => finishShipHome u s t ea
    | .lstore off =>
      if repWaits u s t true none then finishRetry u s
      else if x.ord ≠ .relaxed && !releaseReady s u.tid t then parkRelease u s
      else reading u s t (if x.size = .b8 then [] else [(off, n)]) (finishSeq u (lwrite s t.core off bytes))
    | .global =>
      if repWaits u s t true none then finishRetry u s
      else if x.ord ≠ .relaxed && !releaseReady s u.tid t then parkRelease u s
      else sendStore u s t (.st bytes (x.ord == .sc)) ea x.ord x.na

/-- Whether a run of words lies in one 128-byte line at an aligned address (R132). -/
def runOk (ea : Word) (count : Nat) : Bool := ea.toNat % 8 == 0 && decide (ea.toNat % 128 + 8 * count ≤ 128)

/-- The words of a run of bytes. -/
def wordRun (bytes : List Byte) (count : Nat) : List Word := (List.range count).map fun i => leWord ((bytes.drop (8 * i)).take 8)

/-- Registers from d on written with words (R132). -/
def setRun (t : Thread) (d : Nat) (ws : List Word) : Thread :=
  ((List.range ws.length).zip ws).foldl (fun t e => t.setReg (d + e.1) e.2) t

/-- LDM (R132). -/
def execLdm (d a : Reg) (count1 : BitVec 4) (ord : Ord) (disp : BitVec 28) (s : State) : Out :=
  perform (.ldm d a count1 ord disp) s fun u t =>
    let ea := t.g a + disp.signExtend 64
    let count := count1.toNat + 1
    if !runOk ea count then finishTrap u s 0x05 ea
    else
      match checkAccess s u.tid t ea (8 * count) 8 true false with
      | .trap cause v => finishTrap u s cause v
      | .shipHome => finishShipHome u s t ea
      | .lstore off =>
        if ord = .sc && !releaseReady s u.tid t then parkRelease u s
        else
          let t' := setRun t d.toNat (wordRun (lread s t.core off (8 * count)) count)
          reading u s t [(off, 8 * count)] (finishAccess u s t' 0 0 (ord != .relaxed))
      | .global =>
        if ord = .sc && !releaseReady s u.tid t then parkRelease u s
        else sendLoad u s t (.ldm d.toNat count) ea ((List.range count).map fun i => d.toNat + i) ord false false

/-- STM (R132). -/
def execStm (a c : Reg) (count1 : BitVec 4) (ord : Ord) (disp : BitVec 28) (s : State) : Out :=
  perform (.stm a c count1 ord disp) s fun u t =>
    let ea := t.g a + disp.signExtend 64
    let count := count1.toNat + 1
    let bytes := (List.range count).flatMap fun i => wordLE (t.reg (c.toNat + i)) 8
    if !runOk ea count then finishTrap u s 0x05 ea
    else
      match checkAccess s u.tid t ea (8 * count) 8 false true with
      | .trap cause v => finishTrap u s cause v
      | .shipHome => finishShipHome u s t ea
      | .lstore off =>
        if ord ≠ .relaxed && !releaseReady s u.tid t then parkRelease u s
        else finishSeq u (lwrite s t.core off bytes)
      | .global =>
        if ord ≠ .relaxed && !releaseReady s u.tid t then parkRelease u s
        else sendStore u s t (.st bytes (ord == .sc)) ea ord false

/-! ### Full/empty operations (R127, R128) -/

/-- A thread joins the wait list of an L-store word (R128). -/
def joinWaiters (s : State) (g : Nat) (w : Waiter) : State :=
  s.modCore g fun c => { c with waiters := c.waiters ++ [w] }

/-- LDF (R127). -/
def execLdf (d a b : Reg) (x : MxFe) (s : State) : Out :=
  perform (.ldf d a b x) s fun u t =>
    let ea := eaMx t a b x.shift x.disp
    match checkAccess s u.tid t ea 8 8 true false with
    | .trap cause v => finishTrap u s cause v
    | .shipHome => finishShipHome u s t ea
    | .lstore off =>
      let c := s.core t.core
      if c.wordFull (off / 8) then reading u s t [(off, 8)] (finishAccess u s t d (c.lstore.word off) true)
      else
        finishPark u (joinWaiters s t.core { word := off / 8, tid := u.tid, want := .ldf d.toNat })
          (.emptyWord (.done (headLast u.head)))
    | .global => sendLoad u s t (.ldf d.toNat) ea [d.toNat] .acq x.na true

/-- LDE (R127): it reads the word and empties it in one step, so it needs both permissions (log entry 19). -/
def execLde (d a b : Reg) (x : MxFe) (s : State) : Out :=
  perform (.lde d a b x) s fun u t =>
    let ea := eaMx t a b x.shift x.disp
    match checkAccess s u.tid t ea 8 8 true true with
    | .trap cause v => finishTrap u s cause v
    | .shipHome => finishShipHome u s t ea
    | .lstore off =>
      let w := off / 8
      let c := s.core t.core
      if !releaseReady s u.tid t then parkRelease u s
      else if c.wordFull w then
        let s' := lserve (s.modCore t.core fun c => c.setWordFull w false) t.core w
        reading u s t [(off, 8)] (finishAccess u s' t d (c.lstore.word off) true)
      else
        finishPark u (joinWaiters s t.core { word := w, tid := u.tid, want := .lde d.toNat })
          (.emptyWord (.done (headLast u.head)))
    | .global =>
      if !releaseReady s u.tid t then parkRelease u s
      else sendLoad u s t (.lde d.toNat) ea [d.toNat] .acq x.na true

/-- STF (R127). -/
def execStf (a b c : Reg) (we : Bool) (x : MxFe) (s : State) : Out :=
  perform (.stf a b c we x) s fun u t =>
    let ea := eaMx t a b x.shift x.disp
    match checkAccess s u.tid t ea 8 8 false true with
    | .trap cause v => finishTrap u s cause v
    | .shipHome => finishShipHome u s t ea
    | .lstore off =>
      let w := off / 8
      let v := t.g c
      if !releaseReady s u.tid t then parkRelease u s
      else if we && (s.core t.core).wordFull w then
        finishPark u (joinWaiters s t.core { word := w, tid := u.tid, want := .stfwe v })
          (.fullWord (.done (headLast u.head)))
      else
        finishSeq u (lwriteFull s t.core off (wordLE v 8))
    | .global =>
      if !releaseReady s u.tid t then parkRelease u s
      else sendLoad u s t (.stf (t.g c) we) ea [] .relaxed x.na true

/-- Words of L-store set full or empty in increasing order, the lists of those that change served (R127, R128). -/
def femWords (s : State) (g w : Nat) (full : Bool) : Nat → State
  | 0 => s
  | n + 1 =>
    let s :=
      if (s.core g).wordFull w == full then s
      else lserve (s.modCore g fun c => c.setWordFull w full) g w
    femWords s g (w + 1) full n

/-- FEM (R127): a run that passes offset 2^48 leaves the die and takes cause 0x07 before any word changes. -/
def execFem (a : Reg) (full : Bool) (count1 : BitVec 10) (s : State) : Out :=
  perform (.fem a full count1) s fun u t =>
    let ea := t.g a
    let count := count1.toNat + 1
    match checkAccess s u.tid t ea (8 * count) 8 false true with
    | .trap cause v => finishTrap u s cause v
    | .shipHome => finishShipHome u s t ea
    | .lstore off =>
      if !releaseReady s u.tid t then parkRelease u s
      else finishSeq u (femWords s t.core (off / 8) full count)
    | .global =>
      if 2 ^ 48 < eaOffset ea + 8 * count then finishTrap u s 0x07 ea
      else if !releaseReady s u.tid t then parkRelease u s
      else sendLoad u s t (.fem full count) ea [] .relaxed false true

/-- ATOM (R130). -/
def execAtom (d a b c : Reg) (eight : Bool) (ord : Ord) (shift : BitVec 2) (ao : AtomOp) (disp : BitVec 24) (s : State) : Out :=
  perform (.atom d a b c eight ord shift ao disp) s fun u t =>
    let ea := effAddr t a b shift (disp.signExtend 64)
    let n := if eight then 8 else 4
    match checkAccess s u.tid t ea n n true true with
    | .trap cause v => finishTrap u s cause v
    | .shipHome => finishShipHome u s t ea
    | .lstore off =>
      if ord ≠ .relaxed && !releaseReady s u.tid t then parkRelease u s
      else
        let old := leWord (lread s t.core off n)
        let r := atomValue ao eight old ((t.g c).zext (8 * n)) (t.g d)
        reading u s t [(off, n)] (finishAccess u (lwrite s t.core off (wordLE r.1 n)) (t.raise r.2) d old (ord != .relaxed))
    | .global =>
      if ord ≠ .relaxed && !releaseReady s u.tid t then parkRelease u s
      else sendLoad u s t (.atom ao eight ((t.g c).zext (8 * n)) (t.g d) d.toNat) ea [d.toNat] ord false false

/-! ### Raw tiles (R131) -/

/-- The queued and running mma of a core: the engine's queue holds 4, and the others of the list are parked until a place frees (R162). -/
def Core.mmas (c : Core) : List MmaOp := c.mx.queue.take 4

/-- Whether a physical tile is the accumulator of a queued or running mma (R131, R158). -/
def tileBusy (c : Core) (p : Nat) : Bool := c.mmas.any fun o => o.tile == p

/-- Tile p of a core. -/
def Core.tile (c : Core) (p : Nat) : Tile := tabGetD c.mx.tiles p Tile.reset

/-- A tile replaced. -/
def Core.setTile (c : Core) (p : Nat) (x : Tile) : Core := { c with mx := { c.mx with tiles := tabPut c.mx.tiles p x } }

/-- The address of row i of a tile in memory (R131; log entry 48). -/
def rowAddr (ea stride : Word) (i : Nat) : Word := ea + BitVec.ofNat 64 i * stride

/-- The checks of tld and tst before any row moves (R122, R131): cause and value, which is the EA whatever row fails. DEDUCED: a row, not the EA,
whose bits [63:61] are not 000 takes cause 0x06 as an EA does, though R131 names check 4 for rows (log entry 48). -/
def tileMoveTrap (s : State) (t : Thread) (ea stride : Word) (w : Bool) : Option (Nat × Word) :=
  if ea.toNat % 8 ≠ 0 then some (0x05, ea)
  else if stride.toNat % 8 ≠ 0 then some (0x05, stride)
  else if !eaLocal ea then some (0x06, ea)
  else if (List.range 16).any fun i => (checkLocal s t (rowAddr ea stride i) 64 8 (!w) w).isSome then some (0x06, ea) else none

/-- The stride a register names, 64 for g0 (R131). -/
def tileStride (t : Thread) (b : Reg) : Word := if b = 0 then 64 else t.g b

/-- TLD (R131). -/
def execTld (x : TileRef) (a b : Reg) (disp : BitVec 28) (s : State) : Out :=
  perform (.tld x a b disp) s fun u t =>
    let ea := t.g a + disp.signExtend 64
    let stride := tileStride t b
    let p := physTile t x
    match tileMoveTrap s t ea stride false with
    | some (cause, v) => finishTrap u s cause v
    | none =>
      if tileBusy (s.core t.core) p then finishPark u s (.matrix .again)
      else
        let rows := (List.range 16).flatMap fun i => lread s t.core (rowAddr ea stride i).toNat 64
        reading u s t ((List.range 16).map fun i => ((rowAddr ea stride i).toNat, 64))
          (finishSeq u (s.modCore t.core fun c => (tileWritten c p).setTile p { c.tile p with bytes := Memory.write [] 0 rows }))

/-- TST (R131). -/
def execTst (x : TileRef) (a b : Reg) (disp : BitVec 28) (s : State) : Out :=
  perform (.tst x a b disp) s fun u t =>
    let ea := t.g a + disp.signExtend 64
    let stride := tileStride t b
    let p := physTile t x
    match tileMoveTrap s t ea stride true with
    | some (cause, v) => finishTrap u s cause v
    | none =>
      if tileBusy (s.core t.core) p then finishPark u s (.matrix .again)
      else
        let tile := (s.core t.core).tile p
        readingTile u s t p
          (finishSeq u ((List.range 16).foldl (fun s i => lwrite s t.core (rowAddr ea stride i).toNat (tile.bytes.bytes (64 * i) 64)) s))

/-! ### Line control (R133) -/

/-- Where a line operation's address lies (R133). -/
inductive LinePlace where
  | lstore | own | other
  deriving DecidableEq, Repr

/-- The column of R133's table an address falls in; the host and every other die or package, in either mode, is the last (log entry 20). -/
def linePlace (s : State) (t : Thread) (ea : Word) : LinePlace :=
  if eaGlobal ea then (if eaPackage ea = s.cfg.package ∧ eaDie ea = t.core / 256 then .own else .other)
  else if eaHost ea then .other else .lstore

/-- The base of the 128-byte line that holds an address. -/
def line128 (ea : Word) : Word := ea &&& ~~~(127 : Word)

/-- A line operation that parks its thread until its home has done it (R123, R133). -/
def lineParked (i : Instr) (kind : ReqKind) (a : Reg) (s : State) : Out :=
  perform i s fun u t =>
    match linePlace s t (t.g a) with
    | .lstore => finishSeq u s
    | .other => finishTrap u s 0x07 (t.g a)
    | .own => sendLoad u s t kind (line128 (t.g a)) [] .relaxed false true

/-- LINE_PREF (R133). -/
def execLinePref (a : Reg) (s : State) : Out :=
  perform (.linePref a) s fun u t =>
    match linePlace s t (t.g a) with
    | .own => finishSeq u (portAdd s (makeReq u s t .pref (line128 (t.g a)) .relaxed false))
    | _ => finishSeq u s

/-- LINE_ZERO (R133): in L-store at once, on the own die posted. -/
def execLineZero (a : Reg) (s : State) : Out :=
  perform (.lineZero a) s fun u t =>
    let ea := t.g a
    match linePlace s t ea with
    | .lstore =>
      if lstoreOk s t.core (line128 ea).toNat 128 false true then
        finishSeq u (lwriteFull s t.core (line128 ea).toNat (List.replicate 128 0))
      else finishTrap u s 0x06 ea
    | .other => finishTrap u s 0x07 ea
    | .own => sendStore u s t .zero (line128 ea) .relaxed false

/-- LINE_FLUSH (R133). -/
def execLineFlush (a : Reg) (s : State) : Out := lineParked (.lineFlush a) .flush a s

/-- LINE_DROP (R133). -/
def execLineDrop (a : Reg) (s : State) : Out := lineParked (.lineDrop a) .drop a s

/-- LINE_IINV (R133): every copy of the line leaves the I-stores of the die, and the thread parks until it is told so. -/
def execLineIinv (a : Reg) (s : State) : Out :=
  perform (.lineIinv a) s fun u t =>
    let ea := t.g a
    match linePlace s t ea with
    | .lstore => finishSeq u s
    | .other => finishTrap u s 0x07 ea
    | .own =>
      let d := t.core / 256
      let s := sendNote (dropCode s d (eaOffset (line128 ea)) 128) (d * 256 + homeSlice (lineOf (eaOffset ea))) t.core (.inval u.tid 0 (headLast u.head) [])
      finishPark u s (.reply (.done (headLast u.head)))

/-! ### Protection and translation (R134, R135) -/

/-- MPROT (R134). -/
def execMprot (win : BitVec 3) (a b : Reg) (r w : Bool) (s : State) : Out :=
  perform (.mprot win a b r w) s fun u t =>
    let base := (t.g a).toNat
    let size := (t.g b).toNat
    if base % 64 ≠ 0 ∨ size % 64 ≠ 0 ∨ s.cfg.lcap < base + size then finishTrap u s 0x01 (t.g a)
    else
      let x : ProtWindow := { base := base, size := size, r := r, w := w }
      finishSeq u
        (s.modCore t.core fun c =>
          { c with windows := (List.range 8).map fun k =>
              if k = win.toNat then x else c.windows.getD k { base := 0, size := 0, r := false, w := false } })

/-- The word xlat.probe returns for a translation (R135). -/
def probeWord (x : Xlat) : Word :=
  BitVec.ofNat 64
    (1 + 2 * bitOf x.big + 4 * bitOf x.r + 8 * bitOf x.w + 16 * bitOf x.lpddr + x.pbase / 2 ^ 16 % 2 ^ 32 * 2 ^ 16)

/-- Whether an address is die-global on a core's own die. -/
def onOwnDie (s : State) (t : Thread) (ea : Word) : Bool :=
  eaGlobal ea && eaPackage ea == s.cfg.package && eaDie ea == t.core / 256

/-- XLAT_PROBE (R135): 0 where the address is not on the issuing die or has no translation. -/
def execXlatProbe (d a : Reg) (s : State) : Out :=
  perform (.xlatProbe d a) s fun u t =>
    let ea := t.g a
    let v :=
      if onOwnDie s t ea then
        match (translate s (t.core / 256) (eaOffset ea)).2 with
        | some x => probeWord x
        | none => 0
      else 0
    finishReg u s t d v

/-- The requests a die's slices have translated and not yet performed (R135). -/
def translatedOpen (die : Die) : NatSet :=
  die.slices.flatMap fun e => (e.2.mshrs.flatMap fun m => m.reqs.map (·.id)) ++ e.2.stage.map (·.id) ++ e.2.waiters.map (·.id)

/-- Translations removed from every TLB of a die; the thread parks until every slice has performed what it had translated (R135). -/
def xlatRemove (i : Instr) (d : Reg) (keep : Thread → Xlat → Bool) (s : State) : Out :=
  perform i s fun u t =>
    let g := t.core / 256
    let wait := translatedOpen (s.die g)
    let s := s.modDie g fun die =>
      { die with slices := die.slices.map fun e => (e.1, { e.2 with tlb := e.2.tlb.filter (keep t) }) }
    let s := sendNote (s.setThread u.tid (t.setPending d.toNat)) (2048 + u.tid.toNat) t.core (.inval u.tid d.toNat (headLast u.head) wait)
    finishPark u s (.reply (.done (headLast u.head)))

/-- XLAT_INV (R135). -/
def execXlatInv (d a : Reg) (s : State) : Out :=
  xlatRemove (.xlatInv d a) d
    (fun t x =>
      let off := eaOffset (t.g a)
      !(onOwnDie s t (t.g a) && decide (x.vbase ≤ off ∧ off < x.vbase + if x.big then 2 ^ 21 else 2 ^ 16))) s

/-- XLAT_INVALL (R135). -/
def execXlatInvall (d a : Reg) (s : State) : Out := xlatRemove (.xlatInvall d a) d (fun _ _ => false) s

end Sys2Proof.Machine
end

