-- ==== Sys2Proof/Machine/Slices.lean ====
section
/-! DEFINITION. The events of cache slices and of the reply channel (spec/13 R218 to R229, spec/07 R123, R124, R128): requests that hit, miss,
merge, wait or fault, fills, staged stores, page-table walks, and the notes that reach the core. -/

namespace Sys2Proof.Machine

/-! ### What a request needs -/

/-- Whether a request needs read permission (R133, R134). -/
def ReqKind.reads : ReqKind → Bool
  | .ld .. | .ldm .. | .ldf _ | .lde _ | .atom .. | .pref | .flush | .fetch => true
  | _ => false

/-- Whether a request needs write permission (R133, R134). -/
def ReqKind.writes : ReqKind → Bool
  | .st .. | .stf .. | .fem .. | .lde _ | .atom .. | .zero | .drop => true
  | _ => false

/-- Whether a request is a full/empty operation (R127). -/
def ReqKind.fullEmpty : ReqKind → Bool
  | .ldf _ | .lde _ | .stf .. | .fem .. => true
  | _ => false

/-- Whether a request is performed at the line, never through the stage (R223, R228). -/
def Req.atLine (r : Req) : Bool :=
  r.ordered ||
    match r.kind with
    | .ld .. | .ldm .. | .fetch | .pref => false
    | .st _ sc => sc
    | _ => true

/-- Whether a translation grants a request its permissions. -/
def Xlat.grants (x : Xlat) (k : ReqKind) : Bool := (!k.reads || x.r) && (!k.writes || x.w)

/-- The kind code of a fault service queue entry (R226). -/
def faultKind : ReqKind → Nat
  | .ld .. | .ldm .. | .pref | .fetch => 0
  | .st .. => 1
  | .atom .. => 2
  | .ldf _ | .lde _ | .stf .. | .fem .. => 3
  | .zero | .flush | .drop => 4

/-! ### The fault service queue (R225, R226, R308) -/

/-- The address of an offset in the fault service queue of a die: the configured base as an address of the package where it is one, else as
an offset on the die itself (log entry 21). -/
def faultAddr (s : State) (d off : Nat) : Word :=
  let a := s.host.faultBase + BitVec.ofNat 64 (32768 * d + off)
  if a.bit 63 || eaHost a then a else globalEA s.cfg.package d a.toNat

/-- Whether the next entry in ring order is free; a queue that cannot be read has no free entry. -/
def faultSpace (s : State) (d : Nat) : Bool :=
  match (partRead s (faultAddr s d (32 * ((s.die d).faultIx % 1024) + 24)) 8).2 with
  | some bs => (leWord bs).toNat % 2 == 0
  | none => false

/-- The words 0 to 2 of an entry (R226). -/
def faultBytes (e : FaultEntry) : List Byte :=
  natLE (e.tid.toNat + e.core * 2 ^ 32 + e.slice * 2 ^ 40 + e.kind * 2 ^ 48 + bitOf e.w * 2 ^ 52 + bitOf e.p * 2 ^ 53) 8
    ++ wordLE e.ea 8 ++ wordLE e.stamp 8

/-- A write of the part into a die's queue, each word set full as an engine write is (R37). -/
def queueWrite (s : State) (ea : Word) (bytes : List Byte) : State :=
  if eaGlobal ea && eaPackage ea == s.cfg.package then (dieWrite s (eaDie ea) (eaOffset ea) bytes true).1
  else (partWrite s ea bytes).1

/-- The engine queue of a core, or, from 2,048 on, the host's commands in a die's engines (R181, R306). -/
def engineOf (s : State) (g : Nat) : List EngCmd := if g < 2048 then (s.core g).engine else (s.die (g - 2048)).engine

/-- A change of an engine queue. -/
def modEngine (s : State) (g : Nat) (f : List EngCmd → List EngCmd) : State :=
  if g < 2048 then s.modCore g fun c => { c with engine := f c.engine }
  else s.modDie (g - 2048) fun d => { d with engine := f d.engine }

/-- A change of one command of an engine queue. -/
def modCommand (s : State) (g id : Nat) (f : EngCmd → EngCmd) : State :=
  modEngine s g fun l => l.map fun x => if x.id = id then f x else x

/-- The address a delivered write or read names. -/
def itemAddress (x : Item) : Option Word :=
  match x.body with
  | .write _ _ _ ea _ | .read _ ea .. => some ea
  | _ => none

/-- Whether a write or read is one of a host COPY, whose commands stand in the engine queues from 2,048 on (R306). -/
def itemHost (x : Item) : Bool :=
  match x.body with
  | .write _ core .. | .read _ _ _ core .. => decide (2048 ≤ core)
  | _ => false

/-- The page of a die an address lies in (R224). -/
def pageOf (ea : Word) : Nat := eaOffset ea / 2 ^ 16

/-- An entry written to a die's queue, word 3 last (R308); what waits for it knows its place (R306). -/
def putFault (s : State) (d : Nat) (e : FaultEntry) : State :=
  let at_ := 32 * ((s.die d).faultIx % 1024)
  let s := queueWrite s (faultAddr s d at_) (faultBytes e)
  let s := queueWrite s (faultAddr s d (at_ + 24)) (natLE 1 8)
  let at_ := some (d, (s.die d).faultIx)
  let waits (x : Stuck) : Bool := itemHost x.item && x.entry.isNone && ((itemAddress x.item).map pageOf) == some (pageOf e.ea)
  let s := match e.cmd with
    | some (g, id) => modCommand s g id fun c => { c with entry := at_ }
    | none => s
  s.modDie d fun die =>
    { die with
      faultIx := die.faultIx + 1
      stuck := if e.item then die.stuck.map fun x => if waits x then { x with entry := at_ } else x else die.stuck }

/-- A fault reported by a slice: into the queue in order, or into one of the slice's fault registers (R225). -/
def reportFault (s : State) (d k : Nat) (e : FaultEntry) : State :=
  if (s.slice d k).held.isEmpty && faultSpace s d then putFault s d e
  else s.modSlice d k fun sl => { sl with held := sl.held ++ [e] }

/-- Fault replies of a slice that are still on their way. -/
def faultsUnderWay (s : State) (d k : Nat) : Nat :=
  (s.net.notes.filter fun n => n.slice == d * 256 + k && (match n.note with
    | .fault .. => true
    | _ => false)).length

/-- Whether a slice can take one more fault: each has one of its 16 registers until it is in the queue (R225). -/
def faultRoom (s : State) (d k : Nat) : Bool := decide ((s.slice d k).held.length + faultsUnderWay s d k < 16)

/-- The fault of a request. -/
def faultOf (s : State) (k : Nat) (r : Req) (present : Bool) : FaultEntry :=
  { tid := r.tid, core := r.core % 256, slice := k, kind := faultKind r.kind, w := r.kind.writes, p := present, ea := r.ea,
    stamp := s.cycle, cmd := none }

/-- A request that faults is answered with a fault reply; a pref is dropped silently (R133, R225). -/
def faultRequest (s : State) (d k : Nat) (r : Req) (present : Bool) : State :=
  match r.kind with
  | .pref => s
  | _ => sendNote s (d * 256 + k) r.core (.fault r (faultOf s k r present))

/-! ### Requests at a present line -/

/-- The bytes a load of a core reads in a line: the line's, with the core's own staged stores on top (R222). -/
def loadBytes (s : State) (d : Nat) (r : Req) (ln : Line) (n : Nat) : List Byte :=
  let staged := (s.slice d (homeSlice ln.l)).stage.filter fun x => x.l == ln.l && x.core == r.core
  let data := if r.ordered then ln.data else staged.foldl (fun (m : Memory) x => m.write x.off x.bytes) ln.data
  data.bytes (eaOffset r.ea % 128) n

/-- Whether a request reads, or writes in part, a word that holds an uncorrectable error (R299). -/
def requestMet (s : State) (d : Nat) (r : Req) (ln : Line) : Bool :=
  let off := eaOffset r.ea
  let met (n : Nat) : Bool := (wordMet (s.die d).errors off n).isSome
  match r.kind with
  | .ld _ size _ => met (Size.n size)
  | .ldm _ count => met (8 * count)
  | .fetch => met 64
  | .ldf _ | .lde _ => ln.full (off % 128 / 8) && met 8
  | .atom _ eight .. => met (if eight then 8 else 4)
  | .st bytes _ => writeMet (s.die d).errors off bytes.length
  | _ => false

/-- What a request does at its line, which the slice holds or memory gives: the effect and the reply (R126 to R133, R223). A full/empty
request whose condition fails joins the wait list, where the caller has checked that there is room; one whose thread is killed is answered
instead, so that the list keeps no trace of it (R129), and one that meets an uncorrectable error kills its thread (R299). -/
def performReq (s : State) (d : Nat) (r : Req) (pa : Nat) (lpddr : Bool) : State :=
  let l := lineOf (eaOffset r.ea)
  let k := homeSlice l
  let note (s : State) (n : Note) : State := sendNote s (d * 256 + k) r.core n
  let off := eaOffset r.ea % 128
  let w := off / 8
  let s := if r.atLine then flushStage s d l else s
  let held := (s.slice d k).line? l
  let ln := held.getD (dramLine (s.die d) l pa lpddr)
  if requestMet s d r ln then
    note (uncorrThread s r.tid r.ea) (match r.kind with
      | .st .. => .ack r
      | _ => .reply r [] 0)
  else
  let s := match r.kind with
    | .st bytes _ => dieWritten s d (eaOffset r.ea) bytes.length
    | .stf _ we => if we && ln.full w then s else dieWritten s d (eaOffset r.ea) 8
    | .zero => dieWritten s d (128 * l) 128
    | _ => s
  let s := if held.isSome then s.modSlice d k fun sl => sl.putLine ln else s
  let gone := match s.thread? r.tid with
    | some t => t.io.dying
    | none => true
  let wait (s : State) : State :=
    if gone then note s (.reply r [] 0) else
    (s.modSlice d k fun sl => { sl with waiters := sl.waiters ++ [r] }).modThread r.tid fun t =>
      match t.park?, r.kind with
      | some (.reply x), .stf .. => t.repark (.fullWord x)
      | some (.reply x), _ => t.repark (.emptyWord x)
      | _, _ => t
  match r.kind with
  | .ld _ size _ => note s (.reply r (loadBytes s d r ln (Size.n size)) 0)
  | .ldm _ count => note s (.reply r (loadBytes s d r ln (8 * count)) 0)
  | .fetch => note s (.reply r (loadBytes s d r ln 64) 0)
  | .pref => s
  | .st bytes _ => note (storeLine s d (ln.write off bytes) []) (.ack r)
  | .ldf _ => if ln.full w then note s (.reply r (ln.data.bytes (8 * w) 8) 0) else wait s
  | .lde _ =>
    if ln.full w then note (storeLine s d (ln.setFull w false) [w]) (.reply r (ln.data.bytes (8 * w) 8) 0) else wait s
  | .stf v we =>
    if we && ln.full w then wait s
    else note (storeLine s d ((ln.write off (wordLE v 8)).setFull w true) [w]) (.reply r [] 0)
  | .fem full count =>
    let here := min count (16 - w)
    let ws := ((List.range here).map (w + ·)).filter fun i => ln.full i != full
    let s := if ws.isEmpty then s else storeLine s d (ws.foldl (fun ln i => ln.setFull i full) ln) ws
    if count ≤ here then note s (.reply r [] 0)
    else
      let next := r.ea + BitVec.ofNat 64 (8 * here)
      s.modSlice d (homeSlice (lineOf (eaOffset next))) fun sl =>
        { sl with ingress := sl.ingress ++ [{ r with ea := next, kind := .fem full (count - here) }] }
  | .atom ao eight operand expected _ =>
    let n := if eight then 8 else 4
    let old := ln.data.bytes off n
    let x := atomValue ao eight (leWord old) operand expected
    note (storeLine s d (ln.write off (wordLE x.1 n)) []) (.reply r old x.2.toNat)
  | .zero =>
    let z : Line := { l := l, pa := pa, lpddr := lpddr, data := [], empty := [], dirty := true, zero := true }
    note (putServed s d z (List.range 16)) (.ack r)
  | .flush =>
    let s := if held.isSome && ln.dirty then
        (s.modDie d fun die => writeBack die ln).modSlice d k fun sl => sl.putLine { ln with dirty := false }
      else s
    note s (.reply r [] 0)
  | .drop => note (s.modSlice d k fun sl => sl.dropLine l) (.reply r [] 0)

/-- Whether a full/empty request would have to wait at a line (R128). -/
def wouldWait (ln : Line) (r : Req) : Bool :=
  let w := eaOffset r.ea % 128 / 8
  match r.kind with
  | .ldf _ | .lde _ => !ln.full w
  | .stf _ we => we && ln.full w
  | _ => false

/-- Whether bytes written to a zero line change it. -/
def changesZero (bytes : List Byte) : Bool := bytes.any (· != 0)

/-- Whether a request changes bytes or full/empty bits of a zero line, or has staged stores performed before it that do: the line then needs a
data way (R221, R223). -/
def needsWay (sl : Slice) (ln : Line) (r : Req) : Bool :=
  ln.zero &&
    ((r.atLine && sl.stage.any fun x => x.l == ln.l && changesZero x.bytes) ||
      match r.kind with
      | .st bytes _ => changesZero bytes
      | .lde _ => true
      | .stf v we => !we && v != 0
      | .atom ao eight operand expected _ => changesZero (wordLE (atomValue ao eight 0 operand expected).1 (if eight then 8 else 4))
      | .fem full _ => !full
      | _ => false)

/-- Whether a request at a present line waits: its condition fails and the wait lists are full, or it needs a data way and none is to be had
(R128, R219). -/
def waitsAtLine (sl : Slice) (ln : Line) (r : Req) : Bool :=
  (wouldWait ln r && decide (64 ≤ sl.waiters.length)) || (needsWay sl ln r && !(sl.victim ln.l true).1)

/-! ### A request taken from the ingress queue (R220) -/

/-- Whether an earlier request of the ingress queue or a walk holds the request at place k back: the same line. -/
def lineBlocked (sl : Slice) (k : Nat) (l : Nat) : Bool :=
  ((sl.ingress.take k).any fun q => lineOf (eaOffset q.ea) == l) || sl.walks.any fun q => lineOf (eaOffset q.ea) == l

/-- A plain store enters the stage and is acknowledged (R222). -/
def stageStore (s : State) (d k : Nat) (r : Req) (bytes : List Byte) (pa : Nat) (lpddr : Bool) (after : Nat) : State :=
  let l := lineOf (eaOffset r.ea)
  let x : Staged :=
    { id := r.id, core := r.core, tid := r.tid, l := l, pa := pa, lpddr := lpddr, off := eaOffset r.ea % 128, bytes := bytes,
      na := r.na, after := after }
  sendNote (s.modSlice d k fun sl => { sl with stage := sl.stage ++ [x] }) (d * 256 + k) r.core (.ack r)

/-- A miss-status register taken for a line, the room for its data way made first (R219, R220). -/
def startFill (s : State) (d k l pa : Nat) (lpddr : Bool) (reqs : List Req) : Option State :=
  if (s.slice d k).mshrs.length ≥ 32 then none
  else
    match makeRoom (s.die d) k l true with
    | none => none
    | some die =>
      some ((s.setDie d die).modSlice d k fun sl =>
        { sl with mshrs := sl.mshrs ++ [{ l := l, pa := pa, lpddr := lpddr, reqs := reqs }] })

/-- A translated request with its permissions, out of the ingress queue already: the state after it is taken, none where it must wait
(R219 to R223, R133). -/
def takeRequest (s : State) (d k : Nat) (r : Req) (x : Xlat) : Option State :=
  let l := lineOf (eaOffset r.ea)
  let pa := x.pa (l * 128)
  let sl := s.slice d k
  match sl.mshrs.find? fun m => m.l == l with
  | some m =>
    match r.kind with
    | .st bytes false =>
      if sl.stage.length ≥ 32 then none else some (stageStore s d k r bytes pa x.lpddr m.reqs.length)
    | .flush | .drop => none
    | _ =>
      if m.reqs.length ≥ 16 then none
      else
        some (s.modSlice d k fun sl =>
          { sl with mshrs := sl.mshrs.map fun y => if y.l == l then { y with reqs := y.reqs ++ [r] } else y })
  | none =>
    match sl.line? l with
    | some ln =>
      match r.kind with
      | .st bytes false => if sl.stage.length ≥ 32 then none else some (stageStore s d k r bytes pa x.lpddr 0)
      | .flush | .drop => if sl.pinned l then none else some (performReq s d r pa x.lpddr)
      | _ =>
        if waitsAtLine sl ln r then none else some (performReq s d r pa x.lpddr)
    | none =>
      match r.kind with
      | .st bytes false =>
        if sl.stage.length ≥ 32 then none
        else if r.na then some (stageStore s d k r bytes pa x.lpddr 0)
        else (startFill s d k l pa x.lpddr []).map fun s => stageStore s d k r bytes pa x.lpddr 0
      | .flush | .drop => if sl.pinned l then none else some (performReq s d r pa x.lpddr)
      | .zero => (makeRoom (s.die d) k l false).map fun die => performReq (s.setDie d die) d r pa x.lpddr
      | _ =>
        if r.na && !wouldWait (dramLine (s.die d) l pa x.lpddr) r then some (performReq s d r pa x.lpddr)
        else startFill s d k l pa x.lpddr [r]

/-- Whether a request hits: its line is present or its fill is not needed (R220). -/
def hits (sl : Slice) (l : Nat) : Bool := (sl.line? l).isSome && !sl.mshrs.any fun m => m.l == l

/-- Whether a request without a translation would fault and has no fault register (R225): a pref is dropped instead. -/
def faultWaits (s : State) (d k : Nat) (r : Req) : Bool :=
  r.kind != .pref && !faultRoom s d k && (walk s d (eaOffset r.ea)).isNone

/-- Whether a request at the head of the ingress queue waits there (R220, R225): for a walker, a register, a victim, room in the stage,
a wait list or a fault register. -/
def requestWaits (s : State) (d k : Nat) (r : Req) : Bool :=
  let sl := s.slice d k
  match sl.tlb? (eaOffset r.ea) with
  | none => decide (sl.walks.length ≥ 4) || faultWaits s d k r
  | some x =>
    if !x.grants r.kind then (match r.kind with
      | .pref => false
      | _ => !faultRoom s d k)
    else if r.kind.fullEmpty && x.lpddr then false
    else (takeRequest s d k r x).isNone

/-- The request at place k of a slice's ingress queue is translated, then hits, misses, merges or faults, where it may (R220, R225); a request
behind a waiting one may overtake it only if it hits and is to a different line. -/
def takeIngress (die sl k : Nat) (s : State) : State :=
  let x := s.slice die sl
  match x.ingress[k]? with
  | none => s
  | some r =>
    let l := lineOf (eaOffset r.ea)
    let rest := s.modSlice die sl fun y => { y with ingress := dropIx y.ingress k }
    let headWaits := match x.ingress with
      | q :: _ => requestWaits s die sl q || lineBlocked x 0 (lineOf (eaOffset q.ea))
      | [] => false
    if lineBlocked x k l || (k != 0 && !(hits x l && headWaits)) then s
    else
      match x.tlb? (eaOffset r.ea) with
      | none =>
        if 4 ≤ x.walks.length || faultWaits s die sl r then s else rest.modSlice die sl fun y => { y with walks := y.walks ++ [r] }
      | some tr =>
        if !tr.grants r.kind then
          (match r.kind with
           | .pref => rest
           | _ => if faultRoom s die sl then faultRequest rest die sl r true else s)
        else if r.kind.fullEmpty && tr.lpddr then sendNote rest (die * 256 + sl) r.core (.trap8 r r.ea)
        else (takeRequest rest die sl r tr).getD s

/-- SLICE_REQUEST (R217, R220, R225): a place in the ingress queue, or after them in what is on its way to the slice, names a request. One on its
way arrives where no earlier one of its core is, joins the queue's end, and is taken at once where it may. -/
def execSliceRequest (die sl k : Nat) (s : State) : Out :=
  let x := s.slice die sl
  let n := x.ingress.length
  if k < n then .next (takeIngress die sl k s)
  else
    match x.coming[k - n]? with
    | none => .next s
    | some r =>
      if (x.coming.take (k - n)).any fun q => q.core == r.core then .next s
      else
        .next (takeIngress die sl n (s.modSlice die sl fun y =>
          { y with coming := dropIx y.coming (k - n), ingress := y.ingress ++ [r] }))

/-- WALK_COMPLETE (R225): the walk leaves its walker, and the waiting request goes back to the front of the ingress queue, translated, or because it
faults and no fault register is free; else it faults. -/
def execWalkComplete (die sl k : Nat) (s : State) : Out :=
  match (s.slice die sl).walks[k]? with
  | none => .next s
  | some r =>
    let rest := s.modSlice die sl fun y => { y with walks := dropIx y.walks k }
    match walk s die (eaOffset r.ea) with
    | some x => .next (rest.modSlice die sl fun y => { y.addTlb x with ingress := r :: y.ingress })
    | none =>
      match r.kind with
      | .pref => .next rest
      | _ =>
        .next (if faultRoom s die sl then faultRequest rest die sl r false
          else rest.modSlice die sl fun y => { y with ingress := r :: y.ingress })

/-! ### Fills and staged stores (R220, R222) -/

/-- The staged stores of a line that reached the slice before entry i of its miss list. -/
def stagedBefore (sl : Slice) (l i : Nat) : List Staged := sl.stage.filter fun x => x.l == l && decide (x.after ≤ i)

/-- The stores staged for a landed line before entry i of its miss list performed, none where the line is a zero line that has no data way for them. -/
def flushBefore (s : State) (d k l i : Nat) : Option State :=
  let sl := s.slice d k
  let before := stagedBefore sl l i
  let way := match sl.line? l with
    | some ln => !(ln.zero && before.any fun x => changesZero x.bytes) || (sl.victim l true).1
    | none => true
  if way then some (before.foldl (fun s x => performStaged s d x) s) else none

/-- The miss list of a landed line performed in order, before each request the stores staged before it (R220, R223), up to one that must wait at the line
(R128, R219; log entry 92): the requests left, and how many were performed. -/
def performList (d k l pa : Nat) (lpddr : Bool) : State → Nat → List Req → State × Nat × List Req
  | s, i, [] => (s, i, [])
  | s, i, r :: rs =>
    match flushBefore s d k l i with
    | none => (s, i, r :: rs)
    | some s =>
      -- the stage keeps what came after r, which is performed after it
      let later := (s.slice d k).stage.filter fun x => x.l == l
      let bare := s.modSlice d k fun sl => { sl with stage := sl.stage.filter fun x => x.l != l }
      let sl := bare.slice d k
      let waits := match sl.line? l with
        | some ln => waitsAtLine sl ln r
        | none => false
      if waits then (s, i, r :: rs)
      else
        performList d k l pa lpddr
          ((performReq bare d r pa lpddr).modSlice d k fun sl => { sl with stage := sl.stage ++ later }) (i + 1) rs

/-- FILL_LANDS (R220): the line lands, its miss list is performed in order, and its staged stores after them; where a request of the list must wait,
the register keeps the rest of the list, which this event goes on with (log entry 92). -/
def execFillLands (die sl line : Nat) (s : State) : Out :=
  match (s.slice die sl).mshrs.find? fun m => m.l == line with
  | none => .next s
  | some m =>
    let s := if ((s.slice die sl).line? line).isSome then s
      else s.modSlice die sl fun y => y.putLine (dramLine (s.die die) line m.pa m.lpddr)
    let (s, n, rest) := performList die sl line m.pa m.lpddr s 0 m.reqs
    if rest.isEmpty then
      .next (flushStage (s.modSlice die sl fun y => { y with mshrs := y.mshrs.filter fun z => z.l != line }) die line)
    else
      .next (s.modSlice die sl fun y =>
        { y with
          mshrs := y.mshrs.map fun z => if z.l == line then { z with reqs := rest } else z
          stage := y.stage.map fun x => if x.l == line then { x with after := x.after - n } else x })

/-- STAGED_STORE_PERFORM (R222): the oldest staged store of a line is performed once the line is there, and what came before it has been. -/
def execStagedStorePerform (die sl k : Nat) (s : State) : Out :=
  let y := s.slice die sl
  match y.stage[k]? with
  | none => .next s
  | some x =>
    let listed := (y.mshrs.any fun m => m.l == x.l) && ((y.line? x.l).isNone || decide (0 < x.after))
    if ((y.stage.take k).any fun z => z.l == x.l) || listed then .next s
    else
      match y.line? x.l with
      | some ln =>
        if ln.zero && changesZero x.bytes then
          match makeRoom (s.die die) sl x.l true with
          | some d => .next (performStaged (s.setDie die d) die x)
          | none => .next s
        else .next (performStaged s die x)
      | none => .next (performStaged s die x)

/-! ### Notes that reach the core (R123, R217, R222) -/

/-- A note taken off the reply channel at place k: the earliest of its slice and core only (R217). -/
def takeNote (s : State) (k : Nat) : Option (NoteAt × State) :=
  match s.net.notes[k]? with
  | none => none
  | some n =>
    if (s.net.notes.take k).any fun m => m.slice == n.slice && m.core == n.core then none
    else some (n, s.modNet fun net => { net with notes := dropIx net.notes k })

/-- A store of a stroke is performed (R195). -/
def strokePerformed (s : State) (tid : Tid) (id : Nat) : State :=
  modStroke s tid fun k =>
    { k with
      stores := k.stores.filter (· != id)
      barrierReq := if k.barrierReq = some id then none else k.barrierReq }

/-- STORE_ACK (R123, R222): a posted store's entry is retired; one performed at the line is performed with it (R223). -/
def execStoreAck (k : Nat) (s : State) : Out :=
  match takeNote s k with
  | some (n, rest) =>
    match n.note with
    | .ack r =>
      let s := rest.modCore r.core fun c =>
        { c with port := { c.port with unacked := c.port.unacked.filter fun q => q.id != r.id } }
      let s := match r.kind with
        | .st _ false => s
        | _ => strokePerformed s r.tid r.id
      .next (pump s r.core)
    | _ => .next s
  | none => .next s

/-- PERFORMED_NOTICE (R222); the thread of a store that has met an uncorrectable error is killed (R299). -/
def execPerformedNotice (k : Nat) (s : State) : Out :=
  match takeNote s k with
  | some (n, rest) =>
    let perform_ (id : Nat) (tid : Tid) : State :=
      strokePerformed
        (rest.modCore n.core fun c => { c with port := { c.port with unperformed := c.port.unperformed.filter fun e => e.1 != id } }) tid id
    match n.note with
    | .performed id tid => .next (perform_ id tid)
    | .spoiled id tid ea => .next (uncorrThread (perform_ id tid) tid ea)
    | _ => .next s
  | none => .next s

/-- A request answered: out of the port's lists, and what its answer lets leave (R212, R224). -/
def answered (s : State) (r : Req) : State :=
  let s := s.modCore r.core fun c =>
    { c with port := { c.port with
        unacked := c.port.unacked.filter fun q => q.id != r.id
        loads := c.port.loads.filter fun e => e.1 != r.id } }
  pump s r.core

/-- A thread's registers written by the reply to a request (R123, R130). -/
def landReply (t : Thread) (r : Req) (data : List Byte) (flags : Nat) : Thread :=
  match r.kind with
  | .ld d size sx => t.land d (loadValue (Size.n size) sx data)
  | .ldm d count =>
    ((List.range count).zip (wordRun data count)).foldl (fun t e => t.land (d + e.1) e.2) t
  | .ldf d | .lde d => t.land d (leWord data)
  | .atom _ _ _ _ d => (t.land d (leWord data)).raise (BitVec.ofNat 6 flags)
  | _ => t

/-- The thread parked on a request goes on; after an acquire it first waits for its earlier loads (R125, R228). -/
def resumeReply (s : State) (r : Req) : State :=
  match s.thread? r.tid with
  | none => s
  | some t =>
    match t.park? with
    | some (.reply x) | some (.emptyWord x) | some (.fullWord x) =>
      if r.acq && !loadsDone s r.tid t then s.modThread r.tid fun t => t.repark (.fence true false none 0 x) else resumeThread s r.tid x
    | _ => s

/-- The answer to a load repetition of a stroke (R195). -/
def strokeAnswered (s : State) (r : Req) : State :=
  modStroke s r.tid fun k =>
    { k with
      loads := k.loads.filter fun l => l.req.id != r.id
      barrierReq := if k.barrierReq = some r.id then none else k.barrierReq }

/-- Whether a thread is still waiting for the request it sent, and not killed meanwhile. -/
def waitsFor (t : Thread) (r : Req) : Bool :=
  !t.io.dying && (r.rep.isSome || t.core == r.core)

/-- Whether the requests named are all performed: in no miss list, stage or wait list of a die (R135). -/
def allPerformed (die : Die) (ids : NatSet) : Bool := !(translatedOpen die).any fun i => ids.contains i

/-- The reply to a data request reaches its core: registers, then the thread or its stroke; one marked as an uncorrectable error kills the thread
(R299). -/
def landNote (s : State) (r : Req) (data : List Byte) (flags : Nat) : State :=
  let s := answered s r
  if 64 ≤ flags then uncorrThread s r.tid r.ea else
  match s.thread? r.tid with
  | none => s
  | some t =>
    let s := s.setThread r.tid (landReply t r data flags)
    if t.io.dying then s
    else
      match r.rep with
      | some _ => strokeAnswered s r
      | none => if r.kind.dests == [0] && !r.kind.fullEmpty then s else resumeReply s r

/-- Cause 0x08 of a full/empty request: precise, the thread leaves its wait and enters its handler (R122 check 7). -/
def trapReply (s : State) (r : Req) (ea : Word) : State :=
  let s := answered s r
  match s.thread? r.tid with
  | none => s
  | some t =>
    if t.io.dying then s
    else
      trapWaiting (s.setThread r.tid (r.kind.dests.foldl Thread.clearPending t)) r.tid 0x08 ea

/-- LOAD_REPLY (R123): the continuation of a parking request, a trap found at the home, or the end of line.iinv and xlat.inv. -/
def execLoadReply (k : Nat) (s : State) : Out :=
  match takeNote s k with
  | some (n, rest) =>
    match n.note with
    | .reply r data flags =>
      (match r.kind with
       | .fetch => .next s
       | _ => .next (landNote rest r data flags))
    | .trap8 r ea => .next (trapReply rest r ea)
    | .inval tid d last wait =>
      if allPerformed (s.die (n.core / 256)) wait then
        .next (resumeThread (rest.modThread tid fun t => t.land d 0) tid (.done last))
      else .next s
    | _ => .next s
  | none => .next s

/-- FETCH_LINE_LANDS (R59): the line enters the I-store and the thread is ready again; an answer without a line, whose fetch has met an uncorrectable
error, leaves the I-store as it is (R299). DESIGN CHOICE: a line that was read before a line.iinv names it and lands after it enters as it was read (log
entry 113). -/
def execFetchLineLands (k : Nat) (s : State) : Out :=
  match takeNote s k with
  | some (n, rest) =>
    match n.note with
    | .reply r data _ =>
      (match r.kind with
       | .fetch =>
         let s := answered rest r
         let s := s.modCore r.core fun c =>
           if c.iss.segment.isNone && !data.isEmpty then putCode c { base := r.ea, bytes := data } else c
         .next (match s.thread? r.tid with
           | some t =>
             (match t.status with
              | .parked (.reply .again) => makeReady s r.tid
              | _ => s)
           | none => s)
       | _ => .next s)
    | _ => .next s
  | none => .next s

/-- A thread becomes Faulted: it leaves its seat or queue (R124, R206). -/
def faultThread (s : State) (tid : Tid) : State :=
  match s.thread? tid with
  | none => s
  | some t =>
    (leaveQueues s t.core tid).setThread tid
      { t with status := .faulted, io := { t.io with faultedAt := s.coreClock t.core } }

/-- A fault of a posted store: the entry stays at the head of the store queue, and its thread becomes Faulted at its next boundary
(R124). -/
def faultPosted (s : State) (r : Req) : State :=
  let s := s.modCore r.core fun c =>
    { c with port := { c.port with
        unacked := c.port.unacked.filter fun q => q.id != r.id
        unperformed := c.port.unperformed.filter fun e => e.1 != r.id
        loads := c.port.loads.filter fun e => e.1 != r.id
        faulted := c.port.faulted ++ [r] } }
  match s.thread? r.tid with
  | none => s
  | some t =>
    let s := s.setThread r.tid { t with io := { t.io with storeFault := true } }
    match t.status with
    | .seated .. | .ready => faultThread s r.tid
    | _ => s

/-- A fault of a request its thread is parked on: its destinations are no longer pending, and the thread will issue it again (R124); one evicted
meanwhile issues it when it is reseated (log entry 93). -/
def faultParked (s : State) (r : Req) : State :=
  let s := answered s r
  match s.thread? r.tid with
  | none => s
  | some t =>
    let t := r.kind.dests.foldl Thread.clearPending t
    if t.io.dying then s.setThread r.tid t
    else if t.status == .pooled then s.setThread r.tid { t with io := { t.io with kept := none } }
    else faultThread (s.setThread r.tid t) r.tid

/-- A fault of a load repetition: its destination is no longer pending, and the stroke sends nothing more (R195). -/
def faultRepetition (s : State) (r : Req) : State :=
  let s := answered s r
  match s.thread? r.tid with
  | none => s
  | some t =>
    let s := s.setThread r.tid (r.kind.dests.foldl Thread.clearPending t)
    modStroke s r.tid fun k =>
      { k with
        loads := k.loads.map fun l => if l.req.id == r.id then { l with faulted := true } else l
        barrierReq := if k.barrierReq = some r.id then none else k.barrierReq }

/-- FAULT_REPLY (R124, R225): the fault is reported to the service queue; the thread becomes Faulted, or the store queue holds the store.
A load that parked no thread is held as a posted store is (log entry 22). -/
def execFaultReply (k : Nat) (s : State) : Out :=
  match takeNote s k with
  | some (n, rest) =>
    match n.note with
    | .fault r e =>
      let s := reportFault rest (n.slice / 256) (n.slice % 256) e
      let posted := r.kind.posted || (r.kind.dests == [0] && !r.kind.fullEmpty)
      .next
        (if r.rep.isSome && !r.kind.isStore then faultRepetition s r
         else if posted then faultPosted s r
         else faultParked s r)
    | _ => .next s
  | none => .next s

/-- FAULT_QUEUE_SPACE (R225): the oldest held fault register of a slice is written once the queue has room. -/
def execFaultQueueSpace (die sl : Nat) (s : State) : Out :=
  match (s.slice die sl).held with
  | [] => .next s
  | e :: rest =>
    if faultSpace s die then .next (putFault (s.modSlice die sl fun y => { y with held := rest }) die e) else .next s

/-- ISTORE_PARITY_ERROR (R59, R299): the line is dropped and refetched from memory as it stands, in a pinned segment too. -/
def execIstoreParityError (g : Nat) (ia : Word) (s : State) : Out :=
  let base := lineBase ia
  match codeLine? (s.core g) ia with
  | none => .next s
  | some _ =>
    let (s, data) := dieRead s (eaDie base) (eaOffset base) 64
    match data with
    | none =>
      .next (s.modCore g fun c =>
        if c.iss.segment.isSome then c
        else { c with iss := { c.iss with istore := c.iss.istore.filter fun l => l.base != base } })
    | some bs =>
      .next (s.modCore g fun c =>
        { c with iss := { c.iss with
            istore := c.iss.istore.map fun l => if l.base == base then { l with bytes := bs } else l } })

end Sys2Proof.Machine
end

