-- ==== Sys2Proof/Machine/Flow.lean ====
section
/-! DEFINITION. What crosses dies (spec/14 R232 to R238, spec/10 R182, R184, spec/15 R248): the places an engine address names and the
writes and reads made there, flows with their order classes, sequence numbers and credits, delivery at the destination, markers and the
fences that wait for them, and arrivals at barrier objects. -/

namespace Sys2Proof.Machine

/-! ### Places an engine address names (R36, R182) -/

/-- Where a word an engine names has its home. -/
inductive HomePlace where
  | lstore (g off : Nat)
  | global (die off : Nat)
  | host
  | far (die : Nat)
  deriving DecidableEq, Repr

/-- The die of the pod (package * 8 + die) a core of this package stands on. -/
def podDie (s : State) (g : Nat) : Nat := s.cfg.package * 8 + g / 256

/-- Whether a die of the pod is one of this package. -/
def ownPackage (s : State) (x : Nat) : Bool := x / 8 == s.cfg.package

/-- The place of an address, for a command of core g; none for a form that names nothing (R36, R182). -/
def placeOf (s : State) (g : Nat) (ea : Word) : Option HomePlace :=
  if eaGlobal ea then
    (if eaPackage ea = s.cfg.package then some (.global (eaDie ea) (eaOffset ea))
     else some (.far (eaPackage ea * 8 + eaDie ea)))
  else if eaHost ea then (if eaHostOk ea then some .host else none)
  else if eaLocal ea then some (.lstore g ea.toNat)
  else if !remoteOk ea then none
  else if remoteCore ea / 2048 = s.cfg.package then some (.lstore (remoteCore ea % 2048) (remoteOffset ea))
  else some (.far (remoteCore ea / 256))

/-- The die of the pod a place lies on; the host lies on none. -/
def placeDie (s : State) : HomePlace → Option Nat
  | .lstore g _ => some (podDie s g)
  | .global d _ => some (s.cfg.package * 8 + d)
  | .host => none
  | .far x => some x

/-- The own L-store form of an address turned into the remote form that names its core, which it keeps on another die (R182). -/
def homeForm (s : State) (g : Nat) (ea : Word) : Word :=
  if eaLocal ea then BitVec.ofNat 64 (2 ^ 62 + gcoreOf s.cfg.package g * 2 ^ 32 + ea.toNat % 2 ^ 19) else ea

/-! ### Writes and reads of engines at the home (R181, R245, R248) -/

/-- What became of an access: performed, stopped by a page fault at a die's offset, or refused by a check. -/
inductive Landed where
  | done (s : State) (bytes : List Byte)
  | fault (s : State) (die off : Nat)
  | refused
  deriving DecidableEq, Repr

/-- The first piece of a range on a die that has no page with a permission. -/
def unmapped (s : State) (d off n : Nat) (w : Bool) : Option Nat :=
  ((pieces off n).find? fun p =>
    match (translate s d p.1).2 with
    | some x => !(if w then x.w else x.r)
    | none => true).map (·.1)

/-- For whom an engine access is made: a launch of this package, a launch of another package, or the host (R306; log entry 65). -/
inductive Issuer where
  | launch (lid : Nat)
  | foreign
  | host
  deriving DecidableEq, Repr

/-- Whether the L-store of a core may be accessed for an issuer: the windows held there for its launch (R182); for the host below lcap (log entry 65). -/
def mayUse (s : State) (who : Issuer) (g off n : Nat) (r w : Bool) : Bool :=
  match who with
  | .launch l => (s.core g).launch == l && lstoreOk s g off n r w
  | .foreign => lstoreOk s g off n r w
  | .host => decide (off + n ≤ s.cfg.lcap)

/-- A write at a place: each word touched is set full and its waiters served (R248); checked says that issue has checked the range. -/
def writeAt (s : State) (who : Issuer) (checked : Bool) (p : HomePlace) (ea : Word) (bytes : List Byte) : Landed :=
  match p with
  | .lstore g off =>
    if checked || mayUse s who g off bytes.length false true then .done (lwriteFull s g off bytes) [] else .refused
  | .global d off =>
    match unmapped s d off bytes.length true with
    | some o => .fault s d o
    | none => .done (dieWrite s d off bytes true).1 []
  | .host => .done (partWrite s ea bytes).1 []
  | .far _ => .refused

/-- A read at a place (R247). -/
def readAt (s : State) (who : Issuer) (checked : Bool) (p : HomePlace) (ea : Word) (n : Nat) : Landed :=
  match p with
  | .lstore g off =>
    if checked || mayUse s who g off n true false then .done s (lread s g off n) else .refused
  | .global d off =>
    match unmapped s d off n false with
    | some o => .fault s d o
    | none =>
      match dieRead s d off n with
      | (s, some bs) => .done s bs
      | (s, none) => .fault s d off
  | .host => .done s (s.host.memory.bytes (ea.slice 55 0) n)
  | .far _ => .refused

/-- A page fault of an engine reported to the die's fault service queue, naming the issuing thread (R181, R226): the state, and whether
there was room for it (log entry 50); cmd is the host COPY that waits for the entry, item that items of one do. -/
def reportEngine (s : State) (tid : Tid) (core d off : Nat) (w : Bool) (cmd : Option (Nat × Nat)) (item : Bool := false) : State × Bool :=
  let k := homeSlice (lineOf off)
  if faultRoom s d k then
    let present := (translate s d off).2.isSome
    (reportFault s d k
      { tid := tid, core := core % 256, slice := k, kind := 5, w := w, p := present, ea := globalEA s.cfg.package d off,
        stamp := s.cycle, cmd := cmd, item := item }, true)
  else (s, false)

/-! ### Page faults of the launch manager and the network interfaces (R324; log entry 117) -/

/-- The first place of a range at a die-global address of the package that has no page with a permission: die and offset. -/
def pageGap (s : State) (ea : Word) (n : Nat) (w : Bool) : Option (Nat × Nat) :=
  if eaGlobal ea && eaPackage ea == s.cfg.package then (unmapped s (eaDie ea) (eaOffset ea) n w).map fun off => (eaDie ea, off) else none

/-- A page fault of an access that waits for service, reported once for what waits. -/
def reportGap (s : State) (who : Nat) (tid : Tid) (core : Nat) (w : Bool) (gap : Nat × Nat) : State :=
  let key := (who, gap.1, gap.2 / 2 ^ 16)
  if s.net.pageWaits.contains key then s
  else
    match reportEngine s tid core gap.1 gap.2 w none with
    | (s, true) => s.modNet fun n => { n with pageWaits := n.pageWaits ++ [key] }
    | (s, false) => s

/-- What waited has been done. -/
def gapServed (s : State) (who : Nat) : State := s.modNet fun n => { n with pageWaits := n.pageWaits.filter fun k => k.1 != who }

/-- Whether the server has returned the queue entry of a fault of a host COPY (R306, R308). -/
def entryReturned (s : State) (entry : Option (Nat × Nat)) : Bool :=
  match entry with
  | some (d, ix) =>
    (match (partRead s (faultAddr s d (32 * (ix % 1024) + 24)) 8).2 with
     | some bs => (leWord bs).toNat % 2 == 0
     | none => false)
  | none => false

/-! ### Flows and credits (R234, R235) -/

/-- A flow, as it begins or as it stands. -/
def State.flow (s : State) (src dst cls : Nat) : Flow :=
  (s.net.flows.find? fun f => f.src == src && f.dst == dst && f.cls == cls).getD
    { src := src, dst := dst, cls := cls, next := 0, expect := 0, undelivered := 0, bad := [] }

/-- A change of a flow. -/
def State.modFlow (s : State) (src dst cls : Nat) (h : Flow → Flow) : State :=
  let f := h (s.flow src dst cls)
  s.modNet fun n =>
    { n with flows := (n.flows.filter fun f => !(f.src == src && f.dst == dst && f.cls == cls)) ++ [f] }

/-- The undelivered items a class holds in a die's reorder buffer. -/
def classShare (s : State) (dst cls : Nat) : Nat :=
  (s.net.flows.filter fun f => f.dst == dst && f.cls == cls).foldl (fun n f => n + f.undelivered) 0

/-- Whether a flow has credit for one more item: fewer than 64 of its own and 512 of its class (R235; log entry 34). -/
def hasCredit (s : State) (src dst cls : Nat) : Bool :=
  decide ((s.flow src dst cls).undelivered < 64) && decide (classShare s dst cls < 512)

/-- Whether two items are of one flow. -/
def sameFlow (a b : Item) : Bool := a.src == b.src && a.dst == b.dst && a.cls == b.cls

/-- An item put on its way to a die of this package. -/
def launchItem (s : State) (x : Item) : State :=
  (s.modFlow x.src x.dst x.cls fun f => { f with undelivered := f.undelivered + 1 }).modNet fun n =>
    { n with items := n.items ++ [x] }

/-- The data bytes an item carries; an item without data is one flit (R335, R338). -/
def bodyBytes : ItemBody → Option (List Byte)
  | .write _ _ _ _ bs | .contribution _ _ _ _ _ _ _ _ _ _ _ _ bs | .message _ _ _ _ _ bs _ => some bs
  | .readData _ _ _ bs => bs
  | _ => none

/-- The flits of an item of n bytes of data: 16 bytes of header, the data, 16 bytes of tag (R335). -/
def itemFlits (n : Nat) : Nat := (n + 32 + 63) / 64

/-- The flits of an item. -/
def bodyFlits (b : ItemBody) : Nat :=
  match bodyBytes b with
  | some bs => itemFlits bs.length
  | none => 1

/-- The bytes of an item before its tag: header, data, and zeros up to the 16 bytes of the tag that end its last flit (R287, R335; log entry 33). -/
def itemBytes (x : Item) : List Byte :=
  let data := (bodyBytes x.body).getD []
  (List.range 16).map (Config.itemHeader x) ++ data ++ List.replicate (64 * bodyFlits x.body - 32 - data.length) 0

/-- The flits of an item, in order, with numbers, encryption and tag still to be given (R272, R287, R338). -/
def itemAsFlits (cmd : Option Nat) (x : Item) : List FlitRec :=
  let n := bodyFlits x.body
  let bytes := itemBytes x ++ List.replicate 16 0
  (List.range n).map fun i =>
    { cmd := cmd, seq := 0, kind := 1, cls := x.cls, first := i == 0, die := x.dst % 8, len := n, place := i,
      payload := (bytes.drop (64 * i)).take 64, under := none, unacked := [] }

/-- The bytes of flit storage that queued items fill, in one destination queue or in all (R279, R272; log entry 35). -/
def queuedBytes (l : List QueuedItem) : Nat := 80 * l.foldl (fun n q => n + bodyFlits q.item.body) 0

/-- Whether a queue of the Bridle, or its storage, has no room for an item more (R279; log entry 35). -/
def queueFull (s : State) (dest : Nat) (b : ItemBody) : Bool :=
  decide (2 ^ 20 < queuedBytes (s.links.queues.filter fun q => q.dest == dest) + 80 * bodyFlits b)
    || decide (64 * 2 ^ 20 < queuedBytes s.links.queues + 80 * bodyFlits b)

/-- The number under which a die's queue stands in the Bridle, beside those of the packages 0 to 4,095 (R279). -/
def localQueue (die : Nat) : Nat := 4096 + die

/-- An item into the Bridle's queue for another package (R279). -/
def queueItem (s : State) (x : Item) : State :=
  { s with
    links := { s.links with
      queues := s.links.queues ++ [{ item := x, dest := x.dst / 8, since := s.cycle.toNat }] } }

/-- The die that holds an item for want of credit: the destination of this package, or, toward another, the source. -/
def holdingDie (s : State) (x : Item) : Nat := if ownPackage s x.dst then x.dst % 8 else x.src % 8

/-- Whether an item may go now: a reply always inside the package, anything else where its flow has credit, and, toward another package, where the
Bridle's queue has room (R234, R235, R279; log entry 34). -/
def mayAdmit (s : State) (x : Item) : Bool :=
  (x.cls ≥ 4 || hasCredit s x.src x.dst x.cls) && (ownPackage s x.dst || !queueFull s (x.dst / 8) x.body)

/-- An item on its way, inside the package or through the Bridle: its flow has one item more undelivered. -/
def admitItem (s : State) (x : Item) : State :=
  if x.cls ≥ 4 then (if ownPackage s x.dst then s.modNet fun n => { n with items := n.items ++ [x] } else queueItem s x)
  else if ownPackage s x.dst then launchItem s x
  else queueItem (s.modFlow x.src x.dst x.cls fun f => { f with undelivered := f.undelivered + 1 }) x

/-- Whether an item held at its source before an item goes before it: one of its flow, or an older one to the same die and class, which could go now (R235). -/
def heldBefore (s : State) (x : Item) : Bool :=
  s.dies.any fun e => e.2.outgoing.any fun y => sameFlow x y || (y.dst == x.dst && y.cls == x.cls && mayAdmit s y)

/-- An item given the next number of its flow and sent, or held at its source for want of credit, behind those that wait for it already (R235). -/
def sendItem (s : State) (src dst cls : Nat) (body : ItemBody) : State :=
  let x : Item := { src := src, dst := dst, cls := cls, seq := (s.flow src dst cls).next, body := body }
  let s := s.modFlow src dst cls fun f => { f with next := f.next + 1 }
  if mayAdmit s x && !heldBefore s x then admitItem s x
  else s.modDie (holdingDie s x) fun d => { d with outgoing := d.outgoing ++ [x] }

/-- A reply sent: it carries no sequence number, and is always consumed; its source holds it while the Bridle's queue toward its package is full (R234,
R279). -/
def sendReply (s : State) (src dst : Nat) (body : ItemBody) : State :=
  let x : Item := { src := src, dst := dst, cls := 4, seq := 0, body := body }
  if mayAdmit s x then admitItem s x else s.modDie (holdingDie s x) fun d => { d with outgoing := d.outgoing ++ [x] }

/-- An item of a thread (classes 1 and 2) sent: its die joins the set a wider fence sends markers to (R238). -/
def sendFromThread (s : State) (tid : Tid) (src dst cls : Nat) (body : ItemBody) : State :=
  let n := s.net.nextReq
  let s := sendItem s src dst cls body
  s.modThread tid fun t => { t with io := { t.io with dests := tabPut t.io.dests dst n } }

/-! ### Markers (R236 to R238) -/

/-- A marker sent on a flow, asking for an acknowledgement or not, for a fence of a thread, an engine command or a barrier arrival. -/
def sendMarker (s : State) (src dst cls : Nat) (ack : Bool) (who : Option Tid) (cmd : Option (Nat × Nat)) (bar : Option Nat)
    (id : Nat) : State :=
  let note : MarkNote :=
    { id := id, src := src, dst := dst, cls := cls, who := who, cmd := cmd, bar := bar, ackWanted := ack, delivered := false, status := 0 }
  sendItem (s.modNet fun n => { n with marks := n.marks ++ [note] }) src dst cls (.marker ack id)

/-- Whether a delivered marker of a flow still waits for what went before it: nothing behind it is delivered (R236). -/
def markerHolds (s : State) (src dst cls : Nat) : Bool :=
  s.net.marks.any fun m => m.delivered && m.src == src && m.dst == dst && m.cls == cls

/-! ### Delivery (R235, R236) -/

/-- One answer a command waits for has come (R237); a status that is no done status stays. -/
def commandAnswered (s : State) (cmd : Nat × Nat) (status : Nat) : State :=
  modCommand s cmd.1 cmd.2 fun x =>
    { x with
      status := if x.status ≥ 0x40 then x.status else if status ≥ 0x40 then status else x.status ||| status
      phase := match x.phase with
        | .answers n => if n ≤ 1 then .finished else .answers (n - 1)
        | p => p }

/-- A marker's acknowledgement reaches what waits for it: a fence or a barrier arrival, whose die leaves the set once it owes nothing more and the
thread has sent nothing to it since, or a command (R237, R238). -/
def markerAnswered (s : State) (m : MarkNote) (status : Nat) : State :=
  let s := match m.who with
    | some tid =>
      let open_ := s.net.marks.any fun x => x.who == some tid && x.dst == m.dst
      s.modThread tid fun t =>
        { t with
          io := { t.io with dests := if open_ || m.id < tabGetD t.io.dests m.dst 0 then t.io.dests else tabDel t.io.dests m.dst } }
    | none => s
  let s := match m.who, m.bar with
    | some tid, none =>
      s.modThread tid fun t =>
        (match t.park? with
         | some (.fence l st e n r) => t.repark (.fence l st e (n - 1) r)
         | _ => t)
    | _, _ => s
  let s := match m.bar with
    | some id =>
      s.modNet fun n =>
        { n with barriers := n.barriers.map fun b => if b.id = id ∧ !b.arrived then { b with marks := b.marks.map (· - 1) } else b }
    | none => s
  match m.cmd with
  | some c => commandAnswered s c status
  | none => s

/-- For whom an item of an engine queue acts: a launch of this package, a launch of another, or the host, whose commands stand in the queues from
2,048 on (R306; log entry 65). -/
def itemIssuer (s : State) (x : Item) (tid : Tid) (core : Nat) : Issuer :=
  if !ownPackage s x.src then .foreign else if 2048 ≤ core then .host else .launch (tidLaunch tid)

/-- The performance of a delivered write or read request: the state, and whether it waits for its page (R181). -/
def performItem (s : State) (x : Item) : State × Bool :=
  match x.body with
  | .write tid core cmd ea bytes =>
    (match placeOf s 0 ea with
     | some p =>
       (match writeAt s (itemIssuer s x tid core) false p ea bytes with
        | .done s _ => (s, false)
        | .fault s _ _ => (s, true)
        | .refused => (s.modFlow x.src x.dst x.cls fun f => { f with bad := setAdd f.bad cmd }, false))
     | none => (s.modFlow x.src x.dst x.cls fun f => { f with bad := setAdd f.bad cmd }, false))
  | .read tid ea n core cmd elem =>
    (match placeOf s 0 ea with
     | some p =>
       (match readAt s (itemIssuer s x tid core) false p ea n with
        | .done s bs => (sendReply s x.dst x.src (.readData core cmd elem (some bs)), false)
        | .fault s _ _ => (s, true)
        | .refused => (sendReply s x.dst x.src (.readData core cmd elem none), false))
     | none => (sendReply s x.dst x.src (.readData core cmd elem none), false))
  | _ => (s, false)

/-- Whether a delivered write or read is at the line it names: nothing that came before it waits there (R220, R223, R245). -/
def itemReady (s : State) (x : Item) : Bool :=
  let ready (ea : Word) (n : Nat) (w : Bool) : Bool :=
    match placeOf s 0 ea with
    | some (.global d off) => (unmapped s d off n w).isSome || rangeReady s d off n w
    | _ => true
  match x.body with
  | .write _ _ _ ea bytes => ready ea bytes.length true
  | .read _ ea n _ _ _ => ready ea n false
  | _ => true

/-- A delivered item in the parts its homes perform independently: a write of die-global memory line by line (R236). -/
def itemParts (s : State) (x : Item) : List Item :=
  match x.body with
  | .write tid core cmd ea bytes =>
    (match placeOf s 0 ea with
     | some (.global _ off) =>
       (pieces off bytes.length).map fun p =>
         { x with body := .write tid core cmd (ea + BitVec.ofNat 64 (p.1 - off)) ((bytes.drop (p.1 - off)).take p.2) }
     | _ => [x])
  | _ => [x]

/-- The line of die-global memory a part names: its die and the line's number. -/
def itemLine (s : State) (x : Item) : Option (Nat × Nat) :=
  match (itemAddress x).bind (placeOf s 0) with
  | some (.global d off) => some (d, lineOf off)
  | _ => none

/-- Whether a part waits behind one that was delivered before it to its line (R220, R236). -/
def lineAhead (s : State) (l : List Stuck) (x : Item) : Bool :=
  (itemLine s x).isSome && l.any fun y => itemLine s y.item == itemLine s x

/-- The page fault of a part that waits reported to its die, naming the issuing thread and core, or, of a host COPY, neither (R181, R226, R306; log entry 50):
the state, and whether there was a fault register for it. -/
def reportItem (s : State) (x : Item) : State × Bool :=
  let report (tid : Tid) (core : Nat) (ea : Word) (n : Nat) (w : Bool) : State × Bool :=
    if eaGlobal ea then
      match unmapped s (eaDie ea) (eaOffset ea) n w with
      | some o => reportEngine s tid (if itemHost x then 0 else core) (eaDie ea) o w none (itemHost x)
      | none => (s, true)
    else (s, true)
  match x.body with
  | .write tid core _ ea bytes => report tid core ea bytes.length true
  | .read tid ea n core _ _ => report tid core ea n false
  | _ => (s, true)

/-- What waits at a die changed, for one part. -/
def modStuck (s : State) (d : Nat) (x : Item) (h : Stuck → Stuck) : State :=
  s.modDie d fun die => { die with stuck := die.stuck.map fun y => if y.item == x then h y else y }

/-- A part that waits at its home and has met a page fault there: reported, unless another part of its item waits for the same page to be served. -/
def tellItem (s : State) (d : Nat) (x : Item) : State :=
  let twin (y : Stuck) : Bool :=
    y.item != x && sameFlow x y.item && y.item.seq == x.seq && (itemAddress y.item).map pageOf == (itemAddress x).map pageOf && y.told
      && !(itemHost x && entryReturned s y.entry)
  match (s.die d).stuck.find? twin with
  | some y => modStuck s d x fun z => { z with told := true, entry := y.entry }
  | none =>
    let (s, told) := reportItem s x
    modStuck s d x fun z => { z with told := told }

/-- A part handed to its home: performed, or left to wait for its line or its page (R220, R236). -/
def deliverPart (s : State) (x : Item) : State :=
  let d := x.dst % 8
  let wait (s : State) : State := s.modDie d fun die => { die with stuck := die.stuck ++ [{ item := x, told := false, entry := none }] }
  if lineAhead s (s.die d).stuck x || !itemReady s x then wait s
  else
    match performItem s x with
    | (s, false) => s
    | (s, true) => tellItem (wait s) d x

/-- A flow's record of a command's failed writes taken, and the status it gives the command's completion (R181). -/
def takeBad (s : State) (x : Item) (cmd status : Nat) : State × Nat :=
  if setHas (s.flow x.src x.dst x.cls).bad cmd then
    (s.modFlow x.src x.dst x.cls fun f => { f with bad := setDel f.bad cmd }, if status ≥ 0x40 then status else 0x41)
  else (s, status)

/-- The key of a pod barrier's group: its job, or its launch where it has none (R241). -/
def podKey (s : State) (lid : Nat) : Nat :=
  match s.launch? lid with
  | some l => if l.desc.job = 0 then 2 * lid + 1 else 2 * l.desc.job
  | none => 2 * lid + 1

/-- The package at the root of a pod barrier's group: of a job, its lowest-numbered package, which this package is not below (R240, R241; log entry 9). -/
def podRoot (s : State) (unit : Nat) : Nat := if unit % 2 = 1 then s.cfg.package else min (Config.jobRoot (unit / 2)) s.cfg.package

/-- Whether a value of a pod barrier's generation is newer than what a package holds: after a later barc, or ahead of it since the same one (log entry
72). -/
def Bar.older (b : Bar) (value : BitVec 32) (epoch : Nat) : Bool :=
  decide (b.epoch < epoch) || (b.epoch == epoch && b.n != value && decide ((value - b.n).toNat < 2 ^ 31))

/-- What a far root tells of a pod barrier: noted where it is newer than what the package holds, and told to the package's waiters (R240; log entry 72). -/
def notePod (s : State) (unit n : Nat) (value : BitVec 32) (epoch : Nat) : State :=
  let bars := tabGetD s.podBars unit []
  let b := tabGetD bars n Bar.reset
  if podRoot s unit ≠ s.cfg.package ∧ b.older value epoch then
    ({ s with podBars := tabPut s.podBars unit (tabPut bars n { b with n := value, epoch := epoch }) }).modNet fun x =>
      { x with gens := x.gens ++ [(Scope.pod, unit, n, value)] }
  else s

/-- An item handed to its home (R236). -/
def deliverBody (s : State) (x : Item) : State :=
  match x.body with
  | .write .. | .read .. => (itemParts s x).foldl deliverPart s
  | .marker ack id =>
    if ownPackage s x.src then
      s.modNet fun n =>
        { n with marks := n.marks.map fun m =>
            if m.id = id && m.src == x.src && m.dst == x.dst && m.cls == x.cls then { m with delivered := true } else m }
    else
      s.modNet fun n =>
        { n with marks := n.marks ++
            [{ id := id, src := x.src, dst := x.dst, cls := x.cls, who := none, cmd := none, bar := none, ackWanted := ack,
               delivered := true, status := 0 }] }
  | .arrival obj status launch cmd =>
    let (s, status) := match cmd with
      | some c => takeBad s x c.2 status
      | none => (s, status)
    let own := ownPackage s x.src
    let o : ObjNote :=
      { launch := if own then launch else 0, core := 0, local_ := false, obj := obj, status := status, cmd := if own then cmd else none,
        via := some (x.src, x.dst) }
    s.modNet fun n => { n with objects := n.objects ++ [o] }
  | .token core cmd status =>
    modCommand s core cmd fun c => { c with status := status, phase := .finished }
  | .contribution job group core cmd tid op tag dst len mask ranks dies data =>
    s.modNet fun n =>
      { n with contributions := n.contributions ++
          [{ job := job, group := group, die := x.src, core := core, cmd := cmd, tid := tid, op := op, dst := dst, len := len,
             mask := mask, ranks := ranks, dies := dies, data := data, tag := tag }] }
  | .atomic tid ea op four sc operand expected src seq =>
    s.modNet fun n =>
      { n with ratoms := n.ratoms ++
          [{ src := src, home := x.dst, tid := tid, seq := seq, sc := sc, ea := ea, op := op, four := four, operand := operand,
             expected := expected, old := 0, status := 0, faulted := false }] }
  | .message core order src dst tag data forwarded =>
    match s.thread? dst with
    | some t =>
      s.modNet fun n =>
        { n with messages := n.messages ++
            [{ srcCore := core, dstCore := t.core, src := src, dst := dst, tag := tag, data := data, order := order,
               forwarded := forwarded, via := some (x.src, x.dst) }] }
    | none =>
      s.modNet fun n =>
        { n with messages := n.messages ++
            [{ srcCore := core, dstCore := x.dst % 8 * 256, src := src, dst := dst, tag := tag, data := data, order := order,
               forwarded := forwarded, via := some (x.src, x.dst) }] }
  | .wake tid priv launch =>
    s.modNet fun n => { n with wakes := n.wakes ++ [{ src := 2048 + x.src, at_ := x.dst, tid := tid, priv := priv, launch := launch, after := [] }] }
  | .kill tid priv launch =>
    s.modNet fun n => { n with kills := n.kills ++ [{ src := 2048 + x.src, at_ := x.dst, tid := tid, priv := priv, launch := launch, after := [] }] }
  | .barrier group pod n tid d =>
    s.modNet fun net =>
      { net with barriers := net.barriers ++
          [{ id := 0, after := [], marks := some 0, tid := tid, sc := if pod then .pod else .pkg, n := n, unit := group, d := d,
             count := none, tval := 0, last := false, from_ := x.src, arrived := true }] }
  | .barset group pod n count tid value last =>
    s.modNet fun net =>
      { net with barriers := net.barriers ++
          [{ id := 0, after := [], marks := some 0, tid := tid, sc := if pod then .pod else .pkg, n := n, unit := group, d := 0,
             count := some count, tval := value, last := last, from_ := x.src, arrived := true }] }
  | .gondola tid =>
    s.modNet fun n =>
      { n with gondolas := n.gondolas.map fun y => if y.tid == tid then { y with arrived := true } else y }
  | .readData core cmd elem bytes =>
    (match bytes with
     | some bs => modCommand s core cmd fun c =>
         { c with buf := Memory.write c.buf (elem * bs.length) bs, asked := setAdd (setDel c.asked (2 * elem)) (2 * elem + 1) }
     | none => modCommand s core cmd fun c => { c with status := if c.status ≥ 0x40 then c.status else 0x41 })
  | .markerAck id status =>
    (match s.net.marks.find? fun m => m.id == id && m.dst == x.src with
     | some m =>
       markerAnswered
         (s.modNet fun n => { n with marks := n.marks.filter fun y => !(y.id == id && y.dst == x.src && y.cls == m.cls) }) m status
     | none => s)
  | .atomicReply src seq old status =>
    let mine (r : RatomNote) : Bool := r.src == src && r.seq == seq && r.home == x.src
    s.modNet fun n =>
      { n with
        responses := n.responses ++ (n.ratoms.filter mine).map fun r => { r with old := old, status := status }
        ratoms := n.ratoms.filter fun r => !mine r }
  | .arrived tid k d value epoch =>
    (notePod s (podKey s (tidLaunch tid)) k value epoch).modNet fun n => { n with units := n.units ++ [.gen tid .pod d value] }
  | .barsetReply tid k ok value last epoch =>
    (if ok then notePod s (podKey s (tidLaunch tid)) k 0 epoch else s).modNet fun n =>
      { n with units := n.units ++ [.barc tid .pod k ok value last] }
  | .generation group n value epoch => notePod s group n value epoch
  | .credit cls => s.modFlow x.dst x.src cls fun f => { f with undelivered := f.undelivered - 1 }

/-- An item delivered: its flow expects the next number, and its credit goes back to its source (R235; log entry 34). -/
def deliverItem (s : State) (x : Item) : State :=
  let s := s.modFlow x.src x.dst x.cls fun f => { f with expect := x.seq + 1, undelivered := f.undelivered - 1 }
  deliverBody (if ownPackage s x.src then s else sendReply s x.dst x.src (.credit x.cls)) x

/-- Items of a flow delivered from a die's reorder buffer in order, as far as they have come and no marker holds them (R235, R236). -/
def drainFlow : Nat → State → Nat → Nat → Nat → State
  | 0, s, _, _, _ => s
  | fuel + 1, s, src, dst, cls =>
    if markerHolds s src dst cls then s
    else
      let want := (s.flow src dst cls).expect
      let here (x : Item) : Bool := x.src == src && x.dst == dst && x.cls == cls && x.seq == want
      match (s.die (dst % 8)).reorder.find? here with
      | some x =>
        let s := s.modDie (dst % 8) fun d => { d with reorder := d.reorder.filter fun y => !here y }
        drainFlow fuel (deliverItem s x) src dst cls
      | none => s

/-- A flow's items delivered from the reorder buffer. -/
def drain (s : State) (src dst cls : Nat) : State :=
  drainFlow ((s.die (dst % 8)).reorder.length + 1) s src dst cls

/-- Whether a sequence number of a flow has been delivered already: it lies behind the number expected (R235). -/
def behind (expect seq : BitVec 16) : Bool := (seq - expect).toNat ≥ 2 ^ 15

/-- An item whose number its flow has had already discarded: it holds no place of the buffer (R235). -/
def discardItem (s : State) (x : Item) : State := s.modFlow x.src x.dst x.cls fun f => { f with undelivered := f.undelivered - 1 }

/-- FLOW_ITEM_ARRIVAL (R235, R236): an item joins its flow's place in the reorder buffer, a number already there or delivered is discarded,
and what can be delivered in order is; a reply is consumed at once. -/
def execFlowItemArrival (k : Nat) (s : State) : Out :=
  match s.net.items[k]? with
  | none => .next s
  | some x =>
    let s := s.modNet fun n => { n with items := dropIx n.items k }
    if x.cls ≥ 4 then .next (deliverBody s x)
    else if behind (s.flow x.src x.dst x.cls).expect x.seq then .next (discardItem s x)
    else if (s.die (x.dst % 8)).reorder.any fun y => sameFlow x y && y.seq == x.seq then .next (discardItem s x)
    else
      let s := s.modDie (x.dst % 8) fun d => { d with reorder := d.reorder ++ [x] }
      .next (drain s x.src x.dst x.cls)

/-- One part that waits tried again, once nothing before it waits at its line and its line is ready: of a host COPY once its entry is returned, its fault then
reported anew (R306); any other reports a fault that is not reported yet (R181; log entry 67). -/
def retryPart (s : State) (d : Nat) (x : Item) : State :=
  let l := (s.die d).stuck
  match l.find? fun y => y.item == x with
  | none => s
  | some y =>
    if lineAhead s (l.takeWhile fun y => y.item != x) x || !itemReady s x || (itemHost x && y.told && !entryReturned s y.entry) then s
    else
      match performItem s x with
      | (s, false) => s.modDie d fun die => { die with stuck := die.stuck.filter fun y => y.item != x }
      | (s, true) =>
        if !y.told then tellItem s d x
        else if itemHost x then tellItem (modStuck s d x fun y => { y with told := false, entry := none }) d x
        else s

/-- The parts of a die that wait for their page or their line tried again, in order. -/
def retryStuck (s : State) (d : Nat) (p : Item → Bool) : State :=
  ((s.die d).stuck.filter fun y => p y.item).foldl (fun s y => retryPart s d y.item) s

/-- CREDIT_GRANT (R235, R279): items that waited for a page or a line are tried again, and the oldest held item whose flow has credit is admitted: one
a source holds, else one that came by light and waits in the Bridle's queue for the die (log entry 67). -/
def execCreditGrant (die : Nat) (s : State) : Out :=
  let s := retryStuck s die fun _ => true
  match (s.die die).outgoing.find? fun x => mayAdmit s x with
  | some x =>
    let s := s.modDie die fun d => { d with outgoing := d.outgoing.erase x }
    .next (admitItem s x)
  | none =>
    match findIx (fun (q : QueuedItem) => q.dest == localQueue die && (q.item.cls ≥ 4 || hasCredit s q.item.src q.item.dst q.item.cls)) s.links.queues with
    | none => .next s
    | some k =>
      match s.links.queues[k]? with
      | some q => .next (admitItem { s with links := { s.links with queues := dropIx s.links.queues k } } q.item)
      | none => .next s

/-- Whether something that came on a flow, delivered before a marker, is not yet performed at its home: a write or read that waits, an atomic, a
message, a wake or kill, an arrival at a barrier or an object, a contribution not yet held (R236). -/
def flowPending (s : State) (src dst cls : Nat) : Bool :=
  let via := some (src, dst)
  ((s.die (dst % 8)).stuck.any fun y => y.item.src == src && y.item.dst == dst && y.item.cls == cls) ||
    (cls == 0 && ((s.net.objects.any fun o => o.via == via) ||
      s.net.contributions.any fun c => c.die == src && ((placeOf s 0 c.dst).bind (placeDie s)) == some dst)) ||
    (cls == 1 && s.net.ratoms.any fun r => r.src / 256 == src && r.home == dst) ||
    (cls == 2 && ((s.net.messages.any fun m => m.via == via) || (s.net.wakes.any fun w => w.src == 2048 + src && w.at_ == dst) ||
      (s.net.kills.any fun w => w.src == 2048 + src && w.at_ == dst) ||
      s.net.barriers.any fun b => b.arrived && b.from_ == src && dst % 8 == 0))

/-- MARKER_COMPLETE (R236): every item before a delivered marker has been performed; it is acknowledged where that was asked, and the items
behind it are delivered. -/
def execMarkerComplete (k : Nat) (s : State) : Out :=
  match s.net.marks[k]? with
  | none => .next s
  | some m =>
    if !m.delivered then .next s
    else
      let here (x : Item) : Bool := x.src == m.src && x.dst == m.dst && x.cls == m.cls
      let s := retryStuck s (m.dst % 8) here
      if flowPending s m.src m.dst m.cls then .next s
      else
        let s := s.modNet fun n => { n with marks := dropIx n.marks k }
        let status := if m.ackWanted && setHas (s.flow m.src m.dst m.cls).bad m.id then 0x41 else 0
        let s :=
          if !m.ackWanted then s
          else
            let s := s.modFlow m.src m.dst m.cls fun f => { f with bad := setDel f.bad m.id }
            if ownPackage s m.src then
              s.modNet fun n => { n with markAcks := n.markAcks ++ [{ m with status := status }] }
            else sendReply s m.dst m.src (.markerAck m.id status)
        .next (drain s m.src m.dst m.cls)

/-- MARKER_ACK (R237, R238): an acknowledgement returns to its source. -/
def execMarkerAck (k : Nat) (s : State) : Out :=
  match s.net.markAcks[k]? with
  | none => .next s
  | some m =>
    .next (markerAnswered (s.modNet fun n => { n with markAcks := dropIx n.markAcks k }) m m.status)

/-! ### Fences (R85, R228, R238) -/

/-- The dies a wider fence sends markers to: those of the thread's set within the scope; past 16 the set stands for every die to which the
thread's die holds a flow of class 1 or 2 (R238; log entry 88). -/
def fenceDies (s : State) (t : Thread) (sc : Scope) : List Nat :=
  let own := podDie s t.core
  let set :=
    if t.io.dests.length > 16 then
      (s.net.flows.filter fun f => f.src == own && (f.cls == 1 || f.cls == 2)).foldl (fun x f => setAdd x f.dst) []
    else t.io.dests.map (·.1)
  set.filter fun x => sc == .pod || ownPackage s x

/-- Markers with acknowledgement sent on the class-1 and class-2 flows to each die a wider fence covers: the state, and how many (log entry 88). -/
def sendFenceMarkers (s : State) (tid : Tid) (t : Thread) (sc : Scope) (bar : Option Nat) : State × Nat :=
  let own := podDie s t.core
  let ds := fenceDies s t sc
  let s := ds.foldl
    (fun s x =>
      let s1 := sendMarker s own x 1 true (some tid) none bar s.net.nextReq
      let s2 := s1.takeReq
      (sendMarker s2 own x 2 true (some tid) none bar s2.net.nextReq).takeReq)
    s
  (s, 2 * ds.length)

/-- Whether a thread has an engine command that is not complete (R85): in whichever core's queue it was issued. -/
def enginesOpen (s : State) (tid : Tid) (below : Nat) : Bool :=
  s.cores.any fun e => e.2.engine.any fun c => c.tid == tid && decide (c.id < below)

/-- Whether a remote atomic of a thread is not on its flow yet, to a die a wider fence covers (R238). -/
def atomsUnsent (s : State) (tid : Tid) (t : Thread) (pod : Bool) : Bool :=
  s.cores.any fun e => e.2.engine.any fun c =>
    c.tid == tid && (c.phase == .waiting || c.phase == .moving) &&
      match c.kind, placeOf s e.1 c.dst with
      | .ratom .., some (.far _) => pod
      | .ratom .., some p => placeDie s p != some (podDie s t.core)
      | _, _ => false

/-- Whether a fence waits for markers. -/
def fenceMarks (sc : Scope) (kind : FenceKind) : Bool := (sc == .pkg || sc == .pod) && kind != .acq

/-- FENCE (R85, R228, R238): at core scope, where the port is in order, only for commands and for the stores a stroke has not sent; else for loads, for
stores, for the thread's remote atomics to be sent, for markers, for commands. -/
def execFence (sc : Scope) (kind : FenceKind) (s : State) : Out :=
  perform (.fence sc kind) s fun u t =>
    let stores := kind != .acq
    if sc != .core && ((!earlierLoads s u.tid t) || (stores && !earlierStores s u.tid t)) then
      finishPark u s (.fence true stores none 0 .again)
    else if kind == .engine && strokeLeft t false true then finishPark u s (.fence false true none 0 .again)
    else if fenceMarks sc kind && atomsUnsent s u.tid t (sc == .pod) then finishPark u s (.fenceSent (sc == .pod))
    else
      let r : Resume := .done (headLast u.head)
      let engines := if kind = .engine then some s.net.nextReq else none
      let (s, marks) := if fenceMarks sc kind then sendFenceMarkers s u.tid t sc none else (s, 0)
      if marks = 0 && !(kind == .engine && enginesOpen s u.tid (engines.getD 0)) then finishSeq u s
      else finishPark u s (.fence false false engines marks r)

/-! ### Barrier objects (R184) -/

/-- BARRIER_OBJECT_ARRIVAL (R184): the count falls, the first nonzero status is kept, and the last arrival fills the word; on a full word or a
count of 0 the arrival is an overrun. The command's queue entry is free (R180). -/
def execBarrierObjectArrival (k : Nat) (s : State) : Out :=
  match s.net.objects[k]? with
  | none => .next s
  | some o =>
    let s := s.modNet fun n => { n with objects := dropIx n.objects k }
    let s := match o.cmd with
      | some (g, id) => modEngine s g fun l => l.filter fun x => x.id != id
      | none => s
    match placeOf s o.core o.obj with
    | some (.lstore g off) =>
      let who : Issuer := if o.launch = 0 then .foreign else .launch o.launch
      if !(o.local_ || mayUse s who g off 8 false true) then .next s
      else
      let c := s.core g
      let v := c.lstore.word off
      let status := v.slice 63 56
      let count := v.slice 31 0
      if c.wordFull (off / 8) || count = 0 then
        let s := if status = 0 then lwrite s g (off + 7) [0x42] else s
        .next (emit s 0x0030 (g / 256) (g % 256) 0 [o.obj])
      else
        let st := if status = 0 then o.status else status
        let s := lwrite s g off (natLE (count - 1 + v.slice 55 32 * 2 ^ 32 + st * 2 ^ 56) 8)
        if count - 1 = 0 then .next (lserve (s.modCore g fun c => c.setWordFull (off / 8) true) g (off / 8)) else .next s
    | _ => .next s

end Sys2Proof.Machine
end

