-- ==== Sys2Proof/Machine/Contexts.lean ====
section
/-! DEFINITION. Contexts, windows and save records (spec/02 R22 to R28, spec/08 R138, R139, R144, R145, spec/12 R215, R216, spec/19 R297,
spec/23 R327): allocation, the record a thread is written to and read back from, and who takes a freed context. -/

namespace Sys2Proof.Machine

/-! ### Free contexts and windows (R22, R25, R28, R327) -/

/-- What sources hold on a core for gondolas that have landed and are not acknowledged (R260). -/
def heldOn (s : State) (g : Nat) : List Held := (s.net.landAcks.map (·.held)).filter fun h => h.core == g

/-- The contexts in use on a core. -/
def usedContexts (s : State) (g : Nat) : List Nat :=
  ((s.threadsOn g).filterMap fun e => e.2.ctx) ++ (heldOn s g).filterMap (·.ctx)

/-- The free contexts of a core, in order. -/
def freeContexts (s : State) (g : Nat) : List Nat := (List.range 64).filter fun k => !(usedContexts s g).contains k

/-- The register windows in use on a core: base and size. -/
def usedWindows (s : State) (g : Nat) : List (Nat × Nat) :=
  ((s.threadsOn g).filter fun e => e.2.ctx.isSome).map (fun e => (e.2.wbase, e.2.wsize))
    ++ ((heldOn s g).filter fun h => h.ctx.isSome).map fun h => (h.wbase, h.wsize)

/-- The tile windows in use on a core, but for one thread's. -/
def usedTiles (s : State) (g : Nat) (but : Tid) : List (Nat × Nat) :=
  ((s.threadsOn g).filter fun e => e.1 != but && (e.2.ctx.isSome || e.2.io.keepsTiles)).map (fun e => (e.2.tbase, e.2.tcount))
    ++ ((heldOn s g).filter fun h => h.ctx.isSome).map fun h => (h.tbase, h.tcount)

/-- Whether a run of n from a base on overlaps none of the runs given. -/
def clearOf (used : List (Nat × Nat)) (base n : Nat) : Bool := used.all fun u => decide (base + n ≤ u.1 ∨ u.1 + u.2 ≤ base)

/-- The lowest base a register window of a size fits at (R25). -/
def windowBase (s : State) (g size : Nat) : Option Nat :=
  ((List.range 256).map (8 * ·)).find? fun b => decide (b + size ≤ 2048) && clearOf (usedWindows s g) b size

/-- The lowest physical tile a tile window of a count fits at (R327). -/
def tileBase (s : State) (g count : Nat) (but : Tid) : Option Nat :=
  if count = 0 then some 0
  else (List.range 64).find? fun b => decide (b + count ≤ 64) && clearOf (usedTiles s g but) b count

/-- Whether a core has a free context and room for a thread's windows (R138). -/
def roomFor (s : State) (g : Nat) (tid : Tid) (size count : Nat) : Bool :=
  !(freeContexts s g).isEmpty && (windowBase s g size).isSome && (tileBase s g count tid).isSome

/-! ### State words (R145, R136) -/

/-- The number of a park reason (R136). -/
def reasonCode : Park → Nat
  | .reply _ => 1
  | .register _ => 2
  | .emptyWord _ => 3
  | .fullWord _ => 4
  | .engineQueue => 5
  | .sendQueue => 6
  | .matrix _ => 7
  | .barrier .. => 8
  | .timed .. => 9
  | .step .. => 10
  | .fence .. => 11
  | .fenceSent _ => 11
  | .exit => 12
  | .recvTable => 13
  | .departure .. => 14
  | .reissue code _ => code

/-- The state and reason codes of a thread (R136, R145); one whose posted store has faulted is Faulted from its next issue boundary on (R124; log
entry 62). -/
def stateCode (t : Thread) : Nat × Nat :=
  match t.status with
  | .seated .. => (if t.handler then 5 else 1, 0)
  | .ready => (if t.handler then 5 else 2, 0)
  | .parked p => (3, reasonCode p)
  | .faulted => (4, 0)
  | .blocked .. => (6, 0)
  | .inFlight .. => (7, 0)
  | .pooled => (8, 0)
  | .spilled .. => (9, 0)

/-! ### Save records (R297) -/

/-- The size of a launch's save records. -/
def recordSize (l : Launch) : Nat := if l.desc.travelling then 18432 else 2048

/-- The record slots of a launch in use. -/
def usedRecords (s : State) (lid : Nat) : List Nat :=
  ((s.threadsOf lid).filterMap fun e => e.2.io.record)
    ++ (s.net.landAcks.filter fun n => tidLaunch n.tid == lid).filterMap fun n => n.held.record

/-- The lowest free record slot of a launch, if its record fits below the spill limit (R297). -/
def freeRecord (s : State) (lid : Nat) : Option Nat :=
  match s.launch? lid with
  | none => none
  | some l =>
    let used := usedRecords s lid
    match (List.range (used.length + 1)).find? fun k => !used.contains k with
    | some k => if (k + 1) * recordSize l ≤ l.desc.spillLimit then some k else none
    | none => none

/-- The address of a record slot. -/
def recordAddr (l : Launch) (k : Nat) : Word := l.desc.spill + BitVec.ofNat 64 (k * recordSize l)

/-- The core cycles left of a park (R141, R297; log entry 89). -/
def parkLeft (s : State) (t : Thread) : Nat :=
  match t.status with
  | .parked (.timed (some u) _) => u - s.coreClock t.core
  | _ => 0

/-- The word of a stroke in a record (R297). -/
def strokeWord (k : Stroke) : Nat :=
  k.n1.toNat + k.len1.toNat * 2 ^ 8 + k.stride.toNat * 2 ^ 11 + k.floor.toNat * 2 ^ 18 + 2 ^ 31 + k.j % 8 * 2 ^ 32 + k.i % 256 * 2 ^ 40

/-- The three words of a loop level in a record. -/
def loopWords (x : LoopState) : List Word := [BitVec.ofNat 64 (bitOf x.active), x.start, x.stop]

/-- The two words of a captured body instruction in a record. -/
def bodyWords (k : Option Stroke) (j : Nat) : List Word :=
  match (k.map (·.body)).getD [] |>.drop j with
  | b :: _ => [BitVec.ofNat 64 (b.head.toNat + bitOf b.guard * 2 ^ 16), b.tail]
  | [] => [0, 0]

/-- The bytes of a thread's record (R297); the implementation image is not architectural (log entry 11). -/
def recordBytes (s : State) (tid : Tid) (t : Thread) : List Byte :=
  let (st, reason) := stateCode t
  let words : List Word :=
    [BitVec.ofNat 64 (tid.toNat + st * 2 ^ 32 + reason * 2 ^ 36 + t.prio * 2 ^ 40 + bitOf t.privileged * 2 ^ 42),
     t.pc,
     BitVec.ofNat 64 (t.wsize + t.tcount * 2 ^ 8 + t.entries % 8 * 2 ^ 16 + (if t.tcount = 0 then 0 else t.tbase) * 2 ^ 24),
     BitVec.ofNat 64 (t.preds.toNat + t.sp.gsel.toNat * 2 ^ 8 + t.sp.plive.toNat * 2 ^ 24),
     BitVec.ofNat 64 (((List.range 64).filter fun n => setHas t.pending n).foldl (fun a n => a + 2 ^ n) 0),
     BitVec.ofNat 64 (((List.range 64).filter fun n => setHas t.pending (64 + n)).foldl (fun a n => a + 2 ^ n) 0),
     BitVec.ofNat 64 (parkLeft s t), 0]
    ++ (List.range 128).map (fun n => if n < t.wsize then t.reg n else 0)
    ++ [t.sp.fstat.setWidth 64, t.sp.qmax.setWidth 64, t.sp.trb.setWidth 64, t.sp.trs.setWidth 64, t.sp.tri.setWidth 64,
        t.loop0.lc.setWidth 64, t.loop1.lc.setWidth 64, t.loop2.lc.setWidth 64, t.sp.livelo, t.sp.livehi, t.sp.cargo, t.sp.tvb,
        t.sp.tepc, t.sp.tcause, t.sp.tval, t.sp.tgsel]
    ++ loopWords t.loop0 ++ loopWords t.loop1 ++ loopWords t.loop2
    ++ List.replicate 7 0
    ++ [match t.stroke with
        | some k => BitVec.ofNat 64 (strokeWord k)
        | none => 0]
    ++ List.replicate 15 0
    ++ (List.range 8).flatMap (bodyWords t.stroke)
  (words.flatMap fun w => wordLE w 8) ++ (List.range 448).map fun i => Config.recordImage (tidLaunch tid) tid.toNat i

/-- A record written to its slot, whole or not at all (R144, R215): the state, and whether its pages took it. -/
def writeRecord (s : State) (tid : Tid) (t : Thread) (k : Nat) : State × Bool :=
  match s.launch? (tidLaunch tid) with
  | some l => partWrite s (recordAddr l k) (recordBytes s tid t)
  | none => (s, false)

/-- Word n of a record's bytes. -/
def recWord (bs : List Byte) (off : Nat) : Word := leWord ((bs.drop off).take 8)

/-- A loop level read from a record: its three words and its counter. -/
def recLoop (bs : List Byte) (n : Nat) : LoopState :=
  { active := (recWord bs (0x4C0 + 24 * n)).bit 0, start := recWord bs (0x4C8 + 24 * n), stop := recWord bs (0x4D0 + 24 * n),
    lc := (recWord bs (0x468 + 8 * n)).setWidth 32 }

/-- The stroke read from a record; what it holds in flight is part of the implementation image, kept beside it. -/
def recStroke (bs : List Byte) (old : Option Stroke) : Option Stroke :=
  let w := recWord bs 0x540
  match old with
  | some k =>
    if w.bit 31 then
      some
        { k with
          n1 := w.extractLsb' 0 8
          len1 := w.extractLsb' 8 3
          stride := w.extractLsb' 11 7
          floor := w.extractLsb' 18 7
          j := if k.j > w.slice 10 8 then k.j else w.slice 34 32
          i := if k.j > w.slice 10 8 then k.i else if k.i = 256 then 256 else w.slice 47 40
          body := (List.range (w.slice 10 8 + 1)).map fun j =>
            let h := recWord bs (0x5C0 + 16 * j)
            { head := h.setWidth 16, tail := recWord bs (0x5C8 + 16 * j), guard := h.bit 16 } }
    else none
  | none => none

/-- A thread with what its record's bytes hold (R297, R298). -/
def fromRecord (t : Thread) (bs : List Byte) : Thread :=
  let p := recWord bs 0x018
  let pend := (List.range 128).filter fun n => (recWord bs (0x020 + 8 * (n / 64))).bit (n % 64)
  let regs := (List.range 128).filter fun n => decide (n < t.wsize) && n != 0 && recWord bs (0x040 + 8 * n) != 0
  { t with
    pc := recWord bs 0x008
    entries := (recWord bs 0x010).slice 18 16
    preds := p.setWidth 8
    pending := pend
    regs := regs.map fun n => (n, recWord bs (0x040 + 8 * n))
    loop0 := recLoop bs 0
    loop1 := recLoop bs 1
    loop2 := recLoop bs 2
    stroke := recStroke bs t.stroke
    sp :=
      { gsel := p.extractLsb' 8 9, plive := p.extractLsb' 24 8, fstat := (recWord bs 0x440).setWidth 15,
        qmax := (recWord bs 0x448).setWidth 3, trb := (recWord bs 0x450).setWidth 6, trs := (recWord bs 0x458).setWidth 7,
        tri := (recWord bs 0x460).setWidth 6, livelo := recWord bs 0x480, livehi := recWord bs 0x488,
        cargo := recWord bs 0x490, tvb := recWord bs 0x498, tepc := recWord bs 0x4A0, tcause := recWord bs 0x4A8,
        tval := recWord bs 0x4B0, tgsel := recWord bs 0x4B8 } }

/-- A thread read back from its record slot; where the slot's pages are gone, as it was written. -/
def loadRecord (s : State) (tid : Tid) (t : Thread) : State × Thread :=
  match t.io.record, s.launch? (tidLaunch tid) with
  | some k, some l =>
    match partRead s (recordAddr l k) 2048 with
    | (s, some bs) => (s, fromRecord t bs)
    | (s, none) => (s, t)
  | _, _ => (s, t)

/-! ### Landing slots (R257, R258) -/

/-- The L-store offset of a landing slot (log entry 30). -/
def slotBase (s : State) (k : Nat) : Nat := s.cfg.lcap - 0x22000 + k * 0x4400

/-- A thread as its landing slot holds it: header and register image, with what stores to the slot since have changed (R257, R258; log entry 75). -/
def fromSlot (s : State) (t : Thread) (k : Nat) : Thread :=
  let bs := lread s t.core (slotBase s k) 0x440
  let p := recWord bs 0x28
  { t with
    pc := recWord bs 0x08
    preds := p.setWidth 8
    sp := { t.sp with gsel := p.extractLsb' 8 9, livelo := recWord bs 0x18, livehi := recWord bs 0x20 }
    regs := ((List.range t.wsize).filter fun n => n != 0 && recWord bs (0x40 + 8 * n) != 0).map fun n =>
      (n, recWord bs (0x40 + 8 * n)) }

/-- A thread about to take a context: from its record, or, landed and not yet run, from its slot (log entry 75). -/
def comeBack (s : State) (tid : Tid) (t : Thread) : State × Thread :=
  match t.io.record, t.io.landing with
  | none, some k => (s, fromSlot s t k)
  | _, _ => loadRecord s tid t

/-! ### Taking a context (R25, R259, R327) -/

/-- The tiles of a window moved to a new place, the rest of the new window +0 with clear status; a thread without kept tiles gets +0 tiles. -/
def placeTiles (s : State) (g old new n : Nat) (kept : Bool) : State :=
  s.modCore g fun c =>
    let moved := if kept then
        (c.mx.tiles.filter fun e => decide (old ≤ e.1 ∧ e.1 < old + n)).map fun e => (e.1 - old + new, e.2)
      else []
    let outside := c.mx.tiles.filter fun e =>
      !(kept && decide (old ≤ e.1 ∧ e.1 < old + n)) && !decide (new ≤ e.1 ∧ e.1 < new + n)
    { c with mx := { c.mx with tiles := moved.foldl (fun ts e => tabPut ts e.1 e.2) outside } }

/-- A thread that has taken a context goes on: at the tail of its seat queue, or in the park it was evicted in, with what has come for it meanwhile
(R144, R208; log entry 93). -/
def comeOn (s : State) (tid : Tid) (t : Thread) : State :=
  match t.io.kept with
  | none => joinQueue (s.setThread tid t) tid t
  | some (p, e) =>
    let s := s.setThread tid { t with status := .parked p, io := { t.io with kept := none } }
    match e with
    | none => s
    | some (.resume r) => resumeThread s tid r
    | some (.trap cause v) => trapWaiting s tid cause v

/-- A thread takes a free context and windows on its core, its record or landing slot is free, and it is Ready-unseated (R208, R258, R259). -/
def takeContext (s : State) (tid : Tid) : State :=
  match s.thread? tid with
  | none => s
  | some t0 =>
    let g := t0.core
    let (s, t) := comeBack s tid t0
    match windowBase s g t.wsize, tileBase s g t.tcount tid with
    | some w, some b =>
      let free := freeContexts s g
      let c := free.getD (Config.pickContext free % free.length) 0
      let s := placeTiles s g t.tbase b t.tcount t.io.keepsTiles
      let (s, slot) := match t.io.landing with
        | some k => if t.sp.cargo = Word.ones then (freeSlot s g k, none) else (s, some k)
        | none => (s, none)
      let t :=
        { t with
          ctx := some c, wbase := w, tbase := b, status := .ready
          io := { t.io with record := none, lent := false, woken := false, keepsTiles := false, landing := slot } }
      let s := s.modLaunch (tidLaunch tid) fun l => { l with pool := l.pool.filter (· != tid) }
      comeOn s tid t
    | _, _ => s

/-! ### Who waits for a context (R215, R259, R138) -/

/-- Whether a thread's launch runs. -/
def launchLive (s : State) (tid : Tid) : Bool :=
  match s.launch? (tidLaunch tid) with
  | some l => l.phase == .live
  | none => false

/-- The first thread waiting for a context on a core: a woken lent thread, else a landed one that has had none here, in the order their slots filled, else the head of
the highest class of the ready pool (R259). -/
def contextWaiter (s : State) (g : Nat) : Option Tid :=
  let here := (s.threadsOn g).filter fun e => e.2.ctx.isNone && launchLive s e.1
  match here.find? fun e => e.2.io.lent && e.2.io.woken with
  | some e => some e.1
  | none =>
    let landed := here.filter fun e => e.2.status == .pooled && e.2.io.landing.isSome && e.2.io.record.isNone
    let order (e : Tid × Thread) : Nat := (tabGetD (s.core g).iss.slots (e.2.io.landing.getD 0)
      { occupied := false, granted := none, landedAt := 0 }).landedAt
    match landed.foldl
        (fun (best : Option (Tid × Thread)) e =>
          match best with
          | some b => if order e < order b then some e else some b
          | none => some e) none with
    | some e => some e.1
    | none =>
      (List.range 4).findSome? fun p =>
        s.launches.findSome? fun l => l.2.pool.find? fun tid =>
          match s.thread? tid with
          | some t => t.core == g && t.prio == p && t.status == .pooled && t.ctx.isNone && l.2.phase == .live
          | none => false

/-- Whether a command of a thread is still to write its token (R38). -/
def tokenPending (s : State) (tid : Tid) : Bool := s.cores.any fun e => e.2.engine.any fun c => c.tid == tid && c.reg != 0

/-- Whether a Faulted thread's context may be lent (R215). -/
def lendable (s : State) (tid : Tid) (t : Thread) : Bool := t.pending.isEmpty && !tokenPending s tid

/-- Whether no posted store of a thread waits for its acknowledgement, but for one that has faulted and stays in the queue (R123, R215). -/
def storesSettled (s : State) (tid : Tid) (t : Thread) : Bool :=
  let p := (s.core t.core).port
  !(p.held ++ p.unacked).any fun r => r.tid == tid && r.kind.posted

/-- The Faulted thread whose context is lent next: Faulted longest, ties to the lower context (R215). -/
def lendCandidate (s : State) (g : Nat) : Option Tid :=
  let l := (s.threadsOn g).filter fun e => e.2.status == .faulted && e.2.ctx.isSome && lendable s e.1 e.2 && storesSettled s e.1 e.2 && launchLive s e.1
  (l.foldl
    (fun (best : Option (Tid × Thread)) e =>
      match best with
      | some b =>
        if e.2.io.faultedAt < b.2.io.faultedAt ∨ (e.2.io.faultedAt = b.2.io.faultedAt ∧ e.2.ctx.getD 0 < b.2.ctx.getD 0) then some e
        else some b
      | none => some e) none).map (·.1)

/-- A context lent: the record is written whole or not at all, and the thread stays Faulted without a context (R215). -/
def lendContext (s : State) (tid : Tid) : State :=
  match s.thread? tid, freeRecord s (tidLaunch tid) with
  | some t, some k =>
    match writeRecord s tid t k with
    | (s, true) => s.setThread tid { t with ctx := none, io := { t.io with record := some k, lent := true, keepsTiles := true } }
    | (_, false) => s
  | _, _ => s

/-- Where a thread's save record cannot be read now. -/
def recordGap (s : State) (tid : Tid) (t : Thread) (n : Nat) : Option (Nat × Nat) :=
  match t.io.record, s.launch? (tidLaunch tid) with
  | some k, some l => pageGap s (recordAddr l k) n false
  | _, _ => none

/-- CONTEXT_GRANT (R259, R215): the first waiter of a core takes a free context; where none is free, one is lent first. It waits for the page of its
record (log entry 117). -/
def execContextGrant (g : Nat) (s : State) : Out :=
  match contextWaiter s g with
  | none => .next s
  | some tid =>
    let s := if (freeContexts s g).isEmpty then
        (match lendCandidate s g with
         | some x => lendContext s x
         | none => s)
      else s
    match s.thread? tid with
    | some t =>
      if !roomFor s g tid t.wsize t.tcount then .next s
      else
        match recordGap s tid t 2048 with
        | some gap => .next (reportGap s tid.toNat tid g false gap)
        | none => .next (takeContext (gapServed s tid.toNat) tid)
    | none => .next s

/-! ### Wakes (R142, R216) -/

/-- A request put back into a port at its place in port order (R211). -/
def insertReq (r : Req) : List Req → List Req
  | [] => [r]
  | q :: qs => if r.id < q.id then r :: q :: qs else q :: insertReq r qs

/-- The faulted posted stores of a thread back at their place in its core's store queue, to be sent again (R124; log entry 62). -/
def resendStores (s : State) (tid : Tid) (t : Thread) : State :=
  let s := s.modCore t.core fun c =>
    { c with port := { c.port with
        held := (c.port.faulted.filter fun r => r.tid == tid).foldl (fun l r => insertReq r l) c.port.held
        faulted := c.port.faulted.filter fun r => r.tid != tid } }
  pump (s.modThread tid fun t => { t with io := { t.io with storeFault := false } }) t.core

/-- A stroke's faulted load repetitions put back to be sent again, alone and in their order (R195). -/
def Stroke.again (k : Stroke) : Stroke :=
  { k with
    resend := k.reissues
    loads := k.loads.filter fun l => !l.faulted }

/-- The faults a thread stands with served: its faulted loads and stores are sent again (R124, R195). -/
def serveFaults (s : State) (tid : Tid) (t : Thread) : State := resendStores (modStroke s tid Stroke.again) tid t

/-- A wake message reaches a Faulted thread (R124, R216): with its context it is ready to issue the instruction again; lent, it goes ahead of
every pooled thread. -/
def wakeFaulted (s : State) (tid : Tid) (t : Thread) : State :=
  let s := serveFaults s tid t
  match t.ctx with
  | some _ => makeReady s tid
  | none => s.modThread tid fun t => { t with io := { t.io with woken := true } }

/-- A wake acts on its target (R142): from privileged mode a Faulted thread is woken; a park ends; and nothing else happens, but that a privileged
wake of a parked thread whose posted store has faulted has that store sent again too (R124; log entry 62). -/
def wakeThread (s : State) (tid : Tid) (priv : Bool) (launch : Nat) : State :=
  match s.thread? tid with
  | none => s
  | some t =>
    if !priv && tidLaunch tid != launch then s
    else if t.status == .faulted then (if priv then wakeFaulted s tid t else s)
    else
      let s := if priv && t.io.storeFault then serveFaults s tid t else s
      match t.status with
      | .parked (.timed _ last) => if t.ctx.isSome then resumeThread s tid (.done last) else s
      | _ => s

/-! ### Context control (R144, R145) -/

/-- The fields of a state word: state and reason codes, the thread's own (R145). -/
def stateWord (s : State) (tid : Tid) (t : Thread) (st reason : Nat) : Word :=
  BitVec.ofNat 64
    (tid.toNat + st * 2 ^ 32 + reason * 2 ^ 36 + t.prio * 2 ^ 40 + bitOf t.privileged * 2 ^ 42
      + bitOf (!t.pending.isEmpty) * 2 ^ 43 + bitOf (lendable s tid t) * 2 ^ 44)

/-- The state word of a context (R145); one held until a landing is acknowledged shows its thread In flight. -/
def contextWord (s : State) (g k : Nat) : Word :=
  match (s.threadsOn g).find? fun e => e.2.ctx == some k with
  | some (tid, t) =>
    let (st, reason) := stateCode t
    let st := match t.status with
      | .ready => 2
      | _ => st
    stateWord s tid t st reason
  | none =>
    match s.net.landAcks.find? fun n => n.held.core == g && n.held.ctx == some k with
    | some n =>
      (match s.thread? n.tid with
       | some t => stateWord s n.tid t 7 0
       | none => BitVec.ofNat 64 (n.tid.toNat + 7 * 2 ^ 32))
    | none => 0

/-- CTX_QUERY (R144, R145). -/
def execCtxQuery (d a : Reg) (s : State) : Out :=
  perform (.ctxQuery d a) s fun u t =>
    finishReg u s t d (if (t.g a).toNat < 64 then contextWord s t.core (t.g a).toNat else Word.ones)

/-- Whether an mma of a thread is queued or running on its core. -/
def hasMma (s : State) (tid : Tid) (t : Thread) : Bool := (s.core t.core).mx.queue.any fun o => o.tid == tid

/-- Whether a thread may not be evicted (R144). DESIGN CHOICE: nor may one In flight, whose context its source holds (log entry 93). -/
def evictBarred (s : State) (tid : Tid) (t : Thread) : Bool :=
  !t.pending.isEmpty || tokenPending s tid || (match t.stroke with
    | some k => !k.finished
    | none => false) || hasMma s tid t || t.handler || (match t.status with
    | .blocked .. | .inFlight .. => true
    | _ => false)

/-- The park an evicted thread goes on in when it is reseated: for an answer to what it has done, or a departure. From any other it issues its waiting
instruction again (R144; log entry 93). -/
def keptPark (s : State) (tid : Tid) (t : Thread) : Option Park :=
  match t.status with
  | .parked (.reply (.done last)) => some (.reply (.done last))
  | .parked (.departure dest pc ver skip) => some (.departure dest pc ver skip)
  | .parked (.fence loads stores engines marks (.done last)) => some (.fence loads stores engines marks (.done last))
  | .parked (.matrix (.done last)) => if ((s.core t.core).mx.transit.map fun x => x.2.1) == some tid then some (.matrix (.done last)) else none
  | _ => none

/-- A thread evicted: its record is written, and it is Pooled on its core. It leaves the lists it waits in; what it has asked of a unit stays asked. -/
def evictThread (s : State) (tid : Tid) (t : Thread) (k : Nat) : State :=
  let kept := keptPark s tid t
  let maps := s.net.maps
  let s := (leaveLists s tid t).modCore t.core fun c =>
    { c with mx := { c.mx with epilogue := c.mx.epilogue.filter fun o => o.tid != tid } }
  let s := if kept.isSome then s.modNet fun n => { n with maps := maps } else s
  (s.setThread tid { t with
    ctx := none, status := .pooled
    io := { t.io with record := some k, keepsTiles := true, kept := kept.map fun p => (p, none) } }).modLaunch
    (tidLaunch tid) fun l => { l with pool := l.pool ++ [tid] }

/-- CTX_EVICT (R144): results 0 done, 1 no such thread here, 2 refused, 3 no record fits. DESIGN CHOICE: a thread without a context (Pooled, or lent
Faulted) and one being killed are no such thread, and a value with a bit above the tid names no thread of the core, for ctx.reseat too (log entry
93). -/
def execCtxEvict (d a : Reg) (s : State) : Out :=
  perform (.ctxEvict d a) s fun u t =>
    let tid := (t.g a).setWidth 32
    let answer (s : State) (code : Nat) : Out :=
      match s.thread? u.tid with
      | some t => finishReg u s t d (BitVec.ofNat 64 code)
      | none => finishSeq u s
    match s.thread? tid with
    | none => answer s 1
    | some x =>
      if x.core ≠ t.core ∨ x.ctx.isNone ∨ (t.g a).slice 63 32 ≠ 0 then answer s 1
      else if evictBarred s tid x then answer s 2
      else if x.io.dying then answer s 1
      else
        match freeRecord s (tidLaunch tid) with
        | none => answer s 3
        | some k =>
          if tid = u.tid then
            -- the issuer's own context goes once its result is written
            let s1 := completeSeq (s.setThread u.tid (t.setReg d.toNat 0)) u.tid u.ia (headLast u.head)
            match s1.thread? u.tid with
            | some t1 =>
              (match writeRecord s1 tid t1 k with
               | (s2, true) => .next (closeTurn (evictThread s2 tid t1 k) u)
               | (_, false) => answer s 3)
            | none => .next (closeTurn s1 u)
          else
            match writeRecord s tid x k with
            | (s1, true) => answer (evictThread s1 tid x k) 0
            | (_, false) => answer s 3

/-- CTX_RESEAT (R144, R216): results 0 done, 1 no such thread without a context here, 4 no room. -/
def execCtxReseat (d a : Reg) (s : State) : Out :=
  perform (.ctxReseat d a) s fun u t =>
    let tid := (t.g a).setWidth 32
    let answer (s : State) (code : Nat) : Out :=
      match s.thread? u.tid with
      | some t => finishReg u s t d (BitVec.ofNat 64 code)
      | none => finishSeq u s
    match s.thread? tid with
    | none => answer s 1
    | some x =>
      let here := x.core == t.core && x.ctx.isNone && (x.status == .pooled || (x.status == .faulted && x.io.lent))
      if !here ∨ (t.g a).slice 63 32 ≠ 0 then answer s 1
      else if !roomFor s t.core tid x.wsize x.tcount then answer s 4
      else
        let s := if x.status == .faulted then serveFaults s tid x else s
        answer (takeContext s tid) 0

end Sys2Proof.Machine
end

