-- ==== Sys2Proof/Machine/Control.lean ====
section
/-! DEFINITION. Control and system instructions of one thread, group 0x00 (spec/05 R74 to R84): transfers, loops, traps and returns, special
registers, retiring and stepping. -/

namespace Sys2Proof.Machine

/-! ### Targets (R58) -/

/-- The IA an encoded target names from the line that holds the instruction (R58). -/
def targetIA (ia : Word) (t : Target) : Word :=
  lineBase ia + (t.delta.signExtend 64 <<< 6) + (t.head.setWidth 64 <<< 1)

/-- Whether an encoded target's offset lies outside [0, 2^48) (R58). -/
def targetOut (ia : Word) (t : Target) : Bool :=
  let off : Int := eaOffset (lineBase ia) + 64 * t.delta.toInt + 2 * t.head.toNat
  decide (off < 0 ∨ 2 ^ 48 ≤ off)

/-- The source checks of a transfer whose target is formed (R58, R256): the cause, if one fails. -/
def sourceTrap (s : State) (tid : Tid) (core : Nat) (target : Word) : Option Nat :=
  if !travelling s tid && elsewhere s core target then some 0x07
  else match flowTo s tid core target with
    | .nowhere => some 0x0D
    | _ => none

/-- The source checks of an encoded target (R58). -/
def targetTrap (s : State) (tid : Tid) (core : Nat) (ia : Word) (t : Target) : Option Nat :=
  if targetOut ia t then some 0x01 else sourceTrap s tid core (targetIA ia t)

/-- The source checks of a register target (R58): bit 0 = 1 or bit 63 = 0 first. -/
def registerTrap (s : State) (tid : Tid) (core : Nat) (v : Word) : Option Nat :=
  if v.bit 0 || !v.bit 63 then some 0x01 else sourceTrap s tid core v

/-- A transfer to a target, the link register written first, where the source checks pass (R75). -/
def transfer (u : Issue) (s : State) (t : Thread) (link : Reg) (trap : Option Nat) (target : Word) : Out :=
  match trap with
  | some cause => finishTrap u s cause target
  | none => finishJump u s { t.setReg link.toNat (nextIA u.ia (headLast u.head)) with pc := target }

/-! ### Transfers (R74 to R76) -/

/-- NOP (R74). -/
def execNop (s : State) : Out := perform .nop s fun u _ => finishSeq u s

/-- BR (R75). -/
def execBr (x : Target) (s : State) : Out :=
  perform (.br x) s fun u t => transfer u s t 0 (targetTrap s u.tid t.core u.ia x) (targetIA u.ia x)

/-- CALL (R75). -/
def execCall (d : Reg) (x : Target) (s : State) : Out :=
  perform (.call d x) s fun u t => transfer u s t d (targetTrap s u.tid t.core u.ia x) (targetIA u.ia x)

/-- JR (R75). -/
def execJr (a : Reg) (s : State) : Out :=
  perform (.jr a) s fun u t => transfer u s t 0 (registerTrap s u.tid t.core (t.g a)) (t.g a)

/-- JALR (R75): the target is read before the link is written. -/
def execJalr (d a : Reg) (s : State) : Out :=
  perform (.jalr d a) s fun u t => transfer u s t d (registerTrap s u.tid t.core (t.g a)) (t.g a)

/-! ### Hardware loops (R77) -/

/-- The body of a loop with count 0 is skipped: flow goes to the head after e, whose L bit the part reads through the I-store (R59, R77; log entries 47
and 105). DESIGN CHOICE: an end target that is a malformed head itself takes cause 0x01 at the loop, with tval its IA (log entry 105). -/
def skipBody (u : Issue) (s : State) (t : Thread) (level : Level) (e : Word) : Out :=
  let off := t.setLoop level LoopState.reset
  match flowTo s u.tid t.core e with
  | .nowhere => finishTrap u s 0x0D e
  | .ship l g => .next (closeTurn (shipTo s u.tid t l g e (some (u.ia, level))) u)
  | .here =>
    match fetchHead (s.core t.core) e with
    | .miss => .next (closeTurn (fetchMiss s t.core u.tid e) u)
    | .head r =>
      let s := s.modCore t.core fun c => useLine c e
      match r with
      | .found h _ => finishJump u s { off with pc := nextIA e (headLast h) }
      | _ => finishTrap u s 0x01 e

/-- LOOP (R77; log entry 47). -/
def execLoop (d : Reg) (level : Level) (x : Target) (s : State) : Out :=
  perform (.loop d level x) s fun u t =>
    let e := targetIA u.ia x
    let cnt := (t.g d).setWidth 32
    if targetOut u.ia x then finishTrap u s 0x01 e
    else if e.toNat < (nextIA u.ia (headLast u.head)).toNat then finishTrap u s 0x01 e
    else if cnt = 0 then skipBody u s t level e
    else
      finishThread u s
        (t.setLoop level { active := true, start := nextIA u.ia (headLast u.head), stop := e, lc := cnt })

/-! ### Traps and return (R79, R80) -/

/-- TRAP (R79): cause 0x09 with the next head as return address, or the breakpoint cause 0x0F with its own. -/
def execTrap (imm : BitVec 16) (s : State) : Out :=
  perform (.trap imm) s fun u _ =>
    if imm = 0xFFFF then finishTrap u s 0x0F 0xFFFF
    else .next (closeTurn (trapEntry s u.tid (nextIA u.ia (headLast u.head)) 0x09 (imm.setWidth 64)) u)

/-- A stroke that stopped on a trap now handled may go on (R34, R80). -/
def releaseStroke (t : Thread) : Thread :=
  { t with
    stroke := match t.stroke with
      | some k => if k.stopped then some { k with stopped := false, trap := none } else some k
      | none => none }

/-- ERET (R80): tepc is checked as a register target, and nothing changes where the check fails. On a turn that a thread was Trapped in its quantum is
not tested (R209). -/
def execEret (s : State) : Out :=
  perform .eret s fun u t =>
    match registerTrap s u.tid t.core t.sp.tepc with
    | some cause => finishTrap u s cause t.sp.tepc
    | none =>
      let t' := { releaseStroke (t.leaveTrap (launchPrivilege s u.tid)) with pc := t.sp.tepc }
      if t.handler then .next { settleFlow s u.tid u.ia t' with issue := none } else finishJump u s t'

/-! ### Special registers (R29 to R33, R81) -/

/-- A loop counter as read: 0 at an inactive level (R33). -/
def loopCount (x : LoopState) : Word := if x.active then x.lc.setWidth 64 else 0

/-- The launch's dies and the index of a core's die among them (R242). -/
def launchDies (s : State) (tid : Tid) : List Nat :=
  match s.launch? (tidLaunch tid) with
  | some l => l.dies
  | none => []

/-- The special register mode (R29). -/
def modeWord (s : State) (tid : Tid) : Word :=
  match s.launch? (tidLaunch tid) with
  | some l => BitVec.ofNat 64 (bitOf l.desc.travelling + 2 * bitOf l.desc.qtrap)
  | none => 0

/-- The value of a special register, none for a number outside the map (R29; log entry 49). -/
def specialRead (s : State) (tid : Tid) (t : Thread) (n : BitVec 11) : Option Word :=
  match n.toNat with
  | 0x000 => some (tid.setWidth 64)
  | 0x001 => some (BitVec.ofNat 64 (tidLaunch tid))
  | 0x002 => some (BitVec.ofNat 64 (gcoreOf s.cfg.package t.core))
  | 0x003 => some (BitVec.ofNat 64 (t.ctx.getD 0))
  | 0x004 => some (BitVec.ofNat 64 (launchDies s tid).length)
  | 0x005 => some (BitVec.ofNat 64 ((findIx (· == t.core / 256) (launchDies s tid)).getD 0))
  | 0x006 => some (BitVec.ofNat 64 s.cfg.lcap)
  | 0x007 => some (modeWord s tid)
  | 0x010 => some (t.sp.gsel.setWidth 64)
  | 0x011 => some (t.sp.plive.setWidth 64)
  | 0x012 => some (t.sp.fstat.setWidth 64)
  | 0x013 => some (t.sp.qmax.setWidth 64)
  | 0x014 => some (BitVec.ofNat 64 t.wbase)
  | 0x015 => some (BitVec.ofNat 64 (t.wbase + t.wsize))
  | 0x016 => some (BitVec.ofNat 64 t.tbase)
  | 0x017 => some (BitVec.ofNat 64 (t.tbase + t.tcount))
  | 0x018 => some (t.sp.trb.setWidth 64)
  | 0x019 => some (t.sp.trs.setWidth 64)
  | 0x01A => some (t.sp.tri.setWidth 64)
  | 0x01B => some (loopCount t.loop0)
  | 0x01C => some (loopCount t.loop1)
  | 0x01D => some (loopCount t.loop2)
  | 0x020 => some t.sp.livelo
  | 0x021 => some t.sp.livehi
  | 0x022 => some t.sp.cargo
  | 0x023 => some (match (s.core t.core).iss.segment with
      | some g => BitVec.ofNat 64 g
      | none => Word.ones)
  | 0x030 => some s.cycle
  | 0x100 => some t.sp.tvb
  | 0x101 => some t.sp.tepc
  | 0x102 => some t.sp.tcause
  | 0x103 => some t.sp.tval
  | 0x104 => some t.sp.tgsel
  | _ => none

/-- The writable special registers (R29). -/
def specialWritable (n : BitVec 11) : Bool :=
  [0x010, 0x011, 0x012, 0x013, 0x018, 0x019, 0x01A, 0x01B, 0x01C, 0x01D, 0x020, 0x021, 0x100, 0x101, 0x102, 0x103,
    0x104].contains n.toNat

/-- Whether a value sets no reserved bit of a writable register and keeps its fields in range (R29 to R31). -/
def specialValueOk (n : BitVec 11) (v : Word) : Bool :=
  match n.toNat with
  | 0x010 => v.slice 63 9 == 0
  | 0x011 => v.slice 63 8 == 0
  | 0x012 => v.slice 63 15 == 0 && decide (v.slice 8 6 ≤ 4)
  | 0x013 => v.slice 63 3 == 0
  | 0x018 => v.slice 63 6 == 0
  | 0x019 => decide (v.toNat ≤ 64)
  | 0x01A => v.slice 63 6 == 0
  | 0x01B | 0x01C | 0x01D => v.slice 63 32 == 0
  | 0x100 => v.slice 5 0 == 0
  | 0x102 => v.slice 63 8 == 0
  | 0x104 => v.slice 63 17 == 0
  | _ => true

/-- A thread whose handler of a stroke's trap changes what the repetitions still to come read: they follow it in program order (R197; log entry 14). -/
def strokeSees (t : Thread) (f : Stroke → Stroke) : Thread := { t with stroke := t.stroke.map fun k => if k.stopped then f k else k }

/-- A special register written (R81); of tgsel, the predicate bits changed are those a stroke's repetitions see changed. -/
def specialWrite (t : Thread) (n : BitVec 11) (v : Word) : Thread :=
  match n.toNat with
  | 0x010 => { t with sp := { t.sp with gsel := v.setWidth 9 } }
  | 0x011 => { t with sp := { t.sp with plive := v.setWidth 8 } }
  | 0x012 => strokeSees { t with sp := { t.sp with fstat := v.setWidth 15 } } fun k => { k with fstat := v.setWidth 15 }
  | 0x013 => { t with sp := { t.sp with qmax := v.setWidth 3 } }
  | 0x018 => { t with sp := { t.sp with trb := v.setWidth 6 } }
  | 0x019 => { t with sp := { t.sp with trs := v.setWidth 7 } }
  | 0x01A => { t with sp := { t.sp with tri := v.setWidth 6 } }
  | 0x01B => { t with loop0 := { t.loop0 with lc := v.setWidth 32 } }
  | 0x01C => { t with loop1 := { t.loop1 with lc := v.setWidth 32 } }
  | 0x01D => { t with loop2 := { t.loop2 with lc := v.setWidth 32 } }
  | 0x020 => { t with sp := { t.sp with livelo := v } }
  | 0x021 => { t with sp := { t.sp with livehi := v } }
  | 0x100 => { t with sp := { t.sp with tvb := v } }
  | 0x101 => { t with sp := { t.sp with tepc := v } }
  | 0x102 => { t with sp := { t.sp with tcause := v } }
  | 0x103 => { t with sp := { t.sp with tval := v } }
  | 0x104 =>
    strokeSees { t with sp := { t.sp with tgsel := v } } fun k => { k with preds := k.preds ^^^ ((t.sp.tgsel ^^^ v).setWidth 8 &&& (k.preds ^^^ v.setWidth 8)) }
  | _ => t

/-- The first of R31's checks 2 to 5 that an mts fails, as cause and value. -/
def mtsTrap (s : State) (tid : Tid) (t : Thread) (n : BitVec 11) (v : Word) : Option (Nat × Word) :=
  if (specialRead s tid t n).isNone || !specialWritable n then some (0x01, n.setWidth 64)
  else if !specialValueOk n v then some (0x01, v)
  else if n = 0x012 ∧ v.bit 14 ∧ !(modeWord s tid).bit 1 then some (0x04, v)
  else none

/-- MFS (R31, R81). -/
def execMfs (d : Reg) (n : BitVec 11) (s : State) : Out :=
  perform (.mfs d n) s fun u t =>
    if 0x100 ≤ n.toNat ∧ !t.privileged then finishTrap u s 0x04 (n.setWidth 64)
    else
      match specialRead s u.tid t n with
      | none => finishTrap u s 0x01 (n.setWidth 64)
      | some v => finishReg u s t d v

/-- MTS (R31, R81). -/
def execMts (a : Reg) (n : BitVec 11) (s : State) : Out :=
  perform (.mts a n) s fun u t =>
    if 0x100 ≤ n.toNat ∧ !t.privileged then finishTrap u s 0x04 (n.setWidth 64)
    else
      match mtsTrap s u.tid t n (t.g a) with
      | some (cause, v) => finishTrap u s cause v
      | none => finishThread u s (specialWrite t n (t.g a))

/-- GSEL (R82). -/
def execGsel (a b c : BitVec 3) (s : State) : Out :=
  perform (.gsel a b c) s fun u t => finishThread u s { t with sp := { t.sp with gsel := a ++ b ++ c } }

/-! ### Retiring and stepping (R83, R84) -/

/-- A thread's posted receives withdrawn, and their tokens no longer pending (R83). -/
def withdrawReceives (s : State) (tid : Tid) (t : Thread) : State :=
  let mine := (s.core t.core).msg.posted.filter fun p => p.tid == tid
  let s := s.modCore t.core fun c => { c with msg := { c.msg with posted := c.msg.posted.filter fun p => p.tid != tid } }
  s.setThread tid (mine.foldl (fun t p => t.clearPending p.reg) t)

/-- EXIT (R83): the thread parks until what it waits for is done; EXIT_RETIRE releases what it holds. -/
def execExit (s : State) : Out :=
  perform .exit s fun u t => finishPark u (withdrawReceives s u.tid t) .exit

/-- STEP (R84): the thread arrives with an id and parks; STEP_RELEASE releases it. -/
def execStep (id : BitVec 16) (s : State) : Out :=
  perform (.step id) s fun u _ => finishPark u s (.step id (headLast u.head))

end Sys2Proof.Machine
end

