-- ==== Sys2Proof/Machine/Threads.lean ====
section
/-! DEFINITION. Creating, stopping and seating threads (spec/08 R137 to R143, spec/12 R203 to R209, spec/05 R83): spawn, yield, park, wake,
kill, seats, quanta and retirement. -/

namespace Sys2Proof.Machine

/-! ### Creating a thread (R137 to R139) -/

/-- livelo at creation in a window of a size: g1 to the window's end (R29). -/
def liveLow (size : Nat) : Word := BitVec.ofNat 64 (2 ^ min size 64 - 2)

/-- livehi at creation in a window of a size (R29). -/
def liveHigh (size : Nat) : Word := BitVec.ofNat 64 (2 ^ (size - 64) - 1)

/-- A thread that has not run: its core, windows, IA, privilege, priority and g1 (R139). -/
def freshThread (g wsize tcount : Nat) (pc : Word) (priv : Bool) (prio : Nat) (v : Word) : Thread :=
  { core := g, ctx := none, status := .pooled, wbase := 0, wsize := wsize, tbase := 0, tcount := tcount, pc := pc,
    privileged := priv, handler := false, entries := 0, prio := prio, regs := if v = 0 then [] else [(1, v)], preds := 0,
    sp := { Specials.reset with livelo := liveLow wsize, livehi := liveHigh wsize },
    loop0 := LoopState.reset, loop1 := LoopState.reset, loop2 := LoopState.reset, stroke := none, pending := [],
    io := ThreadIO.reset }

/-- The fstat of a child: rm, en and QTRAP of the parent, flags clear (R139). -/
def childFstat (f : BitVec 15) : BitVec 15 := f &&& 0x7FC0

/-- The child a spawn asks for, not placed yet (R137, R139). -/
def childOf (s : State) (tid : Tid) (t : Thread) (x : SpawnX) (tiles : Nat) (e v : Word) : Thread :=
  let c := freshThread t.core (8 * (x.win.toNat + 1)) tiles e (launchPrivilege s tid)
    (if x.prio = 0 then t.prio else x.prio.toNat - 1) v
  { c with sp := { c.sp with fstat := childFstat t.sp.fstat, qmax := t.sp.qmax, tvb := t.sp.tvb } }

/-- A new thread on a core, with the next launch-local index: in a context, or else in the ready pool with its record in the spill area;
the tid and whether it is pooled, or none where neither is possible (R138; log entry 41). -/
def createThread (s : State) (lid : Nat) (c : Thread) : State × Option (Tid × Bool) :=
  match s.launch? lid with
  | none => (s, none)
  | some l =>
    let tid := makeTid lid l.next
    if 2 ^ 24 ≤ l.next then (s, none)
    else if roomFor s c.core tid c.wsize c.tcount then
      (takeContext ((s.setThread tid c).modLaunch lid fun l => { l with next := l.next + 1 }) tid, some (tid, false))
    else
      match freeRecord s lid with
      | none => (s, none)
      | some k =>
        match writeRecord s tid c k with
        | (s, true) =>
          ((s.setThread tid { c with io := { c.io with record := some k } }).modLaunch lid fun l =>
            { l with next := l.next + 1, pool := l.pool ++ [tid] }, some (tid, true))
        | (_, false) => (s, none)

/-- The cores of a placement's scope that belong to a launch (R138). -/
def placeCores (l : Launch) (g : Nat) : Place → List Nat
  | .own => [g]
  | .quad => l.cores.filter fun c => c / 4 == g / 4
  | .die => l.cores.filter fun c => c / 256 == g / 256

/-- The core with most free contexts, ties to the lowest number (R138). -/
def roomiest (s : State) (l : List Nat) : Option Nat :=
  (l.foldl
    (fun (best : Option (Nat × Nat)) g =>
      let n := (freeContexts s g).length
      match best with
      | some b => if b.2 < n then some (g, n) else some b
      | none => some (g, n)) none).map (·.1)

/-- The core a child goes to: by the segment that holds its entry in travelling mode, else by its placement (R138). -/
def childCore (s : State) (lid : Nat) (place : Place) (c : Thread) : Option Nat :=
  match s.launch? lid with
  | none => none
  | some l =>
    if l.desc.travelling then (segmentOf l c.pc).map fun g => replicaOf g (makeTid lid l.next)
    else roomiest s (placeCores l c.core place)

/-- The results of a spawn in its parent (R138). -/
def spawnResult (t : Thread) (d : Reg) (p : Pair) (r : Option (Tid × Bool)) : Thread :=
  match r with
  | some (tid, pooled) => (t.setReg d.toNat (tid.setWidth 64)).setPair p true pooled
  | none => (t.setReg d.toNat Word.ones).setPair p false false

/-- Whether a launch's indices are used up. -/
def indicesUsed (s : State) (lid : Nat) : Bool :=
  match s.launch? lid with
  | some l => decide (2 ^ 24 ≤ l.next)
  | none => true

/-- The entry a spawn names (R137). -/
def spawnTarget (x : SpawnX) : Target := { delta := x.delta.signExtend 27, head := x.head }

/-- SPAWN (R137, R138): a child that takes a context on the issuing core is there before the next turn; else the issuer waits (log entry 70). -/
def execSpawn (d a : Reg) (tiles : BitVec 7) (p : Pair) (x : SpawnX) (s : State) : Out :=
  perform (.spawn d a tiles p x) s fun u t =>
    let e := targetIA u.ia (spawnTarget x)
    let lid := tidLaunch u.tid
    let c := childOf s u.tid t x tiles.toNat e (t.g a)
    if targetOut u.ia (spawnTarget x) then finishTrap u s 0x01 e
    else if indicesUsed s lid then finishThread u s (spawnResult t d p none)
    else if travelling s u.tid && x.place != .own then finishTrap u s 0x01 (u.head.setWidth 64)
    else
      match childCore s lid x.place c with
      | none => if travelling s u.tid then finishTrap u s 0x0D e else finishThread u s (spawnResult t d p none)
      | some g =>
        if g = t.core ∧ roomFor s g 0 c.wsize c.tcount then
          let (s, r) := createThread s lid c
          match s.thread? u.tid with
          | some t => finishThread u s (spawnResult t d p r)
          | none => finishSeq u s
        else
          finishPark u
            ((s.setThread u.tid (t.setPending d.toNat)).modNet fun n =>
              { n with spawns := n.spawns ++ [{ parent := u.tid, d := d.toNat, pair := p, place := x.place, last := headLast u.head, state := c }] })
            (.reply (.done (headLast u.head)))

/-- Whether a thread has been evicted and not yet reseated (R144). -/
def isEvicted (s : State) (tid : Tid) : Bool :=
  match s.thread? tid with
  | some t => t.status == .pooled
  | none => false

/-- Where the record of a child without room on its core cannot be written now (R138; log entry 117). -/
def childGap (s : State) (lid : Nat) (c : Thread) : Option (Nat × Nat) :=
  match s.launch? lid, freeRecord s lid with
  | some l, some k =>
    if 2 ^ 24 ≤ l.next || roomFor s c.core (makeTid lid l.next) c.wsize c.tcount then none else pageGap s (recordAddr l k) 2048 true
  | _, _ => none

/-- SPAWN_REPLY (R138): a child's placement is settled, and its parent has its result; held while its launch is stopped (R294; log entry 70), and while
its parent is evicted (log entry 93) or the page of the child's record is waited for (log entry 117). -/
def execSpawnReply (k : Nat) (s : State) : Out :=
  match s.net.spawns[k]? with
  | none => .next s
  | some n =>
    let gap := (childCore s (tidLaunch n.parent) n.place n.state).bind fun g => childGap s (tidLaunch n.parent) { n.state with core := g }
    if !launchLive s n.parent || isEvicted s n.parent then .next s
    else if gap.isSome then .next (reportGap s n.parent.toNat n.parent n.state.core true (gap.getD (0, 0)))
    else
    let s := gapServed s n.parent.toNat
    let s := s.modNet fun x => { x with spawns := dropIx x.spawns k }
    let lid := tidLaunch n.parent
    let (s, r) := match childCore s lid n.place n.state with
      | some g => createThread s lid { n.state with core := g }
      | none => (s, none)
    match s.thread? n.parent with
    | none => .next s
    | some t =>
      .next (resumeThread (s.setThread n.parent (spawnResult (t.clearPending n.d) (BitVec.ofNat 7 n.d) n.pair r)) n.parent (.done n.last))

/-! ### Seats (R203, R208, R209, R140) -/

/-- The lowest free seat of a core; one that was left is free from the next cycle (R206). -/
def freeSeat (s : State) (g : Nat) : Option Nat :=
  (List.range 16).find? fun k =>
    (seatHolder s g k).isNone && match tabGet (s.core g).iss.left k with
      | some c => decide (c < s.coreClock g)
      | none => true

/-- The head of the highest class of a core's seat queues, among threads of running launches; a thread is seated in a cycle after the one it
joined the queue in (Example 12-1). -/
def queueHead (s : State) (g : Nat) : Option Tid :=
  (List.range 4).findSome? fun p => ((s.core g).iss.queue p).find? fun tid =>
    launchLive s tid && match s.thread? tid with
      | some t => decide (t.io.readyAt < s.coreClock g)
      | none => false

/-- SEAT_ASSIGN (R208): the head of the highest class takes the lowest free seat. -/
def execSeatAssign (g : Nat) (s : State) : Out :=
  if (s.die (g / 256)).power ≥ 3 then .next s
  else
    match freeSeat s g, queueHead s g with
    | some k, some tid =>
      .next
        ((leaveQueues s g tid).modThread tid fun t =>
          { t with
            status := .seated k (s.coreClock g)
            io := { t.io with quantum := 0, quantumDue := false } })
    | _, _ => .next s

/-- A seated thread gives up its seat and joins the tail of its class (R140, R209). -/
def leaveSeat (s : State) (tid : Tid) : State :=
  match s.thread? tid with
  | some t => if t.isSeated then makeReady s tid else s
  | none => s

/-- QUANTUM_END (R209). -/
def execQuantumEnd (tid : Tid) (s : State) : Out :=
  match s.thread? tid with
  | none => .next s
  | some t =>
    if t.io.quantumDue && t.isSeated && !t.handler then
      .next (leaveSeat (s.setThread tid { t with io := { t.io with quantumDue := false } }) tid)
    else .next s

/-- YIELD (R140): the seat is given up where a thread of a class at least as high waits. -/
def execYield (s : State) : Out :=
  perform .yield s fun u t =>
    if classWaits s t.core t.prio then
      .next (closeTurn (leaveSeat (completeSeq s u.tid u.ia (headLast u.head)) u.tid) u)
    else finishSeq u s

/-! ### Park, wake, kill (R141 to R143) -/

/-- PARK (R141): 0 in a register other than g0 does not park; g0 means no timeout. -/
def execPark (a : Reg) (s : State) : Out :=
  perform (.park a) s fun u t =>
    if a = 0 then finishPark u s (.timed none (headLast u.head))
    else if t.g a = 0 then finishSeq u s
    else finishPark u s (.timed (some (s.coreClock t.core + (t.g a).toNat)) (headLast u.head))

/-- PARK_TIMEOUT (R141). -/
def execParkTimeout (tid : Tid) (s : State) : Out :=
  match s.thread? tid with
  | none => .next s
  | some t =>
    match t.status with
    | .parked (.timed (some u) last) =>
      if u ≤ s.coreClock t.core && launchLive s tid && t.ctx.isSome then .next (resumeThread s tid (.done last)) else .next s
    | _ => .next s

/-- The die (of this package) where a thread stands, by the thread directory (log entry 51). -/
def threadDie (s : State) (tid : Tid) (here : Nat) : Nat :=
  match s.thread? tid with
  | some t => t.core / 256
  | none => here

/-- WAKE (R142): a class-2 item to another die, ordered behind the issuer's earlier stores. -/
def execWake (a : Reg) (s : State) : Out :=
  perform (.wake a) s fun u t =>
    let tid := (t.g a).setWidth 32
    let own := t.core / 256
    let d := threadDie s tid own
    let lid := tidLaunch u.tid
    if d = own then
      finishSeq u (s.modNet fun n =>
        { n with wakes := n.wakes ++ [{ src := t.core, at_ := podDie s t.core, tid := tid, priv := t.privileged, launch := lid, after := storesOpen s u.tid t }] })
    else finishSeq u (sendFromThread s u.tid (podDie s t.core) (s.cfg.package * 8 + d) 2 (.wake tid t.privileged lid))

/-- KILL (R143); of one's own tid it acts as exit. -/
def execKill (a : Reg) (s : State) : Out :=
  perform (.kill a) s fun u t =>
    let tid := (t.g a).setWidth 32
    let own := t.core / 256
    let d := threadDie s tid own
    let lid := tidLaunch u.tid
    if tid = u.tid then finishPark u (withdrawReceives s u.tid t) .exit
    else if d = own then
      finishSeq u (s.modNet fun n =>
        { n with kills := n.kills ++ [{ src := t.core, at_ := podDie s t.core, tid := tid, priv := t.privileged, launch := lid, after := [] }] })
    else finishSeq u (sendFromThread s u.tid (podDie s t.core) (s.cfg.package * 8 + d) 2 (.kill tid t.privileged lid))

/-- Whether a signal at place k is the first on its way from its source to its target's core (R217). -/
def firstSignal (s : State) (l : List Signal) (k : Nat) (n : Signal) : Bool :=
  let core (tid : Tid) : Option Nat := (s.thread? tid).map (·.core)
  !(l.take k).any fun m => m.src == n.src && core m.tid == core n.tid

/-- WAKE_DELIVERY (R142, R124, R216). A kill that reaches the thread together with it, in the same cycle before or after it, wins: no instruction is issued
between the two (R143). -/
def execWakeDelivery (k : Nat) (s : State) : Out :=
  match s.net.wakes[k]? with
  | none => .next s
  | some n =>
    if stillOpen s n.after || !firstSignal s s.net.wakes k n then .next s
    else
      let s := s.modNet fun x => { x with wakes := dropIx x.wakes k }
      .next (wakeThread s n.tid n.priv n.launch)

/-- KILL_DELIVERY (R143): in user mode only for a thread of the issuer's launch. -/
def execKillDelivery (k : Nat) (s : State) : Out :=
  match s.net.kills[k]? with
  | none => .next s
  | some n =>
    if !firstSignal s s.net.kills k n then .next s
    else
    let s := s.modNet fun x => { x with kills := dropIx x.kills k }
    if n.priv || tidLaunch n.tid == n.launch then .next (killThread s n.tid) else .next s

/-- Whether an exiting thread has nothing left to wait for, its posted stores acknowledged (R83, R123); a killed one waits for the matrix work it
has begun and for its posted stores only (R143, R177). -/
def mayRetire (s : State) (tid : Tid) (t : Thread) : Bool :=
  !hasMma s tid t && !((s.core t.core).mx.epilogue.any fun o => o.tid == tid) &&
    storesAcked s tid t && (t.io.dying || t.pending.isEmpty && (match t.stroke with
      | some k => k.finished
      | none => true))

/-- EXIT_RETIRE (R83): context, window and tiles are released. -/
def execExitRetire (tid : Tid) (s : State) : Out :=
  match s.thread? tid with
  | none => .next s
  | some t =>
    match t.status with
    | .parked .exit => if mayRetire s tid t then .next (retireThread s tid) else .next s
    | _ => .next s

end Sys2Proof.Machine
end

