-- ==== Sys2Proof/Machine/Barriers.lean ====
section
/-! DEFINITION. Barriers (spec/08 R154, R155, spec/13 R231, spec/14 R240, R241, spec/21 R321): the units that hold them at each scope, arrivals,
waits and counts. -/

namespace Sys2Proof.Machine

/-! ### Units -/

/-- The unit that holds a launch's barriers of a scope for a core (R154, R231, R240). -/
def barUnit (s : State) (lid g : Nat) : Scope → Nat
  | .core => g
  | .quad => lid * 4096 + g / 4
  | .die => lid * 4096 + g / 256
  | .pkg => lid * 4096
  | .pod => podKey s lid

/-- A barrier of a unit. -/
def getBar (s : State) (sc : Scope) (unit n : Nat) : Bar :=
  let ofLaunch (f : Launch → Tab Bar) (k : Nat) : Bar :=
    match s.launch? (unit / 4096) with
    | some l => tabGetD (f l) k Bar.reset
    | none => Bar.reset
  match sc with
  | .core => tabGetD (s.core unit).bars n Bar.reset
  | .quad => ofLaunch (·.quadBars) (unit % 4096 * 16 + n)
  | .die => ofLaunch (·.dieBars) (unit % 4096 * 16 + n)
  | .pkg => ofLaunch (·.pkgBars) n
  | .pod => tabGetD (tabGetD s.podBars unit []) n Bar.reset

/-- A barrier of a unit set. -/
def setBar (s : State) (sc : Scope) (unit n : Nat) (b : Bar) : State :=
  match sc with
  | .core => s.modCore unit fun c => { c with bars := tabPut c.bars n b }
  | .quad => s.modLaunch (unit / 4096) fun l => { l with quadBars := tabPut l.quadBars (unit % 4096 * 16 + n) b }
  | .die => s.modLaunch (unit / 4096) fun l => { l with dieBars := tabPut l.dieBars (unit % 4096 * 16 + n) b }
  | .pkg => s.modLaunch (unit / 4096) fun l => { l with pkgBars := tabPut l.pkgBars n b }
  | .pod => { s with podBars := tabPut s.podBars unit (tabPut (tabGetD s.podBars unit []) n b) }

/-- A barrier after an arrival, and whether its generation is complete (R154). -/
def Bar.arrive (b : Bar) : Bar × Bool := if b.a + 1 = b.m then ({ b with a := 0, n := b.n + 1 }, true) else ({ b with a := b.a + 1 }, false)

/-! ### Waking (R155, R208) -/

/-- Where a thread stands among those made ready together: core, then context number (R208; log entry 61). -/
def rank (e : Tid × Thread) : Nat := e.2.core * 64 + e.2.ctx.getD 0

/-- A thread put into its place in a list in order of core and context. -/
def insertRank (e : Tid × Thread) : List (Tid × Thread) → List (Tid × Thread)
  | [] => [e]
  | x :: xs => if rank e ≤ rank x then e :: x :: xs else x :: insertRank e xs

/-- Threads in order of core and context (log entry 61). -/
def byRank (l : List (Tid × Thread)) : List (Tid × Thread) := l.foldr insertRank []

/-- The threads of the part that satisfy a condition, in order of core and context. -/
def threadsThat (s : State) (p : Tid → Thread → Bool) : List (Tid × Thread) :=
  byRank ((s.threads.map fun e => (BitVec.ofNat 32 e.1, e.2)).filter fun e => p e.1 e.2)

/-- Every barw of a unit's barrier whose generation is past, by the number the barrier holds now, wakes (R154, R155; log entry 73). -/
def wakeBarrier (s : State) (sc : Scope) (unit n : Nat) : State :=
  let value := (getBar s sc unit n).n
  let waits (tid : Tid) (t : Thread) : Bool :=
    match t.status with
    | .parked (.barrier sc' n' gen _) =>
      sc' == sc && n' == n && gen != value && barUnit s (tidLaunch tid) t.core sc == unit && launchLive s tid
    | _ => false
  (threadsThat s waits).foldl
    (fun s e =>
      match e.2.status with
      | .parked (.barrier _ _ _ last) => resumeThread s e.1 (.done last)
      | _ => s)
    s

/-! ### Instructions (R154, R155) -/

/-- The accesses of a thread not yet performed or answered, its stroke's unsent ones among them. -/
def accessesOpen (s : State) (tid : Tid) (t : Thread) : NatSet := storesOpen s tid t ++ loadsOpen s tid t

/-- A barrier request on its way to its unit (R155, R231, R240). -/
def sendBarrier (u : Issue) (s : State) (t : Thread) (sc : Scope) (n d : Nat) (count : Option Nat) (tval : Word) : State :=
  let lid := tidLaunch u.tid
  let wide := count.isNone && (sc == .pkg || sc == .pod)
  let note : BarrierNote :=
    { id := s.net.nextReq, after := if count.isNone then accessesOpen s u.tid t else [], marks := if wide then none else some 0,
      tid := u.tid, sc := sc, n := n, unit := barUnit s lid t.core sc, d := d, count := count, tval := tval,
      last := headLast u.head, from_ := podDie s t.core, arrived := false }
  s.takeReq.modNet fun x => { x with barriers := x.barriers ++ [note] }

/-- BARR (R154, R155): at core scope counted at once, else posted as a release with d pending. -/
def execBarr (d a : Reg) (sc : Scope) (s : State) : Out :=
  perform (.barr d a sc) s fun u t =>
    let n := (t.g a).slice 3 0
    if (t.g a).slice 63 4 ≠ 0 then finishTrap u s 0x01 (t.g a)
    else if sc = .core then
      let b := getBar s .core t.core n
      let (b', done) := b.arrive
      let s := setBar (s.setThread u.tid (t.setReg d.toNat (b.n.setWidth 64))) .core t.core n b'
      let s := if done then wakeBarrier s .core t.core n else s
      finishSeq u s
    else finishSeq u (sendBarrier u (s.setThread u.tid (t.setPending d.toNat)) t sc n d.toNat none 0)

/-- BARW (R154, R155): parks while the generation stands, else returns at once; what follows it in program order is performed after it (R125; log
entry 73). -/
def execBarw (a b : Reg) (sc : Scope) (s : State) : Out :=
  perform (.barw a b sc) s fun u t =>
    let n := (t.g a).slice 3 0
    let gen := (t.g b).setWidth 32
    if (t.g a).slice 63 4 ≠ 0 then finishTrap u s 0x01 (t.g a)
    else if (getBar s sc (barUnit s (tidLaunch u.tid) t.core sc) n).n = gen then
      finishPark u s (.barrier sc n gen (headLast u.head))
    else finishSeq u s

/-- BARC (R154, R321): a new member count, refused while arrivals are counted. -/
def execBarc (a : Reg) (count : BitVec 24) (sc : Scope) (s : State) : Out :=
  perform (.barc a count sc) s fun u t =>
    let n := (t.g a).slice 3 0
    if (t.g a).slice 63 4 ≠ 0 then finishTrap u s 0x01 (t.g a)
    else if sc = .core then
      if (getBar s .core t.core n).a ≠ 0 then finishTrap u s 0x01 (t.g a)
      else finishSeq u (wakeBarrier (setBar s .core t.core n { m := count.toNat, a := 0, n := 0 }) .core t.core n)
    else
      finishPark u (sendBarrier u s t sc n 0 (some count.toNat) (t.g a)) (.reply (.done (headLast u.head)))

/-! ### At the unit (R231, R240) -/

/-- A generation that is complete, or set anew, told to waiters: of this package, and for a job's pod barrier of every package this one knows or that
has asked for the barrier; it waits in the Bridle's queue for one without a circuit (R240; log entry 72). -/
def announce (s : State) (sc : Scope) (unit n : Nat) (value : BitVec 32) : State :=
  let s := s.modNet fun x => { x with gens := x.gens ++ [(sc, unit, n, value)] }
  if sc = .pod ∧ unit % 2 = 0 then
    let known := (s.links.peers.map (·.1)).foldl setAdd (tabGetD s.podPeers unit [])
    known.foldl (fun s p => sendReply s (s.cfg.package * 8) (p * 8) (.generation unit n value (getBar s .pod unit n).epoch)) s
  else s

/-- The generation an arrival belongs to returned to its thread (R155, R240). -/
def returnGeneration (s : State) (b : BarrierNote) (value : BitVec 32) : State :=
  if ownPackage s b.from_ then s.modNet fun x => { x with units := x.units ++ [.gen b.tid b.sc b.d value] }
  else sendReply s (s.cfg.package * 8) b.from_ (.arrived b.tid b.n b.d value (getBar s b.sc b.unit b.n).epoch)

/-- The answer to a barc returned to its thread (R240, R321). -/
def answerBarc (s : State) (b : BarrierNote) (ok : Bool) : State :=
  if ownPackage s b.from_ then s.modNet fun x => { x with units := x.units ++ [.barc b.tid b.sc b.n ok b.tval b.last] }
  else sendReply s (s.cfg.package * 8) b.from_ (.barsetReply b.tid b.n ok b.tval b.last (getBar s b.sc b.unit b.n).epoch)

/-- A request performed at its unit (R154). -/
def atUnit (s : State) (b : BarrierNote) : State :=
  let x := getBar s b.sc b.unit b.n
  match b.count with
  | none =>
    let (x', done) := x.arrive
    let s := returnGeneration (setBar s b.sc b.unit b.n x') b x.n
    if done then announce s b.sc b.unit b.n x'.n else s
  | some m =>
    if x.a ≠ 0 then answerBarc s b false
    else
      let x' : Bar := { m := m, a := 0, n := 0, epoch := if b.sc = .pod then x.epoch + 1 else 0 }
      answerBarc (announce (setBar s b.sc b.unit b.n x') b.sc b.unit b.n 0) b true

/-- The package whose Bridle holds the unit of a request at package or pod scope. -/
def unitPackage (s : State) (b : BarrierNote) : Nat := if b.sc = .pod then podRoot s b.unit else s.cfg.package

/-- A request at package or pod scope sent as a class-2 item to its unit's package (R234, R240; log entry 96). -/
def toUnit (s : State) (b : BarrierNote) : State :=
  let pod := b.sc == .pod
  let body : ItemBody := match b.count with
    | none => .barrier b.unit pod b.n b.tid b.d
    | some m => .barset b.unit pod b.n m b.tid b.tval b.last
  sendFromThread s b.tid b.from_ (unitPackage s b * 8) 2 body

/-- A request that has come to its unit performed, the package it came from noted at a pod barrier's root (R240). -/
def performBarrier (s : State) (b : BarrierNote) : State :=
  let s :=
    if b.sc = .pod ∧ !ownPackage s b.from_ then
      { s with podPeers := tabPut s.podPeers b.unit (setAdd (tabGetD s.podPeers b.unit []) (b.from_ / 8)) }
    else s
  atUnit s b

/-- Whether a request stands before another in the order one source's requests reach one unit (R217, R236). -/
def sameWay (a b : BarrierNote) : Bool :=
  a.unit == b.unit && a.sc == b.sc && a.arrived == b.arrived && (if b.arrived then a.from_ == b.from_ else a.tid == b.tid)

/-- BARRIER_UNIT_ARRIVAL (R231, R240, R155): once the thread's earlier accesses are performed at its scope, the request is performed at its
unit; at package and pod scope it goes there as an item, and is performed when that has come. -/
def execBarrierUnitArrival (k : Nat) (s : State) : Out :=
  match s.net.barriers[k]? with
  | none => .next s
  | some b =>
    let rest := s.modNet fun x => { x with barriers := dropIx x.barriers k }
    if stillOpen s b.after || (s.net.barriers.take k).any fun a => sameWay a b then .next s
    else if b.arrived then .next (performBarrier rest b)
    else
      match b.marks, s.thread? b.tid with
      | none, some t =>
        if atomsUnsent s b.tid t (b.sc == .pod) then .next s
        else
          let (s, marks) := sendFenceMarkers s b.tid t b.sc (some b.id)
          .next (s.modNet fun x => { x with barriers := x.barriers.set k { b with marks := some marks } })
      | none, none => .next (s.modNet fun x => { x with barriers := x.barriers.set k { b with marks := some 0 } })
      | some (_ + 1), _ => .next s
      | some 0, _ => .next (if b.sc == .pkg || b.sc == .pod then toUnit rest b else performBarrier rest b)

/-- BARRIER_GENERATION (R217, R231, R240): a unit's notices come in order; waiters whose generation is past wake. -/
def execBarrierGeneration (k : Nat) (s : State) : Out :=
  match s.net.gens[k]? with
  | none => .next s
  | some (sc, unit, n, _) =>
    if (s.net.gens.take k).any fun g => g.1 == sc && g.2.1 == unit then .next s
    else .next (wakeBarrier (s.modNet fun x => { x with gens := dropIx x.gens k }) sc unit n)

end Sys2Proof.Machine
end

