-- ==== Sys2Proof/Machine/Queue.lean ====
section
/-! DEFINITION. The host's device queues (spec/20 R305 to R307): where a slot lies, what it holds, and how a command completes. -/

namespace Sys2Proof.Machine

/-- Device queue q. -/
def State.queue (s : State) (q : Nat) : HostQueue := tabGetD s.host.queues q HostQueue.reset

/-- A change of a device queue. -/
def State.modQueue (s : State) (q : Nat) (f : HostQueue → HostQueue) : State :=
  s.modHost fun h => { h with queues := tabPut h.queues q (f (s.queue q)) }

/-- The die-global offset on die 0 of the slot an index falls in (R305, R307). -/
def slotOffset (x : HostQueue) (ix : BitVec 32) : Nat := x.base + 64 * (ix.toNat % 2 ^ x.log2)

/-- The words of a command slot, none where its page is not readable. -/
def slotWords (s : State) (q : Nat) (ix : BitVec 32) : State × Option (List Word) :=
  match dieRead s 0 (slotOffset (s.queue q) ix) 64 with
  | (s, some bs) => (s, some ((List.range 8).map fun i => leWord ((bs.drop (8 * i)).take 8)))
  | (s, none) => (s, none)

/-- The head advanced over the slots completed in order (R307). -/
def advanceHead : Nat → HostQueue → HostQueue
  | 0, x => x
  | fuel + 1, x =>
    if x.done.contains x.head then advanceHead fuel { x with head := x.head + 1, done := x.done.erase x.head } else x

/-- A command completes: word 1 of its slot is written, then the head advances (R305). -/
def hostComplete (s : State) (q : Nat) (ix : BitVec 32) (status reason result : Nat) : State :=
  let word := natLE (status + reason * 2 ^ 8 + result % 2 ^ 48 * 2 ^ 16) 8
  let s := (dieWrite s 0 (slotOffset (s.queue q) ix + 8) word false).1
  s.modQueue q fun x => advanceHead (x.done.length + 2) { x with done := x.done ++ [ix] }

/-! ### Taking a command (R305, R306) -/

/-- The greatest kind of a command, none for a reserved op (R306). -/
def commandKinds (op : Nat) : Option Nat :=
  match op with
  | 1 | 2 | 3 | 4 | 5 | 10 => some 0
  | 6 | 7 => some 1
  | 8 => some 4
  | 9 => some 2
  | _ => none

/-- Whether a command starts only after every earlier one of its queue has completed (R306). -/
def commandWaits (op : Nat) : Bool := [1, 2, 3, 5, 6, 9].contains op

/-- What taking the next command of a queue finds: none of the kind asked for, one refused as it stands (R305), or the command. -/
inductive Taken where
  | nothing
  | refused (s : State)
  | command (s : State) (ix : BitVec 32) (w : List Word)
  deriving DecidableEq, Repr

/-- The next command of a queue, started if it has an op and a kind and may start (R305 to R307): a queue that is disabled, or a part that is
not up (R314), starts none. -/
def takeCommand (s : State) (q op kind : Nat) : Taken :=
  let x := s.queue q
  if 64 ≤ q ∨ !x.enabled ∨ (x.tail - x.head).toNat ≤ (x.started - x.head).toNat ∨ s.host.status / 2 % 2 = 0 then .nothing
  else
    match slotWords s q x.started with
    | (_, none) => .nothing
    | (s, some w) =>
      let word := w.getD 0 0
      let o := word.slice 7 0
      let k := word.slice 15 8
      let start (s : State) : State := s.modQueue q fun y => { y with started := y.started + 1 }
      let bad := word.slice 63 16 != 0 || (match commandKinds o with
        | some m => decide (m < k)
        | none => true)
      if bad then .refused (hostComplete (start s) q x.started 1 1 0)
      else if o ≠ op ∨ k ≠ kind ∨ (commandWaits o ∧ x.head ≠ x.started) then .nothing
      else .command (start s) x.started w

/-- A command of an op and a kind performed. -/
def withCommand (s : State) (q op kind : Nat) (f : State → BitVec 32 → List Word → State) : Out :=
  match takeCommand s q op kind with
  | .nothing => .next s
  | .refused s => .next s
  | .command s ix w => .next (f s ix w)

end Sys2Proof.Machine
end

