-- ==== Sys2Proof/Machine/Engines.lean ====
section
/-! DEFINITION. Engine commands (spec/10 R180 to R189, spec/14 R237, spec/15): the checks at issue, the movement of data element by element,
completion by token or barrier object, remote atomics, and reductions. -/

namespace Sys2Proof.Machine

/-! ### Issue (R180) -/

/-- The first value of a list that is no multiple of the number beside it (R180 check 1; log entry 52). -/
def misaligned (l : List (Word × Nat)) : Option Word := (l.find? fun e => e.1.toNat % e.2 != 0).map (·.1)

/-- A range an engine command names: address, bytes, whether it is written. -/
structure EngRange where
  ea : Word
  n : Nat
  w : Bool
  deriving DecidableEq, Repr

/-- The first range in the core's own L-store that fails lcap or protection (R180 check 2). -/
def rangeFails (s : State) (g : Nat) (l : List EngRange) : Option Word :=
  (l.find? fun r => eaLocal r.ea && r.n != 0 && !lstoreOk s g r.ea.toNat r.n (!r.w) r.w).map (·.ea)

/-- The cause and value of the first failing check of R180 (log entry 52). -/
def engineTrap (s : State) (g : Nat) (aligns : List (Word × Nat)) (ranges : List EngRange) (limits : List (Bool × Word)) :
    Option (Nat × Word) :=
  match misaligned aligns with
  | some v => some (0x05, v)
  | none =>
    match rangeFails s g ranges with
    | some v => some (0x06, v)
    | none => (limits.find? fun e => e.1).map fun e => (0x01, e.2)

/-- A new command of a thread, not yet started. -/
def newCommand (s : State) (u : Issue) (kind : EngKind) (reg : Reg) (object : Option Word) (dst src : Word) (len : Nat)
    (operand : Word) : EngCmd :=
  { id := s.net.nextReq, tid := u.tid, launch := tidLaunch u.tid, kind := kind,
    reg := if object.isSome then 0 else reg.toNat, object := object, dst := dst, src := src, len := len, operand := operand,
    phase := .waiting, moved := [], status := 0, old := 0, sentAt := 0, cut := false, uncorr := false, faulted := false, entry := none,
    asked := [], after := [], buf := [], dies := [], host := none }

/-- Whether a command's launch lets it run: it is live, and no pre-emption has stopped it (R181). -/
def mayRun (s : State) (c : EngCmd) : Bool :=
  c.host.isSome ||
    match s.launch? c.launch with
    | some l => l.phase == .live
    | none => true

/-- The commands of a core's queue that take its 8 entries: those of a pre-empted launch are saved with its core (R180, R296). -/
def queueUse (s : State) (g : Nat) : Nat := ((s.core g).engine.filter (mayRun s)).length

/-- A checked command enters the core's queue of 8, its token pending; into a full queue the thread parks and issues it again (R180). -/
def queueCommand (u : Issue) (s : State) (t : Thread) (pend : List Nat) (c : EngCmd) : Out :=
  if 8 ≤ queueUse s t.core then finishPark u s .engineQueue
  else
    let s := s.setThread u.tid (pend.foldl Thread.setPending t)
    finishSeq u (s.takeReq.modCore t.core fun x => { x with engine := x.engine ++ [c] })

/-- The barrier object of a command with .bo, read at issue (R184). -/
def objectOf (t : Thread) (d : Reg) (bo : Bool) : Option Word := if bo then some (t.g d) else none

/-- The alignment check of a barrier object. -/
def objectAlign (o : Option Word) : List (Word × Nat) := (o.map fun v => (v, 8)).toList

/-- The range of a barrier object. -/
def objectRange (o : Option Word) : List EngRange := (o.map fun v => { ea := v, n := 8, w := true }).toList

/-- Whether a barrier object lies in no L-store (R184). -/
def objectLimit (o : Option Word) : List (Bool × Word) :=
  (o.map fun v => (eaGlobal v || eaHost v || (!eaLocal v && !remoteOk v), v)).toList

/-- Whether an operand address names no place (R182). -/
def noPlace (s : State) (g : Nat) (v : Word) : Bool := (placeOf s g v).isNone

/-- COPY (R185). -/
def execCopy (d a b c : Reg) (bo : Bool) (s : State) : Out :=
  perform (.copy d a b c bo) s fun u t =>
    let (x, y, n) := (t.g a, t.g b, t.g c)
    let o := objectOf t d bo
    match engineTrap s t.core ([(x, 8), (y, 8), (n, 8)] ++ objectAlign o)
        ([{ ea := x, n := n.toNat, w := true }, { ea := y, n := n.toNat, w := false }] ++ objectRange o)
        ([(decide (2 ^ 36 < n.toNat), n), (noPlace s t.core x, x), (noPlace s t.core y, y)] ++ objectLimit o) with
    | some (cause, v) => finishTrap u s cause v
    | none => queueCommand u s t (if bo then [] else [d.toNat]) (newCommand s u .copy d o x y n.toNat 0)

/-- The bytes of the destination of a reduction of n source bytes (R186). -/
def reducedBytes (op : CopyrOp) (n : Nat) : Nat := if op = .bf16 then 2 * n else n

/-- COPYR (R186): the launch must hold a reduction plan; the destination is no host memory, which has no engines (log entry 24). -/
def execCopyr (d a b c : Reg) (op : CopyrOp) (bo : Bool) (tag : BitVec 16) (s : State) : Out :=
  perform (.copyr d a b c op bo tag) s fun u t =>
    let (x, y, n) := (t.g a, t.g b, t.g c)
    let o := objectOf t d bo
    let planned := match s.launch? (tidLaunch u.tid) with
      | some l => l.rplan.isSome
      | none => false
    match engineTrap s t.core ([(x, 8), (y, 8), (n, 8)] ++ objectAlign o)
        ([{ ea := x, n := reducedBytes op n.toNat, w := true }, { ea := y, n := n.toNat, w := false }] ++ objectRange o)
        ([(decide (n.toNat < 8 ∨ 2 ^ 26 < n.toNat), n), (!planned, 0), (noPlace s t.core x || eaHost x, x),
          (noPlace s t.core y, y)] ++ objectLimit o) with
    | some (cause, v) => finishTrap u s cause v
    | none =>
      queueCommand u s t (if bo then [] else [d.toNat]) (newCommand s u (.copyr op tag) d o x y n.toNat 0)

/-- RATOM (R187): a host address takes cause 0x07; with .ar or .sc the request waits for every earlier access of the thread. -/
def execRatom (d a b c : Reg) (ao : AtomOp) (ord : Ord) (four : Bool) (s : State) : Out :=
  perform (.ratom d a b c ao ord four) s fun u t =>
    let x := t.g a
    let n := if four then 4 else 8
    if x.toNat % n ≠ 0 then finishTrap u s 0x05 x
    else if eaHost x then finishTrap u s 0x07 x
    else
      match engineTrap s t.core [] [{ ea := x, n := n, w := false }, { ea := x, n := n, w := true }]
          [(noPlace s t.core x, x)] with
      | some (cause, v) => finishTrap u s cause v
      | none =>
        let cmd := newCommand s u (.ratom ao ord four (t.g c)) d none x 0 0 (t.g b)
        let earlier := storesOpen s u.tid t ++ loadsOpen s u.tid t
        queueCommand u s t (if d = 0 then [] else [d.toNat, d.toNat + 1])
          { cmd with after := if ord = .relaxed then [] else earlier }

/-- GATH (R188). The scattered side of it is checked where its elements are moved (R181). -/
def execGath (d a b c : Reg) (scat : Bool) (size : Size) (bo : Bool) (count1 : BitVec 16) (s : State) : Out :=
  perform (.gath d a b c scat size bo count1) s fun u t =>
    let (x, y, ix) := (t.g a, t.g b, t.g c)
    let count := count1.toNat + 1
    let sz := Size.n size
    let o := objectOf t d bo
    let dense : EngRange := if scat then { ea := y, n := count * sz, w := false } else { ea := x, n := count * sz, w := true }
    match engineTrap s t.core ([(x, sz), (y, sz), (ix, 4)] ++ objectAlign o)
        ([dense, { ea := ix, n := 4 * count, w := false }] ++ objectRange o)
        ([(noPlace s t.core x, x), (noPlace s t.core y, y), (!eaLocal ix, ix)] ++ objectLimit o) with
    | some (cause, v) => finishTrap u s cause v
    | none =>
      queueCommand u s t (if bo then [] else [d.toNat]) (newCommand s u (.gath scat size count) d o x y count ix)

/-- Whether a launch owns a valid path (R189, R263). -/
def ownsPath (s : State) (lid p : Nat) : Bool := (s.path p).entry.valid && (s.path p).entry.owner == lid

/-- MCAST (R189): the source is own L-store or the issuing die's memory, and the launch owns the path. -/
def execMcast (d a b c : Reg) (bo : Bool) (len1 : BitVec 20) (s : State) : Out :=
  perform (.mcast d a b c bo len1) s fun u t =>
    let (p, y, x) := (t.g a, t.g b, t.g c)
    let n := len1.toNat + 1
    let o := objectOf t d bo
    match engineTrap s t.core ([(BitVec.ofNat 64 n, 8), (y, 8), (x, 8)] ++ objectAlign o)
        ([{ ea := y, n := n, w := false }] ++ (objectRange o).filter fun r => !eaLocal r.ea)
        ([(!(eaLocal y || onOwnDie s t y), y), (decide (255 < p.toNat), p), (!ownsPath s (tidLaunch u.tid) p.toNat, p),
          (!(eaGlobal x || remoteOk x), x)] ++ (o.map fun v => (!remoteOk v, v)).toList) with
    | some (cause, v) => finishTrap u s cause v
    | none =>
      queueCommand u s t (if bo then [] else [d.toNat]) (newCommand s u (.mcast p.toNat) d o x y n 0)

/-! ### Elements (R181, R185, R188) -/

/-- The bytes of one element of a command: what is written in one step. -/
def EngCmd.size (c : EngCmd) : Nat :=
  match c.kind with
  | .gath _ sz _ => Size.n sz
  | _ => 8

/-- How many elements a command moves. -/
def EngCmd.count (c : EngCmd) : Nat :=
  match c.kind with
  | .copy | .copyr .. | .mcast _ => c.len / 8
  | .gath _ _ n => n
  | .ratom .. => 0

/-- The chunk of 4 KiB of destination an element falls in (R181). -/
def EngCmd.chunk (c : EngCmd) (e : Nat) : Nat := e * c.size / 4096

/-- Every element of a chunk. -/
def EngCmd.chunkElems (c : EngCmd) (k : Nat) : NatSet :=
  let per := 4096 / c.size
  (List.range (min per (c.count - k * per))).map fun i => k * per + i

/-- The natural 32-bit index of an element of a gather or scatter (R188): as it was read, once it has been (R247). -/
def indexOf (s : State) (g : Nat) (c : EngCmd) (e : Nat) : Nat := (tabGet c.index e).getD (leNat (lread s g (c.operand.toNat + 4 * e) 4))

/-- The elements of a gather or scatter whose indexes lie in one word of the list with those of given elements, and are not read yet. -/
def unindexed (c : EngCmd) (batch : List Nat) : List Nat :=
  match c.kind with
  | .gath .. =>
    let word (e : Nat) : Nat := (c.operand.toNat + 4 * e) / 8
    ((batch.flatMap fun e => [e - 1, e, e + 1].filter fun i => word i == word e && decide (i < c.count)).eraseDups).filter fun i => (tabGet c.index i).isNone
  | _ => []

/-- A command that has read the index words of given elements, each once (R247). -/
def indexed (s : State) (g : Nat) (c : EngCmd) (batch : List Nat) : EngCmd :=
  { c with index := (unindexed c batch).foldl (fun t i => tabPut t i (indexOf s g c i)) c.index }

/-- The source address of an element. -/
def srcOf (s : State) (g : Nat) (c : EngCmd) (e : Nat) : Word :=
  match c.kind with
  | .gath false sz _ => c.src + BitVec.ofNat 64 (indexOf s g c e * Size.n sz)
  | _ => c.src + BitVec.ofNat 64 (e * c.size)

/-- The destination address of an element. -/
def dstOf (s : State) (g : Nat) (c : EngCmd) (e : Nat) : Word :=
  match c.kind with
  | .gath true sz _ => c.dst + BitVec.ofNat 64 (indexOf s g c e * Size.n sz)
  | _ => c.dst + BitVec.ofNat 64 (e * c.size)

/-- Whether the issue of a command has checked the side of an element that lies in the core's own L-store (R180). -/
def EngCmd.srcChecked (c : EngCmd) : Bool :=
  eaLocal c.src && (match c.kind with
    | .gath scat _ _ => scat
    | _ => true)

/-- The same of the destination. -/
def EngCmd.dstChecked (c : EngCmd) : Bool :=
  eaLocal c.dst && (match c.kind with
    | .gath scat _ _ => !scat
    | _ => true)

/-- For whom a command accesses memory. -/
def EngCmd.issuer (c : EngCmd) : Issuer := if c.host.isSome then .host else .launch c.launch

/-- The die of the pod whose engines hold an engine queue. -/
def engineDie (s : State) (g : Nat) : Nat := s.cfg.package * 8 + (if g < 2048 then g / 256 else g - 2048)

/-! ### Reaching another package (R189, R288, R289) -/

/-- Whether a path carries items: it has a peer, an order, and is UP or SETTLING (R288, R333). -/
def pathOpen (p : Path) : Bool :=
  (p.state == .up || p.state == .settling) && p.order != 0 && p.entry.valid && p.entry.peers.any fun q => q != 0xFFFF

/-- The next hops of a package (R280). -/
def nextHops (s : State) (pkg : Nat) : List Nat := tabGetD s.links.routes pkg []

/-- The peers a path carries items to: those listed within its fan-out, on a slotted fibre all listed (R262, R263, R337). -/
def pathPeers (s : State) (p : Path) : List Nat :=
  ((if (s.fibre p.entry.fibre).slots.isEmpty then p.entry.peers.take (2 ^ p.fan) else p.entry.peers)).filter fun q => q != 0xFFFF

/-- Whether circuits reach every peer of a path; a slotted path reaches each in its own windows (R283, R337; log entry 78). -/
def peersReached (s : State) (p : Path) : Bool :=
  let f := s.fibre p.entry.fibre
  !f.slots.isEmpty || (f.up && (pathPeers s p).all fun q => setHas f.reached q)

/-- Whether some path toward a package carries items (R289). -/
def linkOpen (s : State) (pkg : Nat) : Bool :=
  s.spool.paths.any fun e => pathOpen e.2 && (pathPeers s e.2).any fun q => (nextHops s pkg).contains q

/-- Whether an open window or a standing circuit reaches a package now (R283). -/
def reaches (s : State) (pkg : Nat) : Bool :=
  s.spool.paths.any fun e =>
    let f := s.fibre e.2.entry.fibre
    pathOpen e.2 && (pathPeers s e.2).any fun q =>
      (nextHops s pkg).contains q && f.up && setHas f.confirmed q &&
        if f.slots.isEmpty then setHas f.reached q else f.window == .opened && f.peer == q

/-- Whether a package is one a topology change in progress affects (R290). -/
def affected (s : State) (q : Nat) : Bool :=
  match s.links.retopo with
  | some r => setHas r.peers q
  | none => false

/-- Whether a topology change holds items to a package back: those for an affected package, and those with no other next hop (R290). -/
def retopoHolds (s : State) (pkg : Nat) : Bool :=
  affected s pkg || ((nextHops s pkg).any (affected s) && (nextHops s pkg).all (affected s))

/-! ### Moving elements (R181, R237, R247, R248) -/

/-- Data on their way to another die: the die, the first address, the bytes so far. -/
structure Run where
  die : Nat
  ea : Word
  bytes : List Byte
  deriving DecidableEq, Repr

/-- Why a chunk stops. -/
inductive Stop where
  | fault (die off : Nat) (w : Bool)
  | refused
  | uncorr
  deriving DecidableEq, Repr

/-- What moving elements has come to: the state, the command, the elements moved, the run to be sent, and what stopped it. -/
structure Moving where
  s : State
  c : EngCmd
  run : Option Run
  stop : Option Stop
  deriving DecidableEq, Repr

/-- A run sent as one write item (R237 step 1). -/
def sendRun (m : Moving) (g : Nat) : Moving :=
  match m.run with
  | none => m
  | some r =>
    { m with
      s := sendItem m.s (engineDie m.s g) r.die 0 (.write m.c.tid g m.c.id r.ea r.bytes)
      c := { m.c with dies := setAdd m.c.dies r.die }
      run := none }

/-- Bytes for another die join the run they continue, or begin one. -/
def addRun (m : Moving) (g die : Nat) (ea : Word) (bytes : List Byte) : Moving :=
  match m.run with
  | some r =>
    if r.die = die ∧ r.ea + BitVec.ofNat 64 r.bytes.length = ea then { m with run := some { r with bytes := r.bytes ++ bytes } }
    else { sendRun m g with run := some { die := die, ea := ea, bytes := bytes } }
  | none => { m with run := some { die := die, ea := ea, bytes := bytes } }

/-- An element written: at once on its own die and in host memory, by an item of the flow elsewhere; for a reduction into the buffer. -/
def putElem (m : Moving) (g e : Nat) (bytes : List Byte) : Moving :=
  let done (m : Moving) : Moving := { m with c := { m.c with moved := setAdd m.c.moved e } }
  match m.c.kind with
  | .copyr .. => done { m with c := { m.c with buf := m.c.buf.write (8 * e) bytes } }
  | _ =>
    let ea := dstOf m.s g m.c e
    match placeOf m.s g ea with
    | none => { m with stop := some .refused }
    | some p =>
      match placeDie m.s p with
      | some x =>
        if x ≠ engineDie m.s g then
          match p with
          | .lstore g' off =>
            if mayUse m.s m.c.issuer g' off bytes.length false true then done (addRun m g x ea bytes)
            else { m with stop := some .refused }
          | .global d off =>
            (match unmapped m.s d off bytes.length true with
             | some o => { m with stop := some (.fault d o true) }
             | none => done (addRun m g x ea bytes))
          | _ => done (addRun m g x ea bytes)
        else
          match writeAt m.s m.c.issuer m.c.dstChecked p ea bytes with
          | .done s _ => done { m with s := s }
          | .fault s d off => { m with s := s, stop := some (.fault d off true) }
          | .refused => { m with stop := some .refused }
      | none =>
        match writeAt m.s m.c.issuer m.c.dstChecked p ea bytes with
        | .done s _ => done { m with s := s }
        | .fault s d off => { m with s := s, stop := some (.fault d off true) }
        | .refused => { m with stop := some .refused }

/-- Whether an element of a scatter is left to a later one with the same index, already moved (R188). -/
def overtaken (s : State) (g : Nat) (c : EngCmd) (e : Nat) : Bool :=
  match c.kind with
  | .gath true _ _ => c.moved.any fun i => decide (e < i) && indexOf s g c i == indexOf s g c e
  | _ => false

/-- The element under whose number an element's source word is read and kept: a gather or scatter reads each word once, for the first of its
elements in it that it comes to (R247). -/
def firstOf (s : State) (g : Nat) (c : EngCmd) (e : Nat) : Nat :=
  let word (i : Nat) : Nat := (srcOf s g c i).toNat / 8
  match c.kind with
  | .gath .. => ((c.asked.map (· / 2)).find? fun i => word i == word e).getD e
  | _ => e

/-- Whether n bytes at a place of this package hold an uncorrectable error (R299). -/
def placeMet (s : State) (p : HomePlace) (n : Nat) : Bool :=
  match p with
  | .lstore g off => (wordMet (s.core g).errors off n).isSome
  | .global d off => (wordMet (s.die d).errors off n).isSome
  | _ => false

/-- An engine command that meets an uncorrectable error: it will end with UNCORR, and an event record is written (R183, R299). -/
def engineMet (s : State) (g : Nat) (tid : Tid) (ea : Word) : State :=
  uncorrEvent s (if g < 2048 then g / 256 else g - 2048) (if g < 2048 then g % 256 else 0) tid ea

/-- One element moved (R247, R248): its source word is read whole, and, for a gather or scatter, once. Data of another die are asked for first, and
come by a reply (R234; log entry 66). -/
def moveElem (g : Nat) (m : Moving) (e : Nat) : Moving :=
  if m.stop.isSome then m
  else if overtaken m.s g m.c e then { m with c := { m.c with moved := setAdd m.c.moved e } }
  else
    let r := firstOf m.s g m.c e
    let off := (srcOf m.s g m.c e).toNat % 8
    let ea := srcOf m.s g m.c e &&& ~~~(7 : Word)
    let part (bs : List Byte) : List Byte := (bs.drop off).take m.c.size
    if setHas m.c.asked (2 * r + 1) then putElem m g e (part (m.c.buf.bytes (8 * r) 8))
    else
      match placeOf m.s g ea with
      | none => { m with stop := some .refused }
      | some p =>
        if placeMet m.s p 8 then { m with s := engineMet m.s g m.c.tid ea, c := { m.c with uncorr := true }, stop := some .uncorr }
        else
        match placeDie m.s p with
        | some x =>
          if x = engineDie m.s g then here r ea part p
          else if setHas m.c.asked (2 * r) then m
          else
            { m with
              s := sendItem m.s (engineDie m.s g) x 0 (.read m.c.tid ea 8 g m.c.id r)
              c := { m.c with asked := setAdd m.c.asked (2 * r) } }
        | none => here r ea part p
where
  here (r : Nat) (ea : Word) (part : List Byte → List Byte) (p : HomePlace) : Moving :=
    match readAt m.s m.c.issuer m.c.srcChecked p ea 8 with
    | .done s bs =>
      let c := match m.c.kind with
        | .gath .. => { m.c with buf := m.c.buf.write (8 * r) bs, asked := setAdd m.c.asked (2 * r + 1) }
        | _ => m.c
      putElem { m with s := s, c := c } g e (part bs)
    | .fault s d off => { m with s := s, stop := some (.fault d off false) }
    | .refused => { m with stop := some .refused }

/-- Whether an access an engine makes on a die of this package is at every line it names now, or meets a page fault (R220, R223, R245). -/
def placeReady (s : State) (p : Option HomePlace) (n : Nat) (w : Bool) : Bool :=
  match p with
  | some (.global d off) => (unmapped s d off n w).isSome || rangeReady s d off n w
  | _ => true

/-- Whether the accesses of a batch on the engine's own die are at their lines now. -/
def batchReady (s : State) (g : Nat) (c : EngCmd) (batch : List Nat) : Bool :=
  let own (ea : Word) (n : Nat) (w : Bool) : Bool :=
    let p := placeOf s g ea
    (p.bind (placeDie s)) != some (engineDie s g) || placeReady s p n w
  batch.all fun e => own (srcOf s g c e) 1 false && (match c.kind with
    | .copyr .. | .mcast _ => true
    | _ => own (dstOf s g c e) c.size true)

/-! ### Completion (R183, R184, R237) -/

/-- A command whose data are all sent goes on to what its completion needs (R237): ready where it wrote on its own die only; with its object on
the one other die it wrote to, its arrival behind its marker; else an acknowledged marker to each die. -/
def concludeCmd (s : State) (g : Nat) (c : EngCmd) : State :=
  let own := engineDie s g
  let objDie := (c.object.bind (placeOf s g)).bind (placeDie s)
  let put (s : State) (p : EngPhase) : State := modCommand s g c.id fun _ => { c with phase := p }
  match c.dies with
  | [] => put s .finished
  | [x] =>
    if objDie = some x then
      let s := sendMarker s own x 0 false none (some (g, c.id)) none c.id
      let s := sendItem s own x 0 (.arrival (c.object.getD 0) c.status c.launch (some (g, c.id)))
      put s .arriving
    else put (sendMarker s own x 0 true none (some (g, c.id)) none c.id) (.answers 1)
  | xs => put (xs.foldl (fun s x => sendMarker s own x 0 true none (some (g, c.id)) none c.id) s) (.answers xs.length)

/-- The address of mcast data or of an object at a peer: the package field replaced (R189). -/
def atPeer (ea : Word) (peer : Nat) : Word :=
  if eaGlobal ea then (ea &&& ~~~((0xFFF : Word) <<< 51)) ||| (BitVec.ofNat 64 peer <<< 51)
  else (ea &&& ~~~((0xFFF : Word) <<< 43)) ||| (BitVec.ofNat 64 peer <<< 43)

/-- The die of the pod an address lies on. -/
def podDieOf (ea : Word) : Nat := if eaGlobal ea then eaPackage ea * 8 + eaDie ea else remoteCore ea / 256

/-- Whether a path is of a slotted fibre. -/
def slotted (s : State) (p : Path) : Bool := !(s.fibre p.entry.fibre).slots.isEmpty

/-- Whether every peer's flow has credit for n items more of a multicast, and, on a slotted fibre, the Bridle's queues room for their flits (R235, R279). -/
def castRoom (s : State) (g path die n flits : Nat) : Bool :=
  let p := s.path path
  (pathPeers s p).all fun q =>
    let x := q * 8 + die
    decide ((s.flow (engineDie s g) x 0).undelivered + n ≤ 64) && decide (classShare s x 0 + n ≤ 512)
      && (!slotted s p || (decide (queuedBytes (s.links.queues.filter fun y => y.dest == q) + 80 * flits ≤ 2 ^ 20)
        && decide (queuedBytes s.links.queues + 80 * flits * (pathPeers s p).length ≤ 64 * 2 ^ 20)))

/-- An item of a multicast numbered on the flow to each peer and put on the path's one stream, or, on a slotted fibre, in the Bridle's queue for each peer,
which gives it to the path in that peer's windows (R189, R335, R337): the body names the address at the peer, whose package each peer puts in it. -/
def castItem (s : State) (g path die : Nat) (c : EngCmd) (body : Nat → ItemBody) : State :=
  let p := s.path path
  let own := engineDie s g
  let items := (pathPeers s p).map fun q : Nat =>
    ({ src := own, dst := q * 8 + die, cls := 0, seq := (s.flow own (q * 8 + die) 0).next, body := body q } : Item)
  let s := items.foldl (fun s x => s.modFlow x.src x.dst 0 fun f => { f with next := f.next + 1, undelivered := f.undelivered + 1 }) s
  if slotted s p then
    { s with links := { s.links with queues := s.links.queues ++ items.map fun x =>
        { item := x, dest := x.dst / 8, since := s.cycle.toNat, via := some path } } }
  else
    (items.take 1).foldl
      (fun s x => s.modPath path fun p =>
        let st := tabGetD p.streams 0 Stream.reset
        { p with streams := tabPut p.streams 0 { st with queue := st.queue ++ itemAsFlits (some c.id) x } }) s

/-- The arrival of a multicast at every peer's object (R189). -/
def castArrival (s : State) (g path : Nat) (c : EngCmd) : State :=
  let o := c.object.getD 0
  castItem s g path (podDieOf o % 8) c fun q => .arrival (atPeer o q) c.status c.launch (some (g, c.id))

/-- The end of a multicast's data (R237, R335): a marker, which each peer acknowledges; with .bo on the data's die the arrival stands right behind it and
no acknowledgement is asked for, on another die it follows the acknowledgements. For want of credit the command stays at its end (R235). -/
def concludeCast (s : State) (g path : Nat) (c : EngCmd) : State :=
  let own := engineDie s g
  let die := podDieOf c.dst % 8
  let peers := pathPeers s (s.path path)
  let behind := match c.object with
    | some o => podDieOf o % 8 == die
    | none => false
  let put (s : State) (p : EngPhase) : State := modCommand s g c.id fun _ => { c with phase := p }
  if !castRoom s g path die (if behind then 2 else 1) (if behind then 2 else 1) then put s .moving
  else
  let s := castItem s g path die c fun _ => .marker (!behind) c.id
  if peers.isEmpty then put s .finished
  else if behind then put (castArrival s g path c) .arriving
  else
    put
      (s.modNet fun n =>
        { n with marks := n.marks ++ peers.map fun q =>
            { id := c.id, src := own, dst := q * 8 + die, cls := 0, who := none, cmd := some (g, c.id), bar := none, ackWanted := true,
              delivered := false, status := 0 } })
      (.answers peers.length)

/-- A command whose data are all sent, or which ends with an error status, goes on to its completion. -/
def conclude (s : State) (g : Nat) (c : EngCmd) : State :=
  match c.kind with
  | .mcast path => concludeCast s g path c
  | _ => concludeCmd s g c

/-- A command out of its queue, its entry free (R180). -/
def retireCmd (s : State) (g id : Nat) : State := modEngine s g fun l => l.filter fun x => x.id != id

/-- The count field of a token (R183; log entry 60). -/
def tokenCount (c : EngCmd) : Nat :=
  match c.kind with
  | .gath .. => c.moved.length
  | .copyr op _ => if c.status < 0x40 then reducedBytes op c.len else 0
  | .mcast _ => 8 * c.moved.length
  | .ratom .. => c.old.slice 55 0
  | .copy => 8 * c.moved.length

/-- The token of a command (R183). -/
def tokenWord (c : EngCmd) : Word := BitVec.ofNat 64 (tokenCount c % 2 ^ 56 + c.status * 2 ^ 56)

/-- The flags of a done status merged into the issuer's fstat (R110, R183). -/
def landFlags (s : State) (c : EngCmd) : State :=
  if c.status < 0x40 then s.modThread c.tid fun t => if t.io.dying then t else t.raise (BitVec.ofNat 6 c.status) else s

/-- The token written to its register, the flags of a done status merged (R110, R183); a killed issuer's is discarded (R143). -/
def landToken (s : State) (c : EngCmd) : State :=
  match s.thread? c.tid with
  | none => s
  | some t =>
    if t.io.dying then s
    else
      let t := if c.status < 0x40 then t.raise (BitVec.ofNat 6 c.status) else t
      let t := if c.reg = 0 then t else t.land c.reg (tokenWord c)
      let t := match c.kind with
        | .ratom .. => if c.reg = 0 then t else t.land (c.reg + 1) c.old
        | _ => t
      s.setThread c.tid t

/-- Whether the engines of a queue's die have a clock: in P3 the die executes nothing (R2, R316). -/
def engineClocked (s : State) (g : Nat) : Bool := decide ((s.die (engineDie s g % 8)).power < 3)

/-- Whether a flit of a command is still to be sent over a link, or is not acknowledged yet (R189, R338). -/
def flitsLeft (s : State) (id : Nat) : Bool :=
  s.spool.paths.any fun e => e.2.streams.any fun st => (st.2.queue ++ st.2.replay).any fun f => f.cmd == some id

/-- A command that has completed: its engine is idle, and its entry free, once every flit of its items is acknowledged (R180, R338). -/
def endCmd (s : State) (g : Nat) (c : EngCmd) : State :=
  if flitsLeft s c.id then modCommand s g c.id fun y => { y with phase := .arriving } else retireCmd s g c.id

/-- TOKEN_WRITE (R180, R183, R184): a command that is ready to complete writes its token, a multicast's once every flit is acknowledged (R189), or makes its
arrival; a host COPY completes in its queue (R306). DESIGN CHOICE: the flags of a command with .bo are merged into fstat here, when its arrival is made by
its engine, before the arrival is performed at the object (R47, R110, R184; log entry 118). -/
def execTokenWrite (g k : Nat) (s : State) : Out :=
  match (engineOf s g)[k]? with
  | none => .next s
  | some c =>
    if c.phase ≠ .finished ∨ !mayRun s c ∨ !engineClocked s g then .next s
    else
      match c.host with
      | some (q, ix) =>
        let s := endCmd s g c
        .next
          (if c.status < 0x40 then hostComplete s q (BitVec.ofNat 32 ix) 0 0 0
           else hostComplete s q (BitVec.ofNat 32 ix) 4 c.status (tokenCount c))
      | none =>
        match c.object, c.kind with
        | none, .mcast _ => if flitsLeft s c.id then .next s else .next (retireCmd (landToken s c) g c.id)
        | none, _ => .next (endCmd (landToken s c) g c)
        | some o, .mcast path =>
          if castRoom s g path (podDieOf o % 8) 1 1 then
            .next (castArrival (modCommand s g c.id fun y => { y with phase := .arriving }) g path c)
          else .next s
        | some o, _ =>
          let s := landFlags s c
          match (placeOf s g o).bind (placeDie s) with
          | none => .next (retireCmd s g c.id)
          | some x =>
            let s := modCommand s g c.id fun y => { y with phase := .arriving }
            if x = engineDie s g then
              .next (s.modNet fun n =>
                { n with objects := n.objects ++
                    [{ launch := c.launch, core := g, local_ := eaLocal o, obj := o, status := c.status,
                       cmd := some (g, c.id), via := none }] })
            else .next (sendItem s (engineDie s g) x 0 (.arrival o c.status c.launch (some (g, c.id))))

/-! ### Starting and moving (R181) -/

/-- The commands of a die that run. -/
def runningOn (s : State) (d : Nat) : Nat :=
  let cores := (s.cores.filter fun e => e.1 / 256 == d).flatMap fun e => e.2.engine
  ((cores ++ (s.die d).engine).filter fun c => c.phase != .waiting && mayRun s c).length

/-- ENGINE_COMMAND_START (R181): commands of a core start in issue order, 32 of a die at once; an empty copy completes at once (R185). -/
def execEngineCommandStart (g k : Nat) (s : State) : Out :=
  let l := engineOf s g
  match l[k]? with
  | none => .next s
  | some c =>
    let d := if g < 2048 then g / 256 else g - 2048
    if c.phase ≠ .waiting ∨ ((l.take k).any fun x => x.phase == .waiting && mayRun s x) ∨ 32 ≤ runningOn s d ∨ !mayRun s c ∨ !engineClocked s g then .next s
    else
      let c := { c with phase := .moving, sentAt := s.cycle.toNat }
      let s := modCommand s g c.id fun _ => c
      match c.kind with
      | .copy => .next (if c.len = 0 then concludeCmd s g c else s)
      | _ => .next s

/-- The remote atomic of a command, as it stands at its home. -/
def ratomNote (s : State) (g home : Nat) (c : EngCmd) (ao : AtomOp) (ord : Ord) (four : Bool) (expected : Word) : RatomNote :=
  { src := gcoreOf s.cfg.package g, home := home, tid := c.tid, seq := (s.core g).atomSeq, sc := ord == .sc,
    ea := homeForm s g c.dst, op := ao, four := four, operand := c.operand, expected := expected, old := 0, status := 0,
    faulted := false }

/-- Whether an earlier remote atomic of the same thread to the same home die is still to leave (R251). -/
def atomAhead (s : State) (c : EngCmd) (home : Nat) : Bool :=
  (s.cores.any fun e => e.2.engine.any fun x =>
    x.tid == c.tid && decide (x.id < c.id) && (x.phase == .waiting || x.phase == .moving) &&
      match x.kind with
      | .ratom .. => (placeOf s e.1 x.dst).bind (placeDie s) == some home
      | _ => false)

/-- A remote atomic's request leaves for its home (R187, R234, R251): on its own die at once, to another on the class-1 flow; request s + 64 of a source not
before the response to s. -/
def sendAtomic (s : State) (g : Nat) (c : EngCmd) (ao : AtomOp) (ord : Ord) (four : Bool) (expected : Word) : State :=
  match (placeOf s g c.dst).bind (placeDie s) with
  | none => s
  | some home =>
    let r := ratomNote s g home c ao ord four expected
    let out := (s.core g).engine.filter fun x => x.phase == .answers 1 && (match x.kind with
      | .ratom .. => (placeOf s g x.dst).bind (placeDie s) == some home
      | _ => false)
    if 64 ≤ out.length ∨ out.any fun x => decide (x.len + 64 ≤ r.seq) then s
    else if stillOpen s c.after || atomAhead s c home then s
    else if !ownPackage s home && (!linkOpen s (home / 8) || retopoHolds s (home / 8)) then s
    else
      let s := s.modCore g fun x => { x with atomSeq := x.atomSeq + 1 }
      let s := modCommand s g c.id fun _ => { c with phase := .answers 1, len := r.seq }
      let keep (s : State) : State := s.modNet fun n => { n with ratoms := n.ratoms ++ [r] }
      if home = engineDie s g then keep s
      else
        let s := if ownPackage s home then s else keep s
        sendFromThread s c.tid (engineDie s g) home 1 (.atomic c.tid r.ea ao four (ord == .sc) c.operand expected r.src r.seq)

/-- The other package a place lies in. -/
def farPackage (p : Option HomePlace) : Option Nat :=
  match p with
  | some (.far x) => some (x / 8)
  | _ => none

/-- Whether a link takes what an engine sends to a place now (R283, R289, R290). -/
def linkTakes (s : State) (p : Option HomePlace) : Bool :=
  match farPackage p with
  | some pkg => linkOpen s pkg && !retopoHolds s pkg
  | none => true

/-- The other package a command's elements are written to; a reduction's data leave as one contribution. -/
def farTarget (s : State) (g : Nat) (c : EngCmd) (e : Nat) : Option Nat :=
  match c.kind with
  | .copyr .. => none
  | _ => farPackage (placeOf s g (dstOf s g c e))

/-- Whether the source word of an element is asked for already, or may be (R289, R290). -/
def sourceOpen (s : State) (g : Nat) (c : EngCmd) (e : Nat) : Bool :=
  let r := firstOf s g c e
  setHas c.asked (2 * r) || setHas c.asked (2 * r + 1) || linkTakes s (placeOf s g (srcOf s g c e))

/-- Whether a batch of elements may move now: elements of one chunk, rising, none moved before; to another package all that is left of the chunk, over an
open link; from another package while a link takes the request (R181, R289, R290, R338; log entry 78). -/
def batchOk (s : State) (g : Nat) (c : EngCmd) (batch : List Nat) : Bool :=
  match batch with
  | [] => false
  | e :: _ =>
    let k := c.chunk e
    (batch.all fun i => decide (i < c.count) && c.chunk i == k && !setHas c.moved i && sourceOpen s g c i) && batch.Pairwise (· < ·) &&
      match farTarget s g c e with
      | some pkg => batch == ((c.chunkElems k).filter fun i => !setHas c.moved i) && linkOpen s pkg && !retopoHolds s pkg
      | none => true

/-- Whether a command's data for another package leave as one write item a chunk: all but a scatter's (R338). -/
def wholeChunk (s : State) (g : Nat) (c : EngCmd) (e : Nat) : Bool :=
  (farTarget s g c e).isSome && match c.kind with
  | .gath scat _ _ => !scat
  | _ => true

/-- A batch of elements moved, what stopped it dealt with, and the command concluded when nothing is left (R181; log entry 66): a chunk for another package
leaves whole or, where data are still to come or a fault stops it, not at all (R338). -/
def moveBatch (s : State) (g : Nat) (c : EngCmd) (batch : List Nat) : Moving :=
  let m := batch.foldl (moveElem g) { s := s, c := c, run := none, stop := none }
  if wholeChunk s g c (batch.headD 0) && batch.any fun e => !setHas m.c.moved e then { m with run := none, c := { m.c with moved := c.moved } }
  else sendRun m g

/-- The contribution of a reduction sent to the destination's engines once it is read whole (R186); toward another package it waits in its engine until
a link carries it there (R283, R289, R290). -/
def sendContribution (s : State) (g : Nat) (c : EngCmd) (op : CopyrOp) (tag : BitVec 16) : State :=
  match s.launch? c.launch, (placeOf s g c.dst).bind (placeDie s) with
  | some l, some home =>
    if !ownPackage s home && (!linkOpen s (home / 8) || retopoHolds s (home / 8)) then modCommand s g c.id fun _ => c
    else
    let (mask, ranks) := l.rplan.getD (0, [])
    let job := l.desc.job != 0
    let own := engineDie s g
    let x : Contribution :=
      { job := job, group := if job then l.desc.job else c.launch, die := own, core := g, cmd := c.id, tid := c.tid, op := op,
        dst := homeForm s g c.dst, len := c.len, mask := mask, ranks := ranks,
        dies := (l.dies.filter fun d => mask / 2 ^ d % 2 == 1).foldl (fun n d => n + 2 ^ d) 0, data := c.buf.bytes 0 c.len, tag := tag }
    let s := modCommand s g c.id fun _ => { c with phase := .answers 1, buf := [] }
    if home = own then s.modNet fun n => { n with contributions := n.contributions ++ [x] }
    else sendItem s own home 0 (.contribution x.job x.group g c.id c.tid op tag x.dst c.len mask ranks x.dies x.data)
  | _, _ => modCommand s g c.id fun _ => { c with phase := .finished, status := 0x41 }

/-- What follows a batch: a fault reported once, an end with ACCESS, or the conclusion of a command that has moved everything. -/
def afterBatch (m : Moving) (g : Nat) : State :=
  let put (s : State) (c : EngCmd) : State := modCommand s g c.id fun _ => c
  match m.stop with
  | some .refused => conclude m.s g { m.c with status := 0x41 }
  | some .uncorr => put m.s m.c
  | some (.fault d off w) =>
    if m.c.faulted then put m.s m.c
    else if m.c.host.isSome then
      let (s, told) := reportEngine (put m.s { m.c with entry := none }) 0 0 d off w (some (g, m.c.id))
      modCommand s g m.c.id fun c => { c with faulted := told }
    else
      let (s, told) := reportEngine m.s m.c.tid g d off w none
      put s { m.c with faulted := told }
  | none =>
    let c := { m.c with faulted := false }
    if c.moved.length < c.count then put m.s c
    else
      match c.kind with
      | .copyr op tag => sendContribution m.s g c op tag
      | _ => concludeCmd m.s g c

/-- One chunk of a multicast on its path (R189, R335): one write item for every peer; after the last, what its completion needs. -/
def moveCast (s : State) (g : Nat) (c : EngCmd) (path : Nat) (batch : List Nat) : State :=
  let read := batch.foldl
    (fun (acc : Moving × List Byte) e =>
      if acc.1.stop.isSome then acc
      else
        let ea := srcOf acc.1.s g c e
        match placeOf acc.1.s g ea with
        | some pl =>
          if placeMet acc.1.s pl 8 then
            ({ acc.1 with s := engineMet acc.1.s g c.tid ea, c := { acc.1.c with uncorr := true }, stop := some .uncorr }, acc.2)
          else
          (match readAt acc.1.s c.issuer c.srcChecked pl ea 8 with
           | .done s bs => ({ acc.1 with s := s }, acc.2 ++ bs)
           | .fault s d off => ({ acc.1 with s := s, stop := some (.fault d off false) }, acc.2)
           | .refused => ({ acc.1 with stop := some .refused }, acc.2))
        | none => ({ acc.1 with stop := some .refused }, acc.2))
    (({ s := s, c := c, run := none, stop := none } : Moving), ([] : List Byte))
  match read.1.stop with
  | some _ => afterBatch read.1 g
  | none =>
    let first := c.dst + BitVec.ofNat 64 (8 * batch.headD 0)
    let s := castItem read.1.s g path (podDieOf c.dst % 8) c fun q => .write c.tid g c.id (atPeer first q) read.2
    let c := { c with moved := batch.foldl setAdd c.moved, faulted := false }
    if c.moved.length < c.count then modCommand s g c.id fun _ => c else concludeCast s g path c

/-- Whether some elements of a command's chunk are moved and others are not. -/
def midChunk (c : EngCmd) : Bool := c.moved.any fun e => (c.chunkElems (c.chunk e)).any fun i => !setHas c.moved i

/-- Whether a command of a launch that is being pre-empted goes on, to the end of the chunk it stands in (R252, R295). -/
def mayFinish (s : State) (c : EngCmd) (batch : List Nat) : Bool :=
  match s.launch? c.launch with
  | some l =>
    (match l.phase with
     | .preempting .. => c.host.isNone && batch.any fun i => c.moved.any fun e => c.chunk e == c.chunk i
     | _ => false)
  | none => false

/-- A command as it goes on: of a host COPY that has faulted, once its entry is returned (R306). -/
def EngCmd.retried (c : EngCmd) : EngCmd := if c.host.isSome then { c with faulted := false, entry := none } else c

/-- A batch moved: the lines of its writes on the own die left wholly 0 and full become zero lines (R221). -/
def chunkMoved (s : State) (g : Nat) (c : EngCmd) (batch : List Nat) : State :=
  let m := moveBatch s g c batch
  let whole := m.stop.isNone && batch == (List.range batch.length).map fun i => batch.headD 0 + i
  let dense := match c.kind with
    | .copy => true
    | .gath scat _ _ => !scat
    | _ => false
  match placeOf s g (dstOf s g c (batch.headD 0)) with
  | some (.global d off) =>
    let m := if dense && whole && s.cfg.package * 8 + d == engineDie s g then { m with s := zeroLines m.s d off (c.size * batch.length) } else m
    afterBatch m g
  | _ => afterBatch m g

/-- The rounds and items of a command that wait for a page the fault service declares unserviceable end with ACCESS (R181): its stuck writes and reads
in the package, its remote atomic, the round it contributes to, or the command itself at its chunk (log entry 94). -/
def declareGone (s : State) (g : Nat) (c : EngCmd) : State :=
  let mine (y : Stuck) : Bool := y.told && ownPackage s y.item.src && (match y.item.body with
    | .write _ core cmd .. | .read _ _ _ core cmd _ => core == g && cmd == c.id
    | _ => false)
  let stuck := s.dies.flatMap fun e => e.2.stuck.filter mine
  match c.phase, c.kind with
  | .moving, _ =>
    if c.faulted then conclude s g { c with status := 0x41 } else drop mine stuck
  | .answers _, .ratom .. =>
    { s with net := { s.net with ratoms := s.net.ratoms.map fun r =>
        if (r.src == gcoreOf s.cfg.package g && r.seq == c.len && r.faulted) = true then { r with status := 0x41 } else r } }
  | .answers _, .copyr .. =>
    { s with net := { s.net with rounds := s.net.rounds.map fun r =>
        if (r.1 && r.2.any fun x => x.core == g && x.cmd == c.id) = true then (r.1, r.2.map fun x => { x with data := [] }) else r } }
  | _, _ => drop mine stuck
where
  drop (mine : Stuck → Bool) (stuck : List Stuck) : State :=
    let s := stuck.foldl
      (fun s y => match y.item.body with
        | .write _ _ cmd .. => s.modFlow y.item.src y.item.dst y.item.cls fun f => { f with bad := setAdd f.bad cmd }
        | .read _ _ _ core cmd elem => sendReply s y.item.dst y.item.src (.readData core cmd elem none)
        | _ => s) s
    { s with dies := s.dies.map fun e => (e.1, { e.2 with stuck := e.2.stuck.filter fun x => !mine x }) }

/-- ENGINE_CHUNK (R181, R247, R248): a running command moves the given elements of one chunk, or, a remote atomic, sends its request; a
multicast sends one whole chunk while its path carries items (R189, R333). With no element given, the fault service has declared the address at which
the command has faulted unserviceable (R181; log entry 94). -/
def execEngineChunk (g k : Nat) (moved : List Nat) (s : State) : Out :=
  match (engineOf s g)[k]? with
  | none => .next s
  | some c =>
    if !engineClocked s g || !(mayRun s c || mayFinish s c moved) then .next s
    else if moved.isEmpty && (match c.kind with
        | .ratom .. => c.phase != .moving
        | .copyr .. | .mcast _ => c.faulted || c.moved.length < c.count || c.phase != .moving
        | _ => true) then .next (declareGone s g c)
    else if c.phase ≠ .moving then .next s
    else if c.uncorr then .next (conclude s g { c with status := 0x40 })
    else if c.status ≥ 0x40 then .next (conclude s g c)
    else if c.host.isSome && c.faulted && !entryReturned s c.entry then .next s
    else if (wordsMet c).isSome then
      .next (modCommand (engineMet s g c.tid (c.operand + BitVec.ofNat 64 (4 * (wordsMet c).getD 0))) g c.id fun c => { c with uncorr := true })
    else
      let c := indexed s g c moved
      match c.kind with
      | .ratom ao ord four expected => .next (sendAtomic s g c ao ord four expected)
      | .mcast path =>
        (match moved with
         | e :: _ =>
           if castRoom s g path (podDieOf c.dst % 8) 1 (itemFlits (8 * moved.length)) && pathOpen (s.path path) && peersReached s (s.path path) && moved == c.chunkElems (c.chunk e) && !setHas c.moved e && decide (e < c.count) &&
               !((pathPeers s (s.path path)).any fun q => retopoHolds s q) && batchReady s g c moved then
             .next (moveCast s g c path moved)
           else .next s
         | [] => .next (concludeCast s g path c))
      | .copyr op tag =>
        if c.moved.length = c.count then .next (sendContribution s g c op tag)
        else if batchOk s g c moved && batchReady s g c moved then .next (chunkMoved s g c moved) else .next s
      | _ => if batchOk s g c moved && batchReady s g c moved then .next (chunkMoved s g c.retried moved) else .next s
where
  /-- the first element of the batch whose index word, to be read now, holds an uncorrectable error (R299) -/
  wordsMet (c : EngCmd) : Option Nat := (unindexed c moved).find? fun i => (wordMet (s.core g).errors (c.operand.toNat + 4 * i) 4).isSome

/-! ### Remote atomics (R187, R251) -/

/-- Whether an earlier request is to the same word. -/
def sameWord (a b : RatomNote) : Bool := a.home == b.home && a.ea.toNat / 8 == b.ea.toNat / 8

/-- A response put on its way back. -/
def respond (s : State) (r : RatomNote) (old : Word) (status : Nat) : State :=
  let x := r.src / 2048
  if x = s.cfg.package then s.modNet fun n => { n with responses := n.responses ++ [{ r with old := old, status := status }] }
  else sendReply s r.home (r.src / 256) (.atomicReply r.src r.seq old status)

/-- The home's deduplication cache with one more request recorded: an entry of the source is kept until its 64th successor (R251). -/
def recordAtomic (s : State) (r : RatomNote) (old : Word) (status : Nat) : State :=
  s.modDie (r.home % 8) fun d =>
    { d with dedup := (d.dedup.filter fun e => !(e.src == r.src && decide (e.seq + 64 ≤ r.seq))) ++
        [{ src := r.src, seq := r.seq, old := old, status := status }] }

/-- RATOM_REQUEST (R130, R187): the atomic is performed at its home in one step, at most once; a replayed request gets the recorded answer, and
one whose page is absent waits there (R225), until the fault service declares the address unserviceable (R181; log entry 94). DESIGN CHOICE: a die in P3
executes nothing (R2); its threads, engines, matrix and reductions stop, while what others ask of it goes on: its slices, its L-stores, atomics, item
delivery and trap entry (log entry 110). -/
def execRatomRequest (k : Nat) (s : State) : Out :=
  match s.net.ratoms[k]? with
  | none => .next s
  | some r =>
    if !ownPackage s r.home || (s.net.ratoms.take k).any (sameWord r) then .next s
    else
      let s' := s.modNet fun n => { n with ratoms := dropIx n.ratoms k }
      match (s.die (r.home % 8)).dedup.find? fun e => e.src == r.src && e.seq == r.seq with
      | some e => .next (respond s' r e.old e.status)
      | none =>
        let who : Issuer := if r.src / 2048 = s.cfg.package then .launch (tidLaunch r.tid) else .foreign
        let n := if r.four then 4 else 8
        let refuse : Out := .next (respond (recordAtomic s' r 0 0x41) r 0 0x41)
        match placeOf s 0 r.ea with
        | some p =>
          let barred := match p with
            | .lstore g off => !mayUse s who g off n true true
            | _ => false
          if barred || r.status = 0x41 then refuse
          else if placeMet s p n then
            .next (respond (recordAtomic (engineMet s' (r.src % 2048) r.tid r.ea) r 0 0x40) r 0 0x40)
          else if !placeReady s (some p) n true then .next s
          else
            let hole := match p with
              | .global d off => if (unmapped s d off n true).isSome || (unmapped s d off n false).isSome then some (d, off) else none
              | _ => none
            match hole with
            | some (d, off) =>
              if r.faulted then .next s
              else
                let (s, told) := reportEngine s r.tid (r.src % 2048) d off true none
                .next (s.modNet fun n => { n with ratoms := setIx n.ratoms k { r with faulted := told } })
            | none =>
              (match readAt s' who true p r.ea n with
               | .done s' bs =>
                 let old := leWord bs
                 let x := atomValue r.op (!r.four) old (r.operand.zext (8 * n)) r.expected
                 let s' := match p with
                   | .lstore g off => lwrite s' g off (wordLE x.1 n)
                   | .global d off => (dieWrite s' d off (wordLE x.1 n) false).1
                   | _ => s'
                 let status := x.2.toNat &&& 0x16
                 .next (respond (recordAtomic s' r old status) r old status)
               | _ => refuse)
        | none => refuse

/-- RATOM_RESPONSE (R187): the token pair is written and the command complete. -/
def execRatomResponse (k : Nat) (s : State) : Out :=
  match s.net.responses[k]? with
  | none => .next s
  | some r =>
    let held := s
    let s := s.modNet fun n => { n with responses := dropIx n.responses k }
    let g := r.src % 2048
    let mine (c : EngCmd) : Bool := c.phase == .answers 1 && c.len == r.seq && (match c.kind with
      | .ratom .. => true
      | _ => false)
    match (engineOf s g).find? mine with
    | some c =>
      if mayRun s c then .next (retireCmd (landToken s { c with status := r.status, old := r.old }) g c.id) else .next held
    | none => .next s

/-- ATOMIC_TIMEOUT (R187, R283): a remote atomic whose home has been out of reach for the timeout ends INDETERMINATE, with an event record. -/
def execAtomicTimeout (g k : Nat) (s : State) : Out :=
  match (engineOf s g)[k]? with
  | none => .next s
  | some c =>
    match c.kind, placeOf s g c.dst with
    | .ratom .., some (.far x) =>
      let started := c.phase == .moving || c.phase == .answers 1
      if started && mayRun s c && c.cut && decide (c.sentAt + 2000 * s.host.atomTimeout ≤ s.cycle.toNat) then
        let src := gcoreOf s.cfg.package g
        let s := s.modNet fun n =>
          { n with ratoms := n.ratoms.filter fun r => !(r.src == src && r.seq == c.len && r.home == x && c.phase == .answers 1) }
        let s := emit s 0x0031 (g / 256) (g % 256) c.tid [c.dst, BitVec.ofNat 64 c.len]
        .next (retireCmd (landToken s { c with status := 0x48, old := 0 }) g c.id)
      else .next s
    | _, _ => .next s

/-! ### Reductions (R186, R250) -/

/-- The key of a reduction: job or launch, tag, destination. -/
def Contribution.key (c : Contribution) : Bool × Nat × Nat × Word := (c.job, c.group, c.tag.toNat, c.dst)

/-- Whether contributions held under one key make the round complete (R186; log entry 54): of every package that a plan among them names, every die that
belongs to that package's launch and to the mask has contributed, as the contributions of that package say. -/
def roundComplete (l : List Contribution) : Bool :=
  l.all fun c => c.ranks.all fun p =>
    let here := l.filter fun x => x.die / 8 == p
    !here.isEmpty && here.all fun x => (List.range 8).all fun d =>
      x.dies / 2 ^ d % 2 == 0 || l.any fun y => y.die == p * 8 + d

/-- Whether a reduction waits: its launch here, or the job's, is not live; what is held for it stays held (R252). -/
def roundHeld (s : State) (c : Contribution) : Bool :=
  s.launches.any fun e => (if c.job then e.2.desc.job == c.group else c.die / 8 == s.cfg.package && e.1 == c.group) && e.2.phase != .live

/-- REDUCTION_CONTRIBUTION (R186): a contribution joins its reduction at the destination die, unless its die has one there already or the die
holds 64 other reductions; the last one needed makes the round ready. -/
def execReductionContribution (k : Nat) (s : State) : Out :=
  match s.net.contributions[k]? with
  | none => .next s
  | some c =>
    let d := podDieOf c.dst % 8
    let held := (s.die d).contributions
    let mine := held.filter fun x => x.key == c.key
    let keys := ((held.filter fun x => !roundHeld s x).map (·.key)).eraseDups
    if ((s.net.contributions.take k).any fun x => x.key == c.key && x.die == c.die) || (mine.any fun x => x.die == c.die)
        || (mine.isEmpty && decide (64 ≤ keys.length)) then .next s
    else
      let s := s.modNet fun n => { n with contributions := dropIx n.contributions k }
      let all := mine ++ [c]
      if roundComplete all then
        .next ((s.modDie d fun x => { x with contributions := held.filter fun y => y.key != c.key }).modNet fun n =>
          { n with rounds := n.rounds ++ [(false, all)] })
      else .next (s.modDie d fun x => { x with contributions := held ++ [c] })

/-- The exact f32 value of element e of a contribution, a bf16 one widened (R186, R250). -/
def contributed (c : Contribution) (e : Nat) : FVal :=
  if c.op = .bf16 then decodeF .bf16 (leNat ((c.data.drop (2 * e)).take 2)) else decodeF .f32 (leNat ((c.data.drop (4 * e)).take 4))

/-- One addition of a reduction, rounded RNE to f32, with the flags it raises. -/
def reduceAdd (a b : FVal × Flags) : FVal × Flags :=
  let r := roundF .f32 .rne (addF .rne [a.1, b.1])
  (decodeF .f32 r.1, a.2 ||| b.2 ||| r.2)

/-- The maximum of a reduction, −0 below +0 (R186); a signalling NaN, which only the destination can hold here, raises NV (R41). -/
def reduceMax (a b : FVal × Flags) : FVal × Flags :=
  if a.1.isNan || b.1.isNan then
    (.nan false, a.2 ||| b.2 ||| flagIf (a.1.signal != 0 || b.1.signal != 0) flagNV)
  else if below a.1 b.1 then (b.1, a.2 ||| b.2) else (a.1, a.2 ||| b.2)

/-- An operation on two elements of which one or both may be absent (R250). -/
def pairWith (f : FVal × Flags → FVal × Flags → FVal × Flags) : Option (FVal × Flags) → Option (FVal × Flags) → Option (FVal × Flags)
  | some x, some y => some (f x y)
  | some x, none => some x
  | none, y => y

/-- The fixed pairing of a package's eight dies (R186). -/
def reducePackage (f : FVal × Flags → FVal × Flags → FVal × Flags) (v : Nat → Option (FVal × Flags)) : Option (FVal × Flags) :=
  pairWith f (pairWith f (pairWith f (v 0) (v 1)) (pairWith f (v 2) (v 3)))
    (pairWith f (pairWith f (v 4) (v 5)) (pairWith f (v 6) (v 7)))

/-- Whether a contribution comes from a die of its plan; any other counts as absent (R250). -/
def Contribution.planned (c : Contribution) : Bool := c.ranks.contains (c.die / 8) && c.mask / 2 ^ (c.die % 8) % 2 == 1

/-- One element of a round: the packages in rank order, then the destination's element (R186); a NaN in any contribution makes it the canonical
NaN with NV. -/
def reduceElem (cs : List Contribution) (op : CopyrOp) (ranks : List Nat) (old : Nat) (e : Nat) : Nat × Flags :=
  let f := if op = .max then reduceMax else reduceAdd
  let cs := cs.filter (·.planned)
  let value (p d : Nat) : Option (FVal × Flags) := (cs.find? fun c => c.die == p * 8 + d).map fun c => (contributed c e, 0)
  if cs.any fun c => (contributed c e).isNan then (nanOf .f32, flagNV)
  else
    let sum := ranks.foldl (fun acc p => pairWith f acc (reducePackage f (value p))) none
    match sum with
    | none => (old, 0)
    | some x =>
      let r := f (decodeF .f32 old, 0) x
      let c := encodeF .f32 .rne r.1
      (c.1, r.2)

/-- Whether the contributions of a round agree (R186). -/
def roundAgrees : List Contribution → Bool
  | [] => true
  | c :: cs => cs.all fun x => x.op == c.op && x.len == c.len && x.mask == c.mask && x.ranks == c.ranks

/-- The end of a round told to every contributor: its command's status, on its own die or by a token item (R186, R234). -/
def endRound (s : State) (cs : List Contribution) (status : Nat) : State :=
  cs.foldl
    (fun s c =>
      let home := podDieOf c.dst
      if c.die = home then modCommand s c.core c.cmd fun x => { x with status := status, phase := .finished }
      else sendItem s home c.die 0 (.token c.core c.cmd status))
    s

/-- REDUCTION_ROUND (R186, R250, R252): while its launch here is not live, or its die stands in P3 (R2), it waits, its contributions held; then the destination is written once with every element reduced, or stays as it is on a mismatch; every contributor
learns the status. -/
def execReductionRound (k : Nat) (s : State) : Out :=
  match s.net.rounds[k]? with
  | none => .next s
  | some (told, cs) =>
    let done := s.modNet fun n => { n with rounds := dropIx n.rounds k }
    match cs with
    | [] => .next done
    | c :: _ =>
      if roundHeld s c ∨ 2 < (s.die (podDieOf c.dst % 8)).power then .next s
      else if cs.any fun x => x.data.isEmpty then .next (endRound done cs 0x41)
      else if !roundAgrees cs then .next (endRound done cs 0x47)
      else
        let n := reducedBytes c.op c.len
        let who : Issuer := if c.die / 8 = s.cfg.package then .launch (tidLaunch c.tid) else .foreign
        match placeOf s 0 c.dst with
        | none => .next (endRound done cs 0x41)
        | some p =>
          let barred := match p with
            | .lstore g off => !mayUse s who g off n true true
            | _ => false
          if barred then .next (endRound done cs 0x41)
          else if placeMet s p n then .next (endRound (engineMet done (c.core % 2048) c.tid c.dst) cs 0x40)
          else if !placeReady s (some p) n true then .next s
          else
            match readAt s who true p c.dst n with
            | .done s1 bs =>
              let hole := match p with
                | .global d off => (unmapped s1 d off n true).map fun o => (d, o)
                | _ => none
              (match hole with
               | some (d, o) =>
                 if told then .next s
                 else
                   let (s, ok) := reportEngine s c.tid (c.core % 2048) d o true none
                   .next (s.modNet fun n => { n with rounds := setIx n.rounds k (ok, cs) })
               | none =>
                 let out := (List.range (n / 4)).map fun e => reduceElem cs c.op c.ranks (leNat ((bs.drop (4 * e)).take 4)) e
                 let bytes := out.flatMap fun x => natLE x.1 4
                 let status := (out.foldl (fun f x => f ||| x.2) (0 : Flags)).toNat &&& 0x34
                 match writeAt done who true p c.dst bytes with
                 | .done s _ => .next (endRound s cs status)
                 | _ => .next s)
            | .fault s1 d o =>
              if told then .next s
              else
                let (s, ok) := reportEngine s1 c.tid (c.core % 2048) d o false none
                .next (s.modNet fun n => { n with rounds := setIx n.rounds k (ok, cs) })
            | .refused => .next (endRound done cs 0x41)

end Sys2Proof.Machine
end

