-- ==== Sys2Proof/Machine/Sfu.lean ====
section
/-! DEFINITION. The special-function unit (spec/03 R51 to R53) and LSE2 (R54): tables and coefficients as the f32 values nearest the
exact reals R52 names, and the fixed algorithm over f32 codes. -/

namespace Sys2Proof.Machine

/-- T[j], nearest to 2^(j/64) (R52). -/
def tableT : List Nat :=
  [0x3F800000, 0x3F8164D2, 0x3F82CD87, 0x3F843A29, 0x3F85AAC3, 0x3F871F62, 0x3F88980F, 0x3F8A14D5,
   0x3F8B95C2, 0x3F8D1ADF, 0x3F8EA43A, 0x3F9031DC, 0x3F91C3D3, 0x3F935A2B, 0x3F94F4F0, 0x3F96942D] ++
  [0x3F9837F0, 0x3F99E046, 0x3F9B8D3A, 0x3F9D3EDA, 0x3F9EF532, 0x3FA0B051, 0x3FA27043, 0x3FA43516,
   0x3FA5FED7, 0x3FA7CD94, 0x3FA9A15B, 0x3FAB7A3A, 0x3FAD583F, 0x3FAF3B79, 0x3FB123F6, 0x3FB311C4] ++
  [0x3FB504F3, 0x3FB6FD92, 0x3FB8FBAF, 0x3FBAFF5B, 0x3FBD08A4, 0x3FBF179A, 0x3FC12C4D, 0x3FC346CD,
   0x3FC5672A, 0x3FC78D75, 0x3FC9B9BE, 0x3FCBEC15, 0x3FCE248C, 0x3FD06334, 0x3FD2A81E, 0x3FD4F35B] ++
  [0x3FD744FD, 0x3FD99D16, 0x3FDBFBB8, 0x3FDE60F5, 0x3FE0CCDF, 0x3FE33F89, 0x3FE5B907, 0x3FE8396A,
   0x3FEAC0C7, 0x3FED4F30, 0x3FEFE4BA, 0x3FF28177, 0x3FF5257D, 0x3FF7D0DF, 0x3FFA83B3, 0x3FFD3E0C]

/-- L[j], nearest to log2(1 + j/64) (R52). -/
def tableL : List Nat :=
  [0x00000000, 0x3CB73CB4, 0x3D35D69C, 0x3D8759C5, 0x3DB31FB8, 0x3DDE4212, 0x3E0462C4, 0x3E19574F,
   0x3E2E00D2, 0x3E42615F, 0x3E567AF1, 0x3E6A4F72, 0x3E7DE0B6, 0x3E88983F, 0x3E92203D, 0x3E9B8926] ++
  [0x3EA4D3C2, 0x3EAE00D2, 0x3EB7110E, 0x3EC0052B, 0x3EC8DDD4, 0x3ED19BB0, 0x3EDA3F60, 0x3EE2C97D,
   0x3EEB3A9F, 0x3EF39355, 0x3EFBD42B, 0x3F01FED4, 0x3F060828, 0x3F0A0650, 0x3F0DF989, 0x3F11E20F] ++
  [0x3F15C01A, 0x3F1993E3, 0x3F1D5DA0, 0x3F211D84, 0x3F24D3C2, 0x3F28808C, 0x3F2C2411, 0x3F2FBE80,
   0x3F335004, 0x3F36D8CB, 0x3F3A58FF, 0x3F3DD0C8, 0x3F41404F, 0x3F44A7BA, 0x3F480731, 0x3F4B5ED7] ++
  [0x3F4EAED0, 0x3F51F740, 0x3F553848, 0x3F587209, 0x3F5BA4A4, 0x3F5ED039, 0x3F61F4E5, 0x3F6512C7,
   0x3F6829FB, 0x3F6B3A9F, 0x3F6E44CD, 0x3F7148A1, 0x3F744636, 0x3F773DA4, 0x3F7A2F04, 0x3F7D1A71]

/-- R[j], nearest to 64 / (64 + j) (R52). -/
def tableR : List Nat :=
  [0x3F800000, 0x3F7C0FC1, 0x3F783E10, 0x3F74898D, 0x3F70F0F1, 0x3F6D7304, 0x3F6A0EA1, 0x3F66C2B4,
   0x3F638E39, 0x3F607038, 0x3F5D67C9, 0x3F5A740E, 0x3F579436, 0x3F54C77B, 0x3F520D21, 0x3F4F6475] ++
  [0x3F4CCCCD, 0x3F4A4588, 0x3F47CE0C, 0x3F4565C8, 0x3F430C31, 0x3F40C0C1, 0x3F3E82FA, 0x3F3C5264,
   0x3F3A2E8C, 0x3F381703, 0x3F360B61, 0x3F340B41, 0x3F321643, 0x3F302C0B, 0x3F2E4C41, 0x3F2C7692] ++
  [0x3F2AAAAB, 0x3F28E83F, 0x3F272F05, 0x3F257EB5, 0x3F23D70A, 0x3F2237C3, 0x3F20A0A1, 0x3F1F1166,
   0x3F1D89D9, 0x3F1C09C1, 0x3F1A90E8, 0x3F191F1A, 0x3F17B426, 0x3F164FDA, 0x3F14F209, 0x3F139A86] ++
  [0x3F124925, 0x3F10FDBC, 0x3F0FB824, 0x3F0E7835, 0x3F0D3DCB, 0x3F0C08C1, 0x3F0AD8F3, 0x3F09AE41,
   0x3F088889, 0x3F0767AB, 0x3F064B8A, 0x3F053408, 0x3F042108, 0x3F03126F, 0x3F020821, 0x3F010204]

/-- S[j], nearest to 1 / sqrt w0 (R52). -/
def tableS : List Nat :=
  [0x3F800000, 0x3F7C1764, 0x3F785B42, 0x3F74C867, 0x3F715BEF, 0x3F6E133E, 0x3F6AEBF5, 0x3F67E3ED,
   0x3F64F92E, 0x3F6229ED, 0x3F5F7483, 0x3F5CD76E, 0x3F5A514A, 0x3F57E0CF, 0x3F5584CD, 0x3F533C2E] ++
  [0x3F5105EC, 0x3F4EE116, 0x3F4CCCCD, 0x3F4AC83F, 0x3F48D2AB, 0x3F46EB5A, 0x3F4511A3, 0x3F4344E6,
   0x3F41848F, 0x3F3FD012, 0x3F3E26EB, 0x3F3C889F, 0x3F3AF4BA, 0x3F396ACE, 0x3F37EA74, 0x3F36734A] ++
  [0x3F3504F3, 0x3F32416A, 0x3F2F9D53, 0x3F2D166C, 0x3F2AAAAB, 0x3F285835, 0x3F261D5F, 0x3F23F8A2,
   0x3F21E89B, 0x3F1FEC04, 0x3F1E01B3, 0x3F1C2896, 0x3F1A5FB2, 0x3F18A61F, 0x3F16FB06, 0x3F155DA2] ++
  [0x3F13CD3A, 0x3F124925, 0x3F10D0C3, 0x3F0F6381, 0x3F0E00D5, 0x3F0CA83F, 0x3F0B5948, 0x3F0A137D,
   0x3F08D677, 0x3F07A1D2, 0x3F067532, 0x3F05503E, 0x3F0432A5, 0x3F031C1A, 0x3F020C52, 0x3F01030A]

/-- Q[j], nearest to 1 / w0 (R52). -/
def tableQ : List Nat :=
  [0x3F800000, 0x3F783E10, 0x3F70F0F1, 0x3F6A0EA1, 0x3F638E39, 0x3F5D67C9, 0x3F579436, 0x3F520D21,
   0x3F4CCCCD, 0x3F47CE0C, 0x3F430C31, 0x3F3E82FA, 0x3F3A2E8C, 0x3F360B61, 0x3F321643, 0x3F2E4C41] ++
  [0x3F2AAAAB, 0x3F272F05, 0x3F23D70A, 0x3F20A0A1, 0x3F1D89D9, 0x3F1A90E8, 0x3F17B426, 0x3F14F209,
   0x3F124925, 0x3F0FB824, 0x3F0D3DCB, 0x3F0AD8F3, 0x3F088889, 0x3F064B8A, 0x3F042108, 0x3F020821] ++
  [0x3F000000, 0x3EF83E10, 0x3EF0F0F1, 0x3EEA0EA1, 0x3EE38E39, 0x3EDD67C9, 0x3ED79436, 0x3ED20D21,
   0x3ECCCCCD, 0x3EC7CE0C, 0x3EC30C31, 0x3EBE82FA, 0x3EBA2E8C, 0x3EB60B61, 0x3EB21643, 0x3EAE4C41] ++
  [0x3EAAAAAB, 0x3EA72F05, 0x3EA3D70A, 0x3EA0A0A1, 0x3E9D89D9, 0x3E9A90E8, 0x3E97B426, 0x3E94F209,
   0x3E924925, 0x3E8FB824, 0x3E8D3DCB, 0x3E8AD8F3, 0x3E888889, 0x3E864B8A, 0x3E842108, 0x3E820821]

/-- ln 2 (R52). -/
def coefC1 : Nat := 0x3F317218

/-- (ln 2)^2 / 2 (R52). -/
def coefC2 : Nat := 0x3E75FDF0

/-- (ln 2)^3 / 6 (R52). -/
def coefC3 : Nat := 0x3D635847

/-- 1 / ln 2 (R52). -/
def coefD1 : Nat := 0x3FB8AA3B

/-- -1 / (2 ln 2) (R52). -/
def coefD2 : Nat := 0xBF38AA3B

/-- 1 / (3 ln 2) (R52). -/
def coefD3 : Nat := 0x3EF6384F

/-! ### f32 steps (R51) -/

/-- The value of an f32 code. -/
def val32 (c : Nat) : FVal := decodeF .f32 c

/-- A value rounded RNE to an f32 code. -/
def code32 (v : FVal) : Nat := (encodeF .f32 .rne v).1

/-- a + b rounded once, with its flags. -/
def add32 (a b : Nat) : Nat × Flags := roundF .f32 .rne (addF .rne [val32 a, val32 b])

/-- a * b rounded once. -/
def mul32 (a b : Nat) : Nat := code32 (mulF (val32 a) (val32 b)).1

/-- a * b + c rounded once, a given exactly. -/
def fmaExact (a b : FVal) (c : Nat) : Nat := code32 (addF .rne [(mulF a b).1, val32 c]).1

/-- a * b + c rounded once. -/
def fma32 (a b c : Nat) : Nat := fmaExact (val32 a) (val32 b) c

/-- +1.0. -/
def one32 : Nat := 0x3F800000

/-- -1.0. -/
def minusOne32 : Nat := 0xBF800000

/-- +infinity. -/
def inf32 : Nat := 0x7F800000

/-- -infinity. -/
def minusInf32 : Nat := 0xFF800000

/-- The canonical NaN. -/
def nan32 : Nat := 0x7FC00000

/-- The last step, y times 2^k rounded once, with the flags of R53: NX for every finite result but the exact cases, and UF with it where
the result is tiny. -/
def lastStep (y : FVal) (exact : Bool) : Nat × Flags :=
  let r := encodeF .f32 .rne y
  let ex := r.1 / 2 ^ 23 % 256
  (r.1, r.2 ||| flagIf (ex != 255 && !exact) (flagNX ||| flagIf (ex == 0) flagUF))

/-- fexp2 of an f32 code (R51, R53). -/
def fexp2Code (x : Nat) : Nat × Flags :=
  match val32 x with
  | .nan sig => (nan32, flagIf sig flagNV)
  | .inf n => (if n then 0 else inf32, 0)
  | .num neg m e =>
    let v := FVal.num neg m e
    if m = 0 then (one32, 0)
    else if cmpF v (ofInt 128) ≠ some .lt then (inf32, flagOF ||| flagNX)
    else if cmpF v (ofInt (-150)) = some .lt then (0, flagUF ||| flagNX)
    else
      -- x as a count of 2^-sh
      let sh := (-e).toNat
      let xi : Int := (if neg then -1 else 1) * ((m * 2 ^ e.toNat : Nat) : Int)
      let n := xi / 2 ^ sh
      let rem := (xi % 2 ^ sh).toNat
      let j := rem * 64 / 2 ^ sh
      let r := FVal.num false (rem * 64 - j * 2 ^ sh) (-(sh : Int) - 6)
      let p := fmaExact (val32 (fmaExact (val32 (fmaExact (val32 coefC3) r coefC2)) r coefC1)) r one32
      let y := mul32 (tableT.getD j 0) p
      lastStep ((val32 y).scale n) (rem == 0 && decide (-126 ≤ n ∧ n ≤ 127))

/-- flog2 of an f32 code (R51, R53). -/
def flog2Code (x : Nat) : Nat × Flags :=
  match val32 x with
  | .nan sig => (nan32, flagIf sig flagNV)
  | .inf n => if n then (nan32, flagNV) else (inf32, 0)
  | .num neg m e =>
    if m = 0 then (minusInf32, flagDZ)
    else if neg then (nan32, flagNV)
    else
      let k := Nat.log2 m
      let j := (m - 2 ^ k) * 64 / 2 ^ k
      let d := FVal.num false (m * 64 - (64 + j) * 2 ^ k) (-(k : Int) - 6)
      let u := code32 (mulF d (val32 (tableR.getD j 0))).1
      let q := fma32 (fma32 coefD3 u coefD2) u coefD1
      lastStep (addF .rne [ofInt (e + k), val32 (fma32 q u (tableL.getD j 0))]).1 (m == 2 ^ k)

/-- frcp of an f32 code (R51, R53). -/
def frcpCode (x : Nat) : Nat × Flags :=
  match val32 x with
  | .nan sig => (nan32, flagIf sig flagNV)
  | .inf n => (if n then 0x80000000 else 0, 0)
  | .num neg m e =>
    if m = 0 then (if neg then minusInf32 else inf32, flagDZ)
    else
      let k := Nat.log2 m
      let ex := e + k
      let j := (m - 2 ^ k) * 64 / 2 ^ k
      let r := tableR.getD j 0
      let t := fmaExact (.num false m (-(k : Int))) (val32 r) minusOne32
      let p := fma32 (fma32 (fma32 minusOne32 t one32) t minusOne32) t one32
      let y := (val32 (mul32 r p)).scale (-ex)
      lastStep (if neg then y.neg else y) (m == 2 ^ k && decide (-126 ≤ -ex ∧ -ex ≤ 127))

/-- frsq of an f32 code (R51, R53). -/
def frsqCode (x : Nat) : Nat × Flags :=
  match val32 x with
  | .nan sig => (nan32, flagIf sig flagNV)
  | .inf n => if n then (nan32, flagNV) else (0, 0)
  | .num neg m e =>
    if m = 0 then (if neg then minusInf32 else inf32, flagDZ)
    else if neg then (nan32, flagNV)
    else
      let k := Nat.log2 m
      let ex := e + k
      let odd := ex % 2 != 0
      let w := if odd then 2 * m else m
      let half := (if odd then ex - 1 else ex) / 2
      let j := if w < 2 * 2 ^ k then (w - 2 ^ k) * 32 / 2 ^ k else 32 + (w - 2 * 2 ^ k) * 16 / 2 ^ k
      let t := fmaExact (.num false w (-(k : Int))) (val32 (tableQ.getD j 0)) minusOne32
      let p := fma32 (fma32 (fma32 0xBEA00000 t 0x3EC00000) t 0xBF000000) t one32
      lastStep ((val32 (mul32 (tableS.getD j 0) p)).scale (-half)) (m == 2 ^ k && !odd)

/-- One lane of a special function: widened exactly to f32, and the f32 result rounded RNE into the lane type (R51; log entry 17). -/
def sfuLane (f : Nat → Nat × Flags) (fmt : Fmt) (c : Nat) : Nat × Flags :=
  if fmt = .f32 then f c
  else
    let x := encodeF .f32 .rne (decodeF fmt c)
    let r := f x.1
    let y := encodeF fmt .rne (val32 r.1)
    (y.1, x.2 ||| r.2 ||| y.2)

/-- The greatest entry that is not minus infinity, if there is one (R54). -/
def lseMax : List Nat → Option Nat
  | [] => none
  | x :: xs =>
    if x = minusInf32 then lseMax xs
    else
      match lseMax xs with
      | none => some x
      | some y => if cmpF (val32 x) (val32 y) = some .lt then some y else some x

/-- The running sum of LSE2, with its flags (R54). -/
def lseSum (top : Nat) : List Nat → Nat × Flags → Nat × Flags
  | [], acc => acc
  | x :: xs, acc =>
    if x = minusInf32 then lseSum top xs acc
    else
      let d := roundF .f32 .rne (addF .rne [val32 x, (val32 top).neg])
      let y := fexp2Code d.1
      let z := add32 acc.1 y.1
      lseSum top xs (z.1, acc.2 ||| d.2 ||| y.2 ||| z.2)

/-- LSE2 of f32 entries in index order, with the flags its steps raise (R54). -/
def lse2 (xs : List Nat) : Nat × Flags :=
  if xs.any fun x => (val32 x).isNan then (nan32, flagNV)
  else if xs.contains inf32 then (inf32, 0)
  else
    match lseMax xs with
    | none => (minusInf32, 0)
    | some top =>
      let z := lseSum top xs (0, 0)
      let l := flog2Code z.1
      let r := add32 top l.1
      (r.1, z.2 ||| l.2 ||| r.2)

end Sys2Proof.Machine
end

