-- ==== Sys2Proof/Machine/Matrix.lean ====
section
/-! DEFINITION. The matrix engine, the operand latches and matrix rings of a core (spec/03 R45, R48, spec/09 R156 to R164, R170, R171, spec/10 R196,
spec/21 R321). -/

namespace Sys2Proof.Machine

/-! ### Tiles (R156, R157) -/

/-- The element format of a tile's kind; i32 for kind 2. -/
def kindBytes (kind : BitVec 2) : Nat := if kind = 1 then 8 else 4

/-- The columns of a tile's kind (R156). -/
def kindCols (kind : BitVec 2) : Nat := if kind = 1 then 8 else 16

/-- The value of the code of an element of a kind. -/
def kindValue (kind : BitVec 2) (c : Nat) : FVal :=
  if kind = 1 then decodeF .f64 c else if kind = 2 then ofInt (signedOf 32 c) else decodeF .f32 c

/-- The code of element (i, j) of a tile read as a kind (R156). -/
def Tile.code (x : Tile) (kind : BitVec 2) (i j : Nat) : Nat :=
  leNat (x.bytes.bytes (64 * i + j * kindBytes kind) (kindBytes kind))

/-- A tile with element (i, j) of a kind written. -/
def Tile.putCode (x : Tile) (kind : BitVec 2) (i j c : Nat) : Tile :=
  { x with bytes := x.bytes.write (64 * i + j * kindBytes kind) (natLE c (kindBytes kind)) }

/-- A tile whose elements are all given anew. -/
def Tile.fill (x : Tile) (kind : BitVec 2) (f : Nat → Nat → Nat) : Tile :=
  let row (i : Nat) : List Byte := (List.range (kindCols kind)).flatMap fun j => natLE (f i j) (kindBytes kind)
  { x with bytes := Memory.write [] 0 ((List.range 16).flatMap row) }

/-- A tile's status with OF, NV and SA of the flags set (R157). -/
def Tile.raise (x : Tile) (f : Flags) : Tile :=
  { x with st := { x.st with of_ := x.st.of_ || f.getLsbD 2, nv := x.st.nv || f.getLsbD 4, sa := x.st.sa || f.getLsbD 5 } }

/-- The flags a tile and its thread both record: OF, NV and SA (R157). -/
def tileFlagMask : Flags := 0x34

/-- Flags of an operation recorded in a tile (R157). -/
def raiseTile (s : State) (g p : Nat) (f : Flags) : State := s.modCore g fun c => c.setTile p ((c.tile p).raise (f &&& tileFlagMask))

/-- Flags of an operation that completes recorded in the issuing thread's fstat (R47, R157). -/
def raiseThread (s : State) (tid : Tid) (f : Flags) : State := s.modThread tid fun t => t.raise (f &&& tileFlagMask)

/-- Flags of an operation that completes recorded in a tile and in the issuing thread's fstat (R47, R157). -/
def recordFlags (s : State) (g p : Nat) (tid : Tid) (f : Flags) : State := raiseThread (raiseTile s g p f) tid f

/-- The status word of a tile (R157). -/
def tileWord (x : TileStatus) : Word :=
  BitVec.ofNat 64
    (4 * bitOf x.of_ + 16 * bitOf x.nv + 32 * bitOf x.sa + 256 * x.kind.toNat + x.rsc.toNat * 2 ^ 16)

/-- TSTAT (R170). -/
def execTstat (d : Reg) (x : TileRef) (clr : Bool) (s : State) : Out :=
  perform (.tstat d x clr) s fun u t =>
    let p := physTile t x
    if tileBusy (s.core t.core) p then finishPark u s (.matrix .again)
    else
      let tile := (s.core t.core).tile p
      let s := if clr then
          s.modCore t.core fun c =>
            c.setTile p { tile with st := { of_ := false, nv := false, sa := false, kind := tile.st.kind, rsc := 0 } }
        else s
      finishReg u s t d (tileWord tile.st)

/-- TRING (R171). -/
def execTring (op : TringOp) (a : Reg) (s : State) : Out :=
  perform (.tring op a) s fun u t =>
    let v : BitVec 6 := (t.g a).setWidth 6
    let tri := match op with
      | .inc => t.sp.tri + 1
      | .add => t.sp.tri + v
      | .set => v
    finishThread u s { t with sp := { t.sp with tri := tri } }

/-! ### mma (R48, R159 to R163) -/

/-- Elements per chunk (R160). -/
def chunkElems : Fmt → Nat
  | .f64 | .f32 => 8
  | .bf16 | .f16 => 32
  | _ => 64

/-- The accumulator's kind (R156, R161). -/
def accKind : Fmt → BitVec 2
  | .f64 => 1
  | .i8 => 2
  | _ => 0

/-- Element size in bytes. -/
def fmtBytes (f : Fmt) : Nat := f.bits / 8

/-- Elements of a row of A. -/
def mmaKel (x : MmaX) : Nat := (x.k.toNat + 1) * chunkElems x.fmt

/-- Elements in a block of one scale. -/
def mmaBs (x : MmaX) : Nat := if x.b32 then 32 else 16

/-- Blocks in a row. -/
def mmaNb (x : MmaX) : Nat := mmaKel x / mmaBs x

/-- The ranges an mma reads: A rows, B unless it is the latch, scales (R160, R161). -/
def mmaRanges (va vb vc : Word) (latch scaled : Bool) (x : MmaX) : List (Word × Nat) :=
  let row := mmaKel x * fmtBytes x.fmt
  ((List.range (x.m.toNat + 1)).map fun i => (va + BitVec.ofNat 64 (i * x.stride.toNat), row))
    ++ (if latch then [] else [(vb, (x.n.toNat + 1) * row)])
    ++ (if scaled then [(vc, 16 * mmaNb x + (x.n.toNat + 1) * mmaNb x)] else [])

/-- The first range that is not L-store, or not readable or writable as needed. -/
def rangeTrap (s : State) (t : Thread) (r w : Bool) (l : List (Word × Nat)) : Option (Nat × Word) :=
  match l.find? fun e => (checkLocal s t e.1 e.2 1 r w).isSome with
  | some e => some (0x06, e.1)
  | none => none

/-- The first address that is not a multiple. -/
def alignTrap (n : Nat) (l : List Word) : Option (Nat × Word) := (l.find? fun v => v.toNat % n != 0).map fun v => (0x05, v)

/-- The first check an mma fails (R161). -/
def mmaTrap (s : State) (t : Thread) (va vb vc : Word) (latch scaled : Bool) (x : MmaX) : Option (Nat × Word) :=
  let bytes := (x.n.toNat + 1) * mmaKel x * fmtBytes x.fmt
  match alignTrap 8 ([va] ++ (if latch then [] else [vb]) ++ if scaled then [vc] else []) with
  | some e => some e
  | none =>
    match rangeTrap s t true false (mmaRanges va vb vc latch scaled x) with
    | some e => some e
    | none => if latch && decide (16384 < bytes) then some (0x01, BitVec.ofNat 64 bytes) else none

/-- MMA (R159 to R162): checked, then queued; where the queue of 4 is full it stays parked, and enters in its order as places free. -/
def execMma (x : TileRef) (a b c : Reg) (f : MmaX) (s : State) : Out :=
  perform (.mma x a b c f) s fun u t =>
    match mmaTrap s t (t.g a) (t.g b) (t.g c) (b == 0) (c != 0) f with
    | some (cause, v) => finishTrap u s cause v
    | none =>
      let o : MmaOp :=
        { tid := u.tid, tile := physTile t x, a := (t.g a).toNat, b := if b = 0 then none else some (t.g b).toNat,
          c := if c = 0 then none else some (t.g c).toNat, x := f, started := false, begun := 0, chunks := 0, flags := 0 }
      finishPark u
        (s.modCore t.core fun k => { k with mx := { k.mx with queue := k.mx.queue ++ [o] } })
        (.matrix (.done (headLast u.head)))

/-- The value of an element times the scale of its block; a NaN scale makes it NaN (R45). -/
def scaled (v : FVal) (sc : Option Nat) : FVal :=
  match sc with
  | none => v
  | some 0xFF => .nan false
  | some n => v.scale ((n : Int) - 127)

/-- A(i, k) with its scale (R160). -/
def mmaA (c : Core) (o : MmaOp) (i k : Nat) : FVal :=
  let n := fmtBytes o.x.fmt
  scaled (decodeF o.x.fmt (leNat (c.lstore.bytes (o.a + i * o.x.stride.toNat + k * n) n)))
    (o.c.map fun p => (c.lstore.get (p + i * mmaNb o.x + k / mmaBs o.x)).toNat)

/-- B(k, j) with its scale (R160). -/
def mmaB (c : Core) (o : MmaOp) (k j : Nat) : FVal :=
  let n := fmtBytes o.x.fmt
  let off := (j * mmaKel o.x + k) * n
  let bs := match o.b with
    | some p => c.lstore.bytes (p + off) n
    | none => c.mx.operand.bytes off n
  scaled (decodeF o.x.fmt (leNat bs)) (o.c.map fun p => (c.lstore.get (p + 16 * mmaNb o.x + j * mmaNb o.x + k / mmaBs o.x)).toNat)

/-- The integer an exact integral value is, for i8 elements. -/
def intOf : FVal → Int
  | .num n m _ => if n then -(m : Int) else m
  | _ => 0

/-- One chunk of one element: the exact sum rounded once into the accumulator type, or modulo 2^32 for i8 (R48). -/
def chunkSum (c : Core) (o : MmaOp) (i j q acc : Nat) : Nat × Flags :=
  let ke := chunkElems o.x.fmt
  let ks := (List.range ke).map fun k => q * ke + k
  if o.x.fmt = .i8 then
    let v := ks.foldl (fun x k => x + intOf (mmaA c o i k) * intOf (mmaB c o k j)) (signedOf 32 acc)
    ((v % 2 ^ 32).toNat, flagIf (decide (v < -(2 ^ 31) ∨ 2 ^ 31 ≤ v)) flagOF)
  else
    let kind := accKind o.x.fmt
    let fmt : Fmt := if kind = 1 then .f64 else .f32
    let r := sumF false (kindValue kind acc :: ks.map fun k => (mulF (mmaA c o i k) (mmaB c o k j)).1)
    let e := encodeF fmt .rne r.1
    (e.1, flagIf r.1.isNan flagNV ||| (e.2 &&& flagOF))

/-- One element after the chunks from one on, in increasing order. -/
def chunksFrom (c : Core) (o : MmaOp) (i j : Nat) : Nat → Nat → Nat × Flags → Nat × Flags
  | 0, _, acc => acc
  | n + 1, q, acc =>
    let r := chunkSum c o i j q acc.1
    chunksFrom c o i j n (q + 1) (r.1, acc.2 ||| r.2)

/-- The elements an mma writes. -/
def mmaPlaces (x : MmaX) : List (Nat × Nat) :=
  (List.range (x.m.toNat + 1)).flatMap fun i => (List.range (x.n.toNat + 1)).map fun j => (i, j)

/-- A running mma after n more chunks: its tile holds the exact result so far, its kind and its flags are set (R161, R163); and the flags raised since it
began. -/
def runChunks (s : State) (g : Nat) (o : MmaOp) (n : Nat) : State × Flags :=
  let c := s.core g
  let kind := accKind o.x.fmt
  let start := c.tile o.tile
  let r := (mmaPlaces o.x).foldl
    (fun (acc : Tile × Flags) e =>
      let c0 := if o.x.ow && o.chunks == 0 then 0 else start.code kind e.1 e.2
      let v := chunksFrom c o e.1 e.2 n o.chunks (c0, 0)
      (acc.1.putCode kind e.1 e.2 v.1, acc.2 ||| v.2))
    (start, (0 : Flags))
  (raiseTile (s.modCore g fun c => c.setTile o.tile { r.1 with st := { r.1.st with kind := kind } }) g o.tile r.2, o.flags ||| r.2)

/-- The cycles of one chunk of an mma (R162). -/
def chunkCycles (x : MmaX) : Nat := if x.fmt = .f64 then 8 else 4

/-- The chunks an mma has done by a core cycle: the first ends a fill of 24 cycles after its start (R162; log entry 68). -/
def chunksBy (o : MmaOp) (cycle : Nat) : Nat := min (o.x.k.toNat + 1) (max o.chunks ((cycle - o.begun - 24) / chunkCycles o.x))

/-- The chunks an mma has done when it stops, 256 cycles after its launch's pre-emption began (R163; log entry 68). -/
def stopChunks (o : MmaOp) (began : Nat) : Nat := chunksBy o (began + 256)

/-- The core cycle at which the pre-emption of a core's launch began, if it is being pre-empted. -/
def preemptBegan (s : State) (g : Nat) : Option Nat :=
  match s.launch? (s.core g).launch with
  | some l => (match l.phase with
    | .preempting _ _ _ clocks => some (clocks.getD (g / 256) 0)
    | _ => none)
  | none => none

/-- Whether a core's die has a clock: in P3 it executes nothing (R2). -/
def coreClocked (s : State) (g : Nat) : Bool := decide ((s.die (g / 256)).power < 3)

/-- MMA_START (R162): the engine begins the first operation of the queue; none begins while its launch is being pre-empted (R163). -/
def execMmaStart (g : Nat) (s : State) : Out :=
  match (s.core g).mx.queue with
  | [] => .next s
  | o :: rest =>
    if o.started || !coreClocked s g || (preemptBegan s g).isSome then .next s
    else
      .next (s.modCore g fun c =>
        { c with mx := { c.mx with queue := { o with started := true, begun := s.coreClock g } :: rest } })

/-- Whether the running mma may come to its end: where its launch is being pre-empted, only within 256 cycles (R163). -/
def mayComplete (s : State) (g : Nat) (o : MmaOp) : Bool :=
  match preemptBegan s g with
  | some began => stopChunks o began == o.x.k.toNat + 1
  | none => true

/-- The first uncorrectable error some reads of tiles and of runs of L-store meet: the tile or the address (R299). -/
def matrixMet (s : State) (g : Nat) (tiles : List Nat) (runs : List (Word × Nat)) : Option Word :=
  let c := s.core g
  match tiles.find? (tileMet c) with
  | some p => some (BitVec.ofNat 64 p)
  | none => (runs.find? fun e => (wordMet c.errors (e.1.slice 62 0) e.2).isSome).map (·.1)

/-- The runs of L-store an mma reads: the rows of A, B, the scales (R160). -/
def mmaRuns (o : MmaOp) : List (Word × Nat) :=
  let row := mmaKel o.x * fmtBytes o.x.fmt
  let run (off n : Nat) : Word × Nat := (BitVec.ofNat 64 off, n)
  ((List.range (o.x.m.toNat + 1)).map fun i => run (o.a + i * o.x.stride.toNat) row)
    ++ (match o.b with
      | some b => [run b ((o.x.n.toNat + 1) * row)]
      | none => [])
    ++ match o.c with
      | some c => [run c (16 * mmaNb o.x + (o.x.n.toNat + 1) * mmaNb o.x)]
      | none => []

/-- MMA_COMPLETE (R161, R162): the chunks not yet done, then the thread is ready. -/
def execMmaComplete (g : Nat) (s : State) : Out :=
  match (s.core g).mx.queue with
  | [] => .next s
  | o :: rest =>
    if !o.started || !coreClocked s g || !mayComplete s g o then .next s
    else
      let tiles := if o.x.ow && o.chunks == 0 then [] else [o.tile]
      match matrixMet s g tiles (mmaRuns o) with
      | some what => .next (uncorrThread (s.modCore g fun c => { c with mx := { c.mx with queue := rest } }) o.tid what)
      | none =>
      let (s, flags) := runChunks s g o (o.x.k.toNat + 1 - o.chunks)
      let s := raiseThread (s.modCore g fun c => { c with mx := { c.mx with queue := rest } }) o.tid flags
      match s.thread? o.tid with
      | none => .next s
      | some t =>
        match t.status with
        | .parked (.matrix r) => .next (resumeThread s o.tid r)
        | _ => .next s

/-! ### Latches and rings (R164, R196) -/

/-- Whether a queued or running mma reads the operand latch. -/
def latchRead (c : Core) : Bool := c.mmas.any fun o => o.b.isNone

/-- The next ring core of a core, and the one before it (R196). -/
def ringNext (s : State) (g : Nat) : Option Nat :=
  (s.core g).mx.ring.map fun r => g / 256 * 256 + r.1 + (g % 256 - r.1 + 1) % r.2

/-- A core's matrix side changed. -/
def State.modMx (s : State) (g : Nat) (f : CoreMatrix → CoreMatrix) : State := s.modCore g fun c => { c with mx := f c.mx }

/-- Whether the first waiting pass of a core can start: the next core's incoming latch is empty, and no copy is on its way (R164); in P3 nothing is
executed (R2). -/
def passReady (s : State) (g : Nat) : Bool :=
  coreClocked s g && match ringNext s g with
  | some n => !(s.core n).mx.incomingFull && (s.core g).mx.transit.isNone
  | none => false

/-- A pass starts: the operand latch as it stands crosses to the next core, and its thread waits for the copy. -/
def startPass (s : State) (g : Nat) (tid : Tid) : State :=
  match ringNext s g with
  | some n => s.modMx g fun m => { m with passing := m.passing.filter (· != tid), transit := some (m.operand, tid, n) }
  | none => s

/-- A take's effect (R164). -/
def takeLatch (s : State) (g : Nat) (tid : Tid) : State :=
  s.modMx g fun m =>
    { m with takes := m.takes.filter (· != tid), operand := m.incoming, incoming := [], incomingFull := false }

/-- Whether the first waiting take of a core can proceed; in P3 nothing is executed (R2). -/
def takeReady (s : State) (g : Nat) : Bool := coreClocked s g && (s.core g).mx.incomingFull && !latchRead (s.core g)

/-- MMR_LOAD (R164): the thread parks until the load has been made, which is at once (R158). -/
def execMmrLoad (a : Reg) (s : State) : Out :=
  perform (.mmrLoad a) s fun u t =>
    match checkLocal s t (t.g a) 16384 64 true false with
    | some cause => finishTrap u s cause (t.g a)
    | none =>
      if latchRead (s.core t.core) then finishPark u s (.matrix .again)
      else
        let bs := lread s t.core (t.g a).toNat 16384
        reading u s t [((t.g a).toNat, 16384)]
          (finishPark u (s.modMx t.core fun m => { m with operand := Memory.write [] 0 bs }) (.matrix (.done (headLast u.head))))

/-- MMR_PASS (R164): in issue order among the passes of the core; the thread is ready when the copy has arrived. -/
def execMmrPass (s : State) : Out :=
  perform .mmrPass s fun u t =>
    let g := t.core
    let done : Resume := .done (headLast u.head)
    match ringNext s g with
    | none => finishTrap u s 0x01 0
    | some _ =>
      if passReady s g && (s.core g).mx.passing.isEmpty then finishPark u (startPass s g u.tid) (.matrix done)
      else finishPark u (s.modMx g fun m => { m with passing := m.passing ++ [u.tid] }) (.fullWord done)

/-- MMR_TAKE (R164): in issue order among the takes of the core; the thread parks until the take has been made (R158). -/
def execMmrTake (s : State) : Out :=
  perform .mmrTake s fun u t =>
    let g := t.core
    match ringNext s g with
    | none => finishTrap u s 0x01 0
    | some _ =>
      if takeReady s g && (s.core g).mx.takes.isEmpty then finishPark u (takeLatch s g u.tid) (.matrix (.done (headLast u.head)))
      else
        finishPark u (s.modMx g fun m => { m with takes := m.takes ++ [u.tid] }) (.emptyWord (.done (headLast u.head)))

/-- The waiting take of a core served, if it can proceed (R164). -/
def serveTake (s : State) (g : Nat) : State :=
  match (s.core g).mx.takes with
  | tid :: _ => if takeReady s g then
      (match s.thread? tid with
       | some t =>
         (match t.status with
          | .parked (.emptyWord r) => resumeThread (takeLatch s g tid) tid r
          | _ => s)
       | none => s)
    else s
  | [] => s

/-- The waiting pass of a core served, if it can start (R164). -/
def servePass_ (s : State) (g : Nat) : State :=
  match (s.core g).mx.passing with
  | tid :: _ => if passReady s g then
      (match s.thread? tid with
       | some t =>
         (match t.status with
          | .parked (.fullWord r) => (startPass s g tid).setThread tid { t with status := .parked (.matrix r) }
          | _ => s)
       | none => s)
    else s
  | [] => s

/-- LATCH_PASS_ARRIVAL (R164; not in P3, R2): a copy fills the next core's incoming latch, and its pass is done. -/
def execLatchPassArrival (g : Nat) (s : State) : Out :=
  match (s.core g).mx.transit with
  | none => .next s
  | some (bytes, tid, n) =>
    if !coreClocked s g then .next s
    else
    let s := s.modMx g fun m => { m with transit := none }
    let s := s.modMx n fun m => { m with incoming := bytes, incomingFull := true }
    match s.thread? tid with
    | none => .next s
    | some t =>
      match t.status with
      | .parked (.matrix r) => .next (resumeThread s tid r)
      | _ => .next s

/-- A ring's cores. -/
def ringCores (die base n : Nat) : List Nat := (List.range n).map fun i => die * 256 + base + i

/-- What a thread asks of its die's ring unit, for whose answer it waits (R321). -/
def askRing (u : Issue) (s : State) (t : Thread) (dissolve : Bool) (log2 : BitVec 3) (a : Reg) : Out :=
  finishPark u
    (s.modNet fun n => { n with units := n.units ++ [.ringAsk u.tid (t.core / 256) dissolve log2.toNat (t.g a) (headLast u.head)] })
    (.reply (.done (headLast u.head)))

/-- RING_JOIN (R196, R321): its die's ring unit is asked to make the ring. -/
def execRingJoin (a : Reg) (log2 : BitVec 3) (s : State) : Out :=
  perform (.ringJoin a log2) s fun u t => askRing u s t false log2 a

/-- RING_DISSOLVE (R196, R321): its die's ring unit is asked to remove the ring. -/
def execRingDissolve (a : Reg) (s : State) : Out := perform (.ringDissolve a) s fun u t => askRing u s t true 0 a

/-- RING_DISSOLVE with a size field that is not 0 (R196): the unit refuses it, and its thread takes cause 0x01. -/
def execRingDissolveSized (a : Reg) (log2 : BitVec 3) (s : State) : Out :=
  perform (.ringDissolveSized a log2) s fun u t => askRing u s t true log2 a

/-- Whether 2^log2 cores of a die from one on may join a ring for a launch (R196). -/
def mayJoin (s : State) (lid d log2 base : Nat) : Bool :=
  let n := 2 ^ log2
  let mine (g : Nat) : Bool := match s.launch? lid with
    | some l => setHas l.cores g
    | none => false
  decide (base % n = 0 ∧ base + n ≤ 256) && (ringCores d base n).all fun g => mine g && (s.core g).mx.ring.isNone

/-- Cores that join a ring, their incoming latches empty (R196). -/
def joinRing (s : State) (d log2 base : Nat) : State :=
  let n := 2 ^ log2
  (ringCores d base n).foldl (fun s g => s.modMx g fun m => { m with ring := some (base, n), incoming := [], incomingFull := false }) s

/-- A core out of its ring, its incoming latch empty. -/
def leaveRing (s : State) (g : Nat) : State := s.modMx g fun m => { m with ring := none, incoming := [], incomingFull := false }

/-- Whether a core of a ring keeps it from being dissolved: a waiting pass or take, or an mma that reads the latch (R196). -/
def ringHeld (c : Core) : Bool := !c.mx.passing.isEmpty || !c.mx.takes.isEmpty || c.mx.transit.isSome || latchRead c

/-- The ring that holds a core of a die, where its removal is not refused: the size field is 0, and none of its cores keeps it (R196). -/
def mayDissolve (s : State) (d log2 a : Nat) : Option (Nat × Nat) :=
  match if a < 256 then (s.core (d * 256 + a)).mx.ring else none with
  | some (base, n) => if log2 = 0 ∧ !(ringCores d base n).any fun g => ringHeld (s.core g) then some (base, n) else none
  | none => none

/-- What a die's ring unit does with what it is asked: the state, and whether it has been done (R196, R321). -/
def ringUnit (s : State) (tid : Tid) (d : Nat) (dissolve : Bool) (log2 : Nat) (a : Word) : State × Bool :=
  if dissolve then
    match mayDissolve s d log2 a.toNat with
    | some (base, n) => ((ringCores d base n).foldl leaveRing s, true)
    | none => (s, false)
  else if mayJoin s (tidLaunch tid) d log2 a.toNat then (joinRing s d log2 a.toNat, true)
  else (s, false)

/-! ### Answers of units (R86, R155, R217, R240, R321) -/

/-- The thread a note is for. -/
def UnitNote.tid : UnitNote → Tid
  | .ringAsk t .. | .ring t .. | .sys t .. | .barc t .. | .gen t .. => t

/-- A number for the unit a note comes from, or goes to: the launch manager, a die's ring unit, a barrier unit. -/
def UnitNote.unit (s : State) : UnitNote → Nat × Nat
  | .sys .. => (0, 0)
  | .ringAsk _ d .. => (1, d)
  | .ring _ d .. => (2, d)
  | .barc tid sc .. | .gen tid sc .. =>
    (match sc with
      | .core => 3
      | .quad => 4
      | .die => 5
      | .pkg => 6
      | .pod => 7,
     barUnit s (tidLaunch tid) ((s.thread? tid).map (·.core) |>.getD 0) sc)

/-- Whether a note is the first on its way between its unit and its thread's core (R217; log entry 112). -/
def firstNote (s : State) (k : Nat) (x : UnitNote) : Bool :=
  let core (y : UnitNote) : Option Nat := (s.thread? y.tid).map (·.core)
  !(s.net.units.take k).any fun y => y.unit s == x.unit s && core y == core x

/-- UNIT_REPLY (R321, R86, R240): a die's ring unit performs what it is asked and answers, or the answer of the launch manager or of a unit reaches its
thread; what goes one way comes in order (R217). -/
def execUnitReply (k : Nat) (s : State) : Out :=
  match s.net.units[k]? with
  | none => .next s
  | some x =>
    if !firstNote s k x then .next s
    else
    let s := s.modNet fun n => { n with units := dropIx n.units k }
    match x with
    | .ringAsk tid d dissolve log2 tval last =>
      let (s, ok) := ringUnit s tid d dissolve log2 tval
      .next (s.modNet fun n => { n with units := n.units ++ [.ring tid d ok tval last] })
    | .ring tid _ ok tval last | .sys tid ok tval last | .barc tid _ _ ok tval last =>
      .next (if ok then resumeThread s tid (.done last) else trapWaiting s tid 0x01 tval)
    | .gen tid _ d value => .next (s.modThread tid fun t => if d = 0 then t else t.land d (value.setWidth 64))

end Sys2Proof.Machine
end

