-- ==== Sys2Proof/Machine/Epilogue.lean ====
section
/-! DEFINITION. The epilogue unit's operations on tiles and the top-k tree (spec/03 R49, R50, spec/09 R158, R165 to R169, R172 to R174): what
each does when the unit performs it, its checks included. -/

namespace Sys2Proof.Machine

/-- What the epilogue unit's turn at an operation gives: it is complete, has come to a restart point, or traps with no effect. -/
inductive EpResult where
  | done (s : State)
  | more (s : State)
  | trap (cause : Nat) (tval : Word)
  deriving DecidableEq, Repr

/-- An operation's end where its checks pass. -/
def unlessTrap (x : Option (Nat × Word)) (k : EpResult) : EpResult :=
  match x with
  | some (cause, v) => .trap cause v
  | none => k

/-- The first of several checks that fails. -/
def firstTrap : List (Option (Nat × Word)) → Option (Nat × Word)
  | [] => none
  | some e :: _ => some e
  | none :: xs => firstTrap xs

/-- A tile that must be of kind 0 (R156). -/
def kindTrap (c : Core) (p : Nat) : Option (Nat × Word) :=
  let k := (c.tile p).st.kind
  if k = 0 then none else some (0x01, k.setWidth 64)

/-- The entry of an instruction of the epilogue unit (R158): it is queued in issue order with the tiles it waits for, and its thread parks until it is done
(log entry 58). -/
def performEpilogue (i : Instr) (a b c : Reg) (tile : TileRef) (tile2 : TileRef) (busy : Thread → List Nat) (s : State) : Out :=
  perform i s fun u t =>
    let o : EpOp :=
      { tid := u.tid, instr := i, head := u.head, va := t.g a, vb := t.g b, vc := t.g c, tile := physTile t tile,
        tile2 := physTile t tile2, tiles := busy t }
    finishPark u
      (s.modCore t.core fun k => { k with mx := { k.mx with epilogue := k.mx.epilogue ++ [o] } })
      (.matrix (.done (headLast u.head)))

/-- The 16 tiles of a plan from a tile on. -/
def planTiles (t : Thread) (x : TileRef) : List Nat := (List.range 16).map fun i => physTile t x + i

/-! ### tzero, tscl, tact (R165 to R167) -/

/-- tzero (R165). -/
def runTzero (s : State) (g : Nat) (o : EpOp) : EpResult :=
  .done (s.modCore g fun c =>
    let x := c.tile o.tile
    (tileWritten c o.tile).setTile o.tile { x with bytes := [], st := { x.st with kind := 0 } })

/-- The f32 code of element i of a vector in L-store. -/
def vecCode (s : State) (g : Nat) (a : Word) (i : Nat) : Nat := leNat (lread s g (a.toNat + 4 * i) 4)

/-- A tile of kind 0 with every element replaced by a function of its place and code, the flags recorded. -/
def mapTile (s : State) (g : Nat) (o : EpOp) (f : Nat → Nat → Nat → Nat × Flags) : State :=
  let x := (s.core g).tile o.tile
  let r (i j : Nat) : Nat × Flags := f i j (x.code 0 i j)
  let flags := (List.range 16).foldl (fun a i => (List.range 16).foldl (fun a j => a ||| (r i j).2) a) (0 : Flags)
  recordFlags (s.modCore g fun c => c.setTile o.tile (x.fill 0 fun i j => (r i j).1)) g o.tile o.tid flags

/-- One element of tscl (R166). -/
def tsclElem (x : FVal) (r s b : Option FVal) : Nat × Flags :=
  let times (p : FVal × Flags) (f : Option FVal) : FVal × Flags :=
    match f with
    | some v => let q := mulF p.1 v; (q.1, p.2 ||| q.2)
    | none => p
  let p := times (times (x, x.signal) r) s
  let q := match b with
    | some v => let z := addF .rne [p.1, v]; (z.1, p.2 ||| z.2)
    | none => p
  roundF .f32 .rne q

/-- tscl (R166). -/
def runTscl (s : State) (g : Nat) (t : Thread) (o : EpOp) (c : Reg) (mode : TsclMode) (bc : Bool) : EpResult :=
  let rows := mode != .col
  let cols := mode != .row
  let vs := (if rows then [o.va] else []) ++ (if cols then [o.vb] else []) ++ if c != 0 then [o.vc] else []
  unlessTrap
    (firstTrap [kindTrap (s.core g) o.tile, alignTrap 8 vs, rangeTrap s t true false (vs.map fun v => (v, 64))])
    (.done (mapTile s g o fun i j x =>
      let at_ (v : Word) (k : Nat) : FVal := val32 (vecCode s g v k)
      tsclElem (val32 x) (if rows then some (at_ o.va i) else none) (if cols then some (at_ o.vb j) else none)
        (if c != 0 then some (at_ o.vc (if bc then i else j)) else none)))

/-- a * b rounded once, with its flags. -/
def mul32f (a b : Nat) : Nat × Flags := roundF .f32 .rne (mulF (val32 a) (val32 b))

/-- a * b + c rounded once, with its flags. -/
def fma32f (a b c : Nat) : Nat × Flags :=
  let p := mulF (val32 a) (val32 b)
  let z := addF .rne [p.1, val32 c]
  roundF .f32 .rne (z.1, p.2 ||| z.2)

/-- 0.044 715 as the nearest f32 (R167). -/
def geluA : Nat := 0x3D372713

/-- -2.302 208 2 as the nearest f32. -/
def geluB : Nat := 0xC0135761

/-- -1.442 695 as the nearest f32. -/
def siluC : Nat := 0xBFB8AA3B

/-- x times frcp(1 + fexp2(z)), the last steps of gelu and silu (R167). -/
def sigmoidTimes (x z : Nat) (fl : Flags) : Nat × Flags :=
  let e := fexp2Code z
  let d := add32 one32 e.1
  let r := frcpCode d.1
  let y := mul32f x r.1
  (y.1, fl ||| e.2 ||| d.2 ||| r.2 ||| y.2)

/-- One element of tact (R167). -/
def tactElem (op : TactOp) (lo hi x : Nat) : Nat × Flags :=
  let v := val32 x
  let top := if below v (val32 lo) then lo else x
  if v.isNan then (nan32, v.signal)
  else
    match op with
    | .relu => (if v.isNeg || cmpF v (val32 0) == some .eq then 0 else x, 0)
    | .clamp => (if below (val32 hi) (val32 top) then hi else top, 0)
    | .gelu =>
      if x = inf32 then (inf32, 0) else if x = minusInf32 then (0x80000000, 0)
      else
        let q := mul32f x x
        let c := mul32f geluA q.1
        let w := fma32f c.1 x x
        let z := mul32f geluB w.1
        sigmoidTimes x z.1 (q.2 ||| c.2 ||| w.2 ||| z.2)
    | .silu =>
      if x = inf32 then (inf32, 0) else if x = minusInf32 then (0x80000000, 0)
      else let z := mul32f siluC x; sigmoidTimes x z.1 z.2

/-- clamp's bounds (R167): a NaN bound or lo above hi. -/
def boundsTrap (o : EpOp) (lo hi : Nat) : Option (Nat × Word) :=
  if (val32 lo).isNan || (val32 hi).isNan || cmpF (val32 lo) (val32 hi) == some .gt then some (0x01, o.va) else none

/-- tact (R167). -/
def runTact (s : State) (g : Nat) (o : EpOp) (op : TactOp) : EpResult :=
  let lo := o.va.slice 31 0
  let hi := o.vb.slice 31 0
  unlessTrap
    (firstTrap [kindTrap (s.core g) o.tile, if op = .clamp then boundsTrap o lo hi else none])
    (.done (mapTile s g o fun _ _ x => tactElem op lo hi x))

/-! ### tcvt (R49, R50, R168) -/

/-- Whether a format is converted into by blocks (R49). -/
def blockFmt (f : Fmt) : Bool := f == .e4m3 || f == .e5m2 || f == .nb8

/-- Whether a finite value exceeds a format's largest at a scale (R49). -/
def overAt (f : Fmt) (sc : Nat) (v : FVal) : Bool :=
  match v with
  | .num _ m e => exceeds m (e + 127 - sc) (layoutOf f).maxM (layoutOf f).maxE
  | _ => false

/-- The final scale of a block and its rescales, at most a limit (R49). -/
def rescale (f : Fmt) (vs : List FVal) : Nat → Nat → Nat × Nat
  | 0, sc => (sc, 0)
  | n + 1, sc =>
    if sc < 0xFE && vs.any (overAt f sc) then
      let r := rescale f vs n (sc + 1)
      (r.1, r.2 + 1)
    else (sc, 0)

/-- The values of a tile in row-major order. -/
def tileValues (x : Tile) : List FVal :=
  (List.range 16).flatMap fun i => (List.range (kindCols x.st.kind)).map fun j => kindValue x.st.kind (x.code x.st.kind i j)

/-- The rows a tcvt writes: address and bytes (R168). -/
def tcvtRows (va : Word) (stride row : Nat) : List (Word × Nat) :=
  (List.range 16).map fun i => (va + BitVec.ofNat 64 (i * if stride = 0 then row else stride), row)

/-- A block's scale byte and its rescales: 127 and none where unscaled or where the format takes no blocks. -/
def blockScale (s : State) (g : Nat) (t : Thread) (o : EpOp) (scaled_ : Bool) (f : Fmt) (bs q : Nat) (vs : List FVal) : Nat × Nat :=
  if scaled_ && blockFmt f then
    let sc := ((s.core g).lstore.get (o.vc.toNat + q)).toNat
    if sc = 0xFF then (sc, 0) else rescale f ((vs.drop (q * bs)).take bs) t.sp.qmax.toNat sc
  else (127, 0)

/-- One element converted at its block's scale (R42, R49): one that still exceeds the largest value of a block format saturates, in NB8 as R44 has it. -/
def tcvtElem (f : Fmt) (sc : Nat) (v : FVal) : Nat × Flags :=
  if sc = 0xFF then (nanOf f, flagNV)
  else if blockFmt f && f != .nb8 && overAt f sc v then overflowCode f .rne v.isNeg
  else encodeF f .rne (v.scale (127 - (sc : Int)))

/-- tcvt (R49, R50, R168). DESIGN CHOICE: where its rows overlap its scale bytes, every scale byte is read before a row is written, and the scale bytes are
written after all rows (log entry 116). -/
def runTcvt (s : State) (g : Nat) (t : Thread) (o : EpOp) (p : Pair) (c : Reg) (f : Fmt) (b32 : Bool) (stride : Nat) : EpResult :=
  let x := (s.core g).tile o.tile
  let n := fmtBytes f
  let cols := kindCols x.st.kind
  let bs := if b32 then 32 else 16
  let blocks := 16 * cols / bs
  let has := c != 0
  let vs := tileValues x
  let rows := tcvtRows o.va stride (cols * n)
  let scales := (List.range blocks).map fun q => blockScale s g t o has f bs q vs
  let quant := match findIx (fun e => decide (0 < e.2)) scales with
    | some q => if t.sp.fstat.getLsbD 14 then some (0x0A, BitVec.ofNat 64 q) else none
    | none => none
  unlessTrap
    (firstTrap
      [alignTrap 8 (o.va :: if has then [o.vc] else []), rangeTrap s t false true rows,
       if has then rangeTrap s t true true [(o.vc, blocks)] else none, quant])
    (let codes := (List.range (16 * cols)).map fun e => tcvtElem f ((scales.getD (e / bs) (127, 0)).1) (vs.getD e (.nan false))
     let flags := codes.foldl (fun a e => a ||| e.2) (0 : Flags)
     let rowBytes (i : Nat) : List Byte := ((codes.drop (i * cols)).take cols).flatMap fun e => natLE e.1 n
     let s := (rows.zip (List.range 16)).foldl (fun s e => lwrite s g e.1.1.toNat (rowBytes e.2)) s
     let s := if has && blockFmt f then lwrite s g o.vc.toNat (scales.map fun e => BitVec.ofNat 8 e.1) else s
     let count := scales.foldl (fun k e => k + e.2) 0
     let s := s.modCore g fun c =>
       let y := c.tile o.tile
       c.setTile o.tile { y with st := { y.st with rsc := BitVec.ofNat 8 (min 255 (y.st.rsc.toNat + count)) } }
     let s := recordFlags s g o.tile o.tid flags
     let sat := flags.getLsbD 5
     .done (s.modThread o.tid fun t => (t.raise flags).setPair p (!sat) sat))

/-! ### tred (R169) -/

/-- The reduction of a list of elements of a kind (R169). -/
def redElems (kind : BitVec 2) (op : TredOp) (vs : List FVal) : Nat × Flags :=
  if kind = 2 then
    let xs := vs.map intOf
    match op with
    | .sum =>
      let v := xs.foldl (· + ·) 0
      ((v % 2 ^ 32).toNat, flagIf (decide (v < -(2 ^ 31) ∨ 2 ^ 31 ≤ v)) flagOF)
    | .max => ((xs.foldl max (xs.headD 0) % 2 ^ 32).toNat, 0)
    | .min => ((xs.foldl min (xs.headD 0) % 2 ^ 32).toNat, 0)
  else
    let fmt : Fmt := if kind = 1 then .f64 else .f32
    let sig := flagIf (vs.any fun v => v.signal != 0) flagNV
    match op with
    | .sum => roundF fmt .rne (addF .rne vs)
    | .max =>
      if vs.any (·.isNan) then (nanOf fmt, sig)
      else encodeF fmt .rne (vs.foldl (fun a b => if below a b then b else a) (vs.headD (.nan false)))
    | .min =>
      if vs.any (·.isNan) then (nanOf fmt, sig)
      else encodeF fmt .rne (vs.foldl (fun a b => if below b a then b else a) (vs.headD (.nan false)))

/-- tred (R169). -/
def runTred (s : State) (g : Nat) (t : Thread) (o : EpOp) (cols : Bool) (op : TredOp) : EpResult :=
  let x := (s.core g).tile o.tile
  let kind := x.st.kind
  let nc := kindCols kind
  let size := kindBytes kind
  let count := if cols then nc else 16
  let vec (k : Nat) : List FVal :=
    if cols then (List.range 16).map fun i => kindValue kind (x.code kind i k)
    else (List.range nc).map fun j => kindValue kind (x.code kind k j)
  unlessTrap
    (firstTrap [alignTrap size [o.va], rangeTrap s t false true [(o.va, count * size)]])
    (let rs := (List.range count).map fun k => redElems kind op (vec k)
     let s := lwrite s g o.va.toNat (rs.flatMap fun r => natLE r.1 size)
     .done (recordFlags s g o.tile o.tid (rs.foldl (fun a r => a ||| r.2) 0)))

/-! ### Top-k (R172 to R174) -/

/-- The header topk gives, x[12:0] (R173). -/
def topkHeader (x : TopkX) : BitVec 13 := x.lim ++ x.g ++ x.k

/-- The checks of a topk (R173). -/
def topkTrap (c : Core) (o : EpOp) (x : TopkX) : Option (Nat × Word) :=
  let base := o.va.slice 15 0
  if !x.new && c.mx.topk.header != some (topkHeader x) then some (0x01, (topkHeader x).setWidth 64)
  else if 0xFFFE < base + 15 ∨ (x.g ≠ 0 ∧ base % x.g.toNat ≠ 0) then some (0x01, o.va)
  else none

/-- topk (R173): the live candidates of each row join the tree. -/
def runTopk (s : State) (g : Nat) (o : EpOp) (x : TopkX) : EpResult :=
  unlessTrap (firstTrap [kindTrap (s.core g) o.tile, topkTrap (s.core g) o x])
    (let tile := (s.core g).tile o.tile
     let base := o.va.slice 15 0
     let cols := (List.range 16).filter fun j => !o.vb.bit j
     let live (i : Nat) : List Cand :=
       (cols.filter fun j => !(val32 (tile.code 0 i j)).isNan).map fun j =>
         { score := BitVec.ofNat 32 (tile.code 0 i j), index := base + j }
     let nan := (List.range 16).any fun i => cols.any fun j => (val32 (tile.code 0 i j)).isNan
     let old := if x.new then [] else (s.core g).mx.topk.rows
     let rows := (List.range 16).map fun i => (i, tabGetD old i [] ++ live i)
     let s := s.modMx g fun m => { m with topk := { header := some (topkHeader x), rows := rows } }
     .done (recordFlags s g o.tile o.tid (flagIf nan flagNV)))

/-- Whether a candidate comes before another of the same row: higher score, then lower index; equal ones keep their order (R173). -/
def candBefore (a b : Cand) : Bool :=
  match cmpF (val32 a.score.toNat) (val32 b.score.toNat) with
  | some .gt => true
  | some .eq => decide (a.index < b.index)
  | _ => false

/-- A candidate put into an ordered list, after those that do not come after it. -/
def insertCand (c : Cand) : List Cand → List Cand
  | [] => [c]
  | x :: xs => if candBefore c x then c :: x :: xs else x :: insertCand c xs

/-- Candidates in rank order. -/
def rankCands (l : List Cand) : List Cand := l.foldl (fun acc c => insertCand c acc) []

/-- The first candidate of each group, of a list in an order. -/
def groupHeads (g : Nat) : List Cand → List Nat → List Cand
  | [], _ => []
  | c :: cs, seen =>
    if seen.contains (c.index / g) then groupHeads g cs seen else c :: groupHeads g cs (c.index / g :: seen)

/-- The groups chosen: the G eligible ones of highest score, ties to the lower number (R173). -/
def chosenGroups (g lim : Nat) (l : List Cand) : List Nat :=
  let heads := (groupHeads g (rankCands l) []).map fun c => { c with index := c.index / g }
  ((rankCands heads).take lim).map (·.index)

/-- The result of a row (R173). -/
def topkResult (h : BitVec 13) (l : List Cand) : List Cand :=
  let k := (h.extractLsb' 0 3).toNat + 1
  let g := (h.extractLsb' 3 5).toNat
  let lim := (h.extractLsb' 8 5).toNat
  let l := if g = 0 then l else
    let ok := chosenGroups g lim l
    l.filter fun c => ok.contains (c.index / g)
  (rankCands l).take k

/-- tkrd (R174). -/
def runTkrd (s : State) (g : Nat) (t : Thread) (o : EpOp) (d : Reg) (row : Nat) (clr : Bool) : EpResult :=
  match (s.core g).mx.topk.header with
  | none => .trap 0x01 (o.head.setWidth 64)
  | some h =>
    let k := (h.extractLsb' 0 3).toNat + 1
    unlessTrap (firstTrap [alignTrap 8 [o.va], rangeTrap s t false true [(o.va, 8 + 8 * k)]])
      (let rows := (s.core g).mx.topk.rows
       let r := topkResult h (tabGetD rows row [])
       let entry (e : Nat) : Nat := match r[e]? with
         | some c => c.score.toNat + c.index * 2 ^ 32
         | none => 0xFF800000 + 0xFFFF * 2 ^ 32
       let s := lwrite s g o.va.toNat (natLE r.length 8 ++ (List.range k).flatMap fun e => natLE (entry e) 8)
       let s := if clr then s.modMx g fun m => { m with topk := { m.topk with rows := tabPut rows row [] } } else s
       .done (s.modThread o.tid fun t => t.setReg d.toNat (BitVec.ofNat 64 r.length)))

/-! ### The instructions (R158) -/

/-- TZERO (R165). -/
def execTzero (x : TileRef) (s : State) : Out := performEpilogue (.tzero x) 0 0 0 x x (fun t => [physTile t x]) s

/-- TSCL (R166). -/
def execTscl (x : TileRef) (a b c : Reg) (mode : TsclMode) (bc : Bool) (s : State) : Out :=
  performEpilogue (.tscl x a b c mode bc) a b c x x (fun t => [physTile t x]) s

/-- TACT (R167). -/
def execTact (x : TileRef) (a b : Reg) (op : TactOp) (s : State) : Out :=
  performEpilogue (.tact x a b op) a b 0 x x (fun t => [physTile t x]) s

/-- TCVT (R168). -/
def execTcvt (p : Pair) (a : Reg) (x : TileRef) (c : Reg) (fmt : Fmt) (b32 : Bool) (stride : BitVec 16) (s : State) : Out :=
  performEpilogue (.tcvt p a x c fmt b32 stride) a 0 c x x (fun t => [physTile t x]) s

/-- TRED (R169). -/
def execTred (a : Reg) (x : TileRef) (cols : Bool) (op : TredOp) (s : State) : Out :=
  performEpilogue (.tred a x cols op) a 0 0 x x (fun t => [physTile t x]) s

/-- TOPK (R173). -/
def execTopk (x : TileRef) (a b : Reg) (k : TopkX) (s : State) : Out :=
  performEpilogue (.topk x a b k) a b 0 x x (fun t => [physTile t x]) s

/-- TKRD (R174). -/
def execTkrd (d a : Reg) (row : BitVec 4) (clr : Bool) (s : State) : Out :=
  performEpilogue (.tkrd d a row clr) a 0 0 0 0 (fun _ => []) s

end Sys2Proof.Machine
end

