-- ==== Sys2Proof/Machine/Floating.lean ====
section
/-! DEFINITION. Floating-point instructions, group 0x30 (spec/06 R110 to R120). -/

namespace Sys2Proof.Machine

/-- The value of lane i of a register of a float type (R110). -/
def ftValue (ft : FT) (x : Word) (i : Nat) : FVal := decodeF ft.fmt (lane ft.fmt.bits x i)

/-- A float operation lane by lane: each exact result rounded once into the lane type (R110). -/
def ftLanes (ft : FT) (rm : Mode) (f : Nat → FVal × Flags) : Word × Flags :=
  flagLanes ft.fmt.bits ft.lanes fun i => roundF ft.fmt rm (f i)

/-- The lane of fmnx: one of its two operands unchanged, or the canonical NaN (R114). -/
def fmnxLane (fmt : Fmt) (op : FmnxOp) (x y : Nat) : Nat × Flags :=
  let a := decodeF fmt x
  let b := decodeF fmt y
  let fl := a.signal ||| b.signal
  let mag := cmpF a.abs b.abs
  let least := if below b a then y else x
  let most := if below a b then y else x
  if a.isNan && b.isNan then (nanOf fmt, fl)
  else if a.isNan then (y, fl)
  else if b.isNan then (x, fl)
  else
    match op with
    | .min => (least, fl)
    | .max => (most, fl)
    | .minmag => (if mag = some .lt then x else if mag = some .gt then y else least, fl)
    | .maxmag => (if mag = some .gt then x else if mag = some .lt then y else most, fl)

/-- Lane results of a special function (R51, R115). -/
def sfuLanes (f : Nat → Nat × Flags) (ft : FT) (x : Word) : Word × Flags :=
  flagLanes ft.fmt.bits ft.lanes fun i => sfuLane f ft.fmt (lane ft.fmt.bits x i)

/-- fcvt (R116): lanes into elements, or elements into lanes, at equal places. -/
def fcvtValue (ft : FT) (rm : Mode) (fmt : Fmt) (from_ : Bool) (x : Word) : Word × Flags :=
  if from_ then ftLanes ft rm fun i => (decodeF fmt (lane fmt.bits x i), 0)
  else flagLanes fmt.bits ft.lanes fun i => encodeF fmt rm (ftValue ft x i)

/-- The bits of an icvt integer width (R117). -/
def intBits : IntWidth → Nat
  | .i64 => 64
  | .i32 => 32
  | .i16 => 16

/-- A value rounded to an integer by a mode, and whether that is inexact. -/
def roundToInt (rm : Mode) (neg : Bool) (m : Nat) (e : Int) : Int × Bool :=
  let r := roundUnits rm neg m e 0
  (if neg then -(r.1 : Int) else r.1, r.2)

/-- A float value as an integer of w bits (R117): rounded, saturated with NV where it is out of range, 0 with NV for NaN. -/
def toIntLane (w : Nat) (signed : Bool) (rm : Mode) (v : FVal) : Int × Flags :=
  let lo : Int := if signed then -(2 ^ (w - 1)) else 0
  let hi : Int := if signed then 2 ^ (w - 1) - 1 else 2 ^ w - 1
  match v with
  | .nan _ => (0, flagNV)
  | .inf n => (if n then lo else hi, flagNV)
  | .num n m e =>
    let r := roundToInt rm n m e
    if r.1 < lo then (lo, flagNV) else if hi < r.1 then (hi, flagNV) else (r.1, flagIf r.2 flagNX)

/-- icvt (R117). -/
def icvtValue (ft : FT) (rm : Mode) (iw : IntWidth) (signed toInt : Bool) (x : Word) : Word × Flags :=
  let w := intBits iw
  if toInt then
    if ft.lanes = 1 then
      let r := toIntLane w signed rm (ftValue ft x 0)
      (BitVec.ofInt 64 r.1, r.2)
    else
      flagLanes w ft.lanes fun i =>
        let r := toIntLane w signed rm (ftValue ft x i)
        ((BitVec.ofInt w r.1).toNat, r.2)
  else
    ftLanes ft rm fun i =>
      let v := lane w x i
      (ofInt (if signed then signedOf w v else v), 0)

/-- The lane of fsgn (R118). -/
def fsgnLane (fmt : Fmt) (op : FsgnOp) (x y : Nat) : Nat × Flags :=
  let a := decodeF fmt x
  let top := 2 ^ (fmt.bits - 1)
  let sa := x / top % 2 == 1
  let sb := y / top % 2 == 1
  let sign := match op with
    | .copy => sb
    | .neg => !sb
    | .xor => sa != sb
  if a.isNan then (nanOf fmt, a.signal) else (x % top + signBit fmt sign, 0)

/-- The class bit of a value's code (R119). -/
def classBit (fmt : Fmt) (x : Nat) : Nat :=
  match decodeF fmt x with
  | .nan true => 8
  | .nan false => 9
  | .inf n => if n then 0 else 7
  | .num n m e =>
    if m = 0 then (if n then 3 else 4)
    else if leadExp m e < (layoutOf fmt).emin then (if n then 2 else 5)
    else (if n then 1 else 6)

/-- fdot (R120): c and the lane products summed exactly and rounded once into f32; an exact zero sum is -0 when every term is -0 and
otherwise -0 in RDN, +0 in the other modes (log entry 18). -/
def fdotValue (ft : FT) (rm : Mode) (x y z : Word) : Word × Flags :=
  let ps := (List.range ft.lanes).map fun i => mulF (ftValue ft x i) (ftValue ft y i)
  let c := decodeF .f32 (lane 32 z 0)
  let nv := ps.foldl (fun a p => a ||| p.2) c.signal
  let sum := sumF (rm == .rdn) (c :: ps.map (·.1))
  let r := roundF .f32 rm (sum.1, sum.2 ||| nv)
  (BitVec.ofNat 64 r.1, r.2)

/-- FADD (R111). -/
def execFadd (d a b : Reg) (ft : FT) (rm : RM) (s : State) : Out :=
  performFloat (.fadd d a b ft rm) d s fun t =>
    let m := modeOf t rm
    ftLanes ft m fun i => addF m [ftValue ft (t.g a) i, ftValue ft (t.g b) i]

/-- FSUB (R111). -/
def execFsub (d a b : Reg) (ft : FT) (rm : RM) (s : State) : Out :=
  performFloat (.fsub d a b ft rm) d s fun t =>
    let m := modeOf t rm
    ftLanes ft m fun i => addF m [ftValue ft (t.g a) i, (ftValue ft (t.g b) i).neg]

/-- FMUL (R111). -/
def execFmul (d a b : Reg) (ft : FT) (rm : RM) (s : State) : Out :=
  performFloat (.fmul d a b ft rm) d s fun t =>
    ftLanes ft (modeOf t rm) fun i => mulF (ftValue ft (t.g a) i) (ftValue ft (t.g b) i)

/-- FMA (R112). -/
def execFma (d a b c : Reg) (ft : FT) (rm : RM) (np nc : Bool) (s : State) : Out :=
  performFloat (.fma d a b c ft rm np nc) d s fun t =>
    let m := modeOf t rm
    ftLanes ft m fun i =>
      let p := mulF (ftValue ft (t.g a) i) (ftValue ft (t.g b) i)
      let z := ftValue ft (t.g c) i
      let r := addF m [if np then p.1.neg else p.1, if nc then z.neg else z]
      (r.1, p.2 ||| r.2)

/-- FDIV (R111). -/
def execFdiv (d a b : Reg) (ft : FT) (rm : RM) (s : State) : Out :=
  performFloat (.fdiv d a b ft rm) d s fun t =>
    ftLanes ft (modeOf t rm) fun i => divF (ftValue ft (t.g a) i) (ftValue ft (t.g b) i)

/-- FSQRT (R113). -/
def execFsqrt (d a : Reg) (ft : FT) (rm : RM) (s : State) : Out :=
  performFloat (.fsqrt d a ft rm) d s fun t => ftLanes ft (modeOf t rm) fun i => sqrtF (ftValue ft (t.g a) i)

/-- FMNX (R114). -/
def execFmnx (d a b : Reg) (ft : FT) (op : FmnxOp) (s : State) : Out :=
  performFloat (.fmnx d a b ft op) d s fun t =>
    let w := ft.fmt.bits
    flagLanes w ft.lanes fun i => fmnxLane ft.fmt op (lane w (t.g a) i) (lane w (t.g b) i)

/-- FEXP2 (R115). -/
def execFexp2 (d a : Reg) (ft : FT) (s : State) : Out :=
  performFloat (.fexp2 d a ft) d s fun t => sfuLanes fexp2Code ft (t.g a)

/-- FLOG2 (R115). -/
def execFlog2 (d a : Reg) (ft : FT) (s : State) : Out :=
  performFloat (.flog2 d a ft) d s fun t => sfuLanes flog2Code ft (t.g a)

/-- FRCP (R115). -/
def execFrcp (d a : Reg) (ft : FT) (s : State) : Out :=
  performFloat (.frcp d a ft) d s fun t => sfuLanes frcpCode ft (t.g a)

/-- FRSQ (R115). -/
def execFrsq (d a : Reg) (ft : FT) (s : State) : Out :=
  performFloat (.frsq d a ft) d s fun t => sfuLanes frsqCode ft (t.g a)

/-- FCVT (R116). -/
def execFcvt (d a : Reg) (ft : FT) (rm : RM) (fmt : Fmt) (from_ : Bool) (s : State) : Out :=
  performFloat (.fcvt d a ft rm fmt from_) d s fun t => fcvtValue ft (modeOf t rm) fmt from_ (t.g a)

/-- ICVT (R117). -/
def execIcvt (d a : Reg) (ft : FT) (rm : RM) (iw : IntWidth) (signed toInt : Bool) (s : State) : Out :=
  performFloat (.icvt d a ft rm iw signed toInt) d s fun t => icvtValue ft (modeOf t rm) iw signed toInt (t.g a)

/-- FSGN (R118). -/
def execFsgn (d a b : Reg) (ft : FT) (op : FsgnOp) (s : State) : Out :=
  performFloat (.fsgn d a b ft op) d s fun t =>
    let w := ft.fmt.bits
    flagLanes w ft.lanes fun i => fsgnLane ft.fmt op (lane w (t.g a) i) (lane w (t.g b) i)

/-- FCLASS (R119): no flag, whatever the operand. -/
def execFclass (d a : Reg) (ft : FT) (s : State) : Out :=
  performFloat (.fclass d a ft) d s fun t =>
    (BitVec.ofNat 64 (2 ^ classBit ft.fmt (lane ft.fmt.bits (t.g a) 0)), 0)

/-- FDOT (R120). -/
def execFdot (d a b c : Reg) (ft : FT) (rm : RM) (s : State) : Out :=
  performFloat (.fdot d a b c ft rm) d s fun t => fdotValue ft (modeOf t rm) (t.g a) (t.g b) (t.g c)

end Sys2Proof.Machine
end

