-- ==== Sys2Proof/Machine/Light.lean ====
section
/-! DEFINITION. Light (spec/17 R262 to R278, spec/10 R190, R191, spec/18 R288, R333, R334, R341): the grant an order requires, a fibre's
accounting, the Spool controller's decisions, the steps of a grant change, what lstat reads, colours lost and retrained, ageing, and the
watchdog. -/

namespace Sys2Proof.Machine

/-! ### The stripe set and flit boundaries (R262, R269, R273) -/

/-- Whether a colour of a fibre carries light and is neither retraining nor out for good. -/
def colourWorks (f : Fibre) (c : Nat) : Bool :=
  f.sources.getLsbD (c / 4) && (tabGet f.training c).isNone && !setHas f.dead c

/-- The stripe set of a path: its active colours, in rising order, those among them that have lost their light and leave at the next boundary (R273,
R276). -/
def stripeSet (s : State) (p : Path) : List Nat :=
  ((List.range p.entry.count).map (p.entry.first + ·)).filter fun c => setHas p.leaving c || colourWorks (s.fibre p.entry.fibre) c

/-- Whether flits flow on a path: it is UP, SETTLING or DRAINING at an order above 0, with a colour left (R288, R333). -/
def flitsFlow (s : State) (p : Path) : Bool :=
  (p.state == .up || p.state == .settling || p.state == .draining) && p.order != 0 && p.entry.valid && !(stripeSet s p).isEmpty

/-- Whether flit boundaries go on at a path: flits flow, or idle ones alone, on a lit path that is ATTESTING or, slotted, TRAINING in its guard (R273, R337). -/
def flitsLit (s : State) (p : Path) : Bool :=
  flitsFlow s p || ((p.state == .attesting || (p.state == .training && slotted s p)) && p.order != 0 && p.entry.valid && !(stripeSet s p).isEmpty)

/-- The beats of a flit on the colours of a stripe set: two bytes each, dealt in byte order round-robin from the lowest colour (R273). -/
def stripe (cs : List Nat) (bytes : List Byte) : Tab (List (Option (Byte × Byte))) :=
  let c := cs.length
  (List.range c).map fun j =>
    (cs.getD j 0, (List.range ((40 + c - 1) / c)).map fun k =>
      if k * c + j < 40 then some (bytes.getD (2 * (k * c + j)) 0, bytes.getD (2 * (k * c + j) + 1) 0) else none)

/-- A flit of 80 bytes sent on a path's stripe set (R272, R273). -/
def sendBytes (s : State) (pid : Nat) (bytes : List Byte) : State :=
  let cs := stripeSet s (s.path pid)
  s.modPath pid fun p => { p with wire := bytes, beats := stripe cs bytes }

/-- The flit time of a path in twelfths of a nanosecond: ⌈40 / c⌉ beat slots of 1 / m ns (R273). -/
def flitTime (s : State) (p : Path) : Nat :=
  let c := (stripeSet s p).length
  (40 + c - 1) / c * (12 / p.order)

/-- The first flit boundary, counted from one, that lies after the tick before now (R273). -/
def boundaryNow (now next ft : Nat) : Nat := if now < next + 6 then next else next + ((now - 6 - next) / ft + 1) * ft

/-- The flit boundary of a path that falls in this tick, if one does, in twelfths of a nanosecond; a path without flits may change at once (R269,
R273, R333). -/
def boundaryOf (s : State) (p : Path) : Option Nat :=
  let now := 6 * s.cycle.toNat
  if flitsLit s p then
    let b := boundaryNow now p.nextFlit (flitTime s p)
    if b ≤ now then some b else none
  else some now

/-- A path whose boundaries count from one of them on. -/
def Path.from (p : Path) (b : Nat) : Path := { p with nextFlit := b }

/-! ### The required grant (R264, R337) -/

/-- The receiver threshold T of an order (R264). -/
def orderThreshold (m : Nat) : Nat :=
  match m with
  | 1 => 3
  | 2 => 9
  | 3 => 21
  | 4 => 45
  | _ => 0

/-- The loss divisor of a path at a fan-out code: the entry's L or the largest measured on the circuits it uses (R264, R337). -/
def pathLoss (s : State) (p : Path) (fan : Nat) : Nat :=
  let f := s.fibre p.entry.fibre
  let ps := if f.slots.isEmpty then p.entry.peers.take (2 ^ fan) else f.slots.map (·.peer)
  ps.foldl (fun l q => max l (tabGetD f.lMeas q 0)) p.entry.L

/-- The threshold of an order on a path's fibre with what ageing has added (R318). -/
def agedThreshold (s : State) (p : Path) (m : Nat) : Nat := orderThreshold m + (s.fibre p.entry.fibre).tAdd.getD (m - 1) 0

/-- g_req(m, f) of a path, f given by its code (R264). -/
def gReq (s : State) (p : Path) (m fan : Nat) : Nat :=
  pathLoss s p fan * 2 ^ fan * (agedThreshold s p m + (s.fibre p.entry.fibre).m0 + fan)

/-- The highest order a grant supports, 0 for none. -/
def bestOrder (s : State) (p : Path) (fan g : Nat) : Nat := ([4, 3, 2, 1].find? fun m => decide (gReq s p m fan ≤ g)).getD 0

/-! ### Accounting (R265 to R267) -/

/-- The valid paths of a fibre. -/
def onFibre (s : State) (f : Nat) : List (Nat × Path) := s.spool.paths.filter fun e => e.2.entry.valid && e.2.entry.fibre == f

/-- The light a path is accounted at (R267). -/
def Path.accounted (p : Path) : Nat :=
  p.entry.count *
    match p.trans with
    | some t => (match t.step with
      | .stepC _ => t.gNew
      | _ => max t.gOld t.gNew)
    | none => p.grant

/-- A fibre's accounted total, but for one path (R267). -/
def accountedTotal (s : State) (f : Nat) (but : Option Nat) : Nat :=
  ((onFibre s f).filter fun e => some e.1 != but).foldl (fun n e => n + e.2.accounted) 0

/-- The light the other paths of a fibre will hold once their transitions are done (R265). -/
def committedTotal (s : State) (f but : Nat) : Nat :=
  ((onFibre s f).filter fun e => e.1 != but).foldl
    (fun n e => n + e.2.entry.count * if e.2.release.isSome then 0 else e.2.grant) 0

/-- The budget of a fibre not held, 0 where it is overdrawn (R190, R267). -/
def budgetLeft (s : State) (f : Nat) : Nat := (s.fibre f).budget - accountedTotal s f none

/-- Whether the light of a path's change is free (R266). -/
def lightFree (s : State) (pid : Nat) (p : Path) (g : Nat) : Bool :=
  decide (p.entry.count * g + accountedTotal s p.entry.fibre (some pid) ≤ (s.fibre p.entry.fibre).budget)

/-- Whether a path's change is a raise whose ramp has not begun (R266, R268). -/
def raisePending (p : Path) : Bool :=
  match p.trans with
  | some t => decide (t.gOld < t.gNew) && (t.step == .waiting || t.step == .stepA)
  | none => false

/-- Whether a raise of a path must wait: its light is not free, or a raise accepted earlier has not begun its ramp (R266). -/
def raiseHeld (s : State) (pid : Nat) (p : Path) (g : Nat) : Bool :=
  !lightFree s pid p g ||
    (onFibre s p.entry.fibre).any fun e => e.1 != pid && decide (e.2.acceptNo < p.acceptNo) && raisePending e.2

/-- Whether a path's change is a raise that waits (R266). -/
def raiseWaits (s : State) (pid : Nat) (p : Path) : Bool :=
  raisePending p && raiseHeld s pid p p.grant

/-! ### Link states without light (R288) -/

/-- The peers of a path that a circuit reaches now. -/
def reachedPeers (s : State) (p : Path) : List Nat :=
  let f := s.fibre p.entry.fibre
  if !f.up then []
  else if f.slots.isEmpty then (pathPeers s p).filter fun q => setHas f.reached q
  else (pathPeers s p).filter fun q => q == f.peer

/-- Whether a path's entry lists no peer: a return path (R288, R337). -/
def Path.returns (p : Path) : Bool := p.entry.peers.all fun q => q == 0xFFFF

/-- The peers whose sessions a path's state follows: those it reaches, or, a return path, those its fibre's circuits face (R288). -/
def facedPeers (s : State) (p : Path) : List Nat :=
  let f := s.fibre p.entry.fibre
  if !p.returns then reachedPeers s p else if !f.up then [] else if f.slots.isEmpty then f.reached else [f.peer]

/-- The state of a lit path whose colours are trained: UP, or ATTESTING while a peer it reaches is not attested, or DOWN where that has
failed (R284, R288). -/
def litState (s : State) (p : Path) : LinkState :=
  let open_ := (facedPeers s p).filter fun q => !(s.peer q).session
  if open_.isEmpty then .up else if open_.any fun q => (s.peer q).failed then .down else .attesting

/-- The exchange with a package begun: with no session, unless one has failed and the host has not asked anew (R284). -/
def beginExchange (s : State) (q : Nat) : State :=
  if (s.peer q).session || (s.peer q).failed then s else s.modPeer q fun x => { x with attesting := true }

/-- A path put in the state its peers give it, SETTLING in place of UP while a change runs (R268), the exchange with each unattested one started
(R284). -/
def enterLit (s : State) (pid : Nat) : State :=
  let p := s.path pid
  let st := litState s p
  let s := s.modPath pid fun p => { p with state := if st == .up && p.trans.isSome then .settling else st }
  if st == .attesting then (facedPeers s p).foldl beginExchange s else s

/-- A path whose running order its grant supports no longer, ageing having changed what is required: the order is lowered by step A alone, with an event
record, unless that was written while a change ran; one that no longer meets NRZ keeps NRZ (R277). -/
def lowerOrder (s : State) (pid : Nat) : State :=
  let p := s.path pid
  let m := max 1 (bestOrder s p p.fan p.grant)
  if p.trans.isSome ∨ p.order ≤ m then s
  else
    let t : Transition :=
      { gOld := p.grant, gNew := p.grant, mNew := m, m1 := m, fNew := p.fan, accepted := s.cycle.toNat, step := .stepA,
        interrupted := false }
    let s := s.modPath pid fun p =>
      { p with trans := some t, state := if p.state == .up then .settling else p.state, lastSettle := 0xFFFF, drop := none }
    if p.drop.isSome then s else emit s 0x0044 0 0 0 [BitVec.ofNat 64 pid, BitVec.ofNat 64 p.order, BitVec.ofNat 64 m]

/-! ### The steps of a grant change (R268) -/

/-- A transition is over: the path is UP, or DARK at grant 0; one whose link stood otherwise stays as it stands (R268, R288; log entry 31); an order
that its grant no longer supports is lowered (R277). -/
def endChange (s : State) (pid : Nat) : State :=
  let p := s.path pid
  let s := s.modPath pid fun p => { p with trans := none }
  if p.grant = 0 then s.modPath pid fun p => { p with state := .dark }
  else lowerOrder (if p.state == .settling then enterLit s pid else s) pid

/-- What follows step A, or acceptance where there is none: the ramp, a wait for light, or step C (R266, R268). -/
def afterStepA (s : State) (pid : Nat) : State :=
  let p := s.path pid
  match p.trans with
  | none => s
  | some t =>
    let now := s.cycle.toNat
    let go (step : TransStep) : State := s.modPath pid fun p => { p with trans := some { t with step := step } }
    if t.gNew = t.gOld then
      if p.order < t.mNew then go (.stepC (now + 8000)) else endChange s pid
    else if t.gOld < t.gNew then
      if raiseHeld s pid p t.gNew then go .waiting else go (.ramp (now + 8000))
    else go (.ramp (now + 2000))

/-- An accepted request begins (R268): from DARK there is no step A (log entry 31). -/
def beginChange (s : State) (pid g fan mNew : Nat) : State :=
  let p := s.path pid
  let m1 := min p.order (bestOrder s p fan (min p.grant g))
  let t : Transition :=
    { gOld := p.grant, gNew := g, mNew := mNew, m1 := m1, fNew := fan, accepted := s.cycle.toNat, step := .stepA,
      interrupted := false }
  let s := s.modPath pid fun p =>
    { p with
      grant := g
      fan := if p.order = 0 then fan else p.fan
      trans := some t
      state := if p.state == .dark || p.state == .up then .settling else p.state
      lastSettle := 0xFFFF
      acceptNo := s.spool.accepts }
  let s := { s with spool := { s.spool with accepts := s.spool.accepts + 1 } }
  if p.order != 0 && (m1 != p.order || fan != p.fan) then s else afterStepA s pid

/-- A release held behind a transition begins when that has taken its last step (R265). -/
def beginRelease (s : State) (pid : Nat) : State :=
  let p := s.path pid
  match p.trans, p.release with
  | none, some fan => beginChange (s.modPath pid fun p => { p with release := none }) pid 0 fan 0
  | _, _ => s

/-- A grant of 0 accepted (R265): in place of a raise that waits, held while the path settles, or begun. -/
def releaseLight (s : State) (pid fan : Nat) : State :=
  let p := s.path pid
  match p.trans with
  | some t =>
    if raiseWaits s pid p then
      beginChange (s.modPath pid fun p => { p with grant := t.gOld, trans := none }) pid 0 fan 0
    else s.modPath pid fun p => { p with release := some fan }
  | none => if p.grant = 0 then s else beginChange s pid 0 fan 0

/-! ### Decisions (R265, R190, R334) -/

/-- The word lgrant writes (R190). -/
def grantWord (result order fan greq left : Nat) : Word :=
  BitVec.ofNat 64 (result + order * 2 ^ 8 + fan * 2 ^ 12 + greq * 2 ^ 16 + left * 2 ^ 32)

/-- Whether a multicast on a path is started and not complete (R265). -/
def castOpen (s : State) (pid : Nat) : Bool :=
  s.cores.any fun e => e.2.engine.any fun c => c.kind == .mcast pid && c.phase != .waiting

/-- A request decided (R265): the state, and the word it is answered with. -/
def decideGrant (s : State) (pid g fan : Nat) (priv : Bool) (launch : Nat) : State × Word :=
  let p := s.path pid
  let f := p.entry.fibre
  let refuse (code greq : Nat) : State × Word := (s, grantWord code 0 fan greq (budgetLeft s f))
  if s.spool.restarting then refuse 3 0
  else if !p.entry.valid then refuse 4 0
  else if !priv && p.entry.owner != launch then refuse 4 0
  else if g = 0 then
    let s := releaseLight s pid fan
    (s, grantWord 0 0 fan 0 (budgetLeft s f))
  else if 256 < g then refuse 5 0
  else if p.trans.isSome || (castOpen s pid && fan != p.fan) then refuse 6 0
  else
    let m := bestOrder s p fan g
    if m = 0 then refuse 2 (gReq s p 1 fan)
    else if (s.fibre f).budget < p.entry.count * g + committedTotal s f pid then refuse 1 0
    else
      let greq := gReq s p m fan
      let s := beginChange s pid g fan m
      (s, grantWord 0 m fan greq (budgetLeft s f))

/-- A parked thread given the word it waits for, and resumed. -/
def answerParked (s : State) (tid : Tid) (d : Nat) (v : Word) (last : Bool) : State :=
  resumeThread (s.modThread tid fun t => t.land d v) tid (.done last)

/-- LGRANT (R190): the request goes to the Spool controller, and the thread parks for its answer. -/
def execLgrant (d a b : Reg) (fan : BitVec 3) (s : State) : Out :=
  perform (.lgrant d a b fan) s fun u t =>
    if 255 < (t.g a).toNat then finishTrap u s 0x01 (t.g a)
    else
      let q : SpoolReq :=
        .lgrant u.tid d.toNat (t.g a).toNat (t.g b).toNat fan.toNat t.privileged (tidLaunch u.tid) (headLast u.head)
      finishPark u { s.setThread u.tid (t.setPending d.toNat) with spool := { s.spool with requests := s.spool.requests ++ [q] } }
        (.reply (.done (headLast u.head)))

/-- LGRANT_DECISION (R265): the oldest request for a path of a fibre is accepted or refused. -/
def execLgrantDecision (fibre : Nat) (s : State) : Out :=
  let mine (q : SpoolReq) : Bool :=
    match q with
    | .lgrant _ _ pid .. => (s.path pid).entry.fibre == fibre
    | .circ .. => false
  match findIx mine s.spool.requests with
  | none => .next s
  | some k =>
    match s.spool.requests[k]? with
    | some (.lgrant tid d pid g fan priv launch last) =>
      let s := { s with spool := { s.spool with requests := dropIx s.spool.requests k } }
      let (s, w) := decideGrant s pid g fan priv launch
      .next (answerParked s tid d w last)
    | _ => .next s

/-- WAITING_RAISE_START (R266): the raise accepted first among those that wait starts its ramp once its light is free and no earlier one is pending. -/
def execWaitingRaiseStart (fibre : Nat) (s : State) : Out :=
  let waits (p : Path) : Bool := match p.trans with
    | some t => t.step == .waiting
    | none => false
  let waiting := (onFibre s fibre).filter fun e => waits e.2
  match argMin (fun i => (s.path i).acceptNo) (waiting.map (·.1)) with
  | none => .next s
  | some pid =>
    let p := s.path pid
    match p.trans with
    | some t =>
      if !s.spool.restarting && !raiseHeld s pid p t.gNew then
        .next (s.modPath pid fun p => { p with trans := some { t with step := .ramp (s.cycle.toNat + 8000) } })
      else .next s
    | none => .next s

/-- The bits of a colour's error window counted so far: 16 m a nanosecond at order m (R264, R275). -/
def berBits (s : State) (p : Path) (c : Nat) : Nat :=
  match tabGet (s.fibre p.entry.fibre).windows c with
  | some (n, tick) => n + 8 * p.order * (s.cycle.toNat - tick)
  | none => 0

/-- A change of order: the error windows of a path's colours go on with the bits counted so far, or begin where the path takes its first order; the
retraining of its colours restarts (R275). -/
def orderChanged (s : State) (p : Path) : State :=
  let now := s.cycle.toNat
  let mine (c : Nat) : Bool := decide (p.entry.first ≤ c ∧ c < p.entry.first + p.entry.count)
  s.modFibre p.entry.fibre fun f =>
    { f with
      windows := (stripeSet s p).foldl (fun w c => tabPut w c (if p.order = 0 then (0, now) else (berBits s p c, now))) f.windows
      training := f.training.map fun e => (e.1, if mine e.1 && e.2 != 0 then now + 1 else e.2) }

/-- ORDER_CHANGE_STEP_A (R268, R269): at a flit boundary the order and the fan-out change together; past that step, an order that ageing lowers does alone
(R277). -/
def execOrderChangeStepA (path : Nat) (s : State) : Out :=
  let p := s.path path
  match p.trans, boundaryOf s p with
  | some t, some b =>
    if s.spool.restarting then .next s
    else if t.step == .stepA then
      let s := if t.m1 = p.order then s else orderChanged s p
      let s := s.modPath path fun p => { p.from b with order := t.m1, fan := t.fNew, drop := none }
      .next (beginRelease (afterStepA s path) path)
    else
      match p.drop with
      | some m => .next ((orderChanged s p).modPath path fun p => { p.from b with order := min p.order m, drop := none })
      | none => .next s
  | _, _ => .next s

/-- RAMP_END (R268): the power stands at the new grant; step C follows where the order is to rise. -/
def execRampEnd (path : Nat) (s : State) : Out :=
  let p := s.path path
  match p.trans with
  | some t =>
    (match t.step with
     | .ramp ends =>
       if s.spool.restarting ∨ s.cycle.toNat < ends then .next s
       else if p.order < t.mNew then
         .next (s.modPath path fun p =>
           { p with trans := some { t with step := .stepC (s.cycle.toNat + if t.interrupted then 8000 else 0) } })
       else .next (beginRelease (endChange s path) path)
     | _ => .next s)
  | none => .next s

/-- ORDER_RAISE_STEP_C (R268, R269, R333): at a flit boundary the order becomes the new one; a path that was dark begins its flits here. -/
def execOrderRaiseStepC (path : Nat) (s : State) : Out :=
  let p := s.path path
  match p.trans, boundaryOf s p with
  | some t, some b =>
    (match t.step with
     | .stepC due =>
       if s.spool.restarting ∨ s.cycle.toNat < due then .next s
       else
         let s := (orderChanged s p).modPath path fun p => { p.from b with order := t.mNew, drop := none }
         .next (beginRelease (endChange s path) path)
     | _ => .next s)
  | _, _ => .next s

/-! ### Colours (R262, R275, R276) -/

/-- Whether a path has a colour. -/
def Path.hasColour (p : Path) (c : Nat) : Bool := decide (p.entry.first ≤ c ∧ c < p.entry.first + p.entry.count)

/-- The valid path of a fibre that a colour belongs to. -/
def colourPath (s : State) (fibre c : Nat) : Option Nat := ((onFibre s fibre).find? fun e => e.2.hasColour c).map (·.1)

/-- A path whose colours have changed: TRAINING when all that are left retrain, DOWN with none left, and up again when some are trained; one that drains
goes on draining (R276, R288, R290). -/
def colourState (s : State) (pid : Nat) : State :=
  let p := s.path pid
  let f := s.fibre p.entry.fibre
  let some_ := !(stripeSet s p).isEmpty
  let training := f.training.any fun e => p.hasColour e.1
  let held := match s.links.retopo with
    | some r => r.drained && setHas r.paths pid
    | none => false
  match p.state with
  | .draining => s
  | .up | .settling | .attesting =>
    if some_ then s else s.modPath pid fun p => { p with state := if training then .training else .down }
  | .training =>
    if training then s else if some_ then enterLit s pid else s.modPath pid fun p => { p with state := .down }
  | .down => if some_ && !held && (f.up || !f.slots.isEmpty) then enterLit s pid else s
  | .dark => s

/-- A fibre and a colour, source or slot in one detail word of an event record: R302 puts both in it and gives no layout (log entry 26). -/
def fibreDetail (fibre x : Nat) : Word := BitVec.ofNat 64 (fibre + x * 2 ^ 8)

/-- Colours of a fibre that begin to retrain, at once or when the Spool controller is back (R275, R278). -/
def beginTraining (s : State) (fibre : Nat) (cs : List Nat) : State :=
  s.modFibre fibre fun f =>
    { f with training := cs.foldl (fun t c => tabPut t c (if s.spool.restarting then 0 else s.cycle.toNat + 1)) f.training }

/-- BER_WINDOW_END (R275): at the end of a colour's window of 2^24 bits, a colour with more errors than the threshold is handed back at a flit boundary of its path,
with an event record. -/
def execBerWindowEnd (fibre colour errors : Nat) (s : State) : Out :=
  match colourPath s fibre colour with
  | none => .next s
  | some pid =>
    let p := s.path pid
    let now := s.cycle.toNat
    if p.order = 0 ∨ !colourWorks (s.fibre fibre) colour ∨ berBits s p colour < 2 ^ 24 then .next s
    else if errors ≤ s.host.ber then
      .next (s.modFibre fibre fun f => { f with windows := tabPut f.windows colour (0, now) })
    else
      match boundaryOf s p with
      | none => .next s
      | some b =>
      let s := beginTraining (s.modPath pid fun p => p.from b) fibre [colour]
      let s := emit s 0x0040 0 0 0 [fibreDetail fibre colour, BitVec.ofNat 64 errors]
      .next (colourState s pid)

/-- RETRAIN_COMPLETE (R275): after its time a colour rejoins at a flit boundary, or after three failures in a row stays out, with an event record. -/
def execRetrainComplete (fibre colour : Nat) (ok : Bool) (s : State) : Out :=
  let f := s.fibre fibre
  let began := tabGetD f.training colour 0
  let now := s.cycle.toNat
  let boundary : Option (Option (Nat × Nat)) := match colourPath s fibre colour with
    | some pid => (boundaryOf s (s.path pid)).map fun b => some (pid, b)
    | none => some none
  if began = 0 ∨ now + 1 < began + (Config.retrainTicks fibre colour).toNat ∨ s.spool.restarting then .next s
  else
    match boundary with
    | none => .next s
    | some at_ =>
      let settle (s : State) : State :=
        match at_ with
        | some (pid, _) => colourState s pid
        | none => s
      if ok then
        let s := match at_ with
          | some (pid, b) => s.modPath pid fun p => p.from b
          | none => s
        .next (settle (s.modFibre fibre fun f =>
          { f with
            training := tabDel f.training colour
            failures := tabDel f.failures colour
            windows := tabPut f.windows colour (0, now) }))
      else
        let n := tabGetD f.failures colour 0 + 1
        if n < 3 then
          .next (s.modFibre fibre fun f =>
            { f with failures := tabPut f.failures colour n, training := tabPut f.training colour (now + 1) })
        else
          let s := s.modFibre fibre fun f =>
            { f with
              training := tabDel f.training colour
              failures := tabDel f.failures colour
              dead := setAdd f.dead colour }
          .next (settle (emit s 0x0041 0 0 0 [fibreDetail fibre colour]))

/-- Every stream of a path replays from its first unacknowledged flit (R276). -/
def replayAll (p : Path) : Path :=
  { p with streams := p.streams.map fun e =>
      (e.1, { e.2 with resendFrom := match e.2.replay with
        | r :: _ => some r.seq
        | [] => e.2.resendFrom }) }

/-- A path some of whose colours have lost their light, at its flit boundary: they leave its stripe set, and it replays (R276). -/
def dropColours (s : State) (pid : Nat) : State :=
  let p := s.path pid
  if p.leaving.isEmpty then s
  else
    match boundaryOf s p with
    | none => s
    | some b => colourState (s.modPath pid fun p => replayAll { p.from b with leaving := [] }) pid

/-- LOSS_OF_LIGHT (R276): the loss of a source's light is detected, with an event record; its colours leave the stripe set of every path using them at
that path's next flit boundary. -/
def execLossOfLight (fibre source : Nat) (s : State) : Out :=
  let f := s.fibre fibre
  if 16 ≤ source ∨ !f.sources.getLsbD source then .next s
  else
    let cs := (List.range 4).map (4 * source + ·)
    let users := ((onFibre s fibre).filter fun e => cs.any e.2.hasColour).map (·.1)
    let s := users.foldl
      (fun s pid => s.modPath pid fun p =>
        { p with leaving := (cs.filter fun c => p.hasColour c && colourWorks f c).foldl setAdd p.leaving }) s
    let s := s.modFibre fibre fun f => { f with sources := f.sources &&& ~~~((1 : BitVec 16) <<< source) }
    .next (emit (users.foldl dropColours s) 0x0042 0 0 0 [fibreDetail fibre source])

/-- LASER_MODULE_REPLACED (R276): a source gives light again, unless it is fused off (R314), and its colours retrain. DESIGN CHOICE: which sources one of the 12 modules feeds is not modelled;
the event names one source of one fibre, and a module's replacement is as many events as it feeds sources (log entry 115). -/
def execLaserModuleReplaced (fibre source : Nat) (s : State) : Out :=
  if 16 ≤ source ∨ (s.fibre fibre).sources.getLsbD source ∨ setHas s.cfg.fusedSources (16 * fibre + source) then .next s
  else
    let s := s.modFibre fibre fun f => { f with sources := f.sources ||| ((1 : BitVec 16) <<< source) }
    .next (beginTraining s fibre
      (((List.range 4).map (4 * source + ·)).filter fun c => !setHas (s.fibre fibre).dead c))

/-! ### lstat (R191, R270, R271, R341) -/

/-- The ticks a fall in progress has left (R270). -/
def fallLeft (now : Nat) (t : Transition) : Nat :=
  if t.gNew < t.gOld then
    match t.step with
    | .stepA => t.accepted + 400 - now + 2000
    | .ramp ends => ends - now
    | _ => 0
  else 0

/-- The ticks of the falls that a raise on a fibre waits for. -/
def fallsLeft (s : State) (pid : Nat) (p : Path) (now : Nat) : Nat :=
  (onFibre s p.entry.fibre).foldl
    (fun n e => if e.1 = pid then n else match e.2.trans with
      | some t => max n (fallLeft now t)
      | none => n) 0

/-- The ticks a transition has left, as estimated (R270). -/
def settleTicks (s : State) (pid : Nat) (p : Path) (t : Transition) (now : Nat) : Nat :=
  let again := if t.interrupted && decide (p.order < t.mNew) then 8000 else 0
  match t.step with
  | .ramp ends => ends - now + again
  | .stepC due => due - now
  | .waiting => fallsLeft s pid p now + 8000 + again
  | .stepA =>
    let a := t.accepted + 400 - now
    if t.gOld < t.gNew then (if raiseHeld s pid p t.gNew then max a (fallsLeft s pid p now) else a) + 8000 + again
    else if t.gNew < t.gOld then a + 2000
    else if t.m1 < t.mNew then a + 8000
    else a

/-- The settling time of a path in units of 10 ns: rounded up, never above what was read before in the transition, held while the Spool
controller restarts (R191, R270, R278). -/
def settleUnits (s : State) (pid : Nat) (p : Path) : Nat :=
  match p.trans with
  | some t =>
    let now := if s.spool.restarting then s.spool.resetAt else s.cycle.toNat
    min p.lastSettle (max 1 ((settleTicks s pid p t now + 19) / 20))
  | none => 0

/-- The guaranteed light of a path (R271, R341). -/
def guaranteedLight (p : Path) : Nat :=
  match p.trans with
  | some t =>
    if t.gOld < t.gNew then (match t.step with
      | .stepC _ => t.gNew
      | _ => t.gOld)
    else (match t.step with
      | .stepA => t.gOld
      | _ => t.gNew)
  | none => p.grant

/-- The bound class of a path's running order (R271). -/
def boundClass (s : State) (p : Path) : Nat :=
  let l := pathLoss s p p.fan
  let f := 2 ^ p.fan
  let light := guaranteedLight p
  if p.order = 0 then 3
  else if gReq s p p.order p.fan + 2 * l * f ≤ light then 0
  else if gReq s p p.order p.fan ≤ light then 1
  else if l * f * (agedThreshold s p p.order + p.fan) ≤ light then 2
  else 3

/-- The state lstat shows of a path: SETTLING while a change of its light runs (R270; log entry 31). -/
def Path.shown (p : Path) : LinkState := if p.trans.isSome then .settling else p.state

/-- The number of a link state (R191). -/
def stateNumber : LinkState → Nat
  | .dark => 0
  | .training => 1
  | .attesting => 2
  | .up => 3
  | .settling => 4
  | .draining => 5
  | .down => 6

/-- The word lstat reads of a path (R191); of a path that is not in the table, the reset values (log entry 38). -/
def pathWord (s : State) (pid : Nat) (p : Path) : Word :=
  if !p.entry.valid then BitVec.ofNat 64 (2 * 2 ^ 52)
  else
    let base := pathLoss s p p.fan * 2 ^ 48 + (s.fibre p.entry.fibre).m0 * 2 ^ 52
    if p.shown == .dark then BitVec.ofNat 64 (base + 3 * 2 ^ 6)
    else
      BitVec.ofNat 64
        (base + stateNumber p.shown + p.order * 2 ^ 3 + boundClass s p * 2 ^ 6 + p.fan * 2 ^ 8 + p.grant * 2 ^ 16
          + (stripeSet s p).length * 2 ^ 25 + settleUnits s pid p * 2 ^ 32)

/-- The order in which the states of a link's paths are looked for (R288). -/
def linkStates : List LinkState := [.up, .settling, .attesting, .training, .draining, .down, .dark]

/-- The path that stands for the link to a package: of those that reach it (R262), in the first state any holds, the one of lowest order, then lowest id (R191,
R288). -/
def linkPath (s : State) (pkg : Nat) : Option Nat :=
  let ps := s.spool.paths.filter fun e => e.2.entry.valid && (pathPeers s e.2).contains pkg
  linkStates.findSome? fun st =>
    argMin (fun i => (s.path i).order) ((ps.filter fun e => e.2.shown == st).map (·.1))

/-- LSTAT (R191; log entry 38). -/
def execLstat (d a : Reg) (peer : Bool) (s : State) : Out :=
  perform (.lstat d a peer) s fun u t =>
    let n := (t.g a).toNat
    if (if peer then 4095 else 255) < n then finishTrap u s 0x01 (t.g a)
    else
      match if peer then linkPath s n else some n with
      | none => finishReg u s t d (BitVec.ofNat 64 (2 * 2 ^ 52))
      | some pid =>
        let p := s.path pid
        let s' := if p.trans.isSome then s.modPath pid fun q => { q with lastSettle := settleUnits s pid p } else s
        finishReg u s' t d (pathWord s pid p)

/-! ### Ageing (R277, R318) -/

/-- A path's order lowered where ageing requires it (R277, R318): with no change running, by a step A of its own; a change that stands before its step A takes a
lower order there; past it the order is lowered at the next flit boundary. Each writes an event record; the order aimed at is no higher than its grant
then supports. -/
def lowerPath (s : State) (pid : Nat) : State :=
  let p := s.path pid
  let record (s : State) (m : Nat) : State := emit s 0x0044 0 0 0 [BitVec.ofNat 64 pid, BitVec.ofNat 64 p.order, BitVec.ofNat 64 m]
  match p.trans with
  | none => lowerOrder s pid
  | some t =>
    if t.gNew = 0 then s
    else
      let mNew := min t.mNew (max 1 (bestOrder s p t.fNew t.gNew))
      if t.step = .stepA then
        let m1 := min t.m1 (max 1 (bestOrder s p t.fNew (min t.gOld t.gNew)))
        let s := s.modPath pid fun p => { p with trans := some { t with mNew := mNew, m1 := m1 } }
        if m1 < t.m1 then record s m1 else s
      else
        let m := max 1 (bestOrder s p p.fan (guaranteedLight p))
        let s := s.modPath pid fun p => { p with trans := some { t with mNew := mNew } }
        if p.drop.getD p.order ≤ m then s else record (s.modPath pid fun p => { p with drop := some m }) m

/-- The paths of a fibre, after a change of its margin, thresholds or losses (R277). -/
def lowerOrders (s : State) (fibre : Nat) : State := (onFibre s fibre).foldl (fun s e => lowerPath s e.1) s

/-- The bytes of a fibre's ageing record (R315). -/
def ageBytes (f : Fibre) : List Byte :=
  let t := (f.tAdd.getD 0 0) + (f.tAdd.getD 1 0) * 2 ^ 4 + (f.tAdd.getD 2 0) * 2 ^ 8 + (f.tAdd.getD 3 0) * 2 ^ 12
  natLE f.m0 8 ++ natLE t 8 ++ natLE (f.age.changes % 2 ^ 32) 8 ++ wordLE f.age.stamp 8 ++ natLE f.age.kind 8
    ++ List.replicate 24 0

/-- Bytes of the discovery record in host memory (R307, R315). -/
def writeDiscovery (s : State) (off : Nat) (bytes : List Byte) : State :=
  s.modHost fun h => { h with memory := h.memory.write (Config.recordAddress + off) bytes }

/-- A change written to a fibre's ageing record (R315, R318). -/
def recordAge (s : State) (fibre kind : Nat) : State :=
  let s := s.modFibre fibre fun f => { f with age := { changes := f.age.changes + 1, stamp := s.cycle, kind := kind } }
  writeDiscovery s (0x1040 + 64 * fibre) (ageBytes (s.fibre fibre))

/-- The circuit of fan-out output k: the fibre's measured circuits in order of package (R315; log entry 27). -/
def outputPeer (f : Fibre) (k : Nat) : Option Nat := (f.lMeas.map (·.1))[k]?

/-- AGEING_SCAN (R277, R318): a change within the host's bounds takes effect and is recorded. -/
def execAgeingScan (fibre : Nat) (change : AgeingChange) (s : State) : Out :=
  let f := s.fibre fibre
  if 48 ≤ fibre then .next s
  else
    match change with
    | .nothing => .next s
    | .m0 v =>
      if f.m0min ≤ v ∧ v ≤ f.m0max ∧ v ≠ f.m0 then
        .next (lowerOrders (recordAge (s.modFibre fibre fun f => { f with m0 := v }) fibre 1) fibre)
      else .next s
    | .thresholds a1 a2 a3 a4 =>
      if max (max a1 a2) (max a3 a4) ≤ f.tmax then
        .next (lowerOrders (recordAge (s.modFibre fibre fun f => { f with tAdd := [a1, a2, a3, a4] }) fibre 2) fibre)
      else .next s
    | .loss output v =>
      (match outputPeer f output with
       | some q =>
         if 1 ≤ v ∧ v ≤ f.lmax then
           .next (lowerOrders (recordAge (s.modFibre fibre fun f => { f with lMeas := tabPut f.lMeas q v }) fibre 3) fibre)
         else .next s
       | none => .next s)
    | .guardband die ps =>
      if die < 8 then .next (recordAge (s.modDie die fun d => { d with guardProposed := ps }) fibre 4) else .next s

/-! ### The watchdog (R278) -/

/-- SPOOL_WATCHDOG_RESET (R278): the controller stops, and everything it drives stands as it is. -/
def execSpoolWatchdogReset (s : State) : Out :=
  if s.spool.restarting then .next s
  else .next { s with spool := { s.spool with restarting := true, resetAt := s.cycle.toNat } }

/-- An interrupted transition taken up again: a ramp goes on for what it had left, and a rise settles a full 4.0 us before step C. -/
def Transition.takeUp (t : Transition) (resetAt now : Nat) : Transition :=
  { t with
    interrupted := decide (t.gOld < t.gNew)
    step := match t.step with
      | .ramp ends => .ramp (now + (ends - resetAt))
      | .stepC _ => .stepC (now + 8000)
      | x => x }

/-- SPOOL_RESTART (R278): every interrupted transition is completed from where it stands, and colours handed back meanwhile retrain. -/
def execSpoolRestart (s : State) : Out :=
  if !s.spool.restarting then .next s
  else
    let now := s.cycle.toNat
    let at_ := s.spool.resetAt
    let s :=
      { s with
        spool := { s.spool with
          restarting := false
          paths := s.spool.paths.map fun (e : Nat × Path) =>
            (e.1, { e.2 with trans := e.2.trans.map fun t => t.takeUp at_ now })
          fibres := s.spool.fibres.map fun (e : Nat × Fibre) =>
            (e.1, { e.2 with training := e.2.training.map fun c => (c.1, if c.2 = 0 then now + 1 else c.2) }) } }
    .next (emit s 0x0043 0 0 0 [BitVec.ofNat 64 (now - at_)])

end Sys2Proof.Machine
end

