-- ==== Sys2Proof/Machine/Links.lean ====
section
/-! DEFINITION. Flits, the Bridle, circuits and peers (spec/17 R272 to R274, spec/18 R279 to R287, spec/25 R337, R338): flit coding, flit
streams with acknowledgement and replay, the Bridle's queues and outputs, slots and windows, sessions and their keys, circ. -/

namespace Sys2Proof.Machine

/-! ### The Reed-Solomon code of a flit (R272) -/

/-- Doubling in GF(2^8) with field polynomial 0x11D. -/
def gfDouble (a : Nat) : Nat := if a < 128 then 2 * a else (2 * a) ^^^ 0x11D

/-- The product of two field elements, over the n low bits of the second. -/
def gfMulBits : Nat → Nat → Nat → Nat
  | 0, _, _ => 0
  | n + 1, a, b => (if b % 2 = 1 then a else 0) ^^^ gfMulBits n (gfDouble a) (b / 2)

/-- The product of two field elements. -/
def gfMul (a b : Nat) : Nat := gfMulBits 8 a b

/-- A power of α. -/
def gfExp : Nat → Nat
  | 0 => 1
  | n + 1 => gfDouble (gfExp n)

/-- The inverse of a nonzero element, its 254th power: the product of its 2nd, 4th, 8th, … 128th. -/
def gfInv (a : Nat) : Nat :=
  let a2 := gfMul a a
  let a4 := gfMul a2 a2
  let a8 := gfMul a4 a4
  let a16 := gfMul a8 a8
  let a32 := gfMul a16 a16
  let a64 := gfMul a32 a32
  let a128 := gfMul a64 a64
  gfMul a2 (gfMul a4 (gfMul a8 (gfMul a16 (gfMul a32 (gfMul a64 a128)))))

/-- A polynomial, highest coefficient first, at a point. -/
def gfEval (cs : List Nat) (x : Nat) : Nat := cs.foldl (fun acc c => gfMul acc x ^^^ c) 0

/-- Sums of two polynomials, lowest coefficient first. -/
def gfAdd : List Nat → List Nat → List Nat
  | [], bs => bs
  | as, [] => as
  | a :: as, b :: bs => (a ^^^ b) :: gfAdd as bs

/-- The product of two polynomials, lowest coefficient first. -/
def gfPolyMul (as bs : List Nat) : List Nat :=
  as.foldr (fun a acc => gfAdd (bs.map (gfMul a)) (0 :: acc)) []

/-- The generator polynomial, with roots α^0 to α^7, lowest coefficient first. -/
def rsGenerator : List Nat := (List.range 8).foldl (fun g i => gfPolyMul g [gfExp i, 1]) [1]

/-- The eight check symbols of 72 symbols, the first the coefficient of the highest power. -/
def rsCheck (data : List Nat) : List Nat :=
  let g := (rsGenerator.take 8).reverse
  data.foldl
    (fun r d =>
      let f := d ^^^ r.headD 0
      gfAdd (r.drop 1 ++ [0]) (g.map (gfMul f)))
    (List.replicate 8 0)

/-- The syndromes of 80 symbols: their polynomial at α^0 to α^7. -/
def syndromes (bs : List Nat) : List Nat := (List.range 8).map fun j => gfEval bs (gfExp j)

/-- Where the search for the error locator stands: locator, previous locator, its discrepancy, length, shift. -/
structure Locator where
  c : List Nat
  b : List Nat
  d : Nat
  l : Nat
  m : Nat
  deriving DecidableEq, Repr

/-- One step of the search, over syndrome n. -/
def Locator.next (k : Locator) (syn : List Nat) (n : Nat) : Locator :=
  let d := (List.range (k.l + 1)).foldl (fun acc i => acc ^^^ gfMul (k.c.getD i 0) (syn.getD (n - i) 0)) 0
  if d = 0 then { k with m := k.m + 1 }
  else
    let c := gfAdd k.c (List.replicate k.m 0 ++ k.b.map (gfMul (gfMul d (gfInv k.d))))
    if 2 * k.l ≤ n then { c := c, b := k.c, d := d, l := n + 1 - k.l, m := 1 }
    else { k with c := c, m := k.m + 1 }

/-- The error locator of syndromes. -/
def locator (syn : List Nat) : Locator :=
  (List.range 8).foldl (fun k n => k.next syn n) { c := [1], b := [1], d := 1, l := 0, m := 1 }

/-- The magnitude of the error at a locator's root, of which x is the inverse (Forney). -/
def magnitude (c syn : List Nat) (x : Nat) : Nat :=
  let y := gfInv x
  let omega := (gfPolyMul syn c).take 8
  let odd := (List.range c.length).map fun i => if i % 2 = 0 then c.getD (i + 1) 0 else 0
  gfMul x (gfMul (gfEval omega.reverse y) (gfInv (gfEval odd.reverse y)))

/-- The 80 symbols as sent, where at most four of those received are wrong (R272). -/
def rsDecode (bs : List Nat) : Option (List Nat) :=
  let syn := syndromes bs
  if syn.all (· == 0) then some bs
  else
    let k := locator syn
    let at_ := (List.range 80).filter fun p => gfEval k.c.reverse (gfInv (gfExp (79 - p))) == 0
    if k.l ≤ 4 ∧ at_.length = k.l then
      let fixed := at_.foldl (fun bs p => bs.set p (bs.getD p 0 ^^^ magnitude k.c syn (gfExp (79 - p)))) bs
      if (syndromes fixed).all (· == 0) then some fixed else none
    else none

/-- One byte into a CRC-16 with polynomial 0x1021, bit n of eight. -/
def crcBits : Nat → Nat → Nat
  | 0, c => c
  | n + 1, c => crcBits n (if c < 2 ^ 15 then 2 * c else ((2 * c) ^^^ 0x1021) % 2 ^ 16)

/-- The CRC-16 of bytes, from 0xFFFF (R272; log entry 32). -/
def crc16 (bs : List Nat) : Nat := bs.foldl (fun c b => crcBits 8 (c ^^^ (b * 2 ^ 8))) 0xFFFF

/-- A flit as received: header fields, payload, sequence number (R272). -/
structure FlitIn where
  kind : Nat
  cls : Nat
  first : Bool
  die : Nat
  len : Nat
  payload : List Byte
  seq : BitVec 16
  deriving DecidableEq, Repr

/-- The 80 bytes of a flit (R272; log entry 32). -/
def flitBytes (f : FlitIn) : List Byte :=
  let header := f.kind + f.cls * 2 ^ 4 + bitOf f.first * 2 ^ 7 + f.die * 2 ^ 8 + f.len * 2 ^ 16
  let body := (natLE header 4 ++ (f.payload ++ List.replicate (64 - f.payload.length) 0) ++ natLE f.seq.toNat 2).map fun b => BitVec.toNat b
  let coded := body ++ [crc16 body % 2 ^ 8, crc16 body / 2 ^ 8]
  (coded ++ rsCheck coded).map (BitVec.ofNat 8)

/-- A flit read from 80 bytes: the FEC first, then the CRC; none where it has failed (R272). -/
def readFlit (raw : List Byte) : Option FlitIn :=
  if raw.length ≠ 80 then none
  else
    match rsDecode (raw.map (·.toNat)) with
    | none => none
    | some bs =>
      if crc16 (bs.take 70) ≠ bs.getD 70 0 + 256 * bs.getD 71 0 then none
      else
        let h := bs.getD 0 0 + 2 ^ 8 * bs.getD 1 0 + 2 ^ 16 * (bs.getD 2 0 + 2 ^ 8 * bs.getD 3 0)
        some
          { kind := h % 16, cls := h / 2 ^ 4 % 8, first := h / 2 ^ 7 % 2 == 1, die := h / 2 ^ 8 % 2 ^ 8, len := h / 2 ^ 16
            payload := ((bs.drop 4).take 64).map (BitVec.ofNat 8)
            seq := BitVec.ofNat 16 (bs.getD 68 0 + 256 * bs.getD 69 0) }

/-! ### Streams (R273, R274) -/

/-- A stream of a path. -/
def Path.stream (p : Path) (k : Nat) : Stream := tabGetD p.streams k Stream.reset

/-- A change of a stream. -/
def modStream (s : State) (pid k : Nat) (f : Stream → Stream) : State :=
  s.modPath pid fun p => { p with streams := tabPut p.streams k (f (p.stream k)) }

/-- The stream a path sends data from now: its one stream while its circuits stand and are confirmed, or, slotted, that of the slot's peer within its window
(R282, R337). -/
def sendingStream (s : State) (p : Path) : Option Nat :=
  let f := s.fibre p.entry.fibre
  if f.slots.isEmpty then
    let qs := reachedPeers s p
    if !qs.isEmpty && qs.all fun q => setHas f.confirmed q then some 0 else none
  else
    match f.slots[f.slotIx]? with
    | some x =>
      if f.window == .opened && decide (s.cycle.toNat < f.upTick + x.dur) && p.entry.peers.contains f.peer then some (f.peer + 1)
      else none
    | none => none

/-- The receivers of a path's stream. -/
def receivers (s : State) (p : Path) (k : Nat) : List Nat := if k = 0 then pathPeers s p else [k - 1]

/-- Whether a path hears a peer, and may answer it, now: its circuit stands, confirmed and attested, and, slotted, within the window (R282, R284,
R285). -/
def hears (s : State) (p : Path) (q : Nat) : Bool :=
  let f := s.fibre p.entry.fibre
  f.up && setHas f.confirmed q && (s.peer q).session &&
    (if f.slots.isEmpty then setHas f.reached q
     else f.window == .opened && f.peer == q && match f.slots[f.slotIx]? with
       | some x => decide (s.cycle.toNat < f.upTick + x.dur)
       | none => false)

/-- Whether the keys of a stream's receivers may number one item more (R287). -/
def keysLast (s : State) (qs : List Nat) : Bool := qs.all fun q => decide ((s.peer q).txCount < 2 ^ 48)

/-- The 80 bytes of a flit of an item, its payload encrypted (R272, R287). -/
def FlitRec.bytes (f : FlitRec) : List Byte :=
  let payload := match f.under with
    | some (q, key, n) => (List.range 64).map fun i => f.payload.getD i 0 ^^^ Config.keystream q true key n (64 * f.place + i)
    | none => f.payload
  flitBytes { kind := f.kind, cls := f.cls, first := f.first, die := f.die, len := f.len, payload := payload, seq := f.seq }

/-- The 80 bytes of a flit without an item: idle, an acknowledgement or a nak (R272, R274; log entry 32). -/
def bareFlit (kind : Nat) (seq : BitVec 16) : List Byte :=
  flitBytes { kind := kind, cls := 0, first := false, die := 0, len := 0, payload := [], seq := seq }

/-- The flits of an item put under a peer's outgoing key and its next item number, their last 16 bytes its tag (R287; log entry 95). -/
def sealFlits (s : State) (q : Nat) (fs : List FlitRec) : List FlitRec :=
  let x := s.peer q
  let plain := (fs.map (·.payload)).flatten
  let body := plain.take (plain.length - 16)
  let bytes := body ++ (List.range 16).map (Config.gcmTag q true x.txKey x.txCount body)
  (List.range fs.length).zip fs |>.map fun e =>
    { e.2 with payload := (bytes.drop (64 * e.1)).take 64, under := some (q, x.txKey, x.txCount) }

/-- The item that begins at flit f, of a stream from place i of its replay buffer or queue on, sealed under the key of its first receiver and counted under
the keys of all, unless it is sealed already (R287; log entry 95). -/
def sealAt (s : State) (pid k i : Nat) (qs : List Nat) : State :=
  let st := (s.path pid).stream k
  let all := st.replay ++ st.queue
  match all[i]?, qs with
  | some f, q :: _ =>
    if f.under.isSome then s
    else
      let n := f.len - f.place
      let rest := all.drop i
      let out := all.take i ++ sealFlits s q (rest.take n) ++ rest.drop n
      let s := modStream s pid k fun st => { st with replay := out.take st.replay.length, queue := out.drop st.replay.length }
      qs.foldl (fun s q => s.modPeer q fun x => { x with txCount := x.txCount + 1 }) s
  | _, _ => s

/-- A new flit of a stream numbered, sent, and kept for replay (R274). -/
def sendFlit (s : State) (pid k : Nat) (qs : List Nat) : State :=
  let s := sealAt s pid k ((s.path pid).stream k).replay.length qs
  let st := (s.path pid).stream k
  match st.queue with
  | [] => s
  | f :: rest =>
    let f := { f with seq := st.next, unacked := qs }
    sendBytes (modStream s pid k fun st =>
      { st with queue := rest, next := st.next + 1, replay := if qs.isEmpty then st.replay else st.replay ++ [f] }) pid f.bytes

/-- The flit of a stream's replay that is due sent again (R274), under new keys where its session has ended since it was sent (R287). -/
def resendFlit (s : State) (pid k : Nat) (qs : List Nat) (q : BitVec 16) : State :=
  match findIx (fun (r : FlitRec) => r.seq == q) ((s.path pid).stream k).replay with
  | none => modStream s pid k fun st => { st with resendFrom := none }
  | some i =>
    let s := sealAt s pid k i qs
    let s := modStream s pid k fun st =>
      { st with resendFrom := if st.replay.any fun r => r.seq == q + 1 then some (q + 1) else none }
    match ((s.path pid).stream k).replay[i]? with
    | some f => sendBytes s pid f.bytes
    | none => s

/-- The receiver's part of a path that wants to be sent: the stream of a peer it hears for which a nak, or an acknowledgement, is due (R274). -/
def dueStream (s : State) (p : Path) (due : Stream → Bool) : Option Nat :=
  (p.streams.find? fun e => e.1 != 0 && due e.2 && hears s p (e.1 - 1)).map (·.1)

/-- The number an acknowledgement names: the highest received in order, short of an item whose tag is still to be checked, unless that is longer than a
replay buffer (R274, R287; log entry 95). -/
def Stream.acked (st : Stream) : BitVec 16 := st.expect - 1 - (if 1024 < st.partLen then 0 else BitVec.ofNat 16 st.partItem.length)

/-- A flit sent where there is no data to send: an acknowledgement if one is due, else an idle flit (R273, R274; log entry 95). -/
def sendIdle (s : State) (pid : Nat) : State :=
  let p := s.path pid
  match dueStream s p (·.ackDue) with
  | some k =>
    sendBytes (modStream s pid k fun st => { st with ackDue := false }) pid (bareFlit 2 (p.stream k).acked)
  | none => sendBytes s pid (bareFlit 0 0)

/-- The flit a path sends at a boundary: a nak that is due, a replayed flit, a new one where the replay buffer and the keys have room for it, or what
`sendIdle` sends (R274; log entry 95). -/
def sendNext (s : State) (pid : Nat) : State :=
  let p := s.path pid
  match dueStream s p (·.nakDue) with
  | some k =>
    sendBytes (modStream s pid k fun st => { st with nakDue := false }) pid (bareFlit 3 (p.stream k).expect)
  | none =>
    match sendingStream s p with
    | none => sendIdle s pid
    | some k =>
      let st := p.stream k
      let qs := receivers s p k
      match st.resendFrom with
      | some q => resendFlit s pid k qs q
      | none =>
        if !st.queue.isEmpty && decide (st.replay.length < 1024) && keysLast s qs then sendFlit s pid k qs else sendIdle s pid

/-- FLIT_TRANSMIT (R269, R273, R274): in a tick that a flit boundary falls in, a path sends one flit, an idle one while it is lit and carries nothing. -/
def execFlitTransmit (path : Nat) (s : State) : Out :=
  let s := dropColours s path
  let p := s.path path
  if !flitsLit s p then .next s
  else
    match boundaryOf s p with
    | none => .next s
    | some b =>
      let s' := s.modPath path fun y => y.from (b + flitTime s p)
      .next (if flitsFlow s p then sendNext s' path else sendBytes s' path (bareFlit 0 0))

/-- Whether sequence number a is not after b. -/
def seqUpTo (a b : BitVec 16) : Bool := decide ((b - a).toNat < 2 ^ 15)

/-- The stream that a peer's acknowledgements are about. -/
def ackStream (s : State) (p : Path) (peer : Nat) : Nat := if (s.fibre p.entry.fibre).slots.isEmpty then 0 else peer + 1

/-- ACK (R274, R337): from a peer the path hears, flits that every receiver has acknowledged leave the replay buffer. -/
def execAck (path peer : Nat) (seq : BitVec 16) (s : State) : Out :=
  let p := s.path path
  let k := ackStream s p peer
  if !hears s p peer ∨ !seqUpTo seq ((p.stream k).next - 1) then .next s
  else
    .next (modStream s path k fun st =>
      let replay := (st.replay.map fun r => if seqUpTo r.seq seq then { r with unacked := r.unacked.erase peer } else r).filter
        fun r => !r.unacked.isEmpty
      { st with
        replay := replay
        resendFrom := match st.resendFrom, replay with
          | some q, r :: _ => some (if seqUpTo r.seq q then q else r.seq)
          | _, _ => none })

/-- NAK (R274, R337): for a peer the path hears, the transmitter replays go-back-N from the named flit; one that the current replay covers is ignored. -/
def execNak (path peer : Nat) (seq : BitVec 16) (s : State) : Out :=
  let p := s.path path
  let k := ackStream s p peer
  let st := p.stream k
  if hears s p peer && st.resendFrom.isNone && st.replay.any fun r => r.seq == seq then
    .next (modStream s path k fun st => { st with resendFrom := some seq })
  else .next s

/-! ### Sessions (R284, R285, R287) -/

/-- The valid paths that reach a package, and the return paths of fibres whose circuits face it (R262, R288). -/
def pathsTo (s : State) (pkg : Nat) : List Nat :=
  (s.spool.paths.filter fun e =>
    e.2.entry.valid && ((pathPeers s e.2).contains pkg || (e.2.returns && (facedPeers s e.2).contains pkg))).map (·.1)

/-- A path whose flits sealed under a peer's key are to be sealed anew (R287). -/
def Path.unsealed (p : Path) (peer : Nat) : Path :=
  let open_ (f : FlitRec) : FlitRec := match f.under with
    | some (q, _, _) => if q = peer then { f with under := none } else f
    | none => f
  { p with streams := p.streams.map fun e => (e.1, { e.2 with replay := e.2.replay.map open_, queue := e.2.queue.map open_ }) }

/-- A path that is up goes ATTESTING: its session has ended (R288). -/
def unattest (s : State) (pid : Nat) : State :=
  s.modPath pid fun p =>
    { p with state := match p.state with
      | .up | .settling => .attesting
      | x => x }

/-- A session with a peer ends, no circuit to it stays confirmed, and its paths that are up go ATTESTING (R284, R285, R288); the exchange begins again now or at the next circuit. -/
def endSession (s : State) (peer : Nat) (again : Bool) : State :=
  let s := s.modPeer peer fun x => { x with session := false, attesting := again }
  let s := { s with spool := { s.spool with
    fibres := s.spool.fibres.map fun e => (e.1, { e.2 with confirmed := setDel e.2.confirmed peer })
    paths := s.spool.paths.map fun e => (e.1, e.2.unsealed peer) } }
  (pathsTo s peer).foldl unattest s

/-- An item's payload decrypted under a peer's receive key (R287; log entry 12). -/
def decrypt (peer : Nat) (x : Peer) (bytes : List Byte) : List Byte :=
  (List.range bytes.length).map fun i => bytes.getD i 0 ^^^ Config.keystream peer false x.rxKey x.rxCount i

/-- Whether the last 16 bytes of a decrypted item are its tag (R287; log entry 12). -/
def tagOk (peer : Nat) (x : Peer) (plain : List Byte) : Bool :=
  let n := plain.length - 16
  plain.drop n == (List.range 16).map (Config.gcmTag peer false x.rxKey x.rxCount (plain.take n))

/-- A data flit accepted in order: its payload joins the item's, and a whole item is decrypted and its tag checked, an acknowledgement of it due then; one
whose tag fails is discarded, the session ends, the receiving path too goes ATTESTING, and the item is asked for again from its first flit by a nak, which
goes out under the new session (R287). -/
def acceptFlit (s : State) (pid peer : Nat) (f : FlitIn) : State :=
  let k := peer + 1
  let x := s.peer peer
  let part := (if f.first then [] else ((s.path pid).stream k).partItem) ++ [f.payload]
  let s := modStream s pid k fun st =>
    { st with expect := st.expect + 1, nakked := false, nakDue := false, ackDue := st.ackDue || decide (1024 < f.len), partItem := part, partLen := f.len }
  if part.length < f.len then s
  else
    let plain := decrypt peer x part.flatten
    if tagOk peer x plain then
      (modStream s pid k fun st =>
        { st with
          partItem := []
          ackDue := true
          whole := st.whole ++ [{ cls := f.cls, die := f.die, bytes := plain.take (plain.length - 16) }] }).modPeer peer fun y =>
        { y with rxCount := y.rxCount + 1 }
    else
      let s := modStream s pid k fun st =>
        { st with partItem := [], nakked := true, nakDue := true, expect := st.expect - BitVec.ofNat 16 part.length }
      unattest (endSession (emit s 0x0053 0 0 0 [BitVec.ofNat 64 peer]) peer true) pid

/-- FLIT_RECEIVE (R272, R274, R282, R283): from a peer the path hears, data in order is taken and an acknowledgement falls due; a failed flit is named in
a nak, and what follows is discarded until it comes intact; a number received already is discarded. -/
def execFlitReceive (path peer : Nat) (raw : List Byte) (s : State) : Out :=
  let p := s.path path
  let k := peer + 1
  if !flitsFlow s p ∨ !hears s p peer then .next s
  else
    match readFlit raw with
    | none => .next (modStream s path k fun st => { st with nakked := true, nakDue := true })
    | some f =>
      if f.kind ≠ 1 then .next s
      else if f.seq = (p.stream k).expect then .next (acceptFlit s path peer f)
      else if seqUpTo f.seq ((p.stream k).expect - 1) then .next (modStream s path k fun st => { st with ackDue := true })
      else if (p.stream k).nakked then .next s
      else .next (modStream s path k fun st => { st with nakked := true, nakDue := true })

/-- KEY_UPDATE (R287): a direction whose item counter has reached 2^48 takes a new key. -/
def execKeyUpdate (peer : Nat) (outgoing : Bool) (s : State) : Out :=
  let x := s.peer peer
  if !x.session then .next s
  else if outgoing then
    (if 2 ^ 48 ≤ x.txCount then .next (s.modPeer peer fun x => { x with txKey := x.txKey + 1, txCount := 0 }) else .next s)
  else if 2 ^ 48 ≤ x.rxCount then .next (s.modPeer peer fun x => { x with rxKey := x.rxKey + 1, rxCount := 0 })
  else .next s

/-- Leaves of the identity used, and the record when few are left (R286). -/
def useLeaves (s : State) (n : Nat) : State :=
  let used := min (2 ^ 20) (s.links.used + n)
  let low := decide (s.links.used < 2 ^ 20 - 4096) && decide (2 ^ 20 - 4096 ≤ used)
  let s := { s with links := { s.links with used := used } }
  if low then emit s 0x0052 0 0 0 [BitVec.ofNat 64 used] else s

/-- Whether a fibre's circuit faces a package. -/
def Fibre.faces (f : Fibre) (q : Nat) : Bool := f.up && (if f.slots.isEmpty then setHas f.reached q else f.peer == q)

/-- Whether a fibre's circuit carries the exchange with a package: it faces it, and no tags on it have failed to match (R284, R285). -/
def Fibre.attests (f : Fibre) (q : Nat) : Bool := f.faces q && !setHas f.barred q

/-- Whether some circuit to a package is up that carries the exchange. -/
def circuitTo (s : State) (q : Nat) : Bool := s.spool.fibres.any fun e => e.2.attests q

/-- The leaves a whole exchange uses, one at least (R284, R286; log entry 29). -/
def wholeLeaves : Nat := max 1 Config.exchangeLeaves.toNat

/-- ATTESTATION_EXCHANGE (R284, R286): while a circuit to the peer is up, the exchange with it ends; measurements on the allow list bring the session and its paths up, anything
else takes them DOWN, with an event record; one that fails has made no more signatures than a whole one (log entry 29). -/
def execAttestationExchange (peer : Nat) (digest : Nat) (ok : Bool) (s : State) : Out :=
  if !(s.peer peer).attesting ∨ !circuitTo s peer then .next s
  else
    let done := ok && decide (s.links.used + wholeLeaves ≤ 2 ^ 20) && s.links.allow.contains digest
    let s := useLeaves s (if done then wholeLeaves else min wholeLeaves (Config.failedLeaves peer s.links.used).toNat)
    if done then
      let s := s.modPeer peer fun x =>
        { x with
          session := true
          sid := x.sid + 1
          confirmKey := x.confirmKey + 1
          attesting := false
          failed := false
          txKey := x.txKey + 1
          txCount := 0
          rxKey := x.rxKey + 1
          rxCount := 0 }
      let s := { s with spool := { s.spool with
        fibres := s.spool.fibres.map fun e => (e.1, if e.2.attests peer then { e.2 with confirmed := setAdd e.2.confirmed peer } else e.2) } }
      .next ((pathsTo s peer).foldl
        (fun s pid => if (s.path pid).state == .attesting then enterLit s pid else s) s)
    else
      let s := s.modPeer peer fun x => { x with attesting := false, failed := true }
      let s := (pathsTo s peer).foldl
        (fun s pid => if (s.path pid).state == .attesting then s.modPath pid fun p => { p with state := .down } else s) s
      .next (emit s 0x0051 0 0 0 [BitVec.ofNat 64 peer])

/-! ### The Bridle (R279, R280, R283) -/

/-- Whether an item is what a whole item received may stand for: its class and die, and, a write's, its bytes after the header (R335; log entry 33). -/
def itemMatches (x : Item) (w : WholeItem) : Bool :=
  w.cls == x.cls && w.die == x.dst % 8 &&
    match x.body with
    | .write _ _ _ _ bs => (w.bytes.drop 16).take bs.length == bs
    | _ => true

/-- The Bridle's queue an item that has come over a link goes to: that of its die of this package, or of another package (R279). -/
def itemQueue (s : State) (x : Item) : Nat := if ownPackage s x.dst then localQueue (x.dst % 8) else x.dst / 8

/-- An item that has come over a link put in its queue (R279). -/
def placeItem (s : State) (x : Item) : State :=
  { s with links := { s.links with queues := s.links.queues ++ [{ item := x, dest := itemQueue s x, since := s.cycle.toNat }] } }

/-- BRIDLE_ITEM_RECEIVE (R279): an item received whole joins its destination queue, if that has room (log entry 33). -/
def execBridleItemReceive (item : Item) (s : State) : Out :=
  let found := s.spool.paths.findSome? fun e =>
    (e.2.streams.find? fun t => match t.2.whole with
      | w :: _ => itemMatches item w
      | [] => false).map fun t => (e.1, t.1)
  match found with
  | none => .next s
  | some (pid, k) =>
    if queueFull s (itemQueue s item) item.body then .next s
    else .next (placeItem (modStream s pid k fun st => { st with whole := st.whole.drop 1 }) item)

/-- The stream by which a path reaches a next hop of a package now (R280, R282, R337); items for what a topology change affects stay queued (R290). -/
def reachStream (s : State) (p : Path) (pkg : Nat) : Option Nat :=
  let f := s.fibre p.entry.fibre
  let hops := (nextHops s pkg).filter fun q => !affected s q
  if !flitsFlow s p || p.state == .draining || affected s pkg then none
  else
    match sendingStream s p with
    | some 0 => if (reachedPeers s p).any fun q => hops.contains q then some 0 else none
    | some k => if hops.contains f.peer then some k else none
    | none => none

/-- The flits in a path's send queue. -/
def Path.queued (p : Path) : Nat := p.streams.foldl (fun n e => n + e.2.queue.length) 0

/-- The path an item for a package takes: of those that reach a next hop, the one with the fewest flits queued, then the lowest id (R280). -/
def chosenPath (s : State) (pkg : Nat) : Option Nat :=
  argMin (fun i => (s.path i).queued)
    ((s.spool.paths.filter fun e => (reachStream s e.2 pkg).isSome).map (·.1))

/-- The path that takes the head item of a package's queue now: of a multicast on a slotted path that path, in the windows of the package (R189, R337). -/
def headPath (s : State) (q : QueuedItem) : Option Nat :=
  match q.via with
  | some pid =>
    let p := s.path pid
    if flitsFlow s p && p.state != .draining && !affected s q.dest && sendingStream s p == some (q.dest + 1) then some pid else none
  | none => chosenPath s q.dest

/-- The stream of a path that takes an item. -/
def takingStream (s : State) (pid : Nat) (q : QueuedItem) : Option Nat :=
  if q.via.isSome then (if headPath s q = some pid then some (q.dest + 1) else none) else reachStream s (s.path pid) q.dest

/-- The nonempty queues an output may serve: their packages with the place and waiting time of their head items, in order of package. -/
def outputHeads (s : State) (pid : Nat) : List (Nat × Nat × Nat) :=
  let pkgs := s.links.queues.foldl (fun l q => setAdd l q.dest) []
  pkgs.filterMap fun pkg =>
    match findIx (fun (q : QueuedItem) => q.dest == pkg) s.links.queues with
    | some k =>
      (match s.links.queues[k]? with
       | some q => if headPath s q = some pid then some (pkg, k, s.cycle.toNat - q.since) else none
       | none => none)
    | none => none

/-- The queue an output serves next: the oldest head that has waited more than 64 us, else round-robin (R280). -/
def nextQueue (s : State) (pid : Nat) : Option (Nat × Nat × Nat) :=
  let heads := outputHeads s pid
  let old := heads.filter fun h => decide (128000 < h.2.2)
  match old with
  | h :: t => some (t.foldl (fun b x => if b.2.2 < x.2.2 then x else b) h)
  | [] =>
    match heads.find? fun h => decide ((s.path pid).served < h.1) with
    | some h => some h
    | none => heads.head?

/-- The engine command of this package an item belongs to. -/
def itemCommand (s : State) (x : Item) : Option Nat :=
  if !ownPackage s x.src then none
  else
    match x.body with
    | .write _ _ cmd _ _ => some cmd
    | .marker _ id => some id
    | .arrival _ _ _ (some c) => some c.2
    | .contribution _ _ _ cmd .. => some cmd
    | _ => none

/-- BRIDLE_OUTPUT_SERVE (R280, R283): an output takes the item its service order names and sends its flits after those queued. -/
def execBridleOutputServe (path k : Nat) (s : State) : Out :=
  match nextQueue s path, s.links.queues[k]? with
  | some (pkg, k', _), some q =>
    if k ≠ k' then .next s
    else
      match takingStream s path q with
      | none => .next s
      | some st =>
        let flits := itemAsFlits (itemCommand s q.item) q.item
        let s := { s with links := { s.links with queues := dropIx s.links.queues k } }
        let s := s.modPath path fun p => { p with served := pkg }
        .next (modStream s path st fun x => { x with queue := x.queue ++ flits })
  | _, _ => .next s

/-! ### Circuits and slots (R281, R282, R337) -/

/-- The slot a slotted fibre stands at. -/
def Fibre.slot (f : Fibre) : Option SlotEntry := f.slots[f.slotIx]?

/-- A guard interval in ticks; 0 stands for 3,000 (R192; log entry 37). -/
def SlotEntry.ticks (x : SlotEntry) : Nat := if x.guard = 0 then 3000 else x.guard

/-- A path of a fibre whose circuit has come up: a lit one trains its colours, on a slotted fibre in the guard, unless it is up already; its flit
boundaries there count from the circuit-up (R282, R288, R337). -/
def pathUp (s : State) (fibre pid : Nat) : State :=
  let p := s.path pid
  let f := s.fibre fibre
  if p.grant = 0 ∨ p.state = .draining then s
  else if f.slots.isEmpty then
    let cs := stripeSet s p
    if cs.isEmpty then
      (if f.training.any fun e => p.hasColour e.1 then s.modPath pid fun p => { p with state := .training } else s)
    else beginTraining (s.modPath pid fun p => { p with state := .training }) fibre cs
  else
    let s := s.modPath pid fun p => p.from (6 * f.upTick)
    match p.state with
    | .down | .training => s.modPath pid fun p => { p with state := .training }
    | _ => enterLit s pid

/-- CIRCUIT_UP (R281, R282, R337): light and clock after darkness; a committed table becomes active, a slotted fibre moves to its next slot, and
the circuit's loss is measured; the exchange with a package that is not attested begins (R284). On a slotted fibre one without darkness before it is
ignored. -/
def execCircuitUp (fibre : Nat) (peer loss : Nat) (s : State) : Out :=
  let f := s.fibre fibre
  let now := s.cycle.toNat
  let standing := f.slots.isEmpty && f.committed.isNone
  let early := f.up && (f.slot.isSome || setHas f.reached peer)
  if 48 ≤ fibre ∨ 4096 ≤ peer ∨ loss = 0 ∨ 15 < loss ∨ early then .next s
  else
    let slots := f.committed.getD f.slots
    let lit := (onFibre s fibre).any fun e => decide (0 < e.2.grant)
    let ix := if f.committed.isSome then 0 else if f.slots.isEmpty then 0 else (f.slotIx + 1) % f.slots.length
    let s := s.modFibre fibre fun f =>
      { f with
        slots := slots
        committed := none
        slotIx := ix
        up := true
        upTick := if standing && f.up then f.upTick else now
        peer := ((slots[ix]?).map (·.peer)).getD peer
        reached := if standing && f.up then setAdd f.reached peer else [peer]
        window := .closed
        confirmed := if standing && f.up then setDel f.confirmed peer else []
        ups := f.ups + 1
        litUp := lit
        barred := if standing && f.up then setDel f.barred peer else []
        lMeas := tabPut f.lMeas peer loss }
    let s := beginExchange s ((slots[ix]?.map (·.peer)).getD peer)
    let s := ((onFibre s fibre).map (·.1)).foldl (fun s pid => pathUp s fibre pid) s
    .next (lowerOrders s fibre)

/-- CIRCUIT_DOWN (R281, R282): the clock colour is lost; a window closes at once, and a standing fibre's paths have no light left. -/
def execCircuitDown (fibre : Nat) (s : State) : Out :=
  let f := s.fibre fibre
  if !f.up then .next s
  else
    let s := s.modFibre fibre fun f => { f with up := false, reached := [], window := .closed, confirmed := [] }
    if !f.slots.isEmpty then .next s
    else
      .next (((onFibre s fibre).map (·.1)).foldl
        (fun s pid => s.modPath pid fun p =>
          { p with state := match p.state with
            | .dark => .dark
            | .draining => .draining
            | _ => .down }) s)

/-- WINDOW_OPEN (R282): at the guard's end, before the slot's end, the colours that work are trained (R288), and the window opens if the peer's key is
confirmed, or when it is. -/
def execWindowOpen (fibre : Nat) (s : State) : Out :=
  let f := s.fibre fibre
  match f.slot with
  | some x =>
    let now := s.cycle.toNat
    if f.up && f.window == .closed && decide (f.upTick + x.ticks ≤ now) && decide (now < f.upTick + x.dur) then
      let s := (onFibre s fibre).foldl (fun s e => if e.2.state == .training && !(stripeSet s e.2).isEmpty then enterLit s e.1 else s) s
      .next (if setHas f.confirmed f.peer then s.modFibre fibre fun f => { f with window := .opened } else s)
    else .next s
  | none => .next s

/-- WINDOW_CLOSE (R282): at the slot's end only idle flits are sent, until the next circuit. -/
def execWindowClose (fibre : Nat) (s : State) : Out :=
  let f := s.fibre fibre
  match f.slot with
  | some x =>
    if f.up && f.window != .tail && decide (f.upTick + x.dur ≤ s.cycle.toNat) then
      .next (s.modFibre fibre fun f => { f with window := .tail })
    else .next s
  | none => .next s

/-- The part's own tag for a peer on a fibre's circuit (R285; log entry 12). -/
def ownTag (s : State) (f : Fibre) (peer : Nat) : List Byte :=
  (List.range 16).map (Config.confirmTag peer (s.peer peer).sid (s.peer peer).confirmKey f.ups)

/-- KEY_CONFIRMATION (R283, R285, R337): tags of both ends, where both are lit; on a slotted fibre an end that was not lit at the circuit-up has sent none in this
slot. Another package than the slot names leaves the slot without data, with an event record; tags that do not match end the session, and only the next
circuit to the peer runs the exchange. -/
def execKeyConfirmation (fibre peer : Nat) (peerLit tagsMatch : Bool) (s : State) : Out :=
  let f := s.fibre fibre
  let lit := (f.slots.isEmpty || f.litUp) && (onFibre s fibre).any fun e => decide (0 < e.2.grant)
  if !f.up ∨ setHas f.confirmed peer ∨ !lit ∨ !peerLit then .next s
  else if !f.slots.isEmpty ∧ peer ≠ f.peer then
    .next (emit (s.modFibre fibre fun f => { f with window := .tail }) 0x0050 0 0 0
      [fibreDetail fibre f.slotIx, BitVec.ofNat 64 peer])
  else if !(s.peer peer).session ∨ !f.faces peer then .next s
  else
    let s := s.modFibre fibre fun f => { f with tag := ownTag s f peer }
    if tagsMatch then .next (s.modFibre fibre fun f => { f with confirmed := setAdd f.confirmed peer })
    else .next ((endSession s peer false).modFibre fibre fun f => { f with barred := setAdd f.barred peer })

/-- KEY_CONFIRMATION with the peer's tag: it matches where it is the one this part sends (R285). -/
def execKeyTag (fibre peer : Nat) (tag : List Byte) (s : State) : Out :=
  execKeyConfirmation fibre peer true (tag == ownTag s (s.fibre fibre) peer) s

/-! ### circ (R192) -/

/-- A slot from its 16 bytes, and whether it is malformed (R192; log entry 37). -/
def readSlot (bs : List Byte) : SlotEntry × Bool :=
  let w := leWord (bs.take 8)
  let v := leWord ((bs.drop 8).take 8)
  let x : SlotEntry := { peer := w.slice 11 0, port := w.slice 23 16, dur := w.slice 63 32, guard := v.slice 31 0 }
  (x, w.slice 15 12 != 0 || w.slice 31 24 != 0 || v.slice 63 32 != 0 || decide (47 < x.port) || decide (x.dur ≤ x.ticks))

/-- A table of n slots from its bytes, and whether it is malformed. -/
def readSlots (bs : List Byte) (n : Nat) : List SlotEntry × Bool :=
  let l := (List.range n).map fun k => readSlot ((bs.drop (16 * k)).take 16)
  (l.map (·.1), l.any (·.2))

/-- The start of a range of n bytes that lies outside own L-store, beyond lcap, or outside a readable window (R192; log entry 52). -/
def firstUnreadable (s : State) (g : Nat) (ea : Word) (n : Nat) : Option Word :=
  if !eaLocal ea || decide (s.cfg.lcap < ea.toNat) || (n != 0 && !lstoreOk s g ea.toNat n true false) then some ea else none

/-- CIRC (R192): the operands are checked at issue, the table is read, and the thread parks for the Spool controller's answer. -/
def execCirc (d a b : Reg) (fibre : BitVec 6) (commit : Bool) (s : State) : Out :=
  perform (.circ d a b fibre commit) s fun u t =>
    let ea := t.g a
    let n := (t.g b).toNat
    if 64 < n then finishTrap u s 0x01 (t.g b)
    else if ea.slice 2 0 ≠ 0 then finishTrap u s 0x05 ea
    else
      match firstUnreadable s t.core ea (16 * n) with
      | some v => finishTrap u s 0x06 v
      | none =>
        let (slots, bad) := readSlots (lread s t.core ea.toNat (16 * n)) n
        let q : SpoolReq := .circ u.tid d.toNat fibre.toNat commit slots bad (headLast u.head)
        reading u s t [(ea.toNat, 16 * n)]
          (finishPark u { s.setThread u.tid (t.setPending d.toNat) with spool := { s.spool with requests := s.spool.requests ++ [q] } }
            (.reply (.done (headLast u.head))))

/-- SLOT_TABLE_ANSWER (R192): BUSY, RETOPO, MALFORMED or OK; only OK stages the table, and with commit commits it (log entry 36). -/
def execSlotTableAnswer (k : Nat) (s : State) : Out :=
  match s.spool.requests[k]? with
  | some (.circ tid d fibre commit slots bad last) =>
    let s := { s with spool := { s.spool with requests := dropIx s.spool.requests k } }
    let code := if s.spool.restarting then 3 else if s.links.retopo.isSome then 7 else if bad then 1 else 0
    let s :=
      if code = 0 then
        s.modFibre fibre fun f =>
          { f with staged := some slots, committed := if commit then some slots else f.committed }
      else s
    .next (answerParked s tid d (BitVec.ofNat 64 code) last)
  | _ => .next s

end Sys2Proof.Machine
end

