-- ==== Sys2Proof/Machine/Strokes.lean ====
section
/-! DEFINITION. Strokes (spec/10 R193 to R195, spec/02 R34, spec/11 R202): capture, the sequencer's repetitions, and the trap a repetition
raised. -/

namespace Sys2Proof.Machine

/-- The instructions a stroke body may hold (R194). -/
def bodyPermitted : Instr → Bool
  | .nop | .pmovPg _ | .ld .. | .st .. => true
  | .add .. | .sub .. | .addi .. | .mul .. | .div .. | .rem .. | .logic .. | .logi .. | .shift .. | .shifti .. | .li ..
  | .mnx .. | .lea .. | .bits .. | .sel .. | .madd .. => true
  | .bfx .. | .bfi .. | .vadd .. | .vsub .. | .vmul .. | .vmnx .. | .vshf .. | .vred .. | .vcmp .. => true
  | .fadd .. | .fsub .. | .fmul .. | .fma .. | .fdiv .. | .fsqrt .. | .fmnx .. | .fexp2 .. | .flog2 .. | .frcp ..
  | .frsq .. | .fcvt .. | .icvt .. | .fsgn .. | .fclass .. | .fdot .. => true
  | _ => false

/-- Whether an IA is the end target of an active loop level (R194). -/
def endsLoop (t : Thread) (ia : Word) : Bool :=
  (t.loop0.active && t.loop0.stop == ia) || (t.loop1.active && t.loop1.stop == ia) || (t.loop2.active && t.loop2.stop == ia)

/-- What capture finds: a line to be fetched, a trap, or the body with its instructions and the IA after it. -/
inductive Captured where
  | miss (ia : Word)
  | trap (cause : Nat) (value : Word)
  | body (b : List (BodyInstr × Instr)) (next : Word)
  deriving DecidableEq, Repr

/-- One body instruction, its decode checks and then the test for cause 0x0E (R194). -/
def captureOne (t : Thread) (ia : Word) (r : HeadRead) : (Nat × Word) ⊕ (BodyInstr × Instr) :=
  match r with
  | .malformed head => .inl (0x01, head.setWidth 64)
  | .absent => .inl (0x01, ia)
  | .found head tail =>
    if privilegedOp (headOp head) && !t.privileged then .inl (0x04, head.setWidth 64)
    else
      match decodeInstr (headOp head) tail with
      | none => .inl (0x01, head.setWidth 64)
      | some i =>
        match decodeCheck i t head with
        | some e => .inl e
        | none =>
          if bodyPermitted i && !endsLoop t ia then .inr ({ head := head, tail := tail, guard := guardTrue t head }, i)
          else .inl (0x0E, ia)

/-- The next n instructions from an IA on, captured in program order (R193, R194). A body instruction outside the core's segment takes cause
0x0D (log entry 23), one off the own die cause 0x07 (log entry 104). -/
def capture (s : State) (tid : Tid) (t : Thread) : Nat → Word → List (BodyInstr × Instr) → Captured
  | 0, ia, acc => .body acc ia
  | n + 1, ia, acc =>
    if flowTo s tid t.core ia ≠ .here then .trap 0x0D ia
    else if !travelling s tid && elsewhere s t.core ia then .trap 0x07 ia
    else
      match fetchHead (s.core t.core) ia with
      | .miss => .miss ia
      | .head r =>
        match captureOne t ia r with
        | .inl (cause, v) => .trap cause v
        | .inr b => capture s tid t n (nextIA ia (headLast b.1.head)) (acc ++ [b])

/-- The largest register a failing shifted field reaches, if one reaches the window size (R194). -/
def windowTest (t : Thread) (n1 stride floor : Nat) (is : List Instr) : Option Nat :=
  let vs := (is.flatMap regSpans).map fun r => r.1.toNat
  let reach := (vs.filter fun v => decide (1 ≤ v ∧ floor ≤ v)).map fun v => v + n1 * stride
  match reach.filter fun m => decide (t.wsize ≤ m) with
  | [] => none
  | m :: ms => some (ms.foldl max m)

/-- STRK (R193, R194): captures its body without executing it; while the thread's earlier stroke runs it is tried again (R34). -/
def execStrk (n1 : BitVec 8) (len1 : BitVec 3) (stride floor : BitVec 7) (s : State) : Out :=
  perform (.strk n1 len1 stride floor) s fun u t =>
    if t.stroke.isSome then finishRetry u s
    else
      match capture s u.tid t (len1.toNat + 1) (nextIA u.ia (headLast u.head)) [] with
      | .miss ia => .next (closeTurn (fetchMiss s t.core u.tid ia) u)
      | .trap cause v => finishTrap u s cause v
      | .body b next =>
        match windowTest t n1.toNat stride.toNat floor.toNat (b.map (·.2)) with
        | some m => finishTrap u s 0x02 (BitVec.ofNat 64 m)
        | none =>
          let k : Stroke :=
            { id := s.net.nextReq, n1 := n1, len1 := len1, stride := stride, floor := floor, body := b.map (·.1), preds := t.preds,
              fstat := t.sp.fstat, j := 0, i := 0, loads := [], resend := [], stores := [], barrierReq := none, acquire := false,
              trap := none, stopped := false }
          finishJump u s.takeReq (seqFlow { t with stroke := some k } u.ia next)

/-- Whether the sequencer of a stroke works: its thread is on its core and not being killed, its launch runs, its die has a clock, no load sent
has been answered with a fault, and no posted store of the thread stands faulted (R195, R124, R316). -/
def sequencerOn (s : State) (tid : Tid) (t : Thread) (k : Stroke) : Bool :=
  decide ((s.die (t.core / 256)).power < 3) && !(k.loads.any fun l => l.faulted) && t.ctx.isSome && !t.io.dying && !t.io.storeFault &&
    (match t.status with
     | .seated .. | .ready | .parked _ => true
     | _ => false) &&
    match s.launch? (tidLaunch tid) with
    | some l => l.phase == .live
    | none => true

/-- A faulted load repetition sent again as it was sent before, under a new number (R195): at the address its place in program order gave it
(R197), once no ordered repetition and no load to its line is in its way. -/
def sendAgain (s : State) (tid : Tid) (t : Thread) (k : Stroke) (r : Req) (rest : List Req) : State :=
  let line (q : Req) : Nat := lineOf (eaOffset q.ea)
  if k.barrierReq.isSome || (k.acquire && !loadsDone s tid t) || k.loads.any fun l => line l.req == line r then s
  else
    let r := { r with id := s.net.nextReq, core := t.core }
    let t := (r.kind.dests.filter (· != 0)).foldl Thread.setPending t
    let k :=
      { k with
        resend := rest
        loads := k.loads ++ [{ req := r, faulted := false }]
        barrierReq := if r.acq then some r.id else none
        acquire := r.acq }
    portAdd (s.setThread tid { t with stroke := some k }) r

/-- STROKE_REPETITION (R195, R202): a load to be sent again goes first; else the next repetition is left as the instruction to execute, its thread
as it stood at the strk; a suppressed one is passed over. -/
def execStrokeRepetition (tid : Tid) (s : State) : Out :=
  match s.thread? tid with
  | none => .next s
  | some t =>
    match t.stroke with
    | none => .next s
    | some k =>
      if !sequencerOn s tid t k then .next s
      else
        match k.resend with
        | r :: rest => .next (sendAgain s tid t k r rest)
        | [] =>
          if k.len1.toNat < k.j ∨ k.trap.isSome then .next s
          else
            match strokeInstr k k.j k.i, k.body[k.j]? with
            | some x, some b =>
              .next { s.setThread tid t.strokeView with
                issue := some { core := t.core, tid := tid, ia := t.pc, head := b.head, tail := b.tail, instr := x,
                                rep := some (k.j, k.i) } }
            | _, _ => .next (modStroke s tid Stroke.next)

/-- Whether a thread stands at an issue boundary: it is seated, parks to issue an instruction again, or waits to retire or depart with nothing
left to issue (log entry 71). -/
def atBoundary (t : Thread) : Bool :=
  !t.io.dying &&
    match t.status with
    | .parked .exit | .parked (.departure ..) => true
    | .ready => false
    | _ => t.unissued

/-- STROKE_TRAP (R292): a trap raised by a repetition is taken at its thread's next issue boundary, with the IA it would have issued next (log entry 71). -/
def execStrokeTrap (tid : Tid) (s : State) : Out :=
  match s.thread? tid with
  | none => .next s
  | some t =>
    match t.stroke with
    | none => .next s
    | some k =>
      match k.trap with
      | none => .next s
      | some (cause, v) =>
        if atBoundary t && !k.stopped && k.reissues.isEmpty then
          let s := modStroke s tid fun k => { k with stopped := true }
          .next (if t.isSeated then trapEntry s tid t.pc cause v else trapWaiting s tid cause v)
        else .next s

end Sys2Proof.Machine
end

