-- ==== Sys2Proof/Machine/Travel.lean ====
section
/-! DEFINITION. Travelling threads (spec/08 R146 to R149, spec/16 R253 to R261): ship, cargo and segq, map entries, departure, landing slots,
spilling and landing. -/

namespace Sys2Proof.Machine

/-! ### Instructions (R146, R148, R149) -/

/-- The core of the launch a core id names, gcore layout (R29, R146; log entry 76). -/
def launchCore (s : State) (l : Launch) (v : Word) : Option Nat :=
  if v.slice 63 23 = 0 ∧ v.slice 22 11 = s.cfg.package ∧ setHas l.cores (v.slice 10 0) then some (v.slice 10 0) else none

/-- The segment of a launch with an id (R146). -/
def segmentId (l : Launch) (v : Word) : Option Segment := l.segments.find? fun g => g.id == v.toNat

/-- The segment a core is a replica of, by the map. -/
def segmentAt (l : Launch) (g : Nat) : Option Segment := l.segments.find? fun x => x.reps.contains g

/-- A ship to a core continuing at an IA of its segment: the map entry is fetched first where the core does not hold it (R146, R255). -/
def shipOn (u : Issue) (s : State) (t : Thread) (l : Launch) (dest : Nat) (seg : Option Segment) (pc : Word) : Out :=
  match seg with
  | none => finishTrap u s 0x0D pc
  | some g =>
    if !decide (g.base.toNat ≤ pc.toNat ∧ pc.toNat < g.base.toNat + g.len) then finishTrap u s 0x0D pc
    else if (s.core t.core).iss.mapCache.contains g.id then
      .next (closeTurn (s.setThread u.tid { t with pc := pc, status := .parked (.departure dest pc l.mapVer none) }) u)
    else
      finishPark u (s.modNet fun n => { n with maps := n.maps ++ [{ tid := u.tid, seg := some g.id, cont := .again }] })
        (.reply .again)

/-- SHIP_CORE (R146; log entry 76). -/
def execShipCore (a b : Reg) (s : State) : Out :=
  perform (.shipCore a b) s fun u t =>
    match s.launch? (tidLaunch u.tid) with
    | none => finishTrap u s 0x01 (t.g b)
    | some l =>
      if !l.desc.travelling then finishTrap u s 0x01 (t.g b)
      else if (t.g b).bit 0 || !(t.g b).bit 63 then finishTrap u s 0x01 (t.g b)
      else
        match launchCore s l (t.g a) with
        | none => finishTrap u s 0x0D (t.g a)
        | some g => shipOn u s t l g (segmentAt l g) (t.g b)

/-- SHIP_SEG (R146): the replica is chosen by the tid. -/
def execShipSeg (a b : Reg) (s : State) : Out :=
  perform (.shipSeg a b) s fun u t =>
    match s.launch? (tidLaunch u.tid) with
    | none => finishTrap u s 0x01 (t.g b)
    | some l =>
      if !l.desc.travelling then finishTrap u s 0x01 (t.g b)
      else if (t.g b).bit 0 || !(t.g b).bit 63 then finishTrap u s 0x01 (t.g b)
      else
        match segmentId l (t.g a) with
        | none => finishTrap u s 0x0D (t.g a)
        | some g => shipOn u s t l (replicaOf g u.tid) (some g) (t.g b)

/-- CARGO (R148): its checks in their order; length 0 cancels. -/
def execCargo (a b : Reg) (s : State) : Out :=
  perform (.cargo a b) s fun u t =>
    let n := (t.g b).toNat
    let declare_ (x : Option (Nat × Nat)) : Out := finishThread u s { t with io := { t.io with cargoDecl := x } }
    if !travelling s u.tid then finishTrap u s 0x01 (t.g a)
    else if 16384 < n ∨ n % 8 ≠ 0 then finishTrap u s 0x01 (t.g b)
    else if n = 0 then declare_ none
    else
      match checkLocal s t (t.g a) n 8 true false with
      | some cause => finishTrap u s cause (t.g a)
      | none => declare_ (some ((t.g a).toNat, n))

/-- What segq answers of a segment (R149). -/
def segAnswer (s : State) (tid : Tid) (op : SegqOp) (g : Segment) : Word :=
  match op with
  | .seg => BitVec.ofNat 64 (gcoreOf s.cfg.package (replicaOf g tid) + g.reps.length * 2 ^ 24)
  | _ => BitVec.ofNat 64 g.id

/-- SEGQ (R149): a cached entry answers before the next turn, a miss fetches it. -/
def execSegq (d a : Reg) (op : SegqOp) (s : State) : Out :=
  perform (.segq d a op) s fun u t =>
    match s.launch? (tidLaunch u.tid) with
    | none => finishReg u s t d Word.ones
    | some l =>
      if !l.desc.travelling then finishReg u s t d Word.ones
      else
        let seg := match op with
          | .ia => segmentOf l (t.g a)
          | _ => segmentId l (t.g a)
        let v := match seg with
          | some g => segAnswer s u.tid op g
          | none => Word.ones
        let cached := match seg with
          | some g => (s.core t.core).iss.mapCache.contains g.id
          | none => false
        if op = .ver then finishReg u s t d (l.mapVer.setWidth 64)
        else if cached then finishReg u s t d v
        else
          finishPark u
            ((s.setThread u.tid (t.setPending d.toNat)).modNet fun n =>
              { n with maps := n.maps ++
                  [{ tid := u.tid, seg := seg.map (·.id), cont := .answer d.toNat v (headLast u.head) }] })
            (.reply (.done (headLast u.head)))

/-- A map entry in a core's cache of 64 (R255). -/
def cacheEntry (s : State) (g seg : Nat) : State :=
  s.modCore g fun c =>
    let l := c.iss.mapCache.filter (· != seg)
    { c with iss := { c.iss with mapCache := (if l.length ≥ 64 then l.drop 1 else l) ++ [seg] } }

/-- MAP_FETCH_REPLY (R255, R149): the entry is cached, and the thread goes on. -/
def execMapFetchReply (k : Nat) (s : State) : Out :=
  match s.net.maps[k]? with
  | none => .next s
  | some n =>
    let s := s.modNet fun x => { x with maps := dropIx x.maps k }
    match s.thread? n.tid with
    | none => .next s
    | some t =>
      let s := match n.seg with
        | some g => cacheEntry s t.core g
        | none => s
      match n.cont with
      | .again => .next (resumeThread s n.tid .again)
      | .answer d v last => .next (resumeThread (s.setThread n.tid (t.land d v)) n.tid (.done last))
      | .depart pc skip =>
        match s.launch? (tidLaunch n.tid) with
        | none => .next s
        | some l =>
          match l.segments.find? fun g => n.seg == some g.id with
          | some g =>
            .next (s.setThread n.tid { t with status := .parked (.departure (replicaOf g n.tid) pc l.mapVer skip) })
          | none => .next s

/-! ### Departure (R146, R260) -/

/-- Whether a stroke has stopped at a repetition whose EA lies on another die of the package (R195). -/
def strokeAway (s : State) (t : Thread) (k : Stroke) : Bool :=
  let away (ea : Word) : Bool := eaGlobal ea && eaPackage ea == s.cfg.package && eaDie ea != t.core / 256
  k.loads.isEmpty && k.stores.isEmpty && k.resend.isEmpty && k.trap.isNone &&
    match strokeInstr k k.j k.i with
    | some (.ld _ a b x) | some (.st a b _ x) => away (eaMx t a b x.shift x.disp)
    | _ => false

/-- The departure conditions (R146): nothing pending, stroke finished or stopped for a ship, own mma done, every access performed. -/
def mayDepart (s : State) (tid : Tid) (t : Thread) : Bool :=
  launchLive s tid && !t.io.dying && t.pending.isEmpty && !hasMma s tid t && storesAcked s tid t && storesDone s tid t
    && loadsDone s tid t && !t.io.storeFault &&
    match t.stroke with
    | some k => k.finished || strokeAway s t k
    | none => true

/-- The lowest free landing slot of a core (R260). -/
def freeSlotOf (s : State) (g : Nat) : Option Nat := (List.range 8).find? fun k => (tabGet (s.core g).iss.slots k).isNone

/-- The state of a stroke a thread takes along: none once it is finished. -/
def dropFinished (t : Thread) : Thread :=
  match t.stroke with
  | some k => if k.finished then { t with stroke := none } else t
  | none => t

/-- A gondola sent to a granted slot, with its cargo: the source holds context or record until the landing is acknowledged (R260). -/
def sendGondola (s : State) (tid : Tid) (t : Thread) (cargo : List Byte) (dest slot : Nat) (pc : Word) (ver : BitVec 32)
    (skip : SkipMark) : State :=
  let own := podDie s t.core
  let far := s.cfg.package * 8 + dest / 256
  let held : Held :=
    { core := t.core, ctx := t.ctx, wbase := t.wbase, wsize := t.wsize, tbase := t.tbase, tcount := t.tcount, record := t.io.record,
      landing := t.io.landing }
  let note : GondolaNote :=
    { held := held, tid := tid, dest := dest, slot := slot, cargo := cargo, source := t.core, ver := ver, skip := skip, pc := pc,
      arrived := own == far, step := none }
  let s := s.modCore dest fun c =>
    { c with iss := { c.iss with slots := tabPut c.iss.slots slot { occupied := false, granted := some tid, landedAt := 0 } } }
  let s := s.setThread tid { dropFinished t with status := .inFlight dest pc ver skip }
  let s := s.modNet fun n => { n with gondolas := n.gondolas ++ [note] }
  if own = far then s else sendItem s own far 3 (.gondola tid)

/-- The cargo a thread has declared, read now (R148, R260). -/
def readCargo (s : State) (t : Thread) : List Byte :=
  match t.io.cargoDecl with
  | some (a, n) => lread s t.core a n
  | none => []

/-- The cargo in a spilled thread's record. -/
def recordCargo (s : State) (tid : Tid) (t : Thread) : List Byte :=
  match t.io.record, t.io.cargoDecl, s.launch? (tidLaunch tid) with
  | some k, some (_, n), some l => ((partRead s (recordAddr l k + 2048) n).2).getD []
  | _, _, _ => []

/-- A departing thread spilled: its record, cargo included, is written whole; context and own landing slot are freed (R260). None where no
record fits or its pages do not take it. -/
def spillThread (s : State) (tid : Tid) (t : Thread) (dest : Nat) (pc : Word) (ver : BitVec 32) (skip : SkipMark) : Option State :=
  match freeRecord s (tidLaunch tid), s.launch? (tidLaunch tid) with
  | some k, some l =>
    let t := { dropFinished t with status := .spilled dest pc ver skip }
    match partWrite s (recordAddr l k) (recordBytes s tid t ++ readCargo s t) with
    | (s, true) =>
      let s := dropTiles s t.core t.tbase t.tcount
      let s := match t.io.landing with
        | some j => freeSlot s t.core j
        | none => s
      some (s.setThread tid { t with ctx := none, io := { t.io with record := some k, landing := none } })
    | (_, false) => none
  | _, _ => none

/-- Where the spill record of a departing thread, cargo included, cannot be written now (log entry 117). -/
def spillGap (s : State) (tid : Tid) (t : Thread) : Option (Nat × Nat) :=
  match freeRecord s (tidLaunch tid), s.launch? (tidLaunch tid) with
  | some k, some l => pageGap s (recordAddr l k) (2048 + (readCargo s t).length) true
  | _, _ => none

/-- A slot asked for at a core, once (R260). -/
def requestSlot (s : State) (tid : Tid) (dest : Nat) : State :=
  s.modCore dest fun c =>
    if c.iss.slotRequests.contains tid then c else { c with iss := { c.iss with slotRequests := c.iss.slotRequests ++ [tid] } }

/-- DEPARTURE (R146, R260): a thread that meets its conditions continues here, or is sent, or spills, or is Departure-blocked; one whose spill meets a
page fault waits for it, its slot asked for (R324; log entry 117). -/
def execDeparture (tid : Tid) (s : State) : Out :=
  match s.thread? tid with
  | none => .next s
  | some t =>
    match t.status with
    | .parked (.departure dest pc ver skip) =>
      if !mayDepart s tid t then .next s
      else if dest = t.core then .next (makeReady (s.setThread tid { t with pc := pc }) tid)
      else
        match freeSlotOf s dest, (s.core dest).iss.slotRequests with
        | some k, [] => .next (sendGondola s tid t (readCargo s t) dest k pc ver skip)
        | _, _ =>
          match spillGap s tid t with
          | some gap => .next (requestSlot (reportGap s tid.toNat tid t.core true gap) tid dest)
          | none =>
          let s := gapServed s tid.toNat
          match spillThread s tid t dest pc ver skip with
          | some s => .next (requestSlot s tid dest)
          | none =>
            let limit := match s.launch? (tidLaunch tid) with
              | some l => l.desc.spillLimit
              | none => 0
            .next (requestSlot
              (emitThread (s.setThread tid { t with status := .blocked dest pc ver skip }) 0x0005 tid t [BitVec.ofNat 64 limit]) tid dest)
    | _ => .next s

/-- A Departure-blocked thread's spill test retried once the limit is raised (R260); one whose spill meets a page fault waits for it (log entry 117). -/
def retrySpill (s : State) (tid : Tid) (t : Thread) : State :=
  match t.status with
  | .blocked dest pc ver skip =>
    (match spillGap s tid t with
     | some gap => (reportGap s tid.toNat tid t.core true gap).setThread tid { t with status := .parked (.departure dest pc ver skip) }
     | none => (spillThread s tid t dest pc ver skip).getD s)
  | _ => s

/-- Where the record of a spilled thread, cargo included, cannot be read now. -/
def spilledGap (s : State) (tid : Tid) (t : Thread) : Option (Nat × Nat) :=
  match t.status with
  | .spilled .. => recordGap s tid t (2048 + (t.io.cargoDecl.map (·.2)).getD 0)
  | _ => none

/-- SLOT_GRANT (R260): the first request at a core is granted its lowest free slot, and the gondola is sent; none while its launch is
stopped (R294), or while the page of its record is waited for (log entry 117). -/
def execSlotGrant (g : Nat) (s : State) : Out :=
  match (s.core g).iss.slotRequests, freeSlotOf s g with
  | tid :: rest, some k =>
    let gap := (s.thread? tid).bind (spilledGap s tid)
    if (s.thread? tid).isSome && !launchLive s tid then .next s
    else if gap.isSome then .next (reportGap s tid.toNat tid g false (gap.getD (0, 0)))
    else
    let s := gapServed s tid.toNat
    let s := s.modCore g fun c => { c with iss := { c.iss with slotRequests := rest } }
    (match s.thread? tid with
     | none => .next s
     | some t =>
       match t.status with
       | .parked (.departure dest pc ver skip) =>
         if mayDepart s tid t then .next (sendGondola s tid t (readCargo s t) dest k pc ver skip) else .next s
       | .blocked dest pc ver skip => .next (sendGondola s tid t (readCargo s t) dest k pc ver skip)
       | .spilled dest pc ver skip =>
         let cargo := recordCargo s tid t
         let (s, t) := loadRecord s tid t
         .next (sendGondola s tid t cargo dest k pc ver skip)
       | _ => .next s)
  | _, _ => .next s

/-! ### Landing (R147, R257 to R259) -/

/-- Whether a register is marked live (R29). -/
def liveReg (t : Thread) (n : Nat) : Bool := if n < 64 then n != 0 && t.sp.livelo.bit n else t.sp.livehi.bit (n - 64)

/-- The register image of a landing slot: live registers, the others 0 (R257). -/
def slotImage (t : Thread) : List Byte :=
  (List.range 128).flatMap fun n => wordLE (if n < t.wsize ∧ liveReg t n then t.reg n else 0) 8

/-- Header words 1 to 7 of a landing slot (R257). -/
def slotHeader (s : State) (t : Thread) (n : GondolaNote) (pc : Word) : List Byte :=
  [pc, BitVec.ofNat 64 (gcoreOf s.cfg.package n.source + n.ver.toNat * 2 ^ 32), t.sp.livelo, t.sp.livehi,
    BitVec.ofNat 64 (t.preds.toNat + t.sp.gsel.toNat * 2 ^ 8), 0, 0].flatMap fun w => wordLE w 8

/-- Where a thread lands (R77, R256): at its IA, or past the head there where that head is to be skipped, its loop level then inactive; where that
head is not there, its loop traps at the thread's first turn. -/
def landAt (c : Core) (t : Thread) (pc : Word) (skip : SkipMark) : Thread :=
  match skip with
  | none => { t with pc := pc }
  | some (loop, level) =>
    match fetchHead c pc with
    | .head (.found h _) =>
      { t.setLoop level LoopState.reset with pc := nextIA pc (headLast h) }
    | _ => { t with pc := pc, io := { t.io with skipFail := some loop } }

/-- A thread's last turn by the clock of another core: the cycles still to pass before it may issue again are kept (R204; log entry 90). -/
def lastTurnOn (s : State) (t : Thread) (g : Nat) : Option Nat :=
  t.io.lastIssue.map fun c => s.coreClock g + (c + 8 - s.coreClock t.core) - 8

/-- A ship's gondola landed in its slot: image and cargo, then header words 1 to 7, then word 0; the thread stands on its new core with its record
in the slot, and the acknowledgement goes back (R258). -/
def landInSlot (s : State) (n : GondolaNote) (t : Thread) : State :=
  let base := slotBase s n.slot
  let last := lastTurnOn s t n.dest
  let t := landAt (s.core n.dest) t n.pc n.skip
  let pc := t.pc
  let s := lwriteFull s n.dest (base + 0x40) (slotImage t)
  let s := lwriteFull s n.dest (base + 0x440) n.cargo
  let s := lwriteFull s n.dest (base + 0x08) (slotHeader s t n pc)
  let s := lwriteFull s n.dest base (natLE (n.tid.toNat + n.cargo.length * 2 ^ 32) 8)
  let s := s.modCore n.dest fun c =>
    { c with iss := { c.iss with
        slots := tabPut c.iss.slots n.slot { occupied := true, granted := none, landedAt := s.net.nextReq } } }
  let t' :=
    { t with
      core := n.dest, ctx := none, status := .pooled
      sp := { t.sp with cargo := if n.cargo.isEmpty then Word.ones else BitVec.ofNat 64 (base + 0x440) }
      io := { t.io with
        landing := some n.slot, record := none, cargoDecl := none, lastIssue := last, quantum := 0, quantumDue := false } }
  (s.setThread n.tid t').takeReq

/-- A step's gondola landed in a free context of its die, on the launch's core with most of them: window, tiles and their status are as they were, the
receives are posted again, and the thread is ready (R243); none while no core of the die has room (log entry 44). -/
def landOnDie (s : State) (n : GondolaNote) (t : Thread) (load : StepLoad) : Option State :=
  let cores := match s.launch? (tidLaunch n.tid) with
    | some l => l.cores.filter fun g => g / 256 == n.dest / 256 && roomFor s g n.tid t.wsize t.tcount
    | none => []
  match roomiest s cores with
  | none => none
  | some g =>
    match windowBase s g t.wsize, tileBase s g t.tcount n.tid with
    | some w, some b =>
      let free := freeContexts s g
      let s := dropTiles s g b t.tcount
      let s := s.modCore g fun c =>
        { c with
          msg := { c.msg with posted := c.msg.posted ++ load.posted }
          mx := { c.mx with tiles := load.tiles.foldl (fun ts e => tabPut ts (e.1 + b) e.2) c.mx.tiles } }
      let t' :=
        { t with
          core := g, ctx := some (free.getD (Config.pickContext free % free.length) 0), wbase := w, tbase := b
          io := { t.io with lastIssue := lastTurnOn s t g } }
      some (makeReady (s.setThread n.tid t') n.tid)
    | _, _ => none

/-- GONDOLA_LANDING (R243, R258): the thread stands where the gondola goes, and the acknowledgement goes back. A killed thread ends here (R143; log
entry 30). -/
def execGondolaLanding (k : Nat) (s : State) : Out :=
  match s.net.gondolas[k]? with
  | none => .next s
  | some n =>
    match s.thread? n.tid with
    | none => .next (s.modNet fun x => { x with gondolas := dropIx x.gondolas k })
    | some t =>
      if !n.arrived then .next s
      else
        let landed := match n.step with
          | none => some (landInSlot s n t)
          | some load => landOnDie s n t load
        match landed with
        | none => .next s
        | some s =>
          let s := s.modNet fun x => { x with gondolas := dropIx x.gondolas k, landAcks := x.landAcks ++ [n] }
          .next (if t.io.dying then killThread s n.tid else s)

/-- An overflow entry's data in L-store (R152). -/
def overflowData (s : State) (lid g : Nat) (o : Overflow) : List Byte :=
  match s.launch? lid with
  | some l => lread s g (l.desc.ovq + o.place * 1088 + 64) o.len
  | none => []

/-- A message on its way to a die of this package, for a thread that stands there. -/
def passMessage (s : State) (m : MsgNote) (die : Nat) : State :=
  if m.srcCore / 256 = die then s.modNet fun n => { n with messages := n.messages ++ [m] }
  else
    sendItem s (podDie s m.srcCore) (s.cfg.package * 8 + die) 2 (.message m.srcCore m.order m.src m.dst m.tag m.data m.forwarded)

/-- Entries of a core's overflow queue for a thread that has gone sent after it, in their order (R147). -/
def forwardOverflow (s : State) (tid : Tid) (g dest : Nat) : State :=
  let mine := (s.core g).msg.overflow.filter fun o => o.dst == tid
  let s := mine.foldl
    (fun s o =>
      passMessage s
        { srcCore := g, dstCore := dest, src := o.src, dst := tid, tag := o.tag, data := overflowData s (tidLaunch tid) g o,
          order := o.order, forwarded := true, via := none } (dest / 256))
    s
  s.modCore g fun c => { c with msg := { c.msg with overflow := c.msg.overflow.filter fun o => o.dst != tid } }

/-- The overflow entries a step's gondola has carried sent on to where the thread has landed (R243). -/
def passCarried (s : State) (n : GondolaNote) (t : Thread) : State :=
  match n.step with
  | none => s
  | some load => load.overflow.foldl (fun s m => passMessage s { m with srcCore := n.dest, dstCore := t.core } (t.core / 256)) s

/-- LANDING_ACK (R243, R260): the source's context and tiles, or record, are free, its own landing slot too, and overflow entries follow. -/
def execLandingAck (k : Nat) (s : State) : Out :=
  match s.net.landAcks[k]? with
  | none => .next s
  | some n =>
    let s := s.modNet fun x => { x with landAcks := dropIx x.landAcks k }
    let s := if n.held.ctx.isSome then dropTiles s n.held.core n.held.tbase n.held.tcount else s
    let s := match n.held.landing with
      | some j => freeSlot s n.held.core j
      | none => s
    match s.thread? n.tid with
    | some t =>
      let s := passCarried s n t
      .next (if n.held.core = t.core then s else forwardOverflow s n.tid n.held.core t.core)
    | none =>
      .next (s.modCore n.held.core fun c => { c with msg := { c.msg with overflow := c.msg.overflow.filter fun o => o.dst != n.tid } })

end Sys2Proof.Machine
end

