-- ==== Sys2Proof/Machine/Manager.lean ====
section
/-! DEFINITION. The privileged operations on a launch's shared tables (spec/05 R86): the reduction plan (spec/10 R186), the segment map
(spec/16 R253 to R255) and the path table (spec/17 R263, spec/20 R312). -/

namespace Sys2Proof.Machine

/-- The launch manager's answer to a sys of a thread, which waits for it (R86). -/
def askManager (u : Issue) (s : State) (ok : Bool) (tval : Word) : Out :=
  finishPark u
    (s.modNet fun n => { n with units := n.units ++ [.sys u.tid ok tval (headLast u.head)] })
    (.reply (.done (headLast u.head)))

/-! ### The reduction plan (R186) -/

/-- The ranks of a plan from its list's bytes. -/
def planRanks (bs : List Byte) (p : Nat) : List Nat := (List.range p).map fun k => leNat ((bs.drop (2 * k)).take 2)

/-- Whether no number of a list comes twice. -/
def distinct (l : List Nat) : Bool :=
  match l with
  | [] => true
  | x :: xs => !xs.contains x && distinct xs

/-- SYS_RPLAN (R86, R186). -/
def execSysRplan (a : Reg) (s : State) : Out :=
  perform (.sysRplan a) s fun u t =>
    let ea := t.g a
    match checkLocal s t ea 8 8 true false with
    | some cause => finishTrap u s cause ea
    | none =>
      let w := leWord (lread s t.core ea.toNat 8)
      let p := w.slice 11 0 + 1
      let n := (2 * p + 7) / 8 * 8
      match checkLocal s t (ea + 8) n 8 true false with
      | some cause => finishTrap u s cause (ea + 8)
      | none =>
        let mask := w.slice 27 20
        let ranks := planRanks (lread s t.core (ea.toNat + 8) n) p
        let job := match s.launch? (tidLaunch u.tid) with
          | some l => l.desc.job
          | none => 0
        let ok := w.slice 19 12 == 0 && w.slice 63 28 == 0 && mask != 0 && distinct ranks
          && (job != 0 || ranks == [s.cfg.package])
        let s' := if ok then s.modLaunch (tidLaunch u.tid) fun l => { l with rplan := some (mask, ranks) } else s
        reading u s t [(ea.toNat, 8 + n)] (askManager u s' ok ea)

/-! ### The segment map (R253 to R255) -/

/-- The lines of a segment as its die's memory holds them; a line that no page holds is one of zeros. -/
def segmentLines : Nat → State → Word → State × List CodeLine
  | 0, s, _ => (s, [])
  | n + 1, s, base =>
    let (s, bs) := dieRead s (eaDie base) (eaOffset base) 64
    let (s, rest) := segmentLines n s (base + 64)
    (s, { base := base, bytes := bs.getD (List.replicate 64 0) } :: rest)

/-- Where a segment's lines cannot be read now. -/
def segmentGap (s : State) (x : Segment) : Option (Nat × Nat) := pageGap s x.base x.len false

/-- A core pins a segment: its lines are copied into the I-store (R254). -/
def pinCore (s : State) (g : Nat) (x : Segment) : State :=
  let (s, lines) := segmentLines (x.len / 64) s x.base
  s.modCore g fun c => { c with iss := { c.iss with istore := lines, segment := some x.id, draining := false } }

/-- A segment's replicas with the changes recorded for it (R255). -/
def recordedReps (l : Launch) (g : Segment) : List Nat :=
  l.mapChanges.foldl
    (fun reps c => if c.2.1 = g.id then (if c.1 then reps ++ [c.2.2] else reps.filter (· != c.2.2)) else reps) g.reps

/-- Whether a core of a travelling launch is a spare, by the map with the changes recorded: a core that a recorded change adds is none, until another
takes it back (R254, R255; log entry 99). -/
def isSpare (s : State) (l : Launch) (g : Nat) : Bool :=
  (s.core g).iss.segment.isNone && !l.segments.any fun x => x.reps.contains g || (recordedReps l x).contains g

/-- The recorded changes made: added cores pin their segment, removed ones receive no new departures (R255). -/
def applyChanges (s : State) (lid : Nat) (l : Launch) : State :=
  let s := s.modLaunch lid fun l =>
    { l with
      mapVer := l.mapVer + 1
      mapChanges := []
      segments := l.segments.map fun x => { x with reps := recordedReps l x } }
  l.segments.foldl
    (fun s x =>
      let new := recordedReps l x
      let s := (new.filter fun c => !x.reps.contains c).foldl (fun s c => pinCore s c x) s
      (x.reps.filter fun c => !new.contains c).foldl
        (fun s c => s.modCore c fun k => { k with iss := { k.iss with draining := true } }) s)
    s

/-- Where the lines of a segment that a recorded change pins on a core cannot be read now. -/
def changesGap (s : State) (l : Launch) : Option (Nat × Nat) :=
  (l.segments.filter fun x => (recordedReps l x).any fun c => !x.reps.contains c).findSome? (segmentGap s)

/-- Every cached entry on every core of a launch discarded (R255). -/
def dropMapCaches (s : State) (l : Launch) : State :=
  l.cores.foldl (fun s g => s.modCore g fun c => { c with iss := { c.iss with mapCache := [] } }) s

/-- The travelling launch of a thread. -/
def travelLaunch (s : State) (tid : Tid) : Option Launch :=
  match s.launch? (tidLaunch tid) with
  | some l => if l.desc.travelling then some l else none
  | none => none

/-- SYS_MAPVER (R86, R255); it is tried again while a page of a segment to be pinned is waited for (log entry 117). -/
def execSysMapver (s : State) : Out :=
  perform .sysMapver s fun u t =>
    match travelLaunch s u.tid with
    | none => askManager u s false 0
    | some l =>
      match changesGap s l with
      | some gap => finishRetry u (reportGap s u.tid.toNat u.tid t.core false gap)
      | none => askManager u (dropMapCaches (applyChanges (gapServed s u.tid.toNat) (tidLaunch u.tid) l) l) true 0

/-- SYS_REPADD (R86, R255): a spare core is recorded as a replica, at most four in all. -/
def execSysRepadd (a b : Reg) (s : State) : Out :=
  perform (.sysRepadd a b) s fun u t =>
    let lid := tidLaunch u.tid
    match travelLaunch s u.tid with
    | none => askManager u s false (t.g a)
    | some l =>
      match segmentId l (t.g a), launchCore s l (t.g b) with
      | some g, some c =>
        if (recordedReps l g).length < 4 && isSpare s l c then
          askManager u (s.modLaunch lid fun l => { l with mapChanges := l.mapChanges ++ [(true, g.id, c)] }) true (t.g a)
        else askManager u s false (t.g a)
      | _, _ => askManager u s false (t.g a)

/-- SYS_REPDEL (R86, R255): a replica is recorded as removed, but never the last. -/
def execSysRepdel (a b : Reg) (s : State) : Out :=
  perform (.sysRepdel a b) s fun u t =>
    let lid := tidLaunch u.tid
    match travelLaunch s u.tid with
    | none => askManager u s false (t.g a)
    | some l =>
      match segmentId l (t.g a), launchCore s l (t.g b) with
      | some g, some c =>
        if (recordedReps l g).contains c && decide (1 < (recordedReps l g).length) then
          askManager u (s.modLaunch lid fun l => { l with mapChanges := l.mapChanges ++ [(false, g.id, c)] }) true (t.g a)
        else askManager u s false (t.g a)
      | _, _ => askManager u s false (t.g a)

/-! ### The path table (R263, R312) -/

/-- Peer k of a path entry's 40 bytes (R263). -/
def entryPeer (bs : List Byte) (k : Nat) : Nat := leNat ((bs.drop (8 + 2 * k)).take 2)

/-- A path entry from its 40 bytes (R263). -/
def readEntry (bs : List Byte) : PathEntry :=
  let w := leWord (bs.take 8)
  { fibre := w.slice 5 0, first := w.slice 13 8, count := w.slice 22 16, L := w.slice 27 24, owner := w.slice 39 32, valid := w.bit 40,
    peers := (List.range 16).map (entryPeer bs) }

/-- Whether the colours of two entries overlap. -/
def overlap (x y : PathEntry) : Bool :=
  x.fibre == y.fibre && decide (x.first < y.first + y.count) && decide (y.first < x.first + x.count)

/-- Whether a launch is live and claims a path in its descriptor (R312). -/
def claims (s : State) (lid p : Nat) : Bool :=
  match s.launch? lid with
  | some l => (l.desc.paths.getD (p / 64) 0).bit (p % 64)
  | none => false

/-- Whether an entry with V = 1 is well formed for a path (R263; log entry 55). -/
def entryOk (s : State) (p : Nat) (w : Word) (e : PathEntry) : Bool :=
  w.slice 7 6 == 0 && w.slice 15 14 == 0 && !w.bit 23 && w.slice 31 28 == 0 && w.slice 63 41 == 0
    && decide (e.fibre ≤ 47) && decide (1 ≤ e.count) && decide (e.first + e.count ≤ 64) && decide (1 ≤ e.L)
    && (e.peers.all fun q => q == 0xFFFF || decide (q < 4096)) && distinct (e.peers.filter (· != 0xFFFF))
    && (e.owner == 0 || claims s e.owner p)
    && !s.spool.paths.any fun x => x.1 != p && x.2.entry.valid && overlap x.2.entry e

/-- SYS_PATH (R86, R263): a path that holds light keeps its entry. -/
def execSysPath (a b : Reg) (s : State) : Out :=
  perform (.sysPath a b) s fun u t =>
    let ea := t.g a
    match checkLocal s t ea 40 8 true false with
    | some cause => finishTrap u s cause ea
    | none =>
      let bs := lread s t.core ea.toNat 40
      let p := (t.g b).toNat
      let e := readEntry bs
      let lit := (s.path p).grant != 0 || (s.path p).trans.isSome
      let ok := decide (p ≤ 255) && !lit && (!e.valid || entryOk s p (leWord (bs.take 8)) e)
      let s' := if ok then s.modPath p fun _ => { Path.reset with entry := if e.valid then e else PathEntry.reset } else s
      reading u s t [(ea.toNat, 40)] (askManager u s' ok ea)

end Sys2Proof.Machine
end

