-- ==== Sys2Proof/Machine/Launch.lean ====
section
/-! DEFINITION. Launches (spec/20 R309 to R312, spec/16 R253, R254, R257, spec/14 R241 to R244, spec/05 R83, R84): the descriptor and its
checks, the segment map, placement, completion, and the release of a step with a change of dies. -/

namespace Sys2Proof.Machine

/-! ### The descriptor (R309) -/

/-- A protection window of a descriptor. -/
def descWindow (w : Word) : ProtWindow := { base := w.slice 19 0, size := w.slice 39 20, r := w.bit 40, w := w.bit 41 }

/-- A descriptor read from its 256 bytes (log entry 43). -/
def readDesc (bs : List Byte) : Desc :=
  let w (off : Nat) : Word := recWord bs off
  { entry := (w 0x00).slice 47 0
    threads := (w 0x08).slice 23 0
    window := (w 0x08).slice 31 24
    tiles := (w 0x08).slice 38 32
    prio := (w 0x08).slice 41 40
    travelling := (w 0x08).bit 42
    supervisor := (w 0x08).bit 43
    qtrap := (w 0x08).bit 44
    pack := (w 0x08).bit 45
    dmin := (w 0x10).slice 3 0
    dmax := (w 0x10).slice 7 4
    core0 := (w 0x10).slice 15 8
    cores := (w 0x10).slice 24 16
    fsv := (w 0x10).slice 39 32
    job := (w 0x10).slice 63 40
    map := w 0x18
    spill := w 0x20
    spillLimit := (w 0x28).toNat
    data := w 0x30
    dataLen := (w 0x38).toNat
    ovq := (w 0x40).slice 18 0
    arg := w 0x48
    discard := [((w 0x50).toNat, (w 0x58).toNat), ((w 0x60).toNat, (w 0x68).toNat)]
    dtiles := w 0x70
    prot := (List.range 8).map fun i => descWindow (w (0x80 + 8 * i))
    paths := (List.range 4).map fun i => w (0xC0 + 8 * i)
    tvb := (w 0x78).slice 47 0
    tvbOn := (w 0x78).bit 63 }

/-- Whether no reserved field of a descriptor is set; window 7 of a travelling launch is ignored (R257). -/
def descReserved (bs : List Byte) : Bool :=
  let w (off : Nat) : Word := recWord bs off
  (w 0x00).slice 63 48 == 0 && !(w 0x08).bit 39 && (w 0x08).slice 63 46 == 0 && (w 0x10).slice 31 25 == 0
    && (w 0x40).slice 63 19 == 0 && (w 0x78).slice 62 48 == 0
    && ((List.range (if (w 0x08).bit 42 then 7 else 8)).all fun i => (w (0x80 + 8 * i)).slice 63 42 == 0)
    && (List.range 4).all fun i => w (0xE0 + 8 * i) == 0

/-- Whether a protection window keeps R134's limits. -/
def windowOk (s : State) (x : ProtWindow) : Bool := x.base % 64 == 0 && x.size % 64 == 0 && decide (x.base + x.size ≤ s.cfg.lcap)

/-- Whether every field of a descriptor lies within its limits, window 7 of a travelling launch ignored (R257, R309; log entry 43). -/
def descLimits (s : State) (d : Desc) : Bool :=
  d.entry % 64 == 0 && decide (1 ≤ d.threads) && decide (8 ≤ d.window) && decide (d.window ≤ 128) && d.window % 8 == 0
    && decide (d.tiles ≤ 64) && decide (1 ≤ d.dmin) && decide (d.dmin ≤ d.dmax) && decide (d.dmax ≤ 8)
    && d.core0 % 4 == 0 && d.cores % 4 == 0 && decide (1 ≤ d.cores) && decide (d.core0 + d.cores ≤ 256)
    && decide (d.dataLen ≤ s.cfg.lcap) && d.ovq % 64 == 0
    && (d.discard.all fun r => r.1 % 64 == 0 && r.2 % 64 == 0) && d.tvb % 64 == 0 && (if d.travelling then d.prot.take 7 else d.prot).all (windowOk s)

/-- The size of a descriptor's save records (R309). -/
def descRecord (d : Desc) : Nat := if d.travelling then 18432 else 2048

/-! ### Dies and cores (R311, R231, R241) -/

/-- The working cores of a die in a descriptor's range. -/
def dieCores (s : State) (d : Desc) (die : Nat) : List Nat :=
  ((List.range d.cores).map fun i => die * 256 + d.core0 + i).filter fun g => !setHas s.cfg.fusedCores g

/-- Whether a die has the core range free and is in P0 to P2 (R311; log entry 39). -/
def dieFree (s : State) (d : Desc) (die : Nat) : Bool :=
  let cs := dieCores s d die
  !cs.isEmpty && decide ((s.die die).power ≤ 2) && cs.all fun g => (s.core g).launch == 0

/-- Whether a launch keeps its places in the quad and die barrier units: all but one that is pre-empted, whose barriers there are saved (R231, R298). -/
def Launch.inUnits (l : Launch) : Bool :=
  match l.phase with
  | .preempted _ => false
  | _ => true

/-- Whether the barrier unit of a die holds as many launches as it can (R231). -/
def dieUnitFull (s : State) (die : Nat) : Bool :=
  decide (8 ≤ (s.launches.filter fun e => e.2.inUnits && setHas e.2.dies die).length)

/-- The groups whose pod barriers have their root in this package: those of its own launches, and the jobs of other packages that have asked
something of it (R240, R241). -/
def rootsHere (s : State) : List Nat :=
  let own := (s.launches.map fun e => podKey s e.1).filter fun k => podRoot s k == s.cfg.package
  let asked := (s.podPeers.filter fun e => !e.2.isEmpty).map (·.1)
  (own ++ asked).eraseDups

/-- Whether the root of a launch's pod barriers has no place for it: a job has one place, whichever of its launches came first (R240, R241; log
entry 98). -/
def rootFull (s : State) (d : Desc) : Bool :=
  let full := decide (64 ≤ (rootsHere s).length)
  if d.job = 0 then full
  else if (s.launches.any fun e => e.2.desc.job == d.job) || (rootsHere s).contains (2 * d.job) then false
  else if Config.jobRoot d.job = s.cfg.package then full
  else Config.rootFull d.job s.cycle.toNat

/-- Whether the Bridle's unit, where no record saves a launch's barriers, or the root has no place for one launch more (R240, R241; log entry 77). -/
def packageFull (s : State) (d : Desc) : Bool :=
  decide (64 ≤ s.launches.length) || rootFull s d

/-- The dies a launch would take: the lowest that are free, as many as its maximum allows (log entry 39). -/
def chooseDies (s : State) (d : Desc) : List Nat :=
  ((List.range 8).filter fun die => dieFree s d die && !dieUnitFull s die).take d.dmax

/-! ### The segment map (R253) -/

/-- A replica field of a map entry: die * 256 + core, none for a core of another package. -/
def readReplica (s : State) (v : Nat) : Option Nat := if v / 2048 = s.cfg.package then some (v % 2048) else none

/-- A map entry, and whether it keeps its layout (R253). -/
def readSegment (s : State) (bs : List Byte) (die e : Nat) : Segment × Bool :=
  let w (i : Nat) : Word := recWord bs (0x80 + 8192 * die + 32 * e + 8 * i)
  let n := (w 1).slice 25 24 + 1
  let fields := [(w 2).slice 22 0, (w 2).slice 54 32, (w 3).slice 22 0, (w 3).slice 54 32]
  let reps := (fields.take n).map (readReplica s)
  let len := (w 1).slice 16 0
  let ok := (w 0).slice 5 0 == 0 && eaGlobal (w 0) && eaPackage (w 0) == s.cfg.package && eaDie (w 0) == die
    && (w 1).slice 23 17 == 0 && (w 1).slice 63 26 == 0 && len % 64 == 0 && decide (64 ≤ len) && decide (len ≤ 65536)
    && (w 2).slice 31 23 == 0 && (w 2).slice 63 55 == 0 && (w 3).slice 31 23 == 0 && (w 3).slice 63 55 == 0
    && (fields.drop n).all (· == 0) && reps.all Option.isSome
  ({ id := s.cfg.package * 2048 + die * 256 + e, base := w 0, len := len, reps := reps.filterMap id }, ok)

/-- Whether no two segments of a list overlap or share a core, and none lists a core twice. -/
def segmentsApart : List Segment → Bool
  | [] => true
  | g :: gs =>
    distinct g.reps &&
      (gs.all fun x =>
        (decide (g.base.toNat + g.len ≤ x.base.toNat) || decide (x.base.toNat + x.len ≤ g.base.toNat))
          && !x.reps.any fun c => g.reps.contains c)
      && segmentsApart gs

/-- The segments of a map image and its version, none where the image is invalid for a launch on given cores (R253). -/
def readMap (s : State) (d : Desc) (dies : List Nat) (cores : NatSet) (bs : List Byte) : Option (List Segment × BitVec 32) :=
  let head := recWord bs 0
  let counts := (List.range 8).map fun die => recWord bs (8 + 8 * die)
  let gap := (List.range 7).all fun i => recWord bs (0x48 + 8 * i) == 0
  if head.slice 63 32 ≠ 0 ∨ !gap ∨ counts.any fun c => decide (256 < c.toNat) then none
  else
    let entries := (List.range 8).flatMap fun die =>
      (List.range (counts.getD die 0).toNat).map fun e => readSegment s bs die e
    let segs := entries.map (·.1)
    let reached := dies.any fun die =>
      segs.any fun g =>
        let ia := (globalEA s.cfg.package die d.entry).toNat
        decide (g.base.toNat ≤ ia) && decide (ia < g.base.toNat + g.len)
    if entries.all (·.2) && (segs.all fun g => g.reps.all fun c => setHas cores c) && segmentsApart segs && reached && d.dmin == d.dmax then
      some (segs, head.setWidth 32)
    else none

/-- One die's part of a map image: the entries its count gives, padded to 8 KiB; nothing where a page of them is not mapped. -/
def readMapDie (s : State) (ea : Word) (die n : Nat) : State × Option (List Byte) :=
  if n = 0 ∨ 256 < n then (s, some (List.replicate 8192 0))
  else
    match partRead s (ea + BitVec.ofNat 64 (0x80 + 8192 * die)) (32 * n) with
    | (s, some bs) => (s, some (bs ++ List.replicate (8192 - 32 * n) 0))
    | (s, none) => (s, none)

/-- A map image as the part reads it: the header and, for each die, the entries it counts (R253). -/
def readMapImage (s : State) (ea : Word) : State × Option (List Byte) :=
  match partRead s ea 0x80 with
  | (s, none) => (s, none)
  | (s, some head) =>
    (List.range 8).foldl
      (fun acc die =>
        match acc with
        | (s, some bs) =>
          (match readMapDie s ea die (recWord head (8 + 8 * die)).toNat with
           | (s, some es) => (s, some (bs ++ es))
           | (s, none) => (s, none))
        | (s, none) => (s, none))
      (s, some head)

/-! ### Whether a launch is refused (R311) -/

/-- What a launch will be placed with: descriptor, id, dies, cores, segments and map version. -/
structure LaunchPlan where
  desc : Desc
  lid : Nat
  dies : List Nat
  cores : NatSet
  segments : List Segment
  ver : BitVec 32
  deriving DecidableEq, Repr

/-- Whether a path that a descriptor claims is owned by a live launch (R312). -/
def pathTaken (s : State) (d : Desc) : Bool :=
  s.spool.paths.any fun e =>
    (d.paths.getD (e.1 / 64) 0).bit (e.1 % 64) && e.2.entry.valid && e.2.entry.owner != 0 && (s.launch? e.2.entry.owner).isSome

/-- Whether the fault target is none, or a live supervisor launch (R309). -/
def targetOk (s : State) (d : Desc) : Bool :=
  d.fsv == 0 || match s.launch? d.fsv with
    | some l => l.desc.supervisor && l.phase == .live
    | none => false

/-- A descriptor's launch, or the lowest-numbered reason it is refused for (R311); a segment map whose pages are not mapped is invalid (log entries 42 and 53). -/
def planLaunch (s : State) (bs : List Byte) : State × Except Nat LaunchPlan :=
  let d := readDesc bs
  let free := (List.range 8).filter (dieFree s d)
  let dies := chooseDies s d
  let cores := (dies.flatMap (dieCores s d)).foldl setAdd []
  let (s, map) := if d.travelling then
      (match readMapImage s d.map with
       | (s, some m) => (s, readMap s d dies cores m)
       | (s, none) => (s, none))
    else (s, some ([], 0))
  let lid := (List.range 256).find? fun k => k != 0 && (s.launch? k).isNone
  let refuse (r : Nat) : State × Except Nat LaunchPlan := (s, .error r)
  if !descReserved bs || !descLimits s d then refuse 1
  else if d.spillLimit < d.threads * descRecord d then refuse 2
  else if free.length < d.dmin then refuse 3
  else if dies.length < d.dmin ∨ packageFull s d then refuse 4
  else
    match map with
    | none => refuse 5
    | some (segs, ver) =>
      if pathTaken s d then refuse 6
      else
        match lid with
        | none => refuse 7
        | some lid =>
          if !targetOk s d then refuse 8
          else (s, .ok { desc := d, lid := lid, dies := dies, cores := cores, segments := segs, ver := ver })

/-! ### Cores given and taken back (R37, R59, R134, R244, R254, R257, R312) -/

/-- The windows of a core: the descriptor's, but for window 7 of a travelling launch, which covers the landing slots (R134, R257). -/
def coreWindows (s : State) (d : Desc) : List ProtWindow :=
  if d.travelling then d.prot.take 7 ++ [{ base := s.cfg.lcap - 0x22000, size := 0x22000, r := true, w := true }] else d.prot

/-- The words a core's L-store holds empty at launch: the first of each landing slot of a travelling launch (R258). -/
def launchEmpty (s : State) (d : Desc) : NatSet :=
  if d.travelling then (List.range 8).map fun k => slotBase s k / 8 else []

/-- What a core keeps between launches: its port, its engine queue's commands, messages it is still sending, its counters. -/
def idleCore (c : Core) : Core :=
  { Core.reset with
    engine := c.engine
    atomSeq := c.atomSeq
    port := c.port
    msg := { Core.reset.msg with sends := c.msg.sends }
    iss := { CoreIssue.reset with lastTurn := c.iss.lastTurn, sLast := c.iss.sLast } }

/-- A core of a launch: the `.data` image in its L-store, the rest zero, every word full but for free landing slots; its windows; nothing in its
I-store (R37, R59, R134, R244). -/
def giveCore (s : State) (lid : Nat) (d : Desc) (image : List Byte) (g : Nat) : State :=
  s.modCore g fun c =>
    { idleCore c with
      launch := lid
      lstore := Memory.write [] 0 image
      lempty := launchEmpty s d
      windows := coreWindows s d }

/-- A core taken back: its barriers, rings, top-k tree, windows, overflow queue and landing slots are gone (R312), and its plan is unbound; the
plan's s, h, u and v stay as R331 gives them at completion (log entry 57). -/
def takeCore (s : State) (g : Nat) : State :=
  s.modCore g fun c =>
    { idleCore c with
      lstore := c.lstore
      lempty := c.lempty
      errors := c.errors
      mx := { CoreMatrix.reset with plan := { c.mx.plan with tile := none, inProgress := false } } }

/-- The `.data` image of a descriptor (R309); where its pages are not mapped, nothing. -/
def dataImage (s : State) (d : Desc) : State × List Byte :=
  match partRead s d.data d.dataLen with
  | (s, some bs) => (s, bs)
  | (s, none) => (s, [])

/-! ### Placement (R309, R310) -/

/-- The core of the launch initial thread i goes to (R309); of a packed one, the lowest with room, else where spreading would put it (log entry 40). -/
def initialCore (s : State) (lid : Nat) (l : Launch) (i : Nat) : Nat :=
  let d := l.desc
  let spread :=
    let die := l.dies.getD (i % l.dies.length) 0
    let cs := dieCores s d die
    cs.getD (i / l.dies.length % cs.length) 0
  if d.travelling then
    match l.dies.findSome? fun die => segmentOf l (globalEA s.cfg.package die d.entry) with
    | some g => replicaOf g (makeTid lid i)
    | none => spread
  else if d.pack then (l.cores.find? fun g => roomFor s g 0 d.window d.tiles).getD spread
  else spread

/-- The IA initial thread i starts at (R310). -/
def initialPc (s : State) (l : Launch) (g : Nat) : Word :=
  let d := l.desc
  if d.travelling then
    let die := (l.dies.find? fun die => (segmentOf l (globalEA s.cfg.package die d.entry)).isSome).getD 0
    globalEA s.cfg.package die d.entry
  else globalEA s.cfg.package (g / 256) d.entry

/-- An initial thread: g1 the argument, g2 its number, its trap vector if the descriptor installs one (R309, R139). -/
def initialThread (s : State) (l : Launch) (g i : Nat) : Thread :=
  let d := l.desc
  let t := freshThread g d.window d.tiles (initialPc s l g) d.supervisor d.prio d.arg
  { t.setReg 2 (BitVec.ofNat 64 i) with
    sp := { t.sp with tvb := if d.tvbOn then globalEA s.cfg.package (g / 256) d.tvb else 0 } }

/-- Initial thread i placed: in a context, or in the ready pool, its record where it can be written (log entries 40 and 41). -/
def placeInitial (s : State) (lid i : Nat) : State :=
  match s.launch? lid with
  | none => s
  | some l =>
    let g := initialCore s lid l i
    let t := initialThread s l g i
    match createThread s lid t with
    | (s, some _) => s
    | (_, none) =>
      (s.setThread (makeTid lid i) t).modLaunch lid fun l => { l with next := l.next + 1, pool := l.pool ++ [makeTid lid i] }

/-- The paths a launch claims that no one owns become its own (R312). -/
def claimPaths (s : State) (lid : Nat) (d : Desc) : State :=
  { s with
    spool := { s.spool with
      paths := s.spool.paths.map fun (e : Nat × Path) =>
        if e.2.entry.valid && e.2.entry.owner == 0 && (d.paths.getD (e.1 / 64) 0).bit (e.1 % 64) then
          (e.1, { e.2 with entry := { e.2.entry with owner := lid } })
        else e } }

/-- A launch placed (R253, R254, R309). -/
def startLaunch (s : State) (p : LaunchPlan) : State :=
  let l : Launch :=
    { desc := p.desc, phase := .live, next := 0, dies := p.dies, cores := p.cores, segments := p.segments, mapVer := p.ver,
      mapChanges := [], rplan := none, pool := [], quadBars := [], dieBars := [], pkgBars := [], savedCores := [] }
  let s := claimPaths (s.setLaunch p.lid l) p.lid p.desc
  let (s, image) := dataImage s p.desc
  let s := p.cores.foldl (fun s g => giveCore s p.lid p.desc image g) s
  let s := p.segments.foldl (fun s x => x.reps.foldl (fun s g => pinCore s g x) s) s
  (List.range p.desc.threads).foldl (fun s i => placeInitial s p.lid i) s

/-- Whether a launch that is being pre-empted stands on one of some dies: the launch manager takes commands that touch one die one at a time (R306). -/
def managerBusy (s : State) (dies : List Nat) : Bool :=
  s.launches.any fun e => dies.any (setHas e.2.dies) && match e.2.phase with
    | .preempting .. => true
    | _ => false

/-- Where the text of a segment, or the `.data` image, that a launch needs cannot be read now (R254, R309). -/
def launchGap (s : State) (p : LaunchPlan) : Option (Nat × Nat) :=
  match (p.segments.filter fun x => !x.reps.isEmpty).findSome? (segmentGap s) with
  | some gap => some gap
  | none => pageGap s p.desc.data p.desc.dataLen false

/-- Where the record of an initial thread that has no context could not be written. -/
def pooledGap (s : State) (lid : Nat) : Option (Nat × Nat) :=
  match (s.threadsOf lid).find? fun e => e.2.status == .pooled && e.2.io.record.isNone, freeRecord s lid, s.launch? lid with
  | some _, some k, some l => pageGap s (recordAddr l k) 2048 true
  | _, _, _ => none

/-- A command of a device queue that meets a page fault waits for it, as it stood (R324; log entry 117). -/
def commandWaitsPage (s : State) (q : Nat) (w : Bool) (gap : Nat × Nat) : State := reportGap s (2 ^ 32 + q) 0 0 w gap

/-- LAUNCH (R306, R309, R311): it waits while a launch is being pre-empted on a die it might take (log entry 102); refused with the lowest reason, or placed; its result is the launch id (log entry 42). It
waits for a page that an access of it faults on (R324; log entry 117). -/
def execLaunch (q : Nat) (s : State) : Out :=
  let before := s
  if managerBusy s (List.range 8) then .next s
  else withCommand s q 1 0 fun s ix w =>
    let at_ := w.getD 2 0
    let refuse (s : State) (r : Nat) : State := hostComplete s q ix 1 r 0
    if at_.toNat % 64 ≠ 0 then refuse s 1
    else
      match partRead s at_ 256 with
      | (s, none) => refuse s 1
      | (s, some bs) =>
        match planLaunch s bs with
        | (s, .error r) => refuse s r
        | (s, .ok p) =>
          match launchGap s p with
          | some gap => commandWaitsPage before q false gap
          | none =>
            let placed := startLaunch (gapServed s (2 ^ 32 + q)) p
            match pooledGap placed p.lid with
            | some gap => commandWaitsPage before q true gap
            | none => hostComplete placed q ix 0 0 p.lid

/-! ### Completion (R83, R312) -/

/-- Whether an engine command of a launch is outstanding. -/
def launchEngines (s : State) (lid : Nat) : Bool := s.cores.any fun e => e.2.engine.any fun c => c.launch == lid

/-- The paths of a launch released: a grant of 0 as by its lgrant, and no owner (R312). -/
def releasePaths (s : State) (lid : Nat) : State :=
  (s.spool.paths.filter fun e => e.2.entry.valid && e.2.entry.owner == lid).foldl
    (fun s e =>
      let s := if e.2.grant != 0 || e.2.trans.isSome then releaseLight s e.1 e.2.fan else s
      s.modPath e.1 fun p => { p with entry := { p.entry with owner := 0 } })
    s

/-- The pod barriers of a launch, or of its job, gone from the root: a job's stay while another launch of this package belongs to it or another package has
asked something of them (R312; log entry 45). -/
def releasePod (s : State) (lid : Nat) (l : Launch) : State :=
  let key := podKey s lid
  let shared := l.desc.job != 0 &&
    ((s.launches.any fun e => e.1 != lid && e.2.desc.job == l.desc.job) || !(tabGetD s.podPeers key []).isEmpty)
  if shared then s else { s with podBars := tabDel s.podBars key, podPeers := tabDel s.podPeers key }

/-- What a launch holds beyond its threads released (R312). -/
def releaseLaunch (s : State) (lid : Nat) (l : Launch) : State :=
  let s := releasePod (releasePaths s lid) lid l
  let s := (l.cores.filter fun g => (s.core g).launch == lid).foldl takeCore s
  { s with launches := tabDel s.launches lid }

/-- LAUNCH_COMPLETE (R83, R312): with its last thread retired and its engines idle. -/
def execLaunchComplete (lid : Nat) (s : State) : Out :=
  match s.launch? lid with
  | none => .next s
  | some l =>
    let busy := !(s.threadsOf lid).isEmpty || launchEngines s lid || (s.net.spawns.any fun n => tidLaunch n.parent == lid)
      || (match l.phase with
        | .preempting .. => true
        | _ => false)
    if busy then .next s else .next (emit (releaseLaunch s lid l) 0x0001 0 0 0 [BitVec.ofNat 64 lid])

/-! ### The release of a step (R84, R243, R244) -/

/-- The step id each thread of a launch waits with, none where one has not arrived. -/
def stepIds (l : List (Tid × Thread)) : Option (List Nat) :=
  l.mapM fun e => match e.2.status with
    | .parked (.step id _) => if e.2.io.dying then none else some id.toNat
    | _ => none

/-- Whether a marker of this package stands for a command of a launch. -/
def markOf (s : State) (lid : Nat) (m : MarkNote) : Bool :=
  match m.cmd with
  | some (g, id) => ownPackage s m.dst && (engineOf s g).any fun c => c.id == id && c.launch == lid && c.host.isNone
  | none => false

/-- Whether an item is one that a thread of a launch of this package has sent, or a write of its engines. -/
def itemOf (s : State) (lid : Nat) (x : Item) : Bool :=
  ownPackage s x.src && match x.body with
  | .message _ _ a _ _ _ _ => tidLaunch a == lid
  | .wake _ _ l | .kill _ _ l => l == lid
  | .barrier _ _ _ t _ | .barset _ _ _ _ t _ _ => tidLaunch t == lid
  | .atomic t .. | .write t .. => tidLaunch t == lid
  | _ => false

/-- Whether an item is a read of a launch's engines, or their arrival at an object of this package. -/
def engineItem (s : State) (lid : Nat) (x : Item) : Bool :=
  ownPackage s x.src && match x.body with
  | .read t .. => tidLaunch t == lid
  | .arrival _ _ l _ => l == lid && ownPackage s x.dst
  | _ => false

/-- Whether an item of a kind is on its way to, or held at, a die of this package. -/
def itemsOpen (s : State) (p : Item → Bool) : Bool :=
  s.net.items.any p || s.dies.any fun e => e.2.reorder.any p || e.2.outgoing.any p || e.2.stuck.any fun y => p y.item

/-- Whether everything the threads of a launch have sent is performed: the full fence of a step (R84). -/
def launchQuiet (s : State) (lid : Nat) : Bool :=
  ((s.threadsOf lid).all fun e => earlierStores s e.1 e.2 && earlierLoads s e.1 e.2)
    && !(s.net.wakes.any fun n => n.launch == lid) && !(s.net.kills.any fun n => n.launch == lid)
    && !(s.net.barriers.any fun n => tidLaunch n.tid == lid) && !(s.net.messages.any fun m => tidLaunch m.src == lid && m.via.isSome)
    && !itemsOpen s (itemOf s lid)

/-- The threads of a launch on a die. -/
def threadsAt (s : State) (lid die : Nat) : List (Tid × Thread) := (s.threadsOf lid).filter fun e => e.2.core / 256 == die

/-- An IA with the package and die fields of a core (R310). -/
def atCore (s : State) (g : Nat) (ia : Word) : Word := globalEA s.cfg.package (g / 256) (eaOffset ia)

/-- A thread parked in its step sent to a die as a gondola that carries its window, its tiles and their status, its posted receives and its overflow
entries; its PC is the one after its step, at its new die (R243). Until it lands it stands at the launch's lowest core of the die (log entry 44). -/
def moveThread (s : State) (lid : Nat) (tid : Tid) (t : Thread) (die : Nat) : State :=
  let old := s.core t.core
  let dest := match s.launch? lid with
    | some l => (l.cores.find? fun g => g / 256 == die).getD (die * 256)
    | none => die * 256
  let load : StepLoad :=
    { tiles := (old.mx.tiles.filter fun e => decide (t.tbase ≤ e.1 ∧ e.1 < t.tbase + t.tcount)).map fun e => (e.1 - t.tbase, e.2)
      posted := old.msg.posted.filter fun p => p.tid == tid
      overflow := (old.msg.overflow.filter fun o => o.dst == tid).map fun o =>
        { srcCore := dest, dstCore := dest, src := o.src, dst := tid, tag := o.tag, data := overflowData s lid t.core o,
          order := o.order, forwarded := true, via := none } }
  let s := match t.status with
    | .parked (.step _ last) => completeSeq s tid t.pc last
    | _ => s
  match s.thread? tid with
  | none => s
  | some t' =>
    if t'.status != t.status || t'.io.dying then s
    else
      let pc := atCore s dest t'.pc
      let s := dropTiles s t.core t.tbase t.tcount
      let s := s.modCore t.core fun c =>
        { c with msg := { c.msg with
            posted := c.msg.posted.filter fun p => p.tid != tid
            overflow := c.msg.overflow.filter fun o => o.dst != tid } }
      let held : Held :=
        { core := dest, ctx := none, wbase := t.wbase, wsize := t.wsize, tbase := t.tbase, tcount := t.tcount, record := none, landing := none }
      let note : GondolaNote :=
        { held := held, tid := tid, dest := dest, slot := 0, cargo := [], source := t.core, ver := 0, skip := none, pc := pc,
          arrived := false, step := some load }
      let s := s.setThread tid
        { t' with
          core := dest, ctx := none, pc := pc, status := .inFlight dest pc 0 none
          io := { t'.io with lastIssue := lastTurnOn s t dest } }
      let s := s.modNet fun n => { n with gondolas := n.gondolas ++ [note] }
      sendItem s (podDie s t.core) (s.cfg.package * 8 + die) 3 (.gondola tid)

/-- The die a thread leaves next, none once every die of the launch holds ⌊T ÷ ndie⌋ or ⌈T ÷ ndie⌉ threads: the fullest of all those that must give
one up, ties to the lower (R243). -/
def fullestDie (s : State) (lid : Nat) (old dies : List Nat) : Option Nat :=
  let load (d : Nat) : Nat := (threadsAt s lid d).length
  let total := (s.threadsOf lid).length
  let most := (total + dies.length - 1) / dies.length
  let above := (List.range 8).filter fun d =>
    if dies.contains d then decide (most < load d) else old.contains d && decide (0 < load d)
  let low := dies.any fun d => decide (load d < total / dies.length)
  let even := (List.range 8).filter fun d => dies.contains d && low && decide (load d = most)
  argMin (fun d => 2 ^ 25 - load d) (if above.isEmpty then even else above)

/-- Threads moved, the highest indices of the fullest die first, each to the die that holds fewest, until the dies are even (R243). -/
def evenOut : Nat → State → Nat → List Nat → List Nat → State
  | 0, s, _, _, _ => s
  | fuel + 1, s, lid, old, dies =>
    match fullestDie s lid old dies with
    | none => s
    | some d =>
      match (threadsAt s lid d).getLast?, argMin (fun x => (threadsAt s lid x).length) dies with
      | some (tid, t), some x => evenOut fuel (moveThread s lid tid t x) lid old dies
      | _, _ => s

/-- A change of a launch's dies (R243, R244): barriers reset, added cores given, threads moved, withdrawn cores taken back with all they hold. -/
def changeDies (s : State) (lid : Nat) (l : Launch) (dies : List Nat) : State :=
  let cores := (dies.flatMap (dieCores s l.desc)).foldl setAdd []
  let added := cores.filter fun g => !setHas l.cores g
  let gone := l.cores.filter fun g => !setHas cores g
  let (s, image) := dataImage s l.desc
  let s := added.foldl (fun s g => giveCore s lid l.desc image g) s
  let s := (l.cores.filter fun g => setHas cores g).foldl (fun s g => s.modCore g fun c => { c with bars := [] }) s
  let s := s.setLaunch lid { l with dies := dies, cores := cores, quadBars := [], dieBars := [] }
  let s := evenOut ((s.threadsOf lid).length + 1) s lid l.dies dies
  gone.foldl
    (fun s g => (takeCore s g).modCore g fun c => { c with lstore := [], lempty := [], errors := [], mx := { c.mx with plan := CoreMatrix.reset.plan } }) s

/-- Whether a descriptor's core range meets another's. -/
def rangesMeet (a b : Desc) : Bool := decide (a.core0 < b.core0 + b.cores) && decide (b.core0 < a.core0 + a.cores)

/-- Whether a launch of higher priority waits for a die a launch holds: one pre-empted there, or the next LAUNCH of a device queue (R243). -/
def higherWaits (s : State) (l : Launch) (die : Nat) : Bool :=
  let above (d : Desc) : Bool := decide (d.prio < l.desc.prio) && rangesMeet d l.desc
  (s.launches.any fun e => !e.2.inUnits && above e.2.desc && setHas e.2.dies die) ||
    (List.range 64).any fun q =>
      match takeCommand s q 1 0 with
      | .command s _ w =>
        (match partRead s (w.getD 2 0) 256 with
         | (_, some bs) => above (readDesc bs)
         | (_, none) => false)
      | _ => false

/-- Whether the launch manager may change a launch's dies to those given (R242, R243): it adds free dies below the maximum, and withdraws one that a launch
of higher priority waits for, never below the minimum. -/
def diesAllowed (s : State) (l : Launch) (dies : List Nat) : Bool :=
  let added := dies.filter fun d => !l.dies.contains d
  let gone := l.dies.filter fun d => !dies.contains d
  !l.desc.travelling && decide (l.desc.dmin ≤ dies.length) && decide (dies.length ≤ l.desc.dmax)
    && (added.isEmpty || gone.isEmpty || decide (l.desc.dmin < l.desc.dmax))
    && (added.all fun d => dieFree s l.desc d && !dieUnitFull s d) && gone.all (higherWaits s l)

/-- The threads of a launch released from their step where they stand (R84). -/
def releaseStep (s : State) (lid : Nat) : State :=
  (byRank (s.threadsOf lid)).foldl
    (fun s e =>
      match e.2.status with
      | .parked (.step _ last) => resumeThread s e.1 (.done last)
      | _ => s) s

/-- STEP_RELEASE (R84, R243): every thread has arrived, no command is outstanding and everything is performed; the launch manager may change the
dies, but not where the ids differ. -/
def execStepRelease (lid : Nat) (dies : List Nat) (s : State) : Out :=
  match s.launch? lid with
  | none => .next s
  | some l =>
    match stepIds (s.threadsOf lid) with
    | none => .next s
    | some [] => .next s
    | some (x :: xs) =>
      if l.phase != .live || launchEngines s lid || !launchQuiet s lid then .next s
      else
        let lo := xs.foldl min x
        let hi := xs.foldl max x
        let want := (List.range 8).filter fun d => dies.contains d
        let s :=
          if lo ≠ hi then emit s 0x0004 0 0 0 [BitVec.ofNat 64 lo, BitVec.ofNat 64 hi]
          else if want != l.dies && diesAllowed s l want then changeDies s lid l want
          else s
        .next (releaseStep s lid)

end Sys2Proof.Machine
end

