-- ==== Sys2Proof/Machine/HostQueues.lean ====
section
/-! DEFINITION. The host's commands but for those on launches (spec/20 R305, R306, R316 to R320, spec/18 R290): copies, topology changes, power,
grant policy, identity, reset. -/

namespace Sys2Proof.Machine

/-- A command done with a result. -/
def commandDone (s : State) (q : Nat) (ix : BitVec 32) (result : Nat) : State := hostComplete s q ix 0 0 result

/-- A command refused with a reason (R311). -/
def commandRefused (s : State) (q : Nat) (ix : BitVec 32) (reason : Nat) : State := hostComplete s q ix 1 reason 0

/-! ### COPY (R306) -/

/-- The command of a host COPY, not yet started (log entry 80). -/
def hostCopy (s : State) (q : Nat) (ix : BitVec 32) (dst src : Word) (len : Nat) : EngCmd :=
  { id := s.net.nextReq, tid := 0, launch := 0, kind := .copy, reg := 0, object := none, dst := dst, src := src, len := len,
    operand := 0, phase := .waiting, moved := [], status := 0, old := 0, sentAt := 0, cut := false, uncorr := false, faulted := false, entry := none,
    asked := [], after := [], buf := [], dies := [], host := some (q, ix.toNat) }

/-- COPY (R306): refused where an operand is misaligned, too long, or names no place a host can; else it runs in the engines of die 0 (log entry 80). -/
def execCopyCommand (q : Nat) (s : State) : Out :=
  withCommand s q 4 0 fun s ix w =>
    let src := w.getD 2 0
    let dst := w.getD 3 0
    let len := w.getD 4 0
    let bad (v : Word) : Bool := v.slice 2 0 != 0 || eaLocal v || (placeOf s 0 v).isNone
    if bad src || bad dst || len.slice 2 0 != 0 || decide (2 ^ 36 < len.toNat) then commandRefused s q ix 1
    else
      s.takeReq.modDie 0 fun d => { d with engine := d.engine ++ [hostCopy s q ix dst src len.toNat] }

/-! ### RETOPO (R290, R313) -/

/-- The next hops of a package in a route table's bytes (R313). -/
def readHops (bs : List Byte) (pkg : Nat) : List Nat :=
  ((List.range 4).map fun i => leNat ((bs.drop (8 * pkg + 2 * i)).take 2)).filter fun h => h != 0xFFFF

/-- The slot table of a fibre from 1,024 bytes: the slots before the first of all zeros; and whether one is malformed (R192, R313; log entry 81). -/
def readTable (bs : List Byte) : List SlotEntry × Bool :=
  let used := ((List.range 64).map fun k => (bs.drop (16 * k)).take 16).takeWhile fun x => x.any (· != 0)
  let l := used.map readSlot
  (l.map (·.1), l.any (·.2))

/-- The packages whose slots differ between two tables. -/
def slotsChanged (old new : List SlotEntry) : List Nat :=
  ((old ++ new).map (·.peer)).filter fun q => old.filter (·.peer == q) != new.filter (·.peer == q)

/-- The lit paths that reach one of some packages (R262, R290). -/
def litPathsTo (s : State) (peers : NatSet) : NatSet :=
  (s.spool.paths.filter fun e => e.2.entry.valid && e.2.state != .dark && (pathPeers s e.2).any fun p => setHas peers p).map (·.1)

/-- A topology change read from a command's words; none where its tables cannot be read or are malformed (log entry 81). -/
def readRetopo (s : State) (q : Nat) (ix : BitVec 32) (w : List Word) : State × Option Retopo :=
  let fibres := (List.range 48).filter fun f => (w.getD 3 0).bit f
  let (s, table) := partRead s (w.getD 2 0) 32768
  let (s, slots) := partRead s (w.getD 4 0) (1024 * fibres.length)
  match table, slots with
  | some bs, some ss =>
    let routes : Tab (List Nat) := ((List.range 4096).map fun p => (p, readHops bs p)).filter fun e => !e.2.isEmpty
    let tables := (List.range fibres.length).map fun i => readTable ((ss.drop (1024 * i)).take 1024)
    let new := fibres.zip (tables.map (·.1))
    let moved := (List.range 4096).filter fun p => nextHops s p != tabGetD routes p []
    let peers := (moved ++ new.flatMap fun e => slotsChanged (s.fibre e.1).slots e.2).foldl setAdd []
    let limit := if (w.getD 5 0).slice 31 0 = 0 then 1000 else (w.getD 5 0).slice 31 0
    if tables.any (·.2) then (s, none)
    else
      (s, some
        { q := q, slot := ix.toNat, peers := peers, paths := litPathsTo s peers, routes := routes, fibres := new, start := s.cycle.toNat,
          limit := limit, drained := false })
  | _, _ => (s, none)

/-- RETOPO (R290 step 1): it waits while the Spool controller restarts or another is under way; then every lit path to an affected peer drains. -/
def execRetopo (q : Nat) (s : State) : Out :=
  if s.spool.restarting || s.links.retopo.isSome then .next s
  else
    withCommand s q 5 0 fun s ix w =>
      if (w.getD 3 0).slice 63 48 ≠ 0 ∨ (w.getD 5 0).slice 63 32 ≠ 0 then commandRefused s q ix 1
      else
        match readRetopo s q ix w with
        | (s, none) => commandRefused s q ix 1
        | (s, some r) =>
          let s := { s with links := { s.links with retopo := some r } }
          r.paths.foldl (fun s pid => s.modPath pid fun p => { p with state := .draining }) s

/-- Whether nothing sent on a path is unacknowledged or still queued (R290 step 3). -/
def pathDrained (p : Path) : Bool := p.streams.all fun e => e.2.queue.isEmpty && e.2.replay.isEmpty

/-- The remote atomics outstanding to affected homes. -/
def atomsOut (s : State) (r : Retopo) : List RatomNote :=
  s.net.ratoms.filter fun x => r.peers.contains (x.home / 8) && x.src / 2048 == s.cfg.package

/-- DRAIN_LIMIT_EXPIRY (R290 steps 3 to 5): with every flit acknowledged, and every remote atomic answered or the limit past, the affected paths
are down, the new slot tables wait for their circuits, and DRAINED says what is outstanding. -/
def execDrainLimitExpiry (s : State) : Out :=
  match s.links.retopo with
  | none => .next s
  | some r =>
    let out := atomsOut s r
    let paths := (litPathsTo s r.peers).foldl setAdd r.paths
    if r.drained || (paths.any fun pid => !pathDrained (s.path pid)) ||
        (!out.isEmpty && decide (s.cycle.toNat < r.start + 2000 * r.limit)) then .next s
    else
      let gone (l : NatSet) : NatSet := l.filter fun q => !setHas r.peers q
      let s := paths.foldl
        (fun s pid =>
          let s := s.modPath pid fun p => { p with state := if p.state == .dark then .dark else .down }
          s.modFibre (s.path pid).entry.fibre fun f => { f with reached := gone f.reached, confirmed := gone f.confirmed })
        s
      let s := r.fibres.foldl (fun s e => s.modFibre e.1 fun f => { f with staged := some e.2, committed := some e.2 }) s
      let s := { s with links := { s.links with retopo := some { r with drained := true } } }
      .next (emit s 0x0054 0 0 0 [BitVec.ofNat 64 out.length, (out.head?.map (·.ea)).getD 0])

/-- Whether a path reaches a next hop: it is open to it, or comes to it in a slot of an attested peer (R290 step 6). -/
def hopUp (s : State) (hop : Nat) : Bool :=
  s.spool.paths.any fun e =>
    e.2.entry.valid && e.2.entry.peers.contains hop &&
      ((pathOpen e.2 && (reachedPeers s e.2).contains hop)
        || ((s.fibre e.2.entry.fibre).slots.any (·.peer == hop) && (s.peer hop).session && e.2.order != 0))

/-- RETOPO_RESUME (R290 step 7): once each affected package with next hops is reached by one of them, the new routes hold, and the command is
done. -/
def execRetopoResume (s : State) : Out :=
  match s.links.retopo with
  | none => .next s
  | some r =>
    let ready := r.drained && r.peers.all fun p =>
      let hops := tabGetD r.routes p []
      hops.isEmpty || hops.any (hopUp s)
    if !ready then .next s
    else
      .next (commandDone { s with links := { s.links with retopo := none, routes := r.routes } } r.q (BitVec.ofNat 32 r.slot) 0)

/-! ### POWER (R316) and GRANTPOL (R317) -/

/-- Whether a launch is live. -/
def Launch.isLive (l : Launch) : Bool :=
  match l.phase with
  | .preempted _ => false
  | _ => true

/-- Whether a die holds a thread or a landing slot of a live launch (R316). -/
def dieHeld (s : State) (d : Nat) : Bool :=
  s.launches.any fun e =>
    e.2.isLive && (((s.threadsOf e.1).any fun t => t.2.core / 256 == d) || (e.2.desc.travelling && e.2.cores.any fun g => g / 256 == d))

/-- POWER kind 0 (R316): it waits while a launch is being pre-empted on one of its dies (R306; log entry 102); the state of the dies of a mask, and a proposed clock guardband applied where asked (log entry 82). -/
def execPowerState (q : Nat) (s : State) : Out :=
  let mask (w : List Word) : List Nat := (List.range 8).filter fun d => (w.getD 2 0).bit d
  let held := match takeCommand s q 6 0 with
    | .command _ _ w => managerBusy s (mask w)
    | _ => false
  if held then .next s
  else withCommand s q 6 0 fun s ix w =>
    let dies := mask w
    let state := (w.getD 3 0).slice 1 0
    if (w.getD 2 0).slice 63 8 ≠ 0 ∨ (w.getD 3 0).slice 63 2 ≠ 0 ∨ (w.getD 4 0).slice 63 1 ≠ 0 then commandRefused s q ix 1
    else if state = 3 && dies.any (dieHeld s) then commandRefused s q ix 3
    else
      let s := dies.foldl
        (fun s d => s.modDie d fun x =>
          { x with
            power := state
            guardApplied := if (w.getD 4 0).bit 0 then x.guardProposed else x.guardApplied }) s
      commandDone s q ix 0

/-- The sum of the fibre budgets, one fibre's given anew (R316, R317). -/
def budgetSum (s : State) (new : Nat → Option Nat) : Nat :=
  (List.range 48).foldl (fun n f => n + (new f).getD (s.fibre f).budget) 0

/-- POWER kind 1 (R316): the laser cap, refused out of its range or below the sum of the fibre budgets (log entry 82). -/
def execPowerLaserCap (q : Nat) (s : State) : Out :=
  withCommand s q 6 1 fun s ix w =>
    let cap := (w.getD 2 0).toNat
    if cap < 4096 ∨ 294912 < cap ∨ cap < budgetSum s fun _ => none then commandRefused s q ix 1
    else commandDone (s.modHost fun h => { h with laserCap := cap }) q ix 0

/-- Whether the bounds of a grant policy exclude a value in force on a fibre (R317). -/
def boundsExclude (s : State) (f lo hi lmax : Nat) : Bool :=
  let x := s.fibre f
  decide (x.m0 < lo) || decide (hi < x.m0) || (x.lMeas.any fun e => decide (lmax < e.2))
    || (onFibre s f).any fun e => decide (lmax < pathLoss s e.2 e.2.fan)

/-- GRANTPOL (R317): of one fibre, or with kind 1 of all; one refusal leaves everything as it was. -/
def grantPolicy (s : State) (q : Nat) (ix : BitVec 32) (w : List Word) (fs : List Nat) : State :=
  let budget := (w.getD 3 0).slice 12 0
  let v := w.getD 4 0
  let lo := v.slice 3 0
  let hi := v.slice 7 4
  let lmax := v.slice 15 12
  let new (f : Nat) : Option Nat := if fs.contains f then some budget else none
  let bad := (w.getD 3 0).slice 63 13 != 0 || v.slice 63 16 != 0 || decide (6144 < budget) || fs.isEmpty
    || (fs.any fun f => decide (budget < accountedTotal s f none)) || decide (s.host.laserCap < budgetSum s new)
    || fs.any fun f => boundsExclude s f lo hi lmax
  if bad then commandRefused s q ix 1
  else
    commandDone
      (fs.foldl
        (fun s f => s.modFibre f fun x => { x with budget := budget, m0min := lo, m0max := hi, tmax := v.slice 11 8, lmax := lmax }) s)
      q ix 0

/-- GRANTPOL of one fibre or of every fibre (R317). -/
def execGrantpol (q : Nat) (s : State) : Out :=
  match takeCommand s q 7 0 with
  | .command s ix w =>
    let f := (w.getD 2 0).toNat
    .next (grantPolicy s q ix w (if f < 48 then [f] else []))
  | .refused s => .next s
  | .nothing => withCommand s q 7 1 fun s ix w => grantPolicy s q ix w (List.range 48)

/-! ### ATTEST (R319) -/

/-- ATTEST kind 0: the allow list. -/
def execAttestAllowList (q : Nat) (s : State) : Out :=
  withCommand s q 8 0 fun s ix w =>
    let n := (w.getD 3 0).slice 15 0
    if (w.getD 3 0).slice 63 16 ≠ 0 then commandRefused s q ix 1
    else
      match partRead s (w.getD 2 0) (32 * n) with
      | (s, some bs) =>
        let digests := (List.range n).map fun i => leNat ((bs.drop (32 * i)).take 32)
        commandDone { s with links := { s.links with allow := digests } } q ix 0
      | (s, none) => commandRefused s q ix 1

/-- ATTEST kind 1: the exchange with a package starts; its paths attest (log entry 83). -/
def execAttestStart (q : Nat) (s : State) : Out :=
  withCommand s q 8 1 fun s ix w =>
    if (w.getD 2 0).slice 63 12 ≠ 0 then commandRefused s q ix 1
    else
      let peer := (w.getD 2 0).slice 11 0
      let s := (endSession s peer true).modPeer peer fun x => { x with failed := false }
      let s := (pathsTo s peer).foldl
        (fun s pid => s.modPath pid fun p =>
          if p.state == .down && (s.fibre p.entry.fibre).up && !(stripeSet s p).isEmpty && p.grant != 0 then { p with state := .attesting }
          else p) s
      commandDone s q ix 0

/-- ATTEST kind 2: a session ends, and its paths attest again (log entry 83). -/
def execAttestEndSession (q : Nat) (s : State) : Out :=
  withCommand s q 8 2 fun s ix w =>
    if (w.getD 2 0).slice 63 12 ≠ 0 then commandRefused s q ix 1
    else commandDone (endSession s ((w.getD 2 0).slice 11 0) true) q ix 0

/-- The leaf counter (R286). -/
def leafWord (s : State) : Nat := s.links.used % 2 ^ 21 + s.links.gen % 2 ^ 16 * 2 ^ 32

/-- The leaf word of the discovery record written (R315). -/
def writeLeaves (s : State) : State := writeDiscovery s 0x18 (natLE (leafWord s) 8)

/-- ATTEST kind 3: the leaf counter. -/
def execAttestLeafCounter (q : Nat) (s : State) : Out :=
  withCommand s q 8 3 fun s ix _ => writeLeaves (commandDone s q ix (leafWord s))

/-- ATTEST kind 4: a new identity, while no session is live; its public key is written to host memory. -/
def execAttestNewIdentity (q : Nat) (s : State) : Out :=
  withCommand s q 8 4 fun s ix w =>
    if s.links.peers.any fun e => e.2.session then commandRefused s q ix 1
    else
      let gen := s.links.gen + 1
      let key := (List.range Config.publicKeyBytes).map (Config.publicKey gen)
      let s := { s with links := { s.links with gen := gen, used := 0 } }
      let s := s.modHost fun h => { h with memory := h.memory.write ((w.getD 2 0).slice 55 0) key }
      writeLeaves (commandDone s q ix 0)

/-! ### RESET (R320) -/

/-- The part after a package reset (R314, R320): as right after reset, but for its configuration, identity, host memory, firmware, and light
sources that have failed; an accepted firmware image runs from now on (log entry 84). -/
def resetPart (s : State) : State :=
  { State.reset with
    cfg := s.cfg
    agenda := s.agenda
    focus := s.focus
    fresh := s.fresh
    spool := { State.reset.spool with
      fibres := s.spool.fibres.map fun (e : Nat × Fibre) => (e.1, { Fibre.reset with sources := e.2.sources, up := e.2.up }) }
    links := { State.reset.links with used := s.links.used, gen := s.links.gen }
    host := { HostIf.reset with
      memory := s.host.memory
      lastRead := s.host.lastRead
      fwVersion := s.host.fwPending.getD s.host.fwVersion
      fwRollback := s.host.fwRollback } }

/-- RESET kind 0 (R320): everything is gone, the queue the command came from too; bring-up follows (log entry 84). -/
def execResetPackage (q : Nat) (s : State) : Out := withCommand s q 9 0 fun s _ _ => resetPart s

/-- RESET kind 1 (R320): the configuration; while a launch is live only the atomic timeout and the BER threshold may change (log entry 85). -/
def execResetConfigure (q : Nat) (s : State) : Out :=
  withCommand s q 9 1 fun s ix w =>
    let h := s.host
    let changes := w.getD 2 0 != h.evBase || (w.getD 3 0).toNat != h.evSize || w.getD 4 0 != h.faultBase || w.getD 5 0 != h.ptBase
    let live := s.launches.any fun e => e.2.isLive
    let ber := (w.getD 7 0).slice 15 0
    if (w.getD 6 0).slice 63 32 ≠ 0 ∨ (w.getD 7 0).slice 63 16 ≠ 0 ∨ ber = 0 ∨ (changes && live) then commandRefused s q ix 1
    else
      commandDone
        (s.modHost fun h =>
          { h with
            evBase := w.getD 2 0
            evSize := (w.getD 3 0).toNat
            faultBase := w.getD 4 0
            ptBase := w.getD 5 0
            atomTimeout := (w.getD 6 0).slice 31 0
            ber := ber }) q ix 0

/-- RESET kind 2 (R320): firmware, signed and of a version not below the rollback counter, to run from the next reset. -/
def execResetFirmware (q : Nat) (s : State) : Out :=
  withCommand s q 9 2 fun s ix w =>
    match partRead s (w.getD 2 0) (w.getD 3 0).toNat with
    | (s, some image) =>
      if Config.firmwareSigned image && decide (s.host.fwRollback.toNat ≤ Config.firmwareVersion image) then
        commandDone (s.modHost fun h => { h with fwPending := some (BitVec.ofNat 64 (Config.firmwareVersion image)) }) q ix 0
      else commandRefused s q ix 1
    | (s, none) => commandRefused s q ix 1

end Sys2Proof.Machine
end

