-- ==== Sys2Proof/Machine/Messages.lean ====
section
/-! DEFINITION. Messages (spec/08 R150 to R153): send, receive and probe, the send queue, matching at the receiver's core, the overflow queue,
refusals and retries. -/

namespace Sys2Proof.Machine

/-! ### Checks and tokens (R150, R151) -/

/-- A message token (R151): count, tag, sender's launch-local index, status. -/
def messageToken (count : Nat) (tag : BitVec 16) (src status : Nat) : Word :=
  BitVec.ofNat 64 (count + tag.toNat * 2 ^ 16 + src * 2 ^ 32 + status * 2 ^ 56)

/-- The first check a buffer and its length fail, as cause and value (R150): the length, then R122's checks 1 and 2. DESIGN CHOICE: a buffer of length 0 is
checked like any other, so its address must lie in a window with the permission (log entry 114). -/
def bufferTrap (s : State) (t : Thread) (buf len : Word) (r w : Bool) : Option (Nat × Word) :=
  if 1024 < len.toNat ∨ len.toNat % 8 ≠ 0 then some (0x01, len)
  else
    match checkLocal s t buf len.toNat 8 r w with
    | some cause => some (cause, buf)
    | none => none

/-! ### Sending (R152) -/

/-- Whether a message of a thread to another is still on its way ahead of a place in their order, refused ones included (R152). -/
def aheadOf (s : State) (src dst : Tid) (order : Nat) : Bool :=
  let here (x : Item) : Bool :=
    match x.body with
    | .message _ o a b _ _ _ => a == src && b == dst && decide (o < order)
    | _ => false
  (s.cores.any fun e => e.2.msg.sends.any fun x => x.tid == src && x.dst == dst && decide (x.order < order))
    || (s.net.messages.any fun m => m.src == src && m.dst == dst && decide (m.order < order))
    || s.net.items.any here || s.dies.any fun e => e.2.reorder.any here || e.2.outgoing.any here

/-- A send-queue entry gone, its token written in the sender, if that lives and waits for it (R152). -/
def endSend (s : State) (g order : Nat) (status : Nat) : State :=
  match (s.core g).msg.sends.find? fun x => x.order == order with
  | none => s
  | some e =>
    let s := s.modCore g fun c => { c with msg := { c.msg with sends := c.msg.sends.filter fun x => x.order != order } }
    let count := if status = 0 then e.len else 0
    s.modThread e.tid fun t => if e.reg = 0 then t else t.land e.reg (messageToken count 0 0 status)

/-- A send-queue entry tried: it leaves once the sender's earlier stores are performed and no earlier message of the pair is on its way; the
buffer is read then, and a receiver that does not live answers NOTHREAD (R152); a sender whose buffer holds an uncorrectable error is killed (R299).
DESIGN CHOICE: the buffer is read whole at that one moment, which is issue itself where nothing stands ahead (log entry 114). -/
def trySend (s : State) (g : Nat) (e : SendEntry) : State :=
  if e.inFlight || stillOpen s e.after || aheadOf s e.tid e.dst e.order then s
  else
    match s.thread? e.dst with
    | none => endSend s g e.order 0x22
    | some x =>
      if tidLaunch e.dst != tidLaunch e.tid || x.io.dying then endSend s g e.order 0x22
      else
      match wordMet (s.core g).errors e.buf e.len with
      | some _ =>
        uncorrThread (s.modCore g fun c => { c with msg := { c.msg with sends := c.msg.sends.filter fun y => y.order != e.order } }) e.tid
          (BitVec.ofNat 64 e.buf)
      | none =>
        let s := s.modCore g fun c =>
          { c with msg := { c.msg with
              sends := c.msg.sends.map fun y => if y.order = e.order then { y with inFlight := true } else y } }
        let stamp := s.net.nextReq
        let s := passMessage s
          { srcCore := g, dstCore := x.core, src := e.tid, dst := e.dst, tag := e.tag, data := lread s g e.buf e.len, order := e.order,
            forwarded := false, via := none } (x.core / 256)
        if x.core / 256 = g / 256 then s
        else
          s.modThread e.tid fun t =>
            { t with io := { t.io with dests := tabPut t.io.dests (s.cfg.package * 8 + x.core / 256) stamp } }

/-- SEND (R150, R152; log entries 51 and 74). DESIGN CHOICE: bits [63:32] of the tid operand are ignored, as in recv and probe (log entry 114). -/
def execSend (d a b c : Reg) (tag : BitVec 16) (s : State) : Out :=
  perform (.send d a b c tag) s fun u t =>
    match bufferTrap s t (t.g b) (t.g c) true false with
    | some (cause, v) => finishTrap u s cause v
    | none =>
      if 8 ≤ (s.core t.core).msg.sends.length then finishPark u s .sendQueue
      else
        let e : SendEntry :=
          { tid := u.tid, dst := (t.g a).setWidth 32, reg := d.toNat, buf := (t.g b).toNat, len := (t.g c).toNat, tag := tag,
            order := s.net.nextReq, after := storesOpen s u.tid t, refusals := 0, retryAt := 0, inFlight := false }
        let s := (s.takeReq.setThread u.tid (t.setPending d.toNat)).modCore t.core fun c =>
          { c with msg := { c.msg with sends := c.msg.sends ++ [e] } }
        finishSeq u (trySend s t.core e)

/-- SEND_RETRY (R152): an entry leaves for the first time, or again when its time has come. -/
def execSendRetry (g k : Nat) (s : State) : Out :=
  match (s.core g).msg.sends[k]? with
  | none => .next s
  | some e => if e.retryAt ≤ s.coreClock g then .next (trySend s g e) else .next s

/-! ### Receiving (R153) -/

/-- Whether a receive's source and tag accept a message. -/
def accepts (src : Option Tid) (tag : Option (BitVec 16)) (msrc : Tid) (mtag : BitVec 16) : Bool :=
  (match src with
   | some x => x == msrc
   | none => true) &&
  match tag with
  | some x => x == mtag
  | none => true

/-- The source and tag a receive or probe asks for. -/
def wanted (any : Bool) (v : Word) : Option Tid := if any then none else some (v.setWidth 32)

/-- The tag a receive or probe asks for. -/
def wantedTag (any : Bool) (tag : BitVec 16) : Option (BitVec 16) := if any then none else some tag

/-- The last refused sender of a thread on its core, if it is marked (R152, R153). -/
def refusedMark (s : State) (tid : Tid) (t : Thread) : Option Tid :=
  (((s.core t.core).msg.refused.filter fun r => r.1 == tid).getLast?).map (·.2)

/-- A thread's refused mark cleared. -/
def clearRefused (s : State) (tid : Tid) (t : Thread) : State :=
  s.modCore t.core fun c => { c with msg := { c.msg with refused := c.msg.refused.filter fun r => r.1 != tid } }

/-- The oldest overflow entry of a thread that is accepted. -/
def overflowMatch (s : State) (tid : Tid) (t : Thread) (src : Option Tid) (tag : Option (BitVec 16)) : Option Overflow :=
  (s.core t.core).msg.overflow.find? fun o => o.dst == tid && accepts src tag o.src o.tag

/-- The data of a message in a receive's buffer, each word set full, and its token (R153). -/
def deliverInto (s : State) (g buf cap : Nat) (src : Tid) (tag : BitVec 16) (data : List Byte) : State × Word :=
  let n := min data.length cap
  (lwriteFull s g buf (data.take n), messageToken n tag (tidIndex src) (if cap < data.length then 0x21 else 0))

/-- RECV (R150, R153): the refused mark first, then the overflow queue, then the posted-receive table of 64. DESIGN CHOICE: the checks of length and address
come before the refused mark (log entry 74). -/
def execRecv (d a b c : Reg) (tag : BitVec 16) (anyTag anySrc : Bool) (s : State) : Out :=
  perform (.recv d a b c tag anyTag anySrc) s fun u t =>
    match bufferTrap s t (t.g b) (t.g c) false true with
    | some (cause, v) => finishTrap u s cause v
    | none =>
      let src := wanted anySrc (t.g a)
      let wtag := wantedTag anyTag tag
      let buf := (t.g b).toNat
      let cap := (t.g c).toNat
      match refusedMark s u.tid t, overflowMatch s u.tid t src wtag with
      | some x, _ => finishTrap u (clearRefused s u.tid t) 0x10 (x.setWidth 64)
      | none, some o =>
        let (s, token) := deliverInto s t.core buf cap o.src o.tag (overflowData s (tidLaunch u.tid) t.core o)
        let s := s.modCore t.core fun c => { c with msg := { c.msg with overflow := c.msg.overflow.filter fun y => y.place != o.place } }
        (match s.thread? u.tid with
         | some t => finishReg u s t d token
         | none => finishSeq u s)
      | none, none =>
        if 64 ≤ (s.core t.core).msg.posted.length then finishPark u s .recvTable
        else
          let p : Posted := { tid := u.tid, reg := d.toNat, src := src, tag := wtag, buf := buf, cap := cap }
          finishSeq u ((s.setThread u.tid (t.setPending d.toNat)).modCore t.core fun c =>
            { c with msg := { c.msg with posted := c.msg.posted ++ [p] } })

/-- PROBE (R153): the oldest matching overflow entry is reported and kept. -/
def execProbe (d a b : Reg) (anyTag anySrc : Bool) (s : State) : Out :=
  perform (.probe d a b anyTag anySrc) s fun u t =>
    match refusedMark s u.tid t, overflowMatch s u.tid t (wanted anySrc (t.g a)) (wantedTag anyTag ((t.g b).setWidth 16)) with
    | some x, _ => finishTrap u (clearRefused s u.tid t) 0x10 (x.setWidth 64)
    | none, some o => finishReg u s t d (messageToken o.len o.tag (tidIndex o.src) 0)
    | none, none => finishReg u s t d (messageToken 0 0 0 0x24)

/-! ### Arrival (R152) -/

/-- A message into a core's overflow queue of 16, at the lowest free place: its header and data written in L-store, each word set full as it lands (R37, R152). -/
def putOverflow (s : State) (g : Nat) (m : MsgNote) : Option State :=
  let c := s.core g
  if 16 ≤ c.msg.overflow.length then none
  else
    match (List.range 16).find? fun k => !c.msg.overflow.any fun o => o.place == k, s.launch? (tidLaunch m.dst) with
    | some k, some l =>
      let at_ := l.desc.ovq + k * 1088
      let s := lwriteFull s g at_ ((List.range 64).map fun i => Config.overflowHeader m.order i)
      let s := lwriteFull s g (at_ + 64) m.data
      some (s.modCore g fun c =>
        { c with msg := { c.msg with
            overflow := c.msg.overflow ++
              [{ place := k, order := m.order, dst := m.dst, src := m.src, tag := m.tag, len := m.data.length }] } })
    | _, _ => none

/-- The sender's side of a message that has been taken. -/
def messageTaken (s : State) (m : MsgNote) : State := if m.forwarded then s else endSend s m.srcCore m.order 0

/-- Whether a thread's launch is pre-empted: its receives and its overflow queue are saved with its core (R295, R296). -/
def preempted (s : State) (tid : Tid) : Bool :=
  match s.launch? (tidLaunch tid) with
  | some l => (match l.phase with
    | .preempted _ => true
    | _ => false)
  | none => false

/-- A refusal (R152): sent again after 512 n cycles for the nth, and after the sixteenth given up, the receiver marked. -/
def refuseMessage (s : State) (g : Nat) (m : MsgNote) : State :=
  match (s.core m.srcCore).msg.sends.find? fun x => x.order == m.order with
  | none => s
  | some e =>
    if 16 ≤ e.refusals + 1 then
      let mark (c : Core) : Core := { c with msg := { c.msg with refused := c.msg.refused ++ [(m.dst, m.src)] } }
      let s := if preempted s m.dst then
          s.modLaunch (tidLaunch m.dst) fun l => { l with savedCores := l.savedCores.map fun e => if e.1 = g then (g, mark e.2) else e }
        else s.modCore g mark
      endSend s m.srcCore m.order 0x20
    else
      s.modCore m.srcCore fun c =>
        { c with msg := { c.msg with
            sends := c.msg.sends.map fun y =>
              if y.order = m.order then
                { y with
                  refusals := e.refusals + 1
                  retryAt := s.coreClock m.srcCore + 512 * (e.refusals + 1)
                  inFlight := false }
              else y } }

/-- Whether an earlier message of the pair waits elsewhere: it is on its way, in the overflow queue of a core the receiver has left, or carried by a
step's gondola (R147, R243). -/
def earlierElsewhere (s : State) (g : Nat) (m : MsgNote) : Bool :=
  (s.net.messages.any fun x => x.src == m.src && x.dst == m.dst && decide (x.order < m.order)) ||
    ((s.net.gondolas ++ s.net.landAcks).any fun n =>
      (n.step.map (·.overflow)).getD [] |>.any fun x => x.src == m.src && x.dst == m.dst && decide (x.order < m.order)) ||
    s.cores.any fun e => e.1 != g && e.2.msg.overflow.any fun o => o.src == m.src && o.dst == m.dst

/-- Whether an earlier message stands before one on the same way, from one core, or from the dies of one flow, to one core (R217); a forwarded one has come
to its core before. -/
def messageBehind (s : State) (k : Nat) (m : MsgNote) : Bool :=
  !m.forwarded && (s.net.messages.take k).any fun x =>
    !x.forwarded && x.dstCore == m.dstCore && x.via == m.via && (x.via.isSome || x.srcCore == m.srcCore)

/-- MESSAGE_ARRIVAL (R152, R153, R217): the oldest posted receive that accepts it, else the overflow queue, else a refusal; a receiver that has
moved is followed (R147). -/
def execMessageArrival (k : Nat) (s : State) : Out :=
  match s.net.messages[k]? with
  | none => .next s
  | some m =>
    let gone := s.modNet fun n => { n with messages := dropIx n.messages k }
    if messageBehind s k m then .next s
    else
    match s.thread? m.dst with
    | none => .next (if m.forwarded then gone else endSend gone m.srcCore m.order 0x22)
    | some t =>
      if t.core ≠ m.dstCore then .next (passMessage gone { m with dstCore := t.core } (t.core / 256))
      else if earlierElsewhere s t.core m then .next s
      else if preempted s m.dst then (if m.forwarded then .next s else .next (refuseMessage gone t.core m))
      else
        match (s.core t.core).msg.posted.find? fun p => p.tid == m.dst && accepts p.src p.tag m.src m.tag with
        | some p =>
          let (s, token) := deliverInto gone t.core p.buf p.cap m.src m.tag m.data
          let s := s.modCore t.core fun c => { c with msg := { c.msg with posted := c.msg.posted.erase p } }
          let s := s.modThread m.dst fun t => if p.reg = 0 then t else t.land p.reg token
          .next (messageTaken s m)
        | none =>
          match putOverflow gone t.core m with
          | some s => .next (messageTaken s m)
          | none => if m.forwarded then .next s else .next (refuseMessage gone t.core m)

end Sys2Proof.Machine
end

