-- ==== Sys2Proof/Machine/Packed.lean ====
section
/-! DEFINITION. Bitfield and packed integer instructions, group 0x20 (spec/06 R102 to R109). None sets a flag or traps on a value. -/

namespace Sys2Proof.Machine

/-- The lane width of a lane type (R103). -/
def laneWidth : LaneType → Nat
  | .i8x8 => 8
  | .i16x4 => 16
  | .i32x2 => 32

/-- The lane count of a lane type (R103). -/
def laneCount (vt : LaneType) : Nat := 64 / laneWidth vt

/-- The lanes of a word as bit vectors of the lane width, lane 0 first (R39). -/
def laneBits (vt : LaneType) (x : Word) (i : Nat) : BitVec (laneWidth vt) := BitVec.ofNat _ (lane (laneWidth vt) x i)

/-- A word made from a function of the lane number (R103). -/
def eachLane (vt : LaneType) (f : Nat → BitVec (laneWidth vt)) : Word :=
  mapLanes (laneWidth vt) (laneCount vt) fun i => (f i).toNat

/-- A lane's exact signed or natural result written by a mode (R104). -/
def saturate (w : Nat) (mode : SatMode) (signed natural : Int) : BitVec w :=
  match mode with
  | .wrap => BitVec.ofInt w natural
  | .ss => BitVec.ofInt w (max (-(2 ^ (w - 1))) (min (2 ^ (w - 1) - 1) signed))
  | .sn => BitVec.ofInt w (max 0 (min (2 ^ w - 1) natural))

/-- One half of a lane product (R105). -/
def mulHalf {w : Nat} (half : MulHalf) (a b : BitVec w) : BitVec w :=
  match half with
  | .lo => a * b
  | .hs => BitVec.ofInt w (a.toInt * b.toInt / 2 ^ w)
  | .hn => BitVec.ofNat w (a.toNat * b.toNat / 2 ^ w)

/-- The lanes of vshf (R107). -/
def shiftLane (vt : LaneType) (op : VshfOp) (x y : Word) (i : Nat) : BitVec (laneWidth vt) :=
  let a := laneBits vt x i
  let n := (laneBits vt y i).toNat % laneWidth vt
  match op with
  | .sll => a <<< n
  | .srl => a >>> n
  | .sra => a.sshiftRight n
  | .perm => laneBits vt x ((laneBits vt y i).toNat % laneCount vt)

/-- The reduction of vred (R108). -/
def reduceLanes (vt : LaneType) (op : VredOp) (x : Word) : Word :=
  let ls := (List.range (laneCount vt)).map (laneBits vt x)
  let first := laneBits vt x 0
  match op with
  | .sum => BitVec.ofInt 64 (ls.foldl (fun acc l => acc + l.toInt) 0)
  | .minS => (ls.foldl (minMax .minS) first).signExtend 64
  | .maxS => (ls.foldl (minMax .maxS) first).signExtend 64
  | .minN => (ls.foldl (minMax .minN) first).setWidth 64
  | .maxN => (ls.foldl (minMax .maxN) first).setWidth 64

/-- The condition of vcmp on two lanes (R109). -/
def laneCond {w : Nat} (c : VCond) (a b : BitVec w) : Bool :=
  match c with
  | .eq => a == b
  | .ne => a != b
  | .lt => a.slt b
  | .le => a.sle b
  | .ltn => a.ult b
  | .len => a.ule b

/-- A field of a word: len1 + 1 bits from pos (R102). -/
def fieldMask (pos len1 : BitVec 6) : Word := (Word.ones >>> (63 - len1.toNat)) <<< pos.toNat

/-- bfx (R102). -/
def extractField (x : Word) (pos len1 : BitVec 6) (sx : Bool) : Word :=
  let f : Word := x >>> pos.toNat
  if sx then f.sext (len1.toNat + 1) else f.zext (len1.toNat + 1)

/-- bfi (R102). -/
def insertField (x y : Word) (pos len1 : BitVec 6) : Word :=
  (x &&& ~~~fieldMask pos len1) ||| ((y <<< pos.toNat) &&& fieldMask pos len1)

/-- BFX (R102). -/
def execBfx (d a : Reg) (pos len1 : BitVec 6) (sx : Bool) (s : State) : Out :=
  performReg (.bfx d a pos len1 sx) d s fun t => extractField (t.g a) pos len1 sx

/-- BFI (R102). -/
def execBfi (d a b : Reg) (pos len1 : BitVec 6) (s : State) : Out :=
  performReg (.bfi d a b pos len1) d s fun t => insertField (t.g a) (t.g b) pos len1

/-- VADD (R104). -/
def execVadd (d a b : Reg) (vt : LaneType) (mode : SatMode) (s : State) : Out :=
  performReg (.vadd d a b vt mode) d s fun t =>
    eachLane vt fun i =>
      let x := laneBits vt (t.g a) i
      let y := laneBits vt (t.g b) i
      saturate _ mode (x.toInt + y.toInt) (x.toNat + y.toNat)

/-- VSUB (R104). -/
def execVsub (d a b : Reg) (vt : LaneType) (mode : SatMode) (s : State) : Out :=
  performReg (.vsub d a b vt mode) d s fun t =>
    eachLane vt fun i =>
      let x := laneBits vt (t.g a) i
      let y := laneBits vt (t.g b) i
      saturate _ mode (x.toInt - y.toInt) ((x.toNat : Int) - y.toNat)

/-- VMUL (R105). -/
def execVmul (d a b : Reg) (vt : LaneType) (half : MulHalf) (s : State) : Out :=
  performReg (.vmul d a b vt half) d s fun t =>
    eachLane vt fun i => mulHalf half (laneBits vt (t.g a) i) (laneBits vt (t.g b) i)

/-- VMNX (R106). -/
def execVmnx (d a b : Reg) (vt : LaneType) (op : MinMax) (s : State) : Out :=
  performReg (.vmnx d a b vt op) d s fun t =>
    eachLane vt fun i => minMax op (laneBits vt (t.g a) i) (laneBits vt (t.g b) i)

/-- VSHF (R107). -/
def execVshf (d a b : Reg) (vt : LaneType) (op : VshfOp) (s : State) : Out :=
  performReg (.vshf d a b vt op) d s fun t => eachLane vt (shiftLane vt op (t.g a) (t.g b))

/-- VRED (R108). -/
def execVred (d a : Reg) (vt : LaneType) (op : VredOp) (s : State) : Out :=
  performReg (.vred d a vt op) d s fun t => reduceLanes vt op (t.g a)

/-- VCMP (R109): all ones where the condition holds. -/
def execVcmp (d a b : Reg) (vt : LaneType) (cond : VCond) (s : State) : Out :=
  performReg (.vcmp d a b vt cond) d s fun t =>
    eachLane vt fun i =>
      if laneCond cond (laneBits vt (t.g a) i) (laneBits vt (t.g b) i) then BitVec.allOnes _ else 0

end Sys2Proof.Machine
end

