-- ==== Sys2Proof/Machine/Plan.lean ====
section
/-! DEFINITION. Transport plans (spec/03 R54, spec/09 R175 to R179, spec/23 R327, R328) and the epilogue unit's completion of an operation
(R158). -/

namespace Sys2Proof.Machine

/-! ### The plan state (R175) -/

/-- Entry (i, j) of 16 tiles from a physical tile on (R175). -/
def planEntry (c : Core) (base i j : Nat) : Nat := (c.tile (base + 4 * (i / 16) + j / 16)).code 0 (i % 16) (j % 16)

/-- The tile of a plan that holds none but given entries, minus infinity elsewhere, kind 0. -/
def planTile (x : Tile) (k m n : Nat) (f : Nat → Nat → Nat) : Tile :=
  let y := x.fill 0 fun i j =>
    let r := 16 * (k / 4) + i
    let c := 16 * (k % 4) + j
    if r < m ∧ c < n then f r c else minusInf32
  { y with st := { y.st with kind := 0 } }

/-- The first of a plan's tiles, and another's, that holds an entry of the plan and is not of kind 0 (R156). -/
def planKinds (c : Core) (bases : List Nat) : Option (Nat × Word) :=
  let p := c.mx.plan
  let read := (List.range 16).filter fun k => decide (16 * (k / 4) < p.m) && decide (16 * (k % 4) < p.n)
  firstTrap (bases.flatMap fun b => read.map fun k => kindTrap c (b + k))

/-- Whether a plan field names the tile the core's plan is bound to (R176). -/
def boundTrap (s : State) (g : Nat) (o : EpOp) (f : TileRef) : Option (Nat × Word) :=
  if (s.core g).mx.plan.tile = some o.tile then none else some (0x01, f.setWidth 64)

/-- A marginal that makes a plan infeasible: NaN, infinite or negative, or nonzero with its row or column wholly excluded (R175). -/
def badMarginal (v : Nat) (excluded : Bool) : Bool :=
  match val32 v with
  | .nan _ | .inf _ => true
  | .num neg m _ => m != 0 && (neg || excluded)

/-- plan (R175, R327). -/
def runPlan (s : State) (g : Nat) (t : Thread) (o : EpOp) (m1 n1 : Nat) : EpResult :=
  let m := m1 + 1
  let n := n1 + 1
  unlessTrap
    (firstTrap
      [alignTrap 4 [o.va, o.vb, o.vc], rangeTrap s t true false [(o.va, 4 * m * n), (o.vb, 4 * m), (o.vc, 4 * n)]])
    (let raw (i j : Nat) : Nat := vecCode s g o.va (i * n + j)
     let bad (v : Nat) : Bool := (val32 v).isNan || v == inf32
     let entry (i j : Nat) : Nat := if bad (raw i j) then minusInf32 else raw i j
     let ma := (List.range m).map fun i => vecCode s g o.vb i
     let mb := (List.range n).map fun j => vecCode s g o.vc j
     let rowOut (i : Nat) : Bool := (List.range n).all fun j => entry i j == minusInf32
     let colOut (j : Nat) : Bool := (List.range m).all fun i => entry i j == minusInf32
     let infeasible :=
       ((List.range m).any fun i => badMarginal (ma.getD i 0) (rowOut i)) || (List.range n).any fun j => badMarginal (mb.getD j 0) (colOut j)
     let nan := (List.range m).any fun i => (List.range n).any fun j => bad (raw i j)
     let pad (l : List Nat) : List (BitVec 32) := (List.range 64).map fun i => BitVec.ofNat 32 (l.getD i 0)
     let s := s.modCore g fun c =>
       (List.range 16).foldl (fun c k => (tileWritten c (o.tile + k)).setTile (o.tile + k) (planTile (c.tile (o.tile + k)) k m n entry)) c
     let s := s.modMx g fun x =>
       { x with plan :=
           { tile := some o.tile, m := m, n := n, a := pad ma, b := pad mb, u := pad [], v := pad [], infeasible := infeasible,
             inProgress := false, s := 0, h := false, limit := 0, tol := 0, flags := 0 } }
     .done (recordFlags s g o.tile o.tid (flagIf (nan || infeasible) flagNV)))

/-! ### Balancing (R54, R176, R177) -/

/-- A sum in which a term of minus infinity makes the whole minus infinity, rounded once, with its flags (R176). -/
def addB (a b : Nat) : Nat × Flags := if a = minusInf32 ∨ b = minusInf32 then (minusInf32, 0) else add32 a b

/-- An f32 code with its sign changed. -/
def negate32 (a : Nat) : Nat := if a < 2 ^ 31 then a + 2 ^ 31 else a - 2 ^ 31

/-- The code of entry i of a vector. -/
def vec32 (l : List (BitVec 32)) (i : Nat) : Nat := (l.getD i 0).toNat

/-- A new value of u or v from a row or column and the other vector's values (R176). -/
def halfValue (ls vs : List Nat) (marginal : Nat) : Nat × Flags :=
  if ls.all (· == minusInf32) then (minusInf32, 0)
  else
    let xs := (ls.zip vs).map fun e => addB e.1 e.2
    let fl := xs.foldl (fun a x => a ||| x.2) (0 : Flags)
    let z := lse2 (xs.map (·.1))
    if (cmpF (val32 marginal) (val32 0)) = some .eq then (minusInf32, fl ||| z.2)
    else
      let l := flog2Code marginal
      let fl := fl ||| z.2 ||| l.2
      if z.1 = minusInf32 then (inf32, fl ||| flagOF)
      else
        let r := add32 l.1 (negate32 z.1)
        (r.1, fl ||| r.2)

/-- The row half of a sweep, or its column half (R176). -/
def balHalf (c : Core) (p : PlanState) (rowHalf : Bool) : PlanState × Flags :=
  let base := p.tile.getD 0
  let outer := if rowHalf then p.m else p.n
  let inner := if rowHalf then p.n else p.m
  let entry (k t : Nat) : Nat := if rowHalf then planEntry c base k t else planEntry c base t k
  let other := if rowHalf then p.v else p.u
  let marg := if rowHalf then p.a else p.b
  let rs := (List.range outer).map fun k =>
    halfValue ((List.range inner).map (entry k)) ((List.range inner).map (vec32 other)) (vec32 marg k)
  let vals := (List.range 64).map fun k => BitVec.ofNat 32 ((rs.map (·.1)).getD k (vec32 (if rowHalf then p.u else p.v) k))
  let fl := rs.foldl (fun a r => a ||| r.2) (0 : Flags)
  (if rowHalf then { p with u := vals } else { p with v := vals }, fl)

/-- x[i][j] of a plan (R177). -/
def planX (c : Core) (p : PlanState) (i j : Nat) : Nat × Flags :=
  let y := addB (planEntry c (p.tile.getD 0) i j) (vec32 p.u i)
  let z := addB y.1 (vec32 p.v j)
  (z.1, y.2 ||| z.2 ||| flagIf (val32 z.1).isNan flagNV)

/-- P[i][j] of a plan (R177; log entry 59). -/
def planP (c : Core) (p : PlanState) (i j : Nat) : Nat × Flags :=
  let x := planX c p i j
  if x.1 = minusInf32 then (0, x.2) else let y := fexp2Code x.1; (y.1, x.2 ||| y.2)

/-- A sum in index order, rounded after each addition (R177). -/
def runningSum (l : List (Nat × Flags)) : Nat × Flags :=
  l.foldl (fun a x => let z := add32 a.1 x.1; (z.1, a.2 ||| x.2 ||| z.2)) (0, 0)

/-- Whether err() is at most a tolerance, with the flags of its steps (R177); a NaN difference is above every tolerance. -/
def errWithin (c : Core) (p : PlanState) (tol : Nat) : Bool × Flags :=
  let rows := (List.range p.m).map fun i =>
    (runningSum ((List.range p.n).map fun j => planP c p i j), vec32 p.a i)
  let cols := (List.range p.n).map fun j =>
    (runningSum ((List.range p.m).map fun i => planP c p i j), vec32 p.b j)
  let diffs := (rows ++ cols).map fun e => let z := add32 e.1.1 (negate32 e.2); (z.1, e.1.2 ||| z.2)
  let ok := diffs.all fun d =>
    match cmpF (val32 d.1).abs (val32 tol) with
    | some .gt | none => false
    | _ => true
  (ok, diffs.foldl (fun a d => a ||| d.2) 0)

/-- The checks of a bal (R176); of an infeasible plan no tile is read (R156). -/
def balTrap (s : State) (g : Nat) (o : EpOp) (f : TileRef) : Option (Nat × Word) :=
  let tol := val32 (o.vb.slice 31 0)
  let negative := match tol with
    | .num n m _ => n && m != 0
    | .inf n => n
    | .nan _ => true
  firstTrap
    [boundTrap s g o f, if (s.core g).mx.plan.infeasible then none else planKinds (s.core g) [o.tile],
     if 65535 < o.va.toNat then some (0x01, o.va) else none, if negative then some (0x01, o.vb) else none]

/-- bal's end (R176): the sweeps done and whether it converged. -/
def balDone (s : State) (g : Nat) (o : EpOp) (d : Reg) (pair : Pair) (p : PlanState) (conv : Bool) (fl : Flags) : EpResult :=
  let s := s.modMx g fun m => { m with plan := { p with inProgress := false, flags := 0 } }
  let s := raiseThread (raiseTile s g o.tile fl) o.tid (p.flags ||| fl)
  .done (s.modThread o.tid fun t => (t.setReg d.toNat (BitVec.ofNat 64 p.s)).setPair pair conv (!conv))

/-- bal at a restart point: its tile's flags are set, its thread's are kept for its end (R157, R177). -/
def balMore (s : State) (g : Nat) (o : EpOp) (p : PlanState) (fl : Flags) : EpResult :=
  .more (raiseTile (s.modMx g fun m => { m with plan := { p with flags := p.flags ||| fl } }) g o.tile fl)

/-- bal up to its next restart point, or its end (R176, R177, R328). -/
def runBal (s : State) (g : Nat) (o : EpOp) (d : Reg) (pair : Pair) (f : TileRef) : EpResult :=
  unlessTrap (balTrap s g o f)
    (let c := s.core g
     let p0 := c.mx.plan
     let limit := o.va.toNat
     let tol := o.vb.slice 31 0
     let p := if p0.inProgress then p0 else { p0 with s := 0, h := false, flags := 0 }
     let p := { p with inProgress := true, limit := limit, tol := BitVec.ofNat 32 tol }
     if p.infeasible then balDone s g o d pair { p with s := 0 } false 0
     else if limit = 0 then
       let e := errWithin c p tol
       balDone s g o d pair p e.1 e.2
     else if !p.h then
       let r := balHalf c p true
       balMore s g o { r.1 with h := true } r.2
     else
       let r := balHalf c p false
       let q := { r.1 with h := false, s := p.s + 1 }
       let e := errWithin c q tol
       if e.1 then balDone s g o d pair q true (r.2 ||| e.2)
       else if q.s = limit then balDone s g o d pair q false (r.2 ||| e.2)
       else balMore s g o q (r.2 ||| e.2))

/-! ### Reading a plan (R178, R179) -/

/-- plnx (R178). -/
def runPlnx (s : State) (g : Nat) (t : Thread) (o : EpOp) (f : TileRef) : EpResult :=
  let c := s.core g
  let p := c.mx.plan
  unlessTrap
    (firstTrap
      [boundTrap s g o f, planKinds c [o.tile], alignTrap 4 [o.va], rangeTrap s t false true [(o.va, 4 * p.m * p.n)]])
    (let es := (List.range p.m).flatMap fun i => (List.range p.n).map fun j => planP c p i j
     let s := lwrite s g o.va.toNat (es.flatMap fun e => natLE e.1 4)
     .done (recordFlags s g o.tile o.tid (es.foldl (fun a e => a ||| e.2) 0)))

/-- plnd (R179; log entry 59). -/
def runPlnd (s : State) (g : Nat) (o : EpOp) (d : Reg) (f : TileRef) : EpResult :=
  let c := s.core g
  let p := c.mx.plan
  unlessTrap (firstTrap [boundTrap s g o f, planKinds c [o.tile, o.tile2]])
    (let term (i j : Nat) : Option (FVal × Flags) :=
       let x := planX c p i j
       if x.1 = minusInf32 then none
       else
         let y := planP c p i j
         some ((mulF (val32 y.1) (val32 (planEntry c o.tile2 i j))).1, y.2)
     let ts := (List.range p.m).flatMap fun i => (List.range p.n).filterMap fun j => term i j
     let sum := sumF false (ts.map (·.1))
     let r := encodeF .f32 .rne sum.1
     let fl := ts.foldl (fun a e => a ||| e.2) (flagIf sum.1.isNan flagNV ||| r.2)
     .done ((recordFlags s g o.tile o.tid fl).modThread o.tid fun t => t.setReg d.toNat (BitVec.ofNat 64 r.1)))

/-! ### Completion (R158) -/

/-- An operation of the epilogue unit performed. -/
def runEpilogue (s : State) (g : Nat) (t : Thread) (o : EpOp) : EpResult :=
  match o.instr with
  | .tzero _ => runTzero s g o
  | .tscl _ _ _ c mode bc => runTscl s g t o c mode bc
  | .tact _ _ _ op => runTact s g o op
  | .tcvt p _ _ c fmt b32 stride => runTcvt s g t o p c fmt b32 stride.toNat
  | .tred _ _ cols op => runTred s g t o cols op
  | .topk _ _ _ x => runTopk s g o x
  | .tkrd d _ row clr => runTkrd s g t o d row.toNat clr
  | .plan _ _ _ _ m1 n1 => runPlan s g t o m1.toNat n1.toNat
  | .bal d _ _ p x => runBal s g o d p x
  | .plnx _ x => runPlnx s g t o x
  | .plnd d _ x => runPlnd s g o d x
  | _ => .done s

/-- Whether an operation is a bal. -/
def EpOp.isBal (o : EpOp) : Bool :=
  match o.instr with
  | .bal .. => true
  | _ => false

/-- The epilogue unit's first operation gone. -/
def dropEpilogue (s : State) (g : Nat) : State := s.modMx g fun m => { m with epilogue := m.epilogue.drop 1 }

/-- A finished operation's thread goes on (R158). -/
def endEpilogue (s : State) (g : Nat) (o : EpOp) : State :=
  let s := dropEpilogue s g
  match s.thread? o.tid with
  | none => s
  | some t =>
    match t.status with
    | .parked (.matrix r) => resumeThread s o.tid r
    | _ => s

/-- A bal whose thread is killed leaves the unit at the end of its running half, its in-progress bit clear (R177; log entry 69). -/
def quitBal (s : State) (g : Nat) : State :=
  dropEpilogue (s.modMx g fun m => { m with plan := { m.plan with inProgress := false } }) g

/-- A bal at a restart point: it goes on, but ends there when its thread is killed, and leaves the unit when its launch is being pre-empted, to be
issued again when the launch resumes (R177, R295; log entry 69). -/
def restartBal (s : State) (g : Nat) (o : EpOp) (dying : Bool) : State :=
  if dying then quitBal s g
  else
    match s.launch? (tidLaunch o.tid) with
    | some l => (match l.phase with
      | .preempting .. => dropEpilogue s g
      | _ => s)
    | none => s

/-- Whether an operation of the unit waits for an mma on one of its tiles (R158). -/
def waitsTile (s : State) (g : Nat) (o : EpOp) : Bool := o.tiles.any fun p => tileBusy (s.core g) p

/-- The tiles an operation of the unit reads: all it names, but where it writes them whole (R165, R175). -/
def EpOp.tilesRead (o : EpOp) : List Nat :=
  match o.instr with
  | .tzero _ | .plan .. => []
  | _ => o.tiles

/-- The runs of L-store an operation of the unit reads. -/
def EpOp.runsRead (c : Core) (o : EpOp) : List (Word × Nat) :=
  match o.instr with
  | .tscl _ _ _ rc mode _ =>
    (if mode = .col then [] else [(o.va, 64)]) ++ (if mode = .row then [] else [(o.vb, 64)]) ++ if rc = 0 then [] else [(o.vc, 64)]
  | .tcvt _ _ _ rc _ b32 _ =>
    if rc = 0 then [] else [(o.vc, 16 * kindCols (c.tile o.tile).st.kind / if b32 then 32 else 16)]
  | .plan _ _ _ _ m1 n1 =>
    let m := m1.toNat + 1
    let n := n1.toNat + 1
    [(o.va, 4 * m * n), (o.vb, 4 * m), (o.vc, 4 * n)]
  | _ => []

/-- EPILOGUE_COMPLETE (R158): the unit's first operation is performed, in issue order, once no mma is at work on its tiles; a bal comes to its next restart
point (R177; log entry 58). -/
def execEpilogueComplete (g : Nat) (s : State) : Out :=
  match (s.core g).mx.epilogue with
  | [] => .next s
  | o :: _ =>
    if waitsTile s g o || !coreClocked s g then .next s
    else
    match s.thread? o.tid with
    | none => .next (if o.isBal then quitBal s g else dropEpilogue s g)
    | some t =>
      match matrixMet s g o.tilesRead (EpOp.runsRead (s.core g) o) with
      | some what => .next (uncorrThread (dropEpilogue s g) o.tid what)
      | none =>
      match runEpilogue s g t o with
      | .done s => .next (endEpilogue s g o)
      | .more s => .next (restartBal s g o t.io.dying)
      | .trap cause v =>
        if t.io.dying then .next (dropEpilogue s g) else .next (trapWaiting (dropEpilogue s g) o.tid cause v)

/-- PLAN (R175). -/
def execPlan (x : TileRef) (a b c : Reg) (m1 n1 : BitVec 6) (s : State) : Out :=
  performEpilogue (.plan x a b c m1 n1) a b c x x (fun t => planTiles t x) s

/-- BAL (R176). -/
def execBal (d a b : Reg) (p : Pair) (x : TileRef) (s : State) : Out :=
  performEpilogue (.bal d a b p x) a b 0 x x (fun t => planTiles t x) s

/-- PLNX (R178). -/
def execPlnx (a : Reg) (x : TileRef) (s : State) : Out :=
  performEpilogue (.plnx a x) a 0 0 x x (fun t => planTiles t x) s

/-- PLND (R179). -/
def execPlnd (d : Reg) (cost x : TileRef) (s : State) : Out :=
  performEpilogue (.plnd d cost x) 0 0 0 x cost (fun t => planTiles t x ++ planTiles t cost) s

end Sys2Proof.Machine
end

