-- ==== Sys2Proof/Machine/Predicates.lean ====
section
/-! DEFINITION. Compare and predicate instructions, group 0x20 (spec/06 R95 to R101). -/

namespace Sys2Proof.Machine

/-- The thread with a compare's truth value written to a pair by its combine mode, both results from the old predicates (R95). -/
def combinePair (t : Thread) (p : Pair) (cm : Combine) (c : Bool) : Thread :=
  match cm with
  | .set => t.setPair p c (!c)
  | .and => t.setPair p (t.pred p.pa && c) (t.pred p.pb && !c)
  | .or => t.setPair p (t.pred p.pa || c) (t.pred p.pb || !c)

/-- An integer condition at a width (R64, R96). -/
def intCond {w : Nat} (ic : IntCond) (a b : BitVec w) : Bool :=
  match ic with
  | .eq => a == b
  | .ne => a != b
  | .lt => a.slt b
  | .ge => !a.slt b
  | .le => a.sle b
  | .gt => !a.sle b
  | .ltn => a.ult b
  | .gen => !a.ult b
  | .len => a.ule b
  | .gtn => !a.ule b
  | .any => a &&& b != 0
  | .none => a &&& b == 0

/-- A float condition on the order of two values, none where they are unordered (R98). -/
def floatCond (c : FCond) (o : Option Ordering) : Bool :=
  match c with
  | .eq => o == some .eq
  | .ne => o != some .eq
  | .lt => o == some .lt
  | .le => o == some .lt || o == some .eq
  | .gt => o == some .gt
  | .ge => o == some .gt || o == some .eq
  | .un => o.isNone
  | .ord => o.isSome

/-- The format fcmp reads (R98). -/
def FcmpType.toFmt : FcmpType → Fmt
  | .f64 => .f64
  | .f32 => .f32
  | .bf16 => .bf16
  | .f16 => .f16

/-- The value fcmp reads from a register: lane 0 of its type (R98). -/
def fcmpValue (ty : FcmpType) (x : Word) : FVal :=
  let f := FcmpType.toFmt ty
  decodeF f (lane f.bits x 0)

/-- The flags of a float compare: NV for a signalling operand, and with sig for any NaN (R98). -/
def fcmpFlags (sig : Bool) (a b : FVal) : Flags := a.signal ||| b.signal ||| flagIf (sig && (a.isNan || b.isNan)) flagNV

/-- The predicates with those of a mask replaced from a value (R99, R100). -/
def maskPreds (old value mask : BitVec 8) : BitVec 8 := (old &&& ~~~mask) ||| (value &&& mask)

/-- CMP (R96). -/
def execCmp (p : Pair) (a b : Reg) (ic : IntCond) (cm : Combine) (w32 : Bool) (s : State) : Out :=
  perform (.cmp p a b ic cm w32) s fun u t =>
    let c := if w32 then intCond ic ((t.g a).setWidth 32) ((t.g b).setWidth 32) else intCond ic (t.g a) (t.g b)
    finishThread u s (combinePair t p cm c)

/-- CMPI (R97). -/
def execCmpi (p : Pair) (a : Reg) (ic : IntCond) (cm : Combine) (imm : BitVec 32) (s : State) : Out :=
  perform (.cmpi p a ic cm imm) s fun u t =>
    finishThread u s (combinePair t p cm (intCond ic (t.g a) (imm.signExtend 64)))

/-- FCMP (R98): with an enabled NV raised it takes cause 0x0B and writes no predicate. -/
def execFcmp (p : Pair) (a b : Reg) (ty : FcmpType) (cond : FCond) (cm : Combine) (sig : Bool) (s : State) : Out :=
  perform (.fcmp p a b ty cond cm sig) s fun u t =>
    let x := fcmpValue ty (t.g a)
    let y := fcmpValue ty (t.g b)
    let f := fcmpFlags sig x y
    if flagTrap t f then finishTrap u s 0x0B (f.setWidth 64)
    else finishThread u s ((combinePair t p cm (floatCond cond (cmpF x y))).raise f)

/-- PSET (R99). -/
def execPset (value mask : BitVec 8) (s : State) : Out :=
  perform (.pset value mask) s fun u t => finishThread u s { t with preds := maskPreds t.preds value mask }

/-- PMOV_PG (R100). -/
def execPmovPg (d : Reg) (s : State) : Out :=
  perform (.pmovPg d) s fun u t => finishReg u s t d (t.preds.setWidth 64)

/-- PMOV_GP (R100). -/
def execPmovGp (a : Reg) (mask : BitVec 8) (s : State) : Out :=
  perform (.pmovGp a mask) s fun u t =>
    finishThread u s { t with preds := maskPreds t.preds ((t.g a).setWidth 8) mask }

/-- PLOG (R101): the table at 4 P[pa] + 2 P[pb] + P[pc]. -/
def execPlog (pd pa pb pc : BitVec 3) (table : BitVec 8) (s : State) : Out :=
  perform (.plog pd pa pb pc table) s fun u t =>
    let ix := 4 * bitOf (t.pred pa) + 2 * bitOf (t.pred pb) + bitOf (t.pred pc)
    finishThread u s (t.setPred pd (table.getLsbD ix))

end Sys2Proof.Machine
end

