-- ==== Sys2Proof/Machine/Preempt.lean ====
section
/-! DEFINITION. Pre-emption (spec/19 R294 to R298, spec/09 R163, R177, spec/15 R252): stopping a launch, its records of cores and threads,
and resuming it. -/

namespace Sys2Proof.Machine

/-! ### Stopping (R294 steps 1 and 2, R295) -/

/-- The threads of a launch that hold contexts, in order of launch-local index. -/
def contextHolders (s : State) (lid : Nat) : List (Tid × Thread) := (s.threadsOf lid).filter fun e => e.2.ctx.isSome

/-- The lowest free record slots of a launch, as many as asked for. -/
def lowestSlots (used : List Nat) (n : Nat) : List Nat :=
  ((List.range (used.length + n)).filter fun k => !used.contains k).take n

/-- A thread of a launch stops: it takes no further turn, and leaves its seat (R294 step 1). -/
def stopThread (s : State) (tid : Tid) (slot : Nat) : State :=
  match s.thread? tid with
  | none => s
  | some t =>
    let ready := t.isSeated || t.status == .ready
    let s := s.setThread tid { t with io := { t.io with record := some slot, wasReady := ready, quantumDue := false } }
    if t.isSeated then makeReady s tid else s

/-- Whether a command that names a launch waits for a pre-emption: of the launch itself, or on one of its dies (R306). -/
def commandHeld (s : State) (q op : Nat) (dies : Bool) : Bool :=
  match takeCommand s q op 0 with
  | .command s _ w =>
    (match s.launch? ((w.getD 2 0).slice 7 0) with
     | some l => (match l.phase with
       | .preempting .. => true
       | _ => dies && managerBusy s l.dies)
     | none => false)
  | _ => false

/-- PREEMPT (R294, R306, R311): one that touches a die on which a launch is being pre-empted waits; no such live launch with threads is NOLAUNCH; too little room for the records is refused with reason 9; else the
launch stops, and the command completes when its records are written (log entry 77). -/
def execPreempt (q : Nat) (s : State) : Out :=
  if commandHeld s q 2 true then .next s
  else withCommand s q 2 0 fun s ix w =>
    let lid := (w.getD 2 0).slice 7 0
    match s.launch? lid with
    | none => hostComplete s q ix 3 0 0
    | some l =>
      if l.phase != .live || (s.threadsOf lid).isEmpty then hostComplete s q ix 3 0 0
      else
        let holders := contextHolders s lid
        let slots := lowestSlots (usedRecords s lid) holders.length
        if slots.any fun k => l.desc.spillLimit < (k + 1) * recordSize l then hostComplete s q ix 1 9 0
        else
          let s := (holders.zip slots).foldl (fun s e => stopThread s e.1.1 e.2) s
          let clocks := (List.range 8).map fun d => s.coreClock (256 * d)
          s.modLaunch lid fun l => { l with phase := .preempting (w.getD 3 0) q ix.toNat clocks }

/-- The waits of a launch's threads for words, latches, tiles and slots withdrawn, their registers no longer pending, and what was held back behind them sent
(R129, R295). -/
def withdrawWaits (s : State) (lid : Nat) : State :=
  match s.launch? lid with
  | none => s
  | some l =>
    let mine (tid : Tid) : Bool := tidLaunch tid == lid
    let waits := l.dies.flatMap fun d => (s.die d).slices.flatMap fun e => e.2.waiters.filter fun r => mine r.tid
    let gone := waits.map (·.id)
    let s := waits.foldl (fun s r => s.modThread r.tid fun t => r.kind.dests.foldl Thread.clearPending t) s
    let s := (s.net.spawns.filter fun x => mine x.parent).foldl (fun s x => s.modThread x.parent fun t => t.clearPending x.d) s
    let s := s.modNet fun n => { n with spawns := n.spawns.filter fun x => !mine x.parent }
    let s := l.dies.foldl
      (fun s d => s.modDie d fun die =>
        { die with slices := die.slices.map fun e => (e.1, { e.2 with waiters := e.2.waiters.filter fun r => !mine r.tid }) })
      s
    l.cores.foldl
      (fun s g =>
        pump
          (s.modCore g fun c =>
            { c with
              waiters := []
              iss := { c.iss with slotRequests := c.iss.slotRequests.filter fun t => !mine t }
              mx := { c.mx with
                passing := [], takes := []
                epilogue := match c.mx.epilogue with
                  | o :: _ => if waitsTile s g o then [] else c.mx.epilogue
                  | [] => [] }
              port := { c.port with
                loads := c.port.loads.filter fun e => !gone.contains e.1
                unacked := c.port.unacked.filter fun r => !gone.contains r.id } }) g)
      s

/-- The registers of a thread that stay pending through a pre-emption: those of its engine commands and posted receives (R295). -/
def keptPending (s : State) (tid : Tid) (t : Thread) : List Nat :=
  (s.cores.flatMap fun e => e.2.engine.flatMap fun c =>
      if c.tid = tid then (match c.kind with
        | .ratom .. => [c.reg, c.reg + 1]
        | _ => [c.reg])
      else [])
    ++ ((s.core t.core).msg.posted.filter fun p => p.tid == tid).map (·.reg)

/-- Whether a thread has come to its stopping point: nothing due but engine commands and receives, no load of its stroke on its way, no
gondola. -/
def threadStopped (s : State) (tid : Tid) (t : Thread) : Bool :=
  (t.pending.all fun n => (keptPending s tid t).contains n) &&
    (match t.stroke with
     | some k => k.loads.all fun l => l.faulted
     | none => true) &&
    match t.status with
    | .inFlight .. => false
    | _ => true

/-- Whether a core of a launch has come to its stopping point. -/
def coreStopped (s : State) (lid g : Nat) : Bool :=
  let c := s.core g
  c.port.held.isEmpty && c.port.unacked.isEmpty && c.port.loads.isEmpty && c.port.faulted.isEmpty && c.mx.transit.isNone
    && c.mx.epilogue.isEmpty && !(c.msg.sends.any fun x => tidLaunch x.tid == lid)
    && !c.engine.any fun x => x.launch == lid && x.host.isNone && x.phase == .moving && midChunk x

/-- Whether an answer, landing or item of a launch is still on its way. -/
def netOpen (s : State) (lid : Nat) : Bool :=
  let mine (tid : Tid) : Bool := tidLaunch tid == lid
  (s.net.units.any fun u => match u with
    | .sys tid .. | .ringAsk tid .. | .ring tid .. | .barc tid .. | .gen tid .. => mine tid)
  || (s.net.barriers.any fun b => mine b.tid) || (s.net.maps.any fun m => mine m.tid) || (s.net.objects.any fun o => o.launch == lid)
  || (s.net.gondolas.any fun n => mine n.tid) || (s.net.landAcks.any fun n => mine n.tid)
  || (s.net.notes.any fun n => match n.note with
    | .inval tid .. => mine tid
    | _ => false)
  || (s.spool.requests.any fun r => match r with
    | .lgrant tid .. | .circ tid .. => mine tid)
  || (s.net.marks.any (markOf s lid)) || (s.net.markAcks.any (markOf s lid))
  || (s.net.ratoms.any fun r => mine r.tid && r.src / 2048 == s.cfg.package && ownPackage s r.home)
  || itemsOpen s fun x => itemOf s lid x || engineItem s lid x

/-- Whether step 2 of R294 is over for a launch (log entry 77). -/
def launchStopped (s : State) (lid : Nat) (l : Launch) : Bool :=
  ((s.threadsOf lid).all fun e => threadStopped s e.1 e.2) && l.cores.all (coreStopped s lid) && !netOpen s lid

/-! ### What a running mma does (R163) -/

/-- The matrix queue of a core at its stopping point: the running mma completes or holds the result of the chunks done, those not started are
issued again (R163; log entry 68). In P3 it has done what it had when its clock stopped (R2). -/
def stopMatrix (s : State) (g : Nat) : State :=
  match (s.core g).mx.queue with
  | [] => s
  | o :: _ =>
    if !o.started then s.modMx g fun m => { m with queue := [] }
    else
      let now := s.coreClock g
      let until_ := (preemptBegan s g).getD now + 256
      let n := chunksBy o (if coreClocked s g then until_ else min until_ now)
      let (s, flags) := runChunks s g o (n - o.chunks)
      if n = o.x.k.toNat + 1 then
        let s := raiseThread (s.modMx g fun m => { m with queue := [] }) o.tid flags
        match s.thread? o.tid with
        | some t =>
          (match t.status with
           | .parked (.matrix r) => resumeThread s o.tid r
           | _ => s)
        | none => s
      else s.modMx g fun m => { m with queue := [{ o with chunks := n, flags := flags }] }

/-! ### Core records (R296) -/

/-- The size of a core's record. -/
def coreRecordSize : Nat := 0xA8000

/-- Whether 64 bytes of L-store lie in a region declared discardable; landing slots never do (R296). -/
def discardedAt (s : State) (l : Launch) (off : Nat) : Bool :=
  !(l.desc.travelling && decide (s.cfg.lcap - 0x22000 ≤ off)) && l.desc.discard.any fun r => decide (r.1 ≤ off ∧ off < r.1 + r.2)

/-- Whether a tile is declared discardable. -/
def discardedTile (l : Launch) (t : Nat) : Bool := l.desc.dtiles.bit t

/-- The header of a core's record. -/
def coreHeader (s : State) (lid g : Nat) : List Byte :=
  let m := (s.core g).mx
  let ring := match m.ring with
    | some (base, n) => 2 + Nat.log2 n * 2 ^ 8 + base * 2 ^ 16
    | none => 0
  let plan := match m.plan.tile with
    | some t => t + 2 ^ 8
    | none => 0
  [BitVec.ofNat 64 (gcoreOf s.cfg.package g + lid * 2 ^ 32), s.cycle, BitVec.ofNat 64 (bitOf m.incomingFull + ring),
    BitVec.ofNat 64 plan, 0, 0, 0, 0].flatMap fun w => wordLE w 8

/-- A barrier in a record. -/
def barBytes (b : Bar) : List Byte := natLE (b.m + b.a * 2 ^ 32) 8 ++ natLE b.n.toNat 8

/-- The barriers a core's record holds: its own; its quad's at the lowest core of the quad; its die's at core 0 (log entry 103). -/
def barPieces (s : State) (lid g : Nat) : List (Nat × List Byte) :=
  let set (sc : Scope) : List Byte := (List.range 16).flatMap fun n => barBytes (getBar s sc (barUnit s lid g sc) n)
  [(0x240, set .core)] ++ (if g % 4 = 0 then [(0x340, set .quad)] else []) ++ if g % 256 = 0 then [(0x440, set .die)] else []

/-- The plan state of a record. -/
def planBytes (p : PlanState) : List Byte :=
  let vec (l : List (BitVec 32)) : List Byte := (List.range 64).flatMap fun i => natLE (l.getD i 0).toNat 4
  natLE ((p.m - 1) % 64 + (p.n - 1) % 64 * 2 ^ 6 + bitOf p.infeasible * 2 ^ 12 + bitOf p.inProgress * 2 ^ 13 + bitOf p.h * 2 ^ 14
      + p.s % 2 ^ 16 * 2 ^ 32) 8
    ++ natLE (p.limit % 2 ^ 16 + p.tol.toNat * 2 ^ 32) 8 ++ List.replicate 48 0 ++ vec p.a ++ vec p.b ++ vec p.u ++ vec p.v

/-- The tiles of a record that are written. -/
def keptTiles (l : Launch) : List Nat := (List.range 64).filter fun t => !discardedTile l t

/-- The offsets of the 64-byte pieces of L-store that a record holds. -/
def keptLines (s : State) (l : Launch) : List Nat :=
  ((List.range (s.cfg.lcap / 64)).map (64 * ·)).filter fun o => !discardedAt s l o

/-- The full/empty bits of the eight words of 64 bytes of L-store. -/
def fullByte (c : Core) (off : Nat) : List Byte :=
  natLE ((List.range 8).foldl (fun a i => a + bitOf (c.wordFull (off / 8 + i)) * 2 ^ i) 0) 1

/-- A core's record in pieces: offset and bytes (R296); the implementation image is not architectural (log entry 11). -/
def corePieces (s : State) (lid : Nat) (l : Launch) (g : Nat) : List (Nat × List Byte) :=
  let c := s.core g
  [(0, coreHeader s lid g)]
    ++ ((keptTiles l).map fun t => (0x40 + 8 * t, wordLE (tileWord (c.tile t).st) 8))
    ++ barPieces s lid g ++ [(0x540, planBytes c.mx.plan)]
    ++ ((keptLines s l).map fun o => (0x1000 + o / 64, fullByte c o))
    ++ [(0x3000, (List.range 53248).map (Config.recordImage lid g))]
    ++ ((keptLines s l).map fun o => (0x10000 + o, c.lstore.bytes o 64))
    ++ ((keptTiles l).map fun t => (0x90000 + 1024 * t, (c.tile t).bytes.bytes 0 1024))
    ++ [(0xA0000, c.mx.operand.bytes 0 16384), (0xA4000, c.mx.incoming.bytes 0 16384)]

/-- The address of a core's record in a context area. -/
def coreArea (area : Word) (g : Nat) : Word := area + BitVec.ofNat 64 (g * coreRecordSize)

/-- Pieces written from an address on, none where a page does not take one. -/
def writePieces (s : State) (at_ : Word) (l : List (Nat × List Byte)) : Option State :=
  l.foldlM
    (fun s p => match partWrite s (at_ + BitVec.ofNat 64 p.1) p.2 with
      | (s, true) => some s
      | (_, false) => none)
    s

/-! ### PREEMPT_SAVE (R294 steps 3 and 4) -/

/-- A word of a core that a save finds to hold an uncorrectable error written as 0, an L-store word empty too, with a record (R299; log entry 87). -/
def saveZero (s : State) (g place : Nat) : State :=
  let bytes := List.replicate 8 (0 : Byte)
  let s := s.modCore g fun c =>
    let c := { c with errors := setDel c.errors place }
    if place < 2 ^ 17 then { c with lstore := c.lstore.write (8 * place) bytes, lempty := setAdd c.lempty place }
    else if place < 2 ^ 18 then
      let tile := (place - 2 ^ 17) / 128
      c.setTile tile { c.tile tile with bytes := (c.tile tile).bytes.write (8 * (place % 128)) bytes }
    else if place < 2 ^ 18 + 2048 then { c with mx := { c.mx with operand := c.mx.operand.write (8 * (place - 2 ^ 18)) bytes } }
    else { c with mx := { c.mx with incoming := c.mx.incoming.write (8 * (place - 2 ^ 18 - 2048)) bytes } }
  let what := if place < 2 ^ 17 then 8 * place else if place < 2 ^ 18 then (place - 2 ^ 17) / 128 else 8 * (place - 2 ^ 18)
  uncorrEvent s (g / 256) (g % 256) 0 (BitVec.ofNat 64 what)

/-- The erroneous words of a core that its record takes, found by the save. -/
def saveErrors (s : State) (l : Launch) (g : Nat) : State :=
  ((s.core g).errors.filter fun w =>
      if w < 2 ^ 17 then !discardedAt s l (w / 8 * 64) else !discardedTile l ((w - 2 ^ 17) / 128)).foldl (fun s w => saveZero s g w) s

/-- A thread as its record takes it: the faulted loads of its stroke to be sent again. -/
def stoppedThread (t : Thread) : Thread := { t with stroke := t.stroke.map Stroke.again }

/-- The records of a launch's cores, then of the threads that hold contexts, written. -/
def saveRecords (s : State) (lid : Nat) (l : Launch) (area : Word) : Option State :=
  let cores := l.cores.foldlM (fun s g => writePieces s (coreArea area g) (corePieces s lid l g)) s
  cores.bind fun s =>
    (contextHolders s lid).foldlM
      (fun s e => match e.2.io.record with
        | some k => (match writeRecord s e.1 e.2 k with
          | (s, true) => some s
          | (_, false) => none)
        | none => some s)
      s

/-- The context of a stopped thread released; the cycles left of a park are kept in its record. -/
def dropContext (s : State) (e : Tid × Thread) : State :=
  let t := e.2
  let status : Status := match t.status with
    | .parked (.timed (some _) last) => .parked (.timed (some (parkLeft s t)) last)
    | x => x
  (leaveQueues s t.core e.1).setThread e.1 { t with ctx := none, status := status }

/-- An evicted thread that waits for an answer no more, its request withdrawn, issues its instruction again when it is reseated (R298; log entry 93). -/
def Thread.stopKept (t : Thread) : Thread :=
  match t.io.kept with
  | some (.departure .., _) | some (_, some _) | none => t
  | some (_, none) => { t with io := { t.io with kept := none } }

/-- What a launch held on its cores released, its cores' hidden state kept, and the quad and die barriers that no core of the launch records (R294 step 4,
R296, R298; log entry 103). -/
def releaseSaved (s : State) (lid : Nat) (l : Launch) (area : Word) : State :=
  let saved : Tab Core := l.cores.map fun g => (g, s.core g)
  let s := (contextHolders s lid).foldl dropContext s
  let s := (s.threadsOf lid).foldl (fun s e => s.setThread e.1 e.2.stopKept) s
  let s := l.cores.foldl takeCore s
  let s := s.modNet fun n =>
    { n with
      marks := n.marks.map fun m => if (m.who.map tidLaunch) = some lid then { m with who := none } else m
      markAcks := n.markAcks.map fun m => if (m.who.map tidLaunch) = some lid then { m with who := none } else m }
  let kept (t : Tab Bar) (n : Nat) : Tab Bar := t.filter fun e => !setHas l.cores (e.1 / 16 * n)
  s.modLaunch lid fun l =>
    { l with phase := .preempted area, savedCores := saved, quadBars := kept l.quadBars 4, dieBars := kept l.dieBars 256 }

/-- PREEMPT_SAVE (R294 to R297): once everything of the launch has come to its stopping point, the records are written, what it held is released,
and the command completes; while a page does not take a record, it waits. -/
def execPreemptSave (lid : Nat) (s : State) : Out :=
  match s.launch? lid with
  | none => .next s
  | some l =>
    match l.phase with
    | .preempting area q slot _ =>
      let s := withdrawWaits s lid
      if !launchStopped s lid l then .next s
      else
        let s1 := l.cores.foldl (fun s g => saveErrors (stopMatrix s g) l g) s
        let s1 := (contextHolders s1 lid).foldl (fun s e => s.setThread e.1 (stoppedThread e.2)) s1
        match saveRecords s1 lid l area with
        | none => .next s
        | some s2 =>
          let s2 := releaseSaved s2 lid l area
          let s2 := emit s2 0x0002 0 0 0 [BitVec.ofNat 64 lid, area]
          .next (hostComplete s2 q (BitVec.ofNat 32 slot) 0 0 0)
    | _ => .next s

/-! ### RESUME (R294, R298) -/

/-- A core's record as read back: header words 2 and 3, and the pieces of memory it holds. -/
structure CoreImage where
  flags : Word
  bound : Word
  status : Tab Word
  bars : List Byte
  quads : List Byte
  diebars : List Byte
  plan : List Byte
  fulls : Tab Nat
  lines : List (Nat × List Byte)
  tiles : Tab (List Byte)
  operand : List Byte
  incoming : List Byte
  deriving DecidableEq, Repr

/-- A run of reads from an address on, none where a page does not give one. -/
def readPieces (s : State) (at_ : Word) (l : List (Nat × Nat)) : State × Option (List (List Byte)) :=
  l.foldl
    (fun (acc : State × Option (List (List Byte))) p =>
      match acc.2, partRead acc.1 (at_ + BitVec.ofNat 64 p.1) p.2 with
      | some out, (s, some bs) => (s, some (out ++ [bs]))
      | _, (s, _) => (s, none))
    (s, some [])

/-- A core's record read back (R296). -/
def readCore (s : State) (l : Launch) (area : Word) (g : Nat) : State × Option CoreImage :=
  let tiles := keptTiles l
  let lines := keptLines s l
  let places := [(0x10, 8), (0x18, 8), (0x240, 256), (0x340, 256), (0x440, 256), (0x540, 1088), (0xA0000, 16384), (0xA4000, 16384)]
    ++ (tiles.map fun t => (0x40 + 8 * t, 8)) ++ (tiles.map fun t => (0x90000 + 1024 * t, 1024))
    ++ (lines.map fun o => (0x1000 + o / 64, 1)) ++ lines.map fun o => (0x10000 + o, 64)
  match readPieces s (coreArea area g) places with
  | (s, none) => (s, none)
  | (s, some bs) =>
    let rest := bs.drop 8
    let n := tiles.length
    (s, some
      { flags := leWord (bs.getD 0 [])
        bound := leWord (bs.getD 1 [])
        bars := bs.getD 2 []
        quads := bs.getD 3 []
        diebars := bs.getD 4 []
        plan := bs.getD 5 []
        operand := bs.getD 6 []
        incoming := bs.getD 7 []
        status := tiles.zip ((rest.take n).map leWord)
        tiles := tiles.zip ((rest.drop n).take n)
        fulls := lines.zip ((rest.drop (2 * n)).map leNat)
        lines := lines.zip (rest.drop (2 * n + lines.length)) })

/-- The 16 barriers of a block of a record. -/
def readBars (bs : List Byte) : Tab Bar :=
  (List.range 16).map fun n =>
    let w := recWord bs (16 * n)
    (n, { m := w.slice 23 0, a := w.slice 55 32, n := (recWord bs (16 * n + 8)).setWidth 32 })

/-- A tile's status from its word (R157). -/
def readStatus (w : Word) : TileStatus :=
  { of_ := w.bit 2, nv := w.bit 4, sa := w.bit 5, kind := w.extractLsb' 8 2, rsc := w.extractLsb' 16 8 }

/-- The plan state from a record, bound to the tile its header names. -/
def readPlan (bs : List Byte) (bound : Word) : PlanState :=
  let w := recWord bs 0
  let x := recWord bs 8
  let vec (off : Nat) : List (BitVec 32) := (List.range 64).map fun i => BitVec.ofNat 32 (leNat ((bs.drop (off + 4 * i)).take 4))
  if !bound.bit 8 then PlanState.reset
  else
    { tile := some (bound.slice 5 0), m := w.slice 5 0 + 1, n := w.slice 11 6 + 1, a := vec 0x40, b := vec 0x140, u := vec 0x240,
      v := vec 0x340, infeasible := w.bit 12, inProgress := w.bit 13, s := w.slice 47 32, h := w.bit 14, limit := x.slice 15 0,
      tol := (x >>> 32).setWidth 32, flags := 0 }

/-- The words of L-store a core's record leaves empty: those recorded so, and every word of a discardable region (R298). -/
def readEmpty (s : State) (l : Launch) (x : CoreImage) : NatSet :=
  (List.range (s.cfg.lcap / 8)).filter fun w =>
    if discardedAt s l (w / 8 * 64) then true
    else
      match tabGet x.fulls (w / 8 * 64) with
      | some b => b / 2 ^ (w % 8) % 2 == 0
      | none => false

/-- The physical tiles a core's record holds, where they stood. -/
def readTiles (x : CoreImage) : Tab Tile :=
  x.tiles.map fun e => (e.1, { bytes := Memory.write [] 0 e.2, st := readStatus (tabGetD x.status e.1 0) })

/-- A core given back to its launch as its record and what its hidden state stand for (R296, R298); its segment is pinned anew. -/
def restoreCore (s : State) (lid : Nat) (l : Launch) (g : Nat) (x : CoreImage) : State :=
  let saved := tabGetD l.savedCores g Core.reset
  let cur := s.core g
  let plan := { readPlan x.plan x.bound with flags := saved.mx.plan.flags }
  let ring := if x.flags.bit 1 then some (x.flags.slice 23 16, 2 ^ x.flags.slice 10 8) else none
  let lives (p : Posted) : Bool := (s.thread? p.tid).isSome
  let s := s.modLaunch lid fun l =>
    { l with
      quadBars := if g % 4 = 0 then (readBars x.quads).foldl (fun t e => tabPut t (g / 4 * 16 + e.1) e.2) l.quadBars else l.quadBars
      dieBars := if g % 256 = 0 then (readBars x.diebars).foldl (fun t e => tabPut t (g / 256 * 16 + e.1) e.2) l.dieBars else l.dieBars }
  -- word 0 of the landing slots that are free, or were freed since the record was written (R258)
  let freed := if l.desc.travelling then
      ((List.range 8).filter fun k => (tabGet saved.iss.slots k).isNone && setHas saved.lempty (slotWord s k)).map (slotWord s)
    else []
  let s := s.setCore g
    { idleCore cur with
      launch := lid
      lstore := x.lines.foldl (fun m e => m.write e.1 e.2) []
      lempty := freed.foldl setAdd (readEmpty s l x)
      windows := saved.windows
      bars := readBars x.bars
      iss := { (idleCore cur).iss with
        segment := saved.iss.segment
        draining := saved.iss.draining
        slots := saved.iss.slots
        istore := [] }
      mx := { CoreMatrix.reset with
        tiles := readTiles x
        operand := Memory.write [] 0 x.operand
        incoming := Memory.write [] 0 x.incoming
        incomingFull := x.flags.bit 0
        ring := ring
        queue := saved.mx.queue
        topk := saved.mx.topk
        plan := plan }
      msg := { cur.msg with
        posted := saved.msg.posted.filter lives
        overflow := saved.msg.overflow.filter fun o => (s.thread? o.dst).isSome
        refused := saved.msg.refused.filter fun r => (s.thread? r.1).isSome } }
  match l.segments.find? fun y => saved.iss.segment == some y.id with
  | some y => (pinCore s g y).modCore g fun c => { c with iss := { c.iss with draining := saved.iss.draining } }
  | none => s

/-- Whether a thread held a context when its launch was stopped; a Departure-blocked one did (R260). -/
def heldContext (t : Thread) : Bool :=
  !t.io.lent && (match t.status with
    | .pooled | .spilled .. | .inFlight .. => false
    | _ => true)

/-- Tile bases for threads in order, each the lowest that fits beside those already given and those others keep (R327). -/
def placeTileWindows (taken : List (Nat × Nat)) : List (Tid × Thread) → Option (Tab Nat)
  | [] => some []
  | e :: es =>
    let n := e.2.tcount
    let base := if n = 0 then some 0 else (List.range 64).find? fun b => decide (b + n ≤ 64) && clearOf taken b n
    match base with
    | none => none
    | some b => (placeTileWindows (taken ++ [(b, n)]) es).map fun t => (e.1.toNat, b) :: t

/-- The tile bases of a core's restored threads: found anew, or the old ones where they do not fit so. -/
def newTileBases (s : State) (g : Nat) (es : List (Tid × Thread)) : Tab Nat :=
  (placeTileWindows (usedTiles s g 0) es).getD (es.map fun e => (e.1.toNat, e.2.tbase))

/-- The new place of a physical tile: with the window that held it, or where it stood (R298). -/
def movedTile (es : List (Tid × Thread)) (bases : Tab Nat) (p : Nat) : Nat :=
  match es.find? fun e => decide (e.2.tbase ≤ p ∧ p < e.2.tbase + e.2.tcount) with
  | some e => p - e.2.tbase + tabGetD bases e.1.toNat 0
  | none => p

/-- The tiles of a core, its bound plan and its stopped mma moved with their windows (R298). -/
def moveTiles (s : State) (g : Nat) (es : List (Tid × Thread)) (bases : Tab Nat) : State :=
  s.modMx g fun m =>
    let inOld (p : Nat) : Bool := es.any fun e => decide (e.2.tbase ≤ p ∧ p < e.2.tbase + e.2.tcount)
    let inNew (p : Nat) : Bool := es.any fun e =>
      let b := tabGetD bases e.1.toNat 0
      decide (b ≤ p ∧ p < b + e.2.tcount)
    let stay := m.tiles.filter fun e => !inNew e.1
    let moved := (m.tiles.filter fun e => inOld e.1).map fun e => (movedTile es bases e.1, e.2)
    { m with
      tiles := moved.foldl (fun ts e => tabPut ts e.1 e.2) stay
      plan := { m.plan with tile := m.plan.tile.map (movedTile es bases) }
      queue := m.queue.map fun o => { o with tile := movedTile es bases o.tile, begun := s.coreClock g - o.chunks * chunkCycles o.x } }

/-- What a restored thread waits for still, or that it issues its instruction again (R298): a step, an exit, a departure, a park and a stopped mma
go on as they are, and a Departure-blocked thread asks for its slot again. -/
def keepsWaiting (s : State) (tid : Tid) (t : Thread) : Bool :=
  match t.status with
  | .parked (.step ..) | .parked .exit | .parked (.departure ..) | .parked (.timed ..) | .blocked .. => true
  | .parked (.matrix _) => hasMma s tid t
  | _ => false

/-- A thread back in a context of its core, from its record (R298): predicates that are not live read 0; one that was parked stays so and issues its waiting
instruction again from the next cycle on (R330; log entries 56, 89 and 111). -/
def restoreThread (s : State) (bases : Tab Nat) (e : Tid × Thread) : State :=
  let (tid, t0) := e
  let (s, t) := loadRecord s tid t0
  let free := freeContexts s t.core
  let left := (match t.io.record, s.launch? (tidLaunch tid) with
    | some k, some l => ((partRead s (recordAddr l k + 0x30) 8).2).map fun b => leNat b
    | _, _ => none).getD 0
  let status : Status := match t.status with
    | .parked (.timed (some _) last) => .parked (.timed (some (s.coreClock t.core + left)) last)
    | .parked p => if keepsWaiting s tid t then .parked p else .parked (.reissue (reasonCode p) (s.coreClock t.core))
    | .faulted => .ready
    | x => x
  let t :=
    { t with
      ctx := some (free.getD (Config.pickContext free % free.length) 0)
      wbase := (windowBase s t.core t.wsize).getD t.wbase
      tbase := tabGetD bases tid.toNat t.tbase
      preds := t.preds &&& t.sp.plive
      status := status
      io := { t.io with record := none } }
  s.setThread tid t

/-- A command with a destination word in a discardable region of its launch's L-store starts again from chunk 0 (R252). -/
def restartCmd (s : State) (l : Launch) (g : Nat) (c : EngCmd) : EngCmd :=
  let gone (e : Nat) : Bool := match placeOf s g (dstOf s g c e) with
    | some (.lstore h off) => setHas l.cores h && discardedAt s l (off / 64 * 64)
    | _ => false
  let words := match c.kind with
    | .copyr op _ => reducedBytes op c.len / 8
    | _ => c.count
  let again := match c.kind, c.phase with
    | .copyr .., .moving
    | .copy, .moving | .gath .., .moving | .copy, .answers _ | .gath .., .answers _ | .copy, .finished | .gath .., .finished =>
      decide (c.status < 0x40) && !c.moved.isEmpty && (List.range words).any gone
    | _, _ => false
  if again then { c with phase := .moving, moved := [], asked := [], buf := [], dies := [], status := 0, index := [] } else c

/-- Every command of a resumed launch goes on, or starts again (R252). -/
def resumeCommands (s : State) (lid : Nat) (l : Launch) : State :=
  { s with
    cores := s.cores.map fun (e : Nat × Core) =>
      (e.1, { e.2 with engine := e.2.engine.map fun c => if c.launch = lid then restartCmd s l e.1 c else c }) }

/-- The threads of a core's launch restored together. -/
def restoreThreadsOn (s : State) (lid g : Nat) : State :=
  let es := (s.threadsOf lid).filter fun e => e.2.core == g && heldContext e.2
  let bases := newTileBases s g es
  es.foldl (fun s e => restoreThread s bases e) (moveTiles s g es bases)

/-- Threads that were ready, or were saved Faulted, made ready in order of core and context: those ready before the pre-emption first (R294; log entry
56). -/
def rejoin (s : State) (lid : Nat) : State :=
  let es := (byRank (s.threadsOf lid)).filter fun e => e.2.ctx.isSome && e.2.status == .ready
  let s := ((es.filter fun e => e.2.io.wasReady) ++ es.filter fun e => !e.2.io.wasReady).foldl (fun s e => makeReady s e.1) s
  let s := (s.threadsOf lid).foldl
    (fun s e => match e.2.status with
      | .spilled dest .. | .blocked dest .. => requestSlot s e.1 dest
      | _ => s)
    s
  (s.threadsOf lid).foldl (fun s e => s.modThread e.1 fun t => { t with io := { t.io with wasReady := false } }) s

/-- Whether the cores and units a pre-empted launch stands on are free for it. -/
def coresFree (s : State) (l : Launch) : Bool :=
  (l.cores.all fun g => (s.core g).launch == 0) && l.dies.all fun d => decide ((s.die d).power ≤ 2) && !dieUnitFull s d

/-- Every core record of a launch read back and its cores restored, none where a page does not give one. -/
def restoreCores (s : State) (lid : Nat) (l : Launch) (area : Word) : Option State :=
  l.cores.foldlM
    (fun s g => match readCore s l area g with
      | (s, some x) => some (restoreCore s lid l g x)
      | (_, none) => none)
    s

/-- A launch restored from a context area (R294, R298). -/
def resumeLaunch (s : State) (lid : Nat) (l : Launch) (area : Word) : Option State :=
  (restoreCores s lid l area).map fun s =>
    let s := l.cores.foldl (fun s g => restoreThreadsOn s lid g) s
    let s := s.modLaunch lid fun l => { l with phase := .live, savedCores := [] }
    let s := rejoin (resumeCommands s lid l) lid
    emit s 0x0003 0 0 0 [BitVec.ofNat 64 lid]

/-- RESUME (R294, R298, R306): held while a launch is being pre-empted on its dies; NOLAUNCH for a launch that is not pre-empted; it waits until the launch's cores are free and its records can be
read. -/
def execResume (q : Nat) (s : State) : Out :=
  if commandHeld s q 3 true then .next s
  else match takeCommand s q 3 0 with
  | .nothing => .next s
  | .refused s => .next s
  | .command s1 ix w =>
    let lid := (w.getD 2 0).slice 7 0
    match s1.launch? lid with
    | none => .next (hostComplete s1 q ix 3 0 0)
    | some l =>
      match l.phase with
      | .preempted _ =>
        if !coresFree s1 l then .next s
        else
          match l.segments.findSome? (segmentGap s1) with
          | some gap => .next (commandWaitsPage s q false gap)
          | none =>
          match resumeLaunch (gapServed s1 (2 ^ 32 + q)) lid l (w.getD 3 0) with
          | some s => .next (hostComplete s q ix 0 0 0)
          | none => .next s
      | _ => .next (hostComplete s1 q ix 3 0 0)

/-- SPILL (R306): held while its launch is being pre-empted; a live launch's spill limit raised, and its Departure-blocked threads try to spill again. -/
def execSpill (q : Nat) (s : State) : Out :=
  if commandHeld s q 10 false then .next s
  else withCommand s q 10 0 fun s ix w =>
    let lid := (w.getD 2 0).slice 7 0
    let limit := (w.getD 3 0).toNat
    match s.launch? lid with
    | none => hostComplete s q ix 3 0 0
    | some l =>
      if l.phase != .live then hostComplete s q ix 3 0 0
      else if limit < l.desc.spillLimit then hostComplete s q ix 1 1 0
      else
        let s := s.setLaunch lid { l with desc := { l.desc with spillLimit := limit } }
        hostComplete ((s.threadsOf lid).foldl (fun s e => retrySpill s e.1 e.2) s) q ix 0 0 0

end Sys2Proof.Machine
end

