-- ==== Sys2Proof/Machine/Service.lean ====
section
/-! DEFINITION. Bring-up (spec/20 R314, R315), the host's register and memory windows (R307, R308, R313), the event area, soft errors (spec/19
R299) and the thermal trip (R316). -/

namespace Sys2Proof.Machine

/-! ### Bring-up (R314, R315) -/

/-- The working cores of a die. -/
def workingCores (s : State) (d : Nat) : List Nat := (List.range 256).filter fun c => !setHas s.cfg.fusedCores (d * 256 + c)

/-- Words of 64 bits as bytes, padded with zeros to a size. -/
def paddedWords (l : List Nat) (n : Nat) : List Byte :=
  let bs := l.flatMap fun w => natLE w 8
  bs ++ List.replicate (n - bs.length) 0

/-- A mask of numbers below 256, in four words. -/
def maskWords (l : List Nat) : List Nat :=
  (List.range 4).map fun i => ((List.range 64).filter fun b => l.contains (64 * i + b)).foldl (fun a b => a + 2 ^ b) 0

/-- The working slices of a die. -/
def workingSlices (s : State) (d : Nat) : List Nat := (List.range 256).filter fun k => !setHas s.cfg.fusedSlices (d * 256 + k)

/-- A die's self-test word: bit 0, passed, unless a self-test has found failures (R315). -/
def testWord (s : State) (d : Nat) : Word := s.cfg.tests.getD d 1

/-- A die record (R315): 24 GiB of stacked DRAM and 128 GiB of LPDDR6 (R2; log entry 86). -/
def dieRecord (s : State) (d : Nat) : List Byte :=
  let cs := workingCores s d
  let ks := workingSlices s d
  paddedWords
    ([s.cfg.lcap + cs.length * 2 ^ 20 + ks.length * 2 ^ 29 + (s.die d).power * 2 ^ 38] ++ maskWords cs ++ maskWords ks
      ++ [24 * 2 ^ 30, 128 * 2 ^ 30, (testWord s d).toNat, (s.die d).guardProposed]) 128

/-- A fibre record (R315; log entry 86). -/
def fibreRecord (s : State) (f : Nat) : List Byte :=
  let x := s.fibre f
  let colours := ((List.range 64).filter fun c => colourWorks x c).foldl (fun a c => a + 2 ^ c) 0
  let losses := (List.range 16).foldl (fun a k => a + ((outputPeer x k).map fun q => tabGetD x.lMeas q 0).getD 0 % 16 * 2 ^ (4 * k)) 0
  paddedWords [x.sources.toNat, colours, losses, x.budget] 64

/-- The part number, in ASCII (R314). -/
def partNumber : List Byte := [0x44, 0x58, 0x50, 0x34, 0x2D, 0x30, 0x31, 0x39, 0x32, 0, 0, 0, 0, 0, 0, 0]

/-- The discovery record (R315). -/
def discoveryRecord (s : State) : List Byte :=
  partNumber ++ wordLE s.host.fwVersion 8 ++ natLE (leafWord s) 8 ++ natLE s.cfg.package 8 ++ natLE 8192 8 ++ List.replicate 16 0
    ++ ((List.range 8).flatMap (dieRecord s)) ++ ((List.range 48).flatMap (fibreRecord s))
    ++ ((List.range 48).flatMap fun f => ageBytes (s.fibre f)) ++ List.replicate 960 0

/-- BRING_UP (R314): the discovery record is written whole, STATUS says so, and commands are accepted. -/
def execBringUp (s : State) : Out :=
  if s.host.status % 2 = 1 then .next s
  else
    .next ((writeDiscovery s 0 (discoveryRecord s)).modHost fun h =>
      { h with status := 3 + (Config.firmwareMajor h.fwVersion).toNat * 2 ^ 8 })

/-- A die's self-test word from what a self-test finds: passed where nothing has failed, else how many SRAMs, slices and DRAM channels (R315). -/
def foundWord (found : SelfTest) (d : Nat) : Word :=
  let slices := (found.slices.filter fun k => k / 256 == d).eraseDups.length
  let srams := found.srams.getD d 0
  let drams := found.drams.getD d 0
  if slices = 0 ∧ srams = 0 ∧ drams = 0 ∧ !(found.cores.any fun k => k / 256 == d) then 1
  else BitVec.ofNat 64 (min srams 255 * 2 ^ 8 + min slices 255 * 2 ^ 16 + min drams 255 * 2 ^ 24)

/-- The self-test of bring-up (R314): cores, slices and sources that fail are fused off (log entry 4). -/
def selfTest (s : State) (found : SelfTest) : State :=
  let off (f : Nat) : BitVec 16 := (found.sources.filter fun k => k / 16 == f).foldl (fun m k => m ||| ((1 : BitVec 16) <<< (k % 16))) 0
  { s with
    cfg := { s.cfg with
      fusedCores := found.cores.foldl setAdd s.cfg.fusedCores
      fusedSlices := found.slices.foldl setAdd s.cfg.fusedSlices
      fusedSources := found.sources.foldl setAdd s.cfg.fusedSources
      tests := (List.range 8).map (foundWord found) }
    spool := { s.spool with
      fibres := (found.sources.map (· / 16)).eraseDups.foldl
        (fun t f => tabPut t f { tabGetD t f Fibre.reset with sources := (tabGetD t f Fibre.reset).sources &&& ~~~(off f) }) s.spool.fibres } }

/-- BRING_UP with the self-test's findings (R314): what has failed is fused off, and the record is written of what is left. -/
def execBringUpTested (found : SelfTest) (s : State) : Out :=
  if s.host.status % 2 = 1 then .next s else execBringUp (selfTest s found)

/-! ### The register window (R307, R308) -/

/-- QTAIL (R305, R307): a doorbell of an enabled queue, where its index lies between the head and head + size. -/
def execQtail (q : Nat) (v : BitVec 32) (s : State) : Out :=
  let x := s.queue q
  if q < 64 ∧ x.enabled ∧ (v - x.head).toNat ≤ 2 ^ x.log2 then .next (s.modQueue q fun x => { x with tail := v }) else .next s

/-- Whether a queue still counts as enabled: it is, or a command of it is under way (R307). -/
def HostQueue.busy (x : HostQueue) : Bool := x.enabled || x.started != x.head

/-- QCTL (R307): a value with a size out of range or a reserved bit is ignored; enabling with a valid base sets head and tail to 0; clearing
enable stops the queue (log entry 85). -/
def execQctl (q : Nat) (v : Word) (s : State) : Out :=
  let x := s.queue q
  let size := v.slice 4 0
  if 64 ≤ q ∨ size < 6 ∨ 16 < size ∨ v.slice 7 5 ≠ 0 ∨ v.slice 63 9 ≠ 0 then .next s
  else if !v.bit 8 then
    .next (s.modQueue q fun x => { x with enabled := false, log2 := if x.busy then x.log2 else size })
  else if x.busy ∨ x.base % 64 ≠ 0 ∨ 2 ^ 48 < x.base + 64 * 2 ^ size then .next s
  else .next (s.modQueue q fun x => { x with enabled := true, log2 := size, head := 0, tail := 0, started := 0, done := [] })

/-- EVCONS (R308): a value below the current one or above EVPROD is ignored. -/
def execEvcons (v : Word) (s : State) : Out :=
  if s.host.evCons ≤ v.toNat ∧ v.toNat ≤ s.host.evProd then .next (s.modHost fun h => { h with evCons := v.toNat }) else .next s

/-- WAKE d (R307, R313): a privileged wake. -/
def execWakeRegister (die : Nat) (t : Tid) (s : State) : Out :=
  if 8 ≤ die then .next s
  else .next (s.modNet fun n => { n with wakes := n.wakes ++ [{ src := 65536, at_ := 0, tid := t, priv := true, launch := 0, after := [] }] })

/-- A write of the register window (R307): 8 bytes at an offset of the table; any other is ignored. -/
def execRegisterWrite (offset size : Nat) (v : Word) (s : State) : Out :=
  if size ≠ 8 then .next s
  else if offset < 0x1000 then
    match offset % 0x40 with
    | 0x00 =>
      if (s.queue (offset / 0x40)).busy then .next s
      else .next (s.modQueue (offset / 0x40) fun x => { x with base := v.toNat })
    | 0x08 => execQctl (offset / 0x40) v s
    | 0x18 => execQtail (offset / 0x40) (v.setWidth 32) s
    | _ => .next s
  else if offset = 0x1008 then execEvcons v s
  else if 0x2000 ≤ offset ∧ offset < 0x2040 ∧ offset % 8 = 0 then execWakeRegister ((offset - 0x2000) / 8) (v.setWidth 32) s
  else .next s

/-- A register of the register window as the host reads it (R307): an offset not listed reads 0; one that is only written, a value the table does not give
(log entry 119). -/
def registerWord (s : State) (offset : Nat) : Word :=
  let h := s.host
  if offset < 0x1000 then
    let x := s.queue (offset / 0x40)
    match offset % 0x40 with
    | 0x00 => BitVec.ofNat 64 x.base
    | 0x08 => BitVec.ofNat 64 (x.log2 + bitOf x.enabled * 2 ^ 8)
    | 0x10 => x.head.setWidth 64
    | 0x18 => Config.writeOnly offset s.cycle.toNat
    | _ => 0
  else if offset = 0x1000 then BitVec.ofNat 64 h.evProd
  else if offset = 0x1008 then BitVec.ofNat 64 h.evCons
  else if offset = 0x1010 then BitVec.ofNat 64 h.evDrop
  else if 0x2000 ≤ offset ∧ offset < 0x2040 ∧ offset % 8 = 0 then Config.writeOnly offset s.cycle.toNat
  else if offset = 0x3000 then BitVec.ofNat 64 h.status
  else 0

/-- HOST_WINDOW_READ of the register window (R307): 8 bytes of a register; a read of another size returns all ones. -/
def execRegisterRead (offset size : Nat) (s : State) : Out :=
  .next (s.modHost fun h =>
    { h with lastRead := some (if size = 8 then wordLE (registerWord s offset) 8 else List.replicate size 0xFF) })

/-! ### The die-global window (R307) -/

/-- A host write through the window: translated at the home slice, whole or not at all, full/empty bits as they were; it drops the code
lines it reaches from the I-stores of the die (R59). -/
def execHostWindowWrite (die : Nat) (offset : BitVec 48) (bytes : List Byte) (s : State) : Out :=
  match dieWrite s die offset.toNat bytes false with
  | (s, true) => .next (dropCode s die offset.toNat bytes.length)
  | (_, false) => .next s

/-- A host read through the window: the bytes, or a VCL error response (R307). -/
def execHostWindowRead (die : Nat) (offset : BitVec 48) (size : Nat) (s : State) : Out :=
  let (s, r) := dieRead s die offset.toNat size
  .next (s.modHost fun h => { h with lastRead := r })

/-! ### The event area (R301, R308) -/

/-- Held records written while the area has room, then a LOST record for those dropped. -/
def flushEvents : Nat → State → State
  | 0, s => s
  | fuel + 1, s =>
    if !eventSpace s then s
    else
      match s.host.evHeld with
      | r :: rest => flushEvents fuel ((storeEvent s r).modHost fun h => { h with evHeld := rest })
      | [] =>
        if s.host.dropped = 0 then s
        else
          let n := s.host.dropped
          emit (s.modHost fun h => { h with dropped := 0 }) 0x00FF 0 0 0 [BitVec.ofNat 64 n]

/-- EVENT_AREA_SPACE (R301). -/
def execEventAreaSpace (s : State) : Out := .next (flushEvents 257 s)

/-! ### Power (R316) -/

/-- THERMAL_TRIP (R316): the die goes one power state lower, with an event record. -/
def execThermalTrip (die : Nat) (s : State) : Out :=
  let p := (s.die die).power
  if 8 ≤ die ∨ 3 ≤ p then .next s
  else
    .next (emit (s.modDie die fun d => { d with power := p + 1 }) 0x0060 die 0 0 [BitVec.ofNat 64 die, BitVec.ofNat 64 (p + 1)])

/-! ### Soft errors (R299) -/

/-- CORRECTED_ERROR (R299): counted, with a record at every multiple of 1,024. -/
def execCorrectedError (die : Nat) (s : State) : Out :=
  if 8 ≤ die then .next s
  else
    let n := (s.die die).corrected + 1
    let s := s.modDie die fun d => { d with corrected := n }
    .next (if n % 1024 = 0 then emit s 0x0021 die 0 0 [BitVec.ofNat 64 n] else s)

/-- A word of a core's L-store or tiles now holds an error, until a write of the whole word replaces it. -/
def spoilCore (s : State) (g place : Nat) : State := s.modCore g fun c => { c with errors := setAdd c.errors place }

/-- The word at a place of this package now holds an error. -/
def spoilPlace (s : State) (p : HomePlace) : State :=
  match p with
  | .lstore g off => spoilCore s g (off / 8)
  | .global d off => s.modDie d fun die => { die with errors := setAdd die.errors (off / 8) }
  | _ => s

/-- An access of a thread meets an error at an address (R299): the word keeps it, and the thread is killed. -/
def threadMet (s : State) (tid : Tid) (ea : Word) : State :=
  match s.thread? tid with
  | none => s
  | some t =>
    let s := match placeOf s t.core ea with
      | some p => spoilPlace s p
      | none => s
    uncorrThread s tid ea

/-- An engine command meets an error (R299): one that is to read yet ends with UNCORR, and a remote atomic at its home is answered so. -/
def commandMet (s : State) (g : Nat) (c : EngCmd) (ea : Word) : State :=
  let s := match placeOf s g ea with
    | some p => spoilPlace s p
    | none => s
  match c.phase, c.kind with
  | .waiting, _ | .moving, _ => engineMet (modCommand s g c.id fun x => { x with uncorr := true }) g c.tid ea
  | _, _ => s

/-- Whether a core's launch is being pre-empted, its records still to be written. -/
def savingCore (s : State) (g : Nat) : Bool := (preemptBegan s g).isSome

/-- UNCORRECTABLE_ERROR (R299, R292): the outcome depends on who meets it, and a word that holds an error is found again at each read, until a write
replaces it whole (log entry 87). -/
def execUncorrectableError (site : ErrorSite) (s : State) : Out :=
  match site with
  | .register tid reg => .next (registerError s tid reg)
  | .lstore tid ea | .dieGlobal tid ea => .next (threadMet s tid ea)
  | .tile tid t =>
    (match s.thread? tid with
     | some x => .next (uncorrThread (spoilCore s x.core (tilePlace (t % 64) 0)) tid (BitVec.ofNat 64 t))
     | none => .next s)
  | .engine g k ea =>
    (match (engineOf s g)[k]? with
     | some c => .next (commandMet s g c ea)
     | none => .next s)
  | .save g place => .next (if savingCore s g && decide (place < 2 ^ 18 + 4096) then saveZero s g place else s)
  | .saveRegister tid reg =>
    (match s.thread? tid with
     | some t =>
       if savingCore s t.core && t.ctx.isSome then
         .next (uncorrEvent (s.setThread tid (t.setReg reg 0)) (t.core / 256) (t.core % 256) tid (BitVec.ofNat 64 reg))
       else .next s
     | none => .next s)
  | .overwritten => .next s

end Sys2Proof.Machine
end

