-- ==== Sys2Proof/Machine/Dispatch.lean ====
section
/-! DEFINITION. One arm for each row of spec/opcode_table.json: its meaning. -/

namespace Sys2Proof.Machine

/-- The meaning of an instruction, event or command in a state. -/
def exec (i : Instr) (s : State) : Host.Outcome State Fault Refusal :=
  match i with
  | .nop => Sys2Proof.Machine.execNop s
  | .br t => Sys2Proof.Machine.execBr t s
  | .call d t => Sys2Proof.Machine.execCall d t s
  | .jr a => Sys2Proof.Machine.execJr a s
  | .jalr d a => Sys2Proof.Machine.execJalr d a s
  | .loop d level t => Sys2Proof.Machine.execLoop d level t s
  | .trap imm => Sys2Proof.Machine.execTrap imm s
  | .eret => Sys2Proof.Machine.execEret s
  | .mfs d n => Sys2Proof.Machine.execMfs d n s
  | .mts a n => Sys2Proof.Machine.execMts a n s
  | .gsel a b c => Sys2Proof.Machine.execGsel a b c s
  | .exit => Sys2Proof.Machine.execExit s
  | .step id => Sys2Proof.Machine.execStep id s
  | .fence sc kind => Sys2Proof.Machine.execFence sc kind s
  | .sysRplan a => Sys2Proof.Machine.execSysRplan a s
  | .sysMapver => Sys2Proof.Machine.execSysMapver s
  | .sysRepadd a b => Sys2Proof.Machine.execSysRepadd a b s
  | .sysRepdel a b => Sys2Proof.Machine.execSysRepdel a b s
  | .sysPath a b => Sys2Proof.Machine.execSysPath a b s
  | .add d a b w => Sys2Proof.Machine.execAdd d a b w s
  | .sub d a b w => Sys2Proof.Machine.execSub d a b w s
  | .addi d a w imm => Sys2Proof.Machine.execAddi d a w imm s
  | .mul d a b k => Sys2Proof.Machine.execMul d a b k s
  | .div d a b signed w => Sys2Proof.Machine.execDiv d a b signed w s
  | .rem d a b signed w => Sys2Proof.Machine.execRem d a b signed w s
  | .logic d a b op => Sys2Proof.Machine.execLogic d a b op s
  | .logi d a op imm => Sys2Proof.Machine.execLogi d a op imm s
  | .shift d a b op w32 => Sys2Proof.Machine.execShift d a b op w32 s
  | .shifti d a amt op w32 => Sys2Proof.Machine.execShifti d a amt op w32 s
  | .li d k imm => Sys2Proof.Machine.execLi d k imm s
  | .mnx d a b op => Sys2Proof.Machine.execMnx d a b op s
  | .lea d a b sh disp => Sys2Proof.Machine.execLea d a b sh disp s
  | .bits d a op => Sys2Proof.Machine.execBits d a op s
  | .sel d a b c => Sys2Proof.Machine.execSel d a b c s
  | .madd d a b c w => Sys2Proof.Machine.execMadd d a b c w s
  | .cmp p a b ic cm w32 => Sys2Proof.Machine.execCmp p a b ic cm w32 s
  | .cmpi p a ic cm imm => Sys2Proof.Machine.execCmpi p a ic cm imm s
  | .fcmp p a b ty cond cm sig => Sys2Proof.Machine.execFcmp p a b ty cond cm sig s
  | .pset value mask => Sys2Proof.Machine.execPset value mask s
  | .pmovPg d => Sys2Proof.Machine.execPmovPg d s
  | .pmovGp a mask => Sys2Proof.Machine.execPmovGp a mask s
  | .plog pd pa pb pc table => Sys2Proof.Machine.execPlog pd pa pb pc table s
  | .bfx d a pos len1 sx => Sys2Proof.Machine.execBfx d a pos len1 sx s
  | .bfi d a b pos len1 => Sys2Proof.Machine.execBfi d a b pos len1 s
  | .vadd d a b vt mode => Sys2Proof.Machine.execVadd d a b vt mode s
  | .vsub d a b vt mode => Sys2Proof.Machine.execVsub d a b vt mode s
  | .vmul d a b vt half => Sys2Proof.Machine.execVmul d a b vt half s
  | .vmnx d a b vt op => Sys2Proof.Machine.execVmnx d a b vt op s
  | .vshf d a b vt op => Sys2Proof.Machine.execVshf d a b vt op s
  | .vred d a vt op => Sys2Proof.Machine.execVred d a vt op s
  | .vcmp d a b vt cond => Sys2Proof.Machine.execVcmp d a b vt cond s
  | .fadd d a b ft rm => Sys2Proof.Machine.execFadd d a b ft rm s
  | .fsub d a b ft rm => Sys2Proof.Machine.execFsub d a b ft rm s
  | .fmul d a b ft rm => Sys2Proof.Machine.execFmul d a b ft rm s
  | .fma d a b c ft rm np nc => Sys2Proof.Machine.execFma d a b c ft rm np nc s
  | .fdiv d a b ft rm => Sys2Proof.Machine.execFdiv d a b ft rm s
  | .fsqrt d a ft rm => Sys2Proof.Machine.execFsqrt d a ft rm s
  | .fmnx d a b ft op => Sys2Proof.Machine.execFmnx d a b ft op s
  | .fexp2 d a ft => Sys2Proof.Machine.execFexp2 d a ft s
  | .flog2 d a ft => Sys2Proof.Machine.execFlog2 d a ft s
  | .frcp d a ft => Sys2Proof.Machine.execFrcp d a ft s
  | .frsq d a ft => Sys2Proof.Machine.execFrsq d a ft s
  | .fcvt d a ft rm fmt from_ => Sys2Proof.Machine.execFcvt d a ft rm fmt from_ s
  | .icvt d a ft rm iw signed toInt => Sys2Proof.Machine.execIcvt d a ft rm iw signed toInt s
  | .fsgn d a b ft op => Sys2Proof.Machine.execFsgn d a b ft op s
  | .fclass d a ft => Sys2Proof.Machine.execFclass d a ft s
  | .fdot d a b c ft rm => Sys2Proof.Machine.execFdot d a b c ft rm s
  | .ld d a b x => Sys2Proof.Machine.execLd d a b x s
  | .st a b c x => Sys2Proof.Machine.execSt a b c x s
  | .ldf d a b x => Sys2Proof.Machine.execLdf d a b x s
  | .lde d a b x => Sys2Proof.Machine.execLde d a b x s
  | .stf a b c we x => Sys2Proof.Machine.execStf a b c we x s
  | .fem a full count1 => Sys2Proof.Machine.execFem a full count1 s
  | .atom d a b c eight ord shift ao disp => Sys2Proof.Machine.execAtom d a b c eight ord shift ao disp s
  | .tld t a b disp => Sys2Proof.Machine.execTld t a b disp s
  | .tst t a b disp => Sys2Proof.Machine.execTst t a b disp s
  | .ldm d a count1 ord disp => Sys2Proof.Machine.execLdm d a count1 ord disp s
  | .stm a c count1 ord disp => Sys2Proof.Machine.execStm a c count1 ord disp s
  | .linePref a => Sys2Proof.Machine.execLinePref a s
  | .lineZero a => Sys2Proof.Machine.execLineZero a s
  | .lineFlush a => Sys2Proof.Machine.execLineFlush a s
  | .lineDrop a => Sys2Proof.Machine.execLineDrop a s
  | .lineIinv a => Sys2Proof.Machine.execLineIinv a s
  | .mprot win a b r w => Sys2Proof.Machine.execMprot win a b r w s
  | .xlatProbe d a => Sys2Proof.Machine.execXlatProbe d a s
  | .xlatInv d a => Sys2Proof.Machine.execXlatInv d a s
  | .xlatInvall d a => Sys2Proof.Machine.execXlatInvall d a s
  | .spawn d a tiles p x => Sys2Proof.Machine.execSpawn d a tiles p x s
  | .yield => Sys2Proof.Machine.execYield s
  | .park a => Sys2Proof.Machine.execPark a s
  | .wake a => Sys2Proof.Machine.execWake a s
  | .kill a => Sys2Proof.Machine.execKill a s
  | .ctxQuery d a => Sys2Proof.Machine.execCtxQuery d a s
  | .ctxEvict d a => Sys2Proof.Machine.execCtxEvict d a s
  | .ctxReseat d a => Sys2Proof.Machine.execCtxReseat d a s
  | .shipCore a b => Sys2Proof.Machine.execShipCore a b s
  | .shipSeg a b => Sys2Proof.Machine.execShipSeg a b s
  | .cargo a b => Sys2Proof.Machine.execCargo a b s
  | .segq d a op => Sys2Proof.Machine.execSegq d a op s
  | .send d a b c tag => Sys2Proof.Machine.execSend d a b c tag s
  | .recv d a b c tag anyTag anySrc => Sys2Proof.Machine.execRecv d a b c tag anyTag anySrc s
  | .probe d a b anyTag anySrc => Sys2Proof.Machine.execProbe d a b anyTag anySrc s
  | .barr d a sc => Sys2Proof.Machine.execBarr d a sc s
  | .barw a b sc => Sys2Proof.Machine.execBarw a b sc s
  | .barc a count sc => Sys2Proof.Machine.execBarc a count sc s
  | .mma t a b c x => Sys2Proof.Machine.execMma t a b c x s
  | .mmrLoad a => Sys2Proof.Machine.execMmrLoad a s
  | .mmrPass => Sys2Proof.Machine.execMmrPass s
  | .mmrTake => Sys2Proof.Machine.execMmrTake s
  | .tzero t => Sys2Proof.Machine.execTzero t s
  | .tscl t a b c mode bc => Sys2Proof.Machine.execTscl t a b c mode bc s
  | .tact t a b op => Sys2Proof.Machine.execTact t a b op s
  | .tcvt p a t c fmt b32 stride => Sys2Proof.Machine.execTcvt p a t c fmt b32 stride s
  | .tred a t cols op => Sys2Proof.Machine.execTred a t cols op s
  | .topk t a b x => Sys2Proof.Machine.execTopk t a b x s
  | .tkrd d a row clr => Sys2Proof.Machine.execTkrd d a row clr s
  | .plan t a b c m1 n1 => Sys2Proof.Machine.execPlan t a b c m1 n1 s
  | .bal d a b p t => Sys2Proof.Machine.execBal d a b p t s
  | .plnx a t => Sys2Proof.Machine.execPlnx a t s
  | .plnd d cost t => Sys2Proof.Machine.execPlnd d cost t s
  | .tstat d t clr => Sys2Proof.Machine.execTstat d t clr s
  | .tring op a => Sys2Proof.Machine.execTring op a s
  | .copy d a b c bo => Sys2Proof.Machine.execCopy d a b c bo s
  | .copyr d a b c op bo tag => Sys2Proof.Machine.execCopyr d a b c op bo tag s
  | .ratom d a b c ao ord four => Sys2Proof.Machine.execRatom d a b c ao ord four s
  | .gath d a b c scat size bo count1 => Sys2Proof.Machine.execGath d a b c scat size bo count1 s
  | .lgrant d a b fan => Sys2Proof.Machine.execLgrant d a b fan s
  | .lstat d a peer => Sys2Proof.Machine.execLstat d a peer s
  | .circ d a b fibre commit => Sys2Proof.Machine.execCirc d a b fibre commit s
  | .mcast d a b c bo len1 => Sys2Proof.Machine.execMcast d a b c bo len1 s
  | .strk n1 len1 stride floor => Sys2Proof.Machine.execStrk n1 len1 stride floor s
  | .ringJoin a log2 => Sys2Proof.Machine.execRingJoin a log2 s
  | .ringDissolve a => Sys2Proof.Machine.execRingDissolve a s
  | .ringDissolveSized a log2 => Sys2Proof.Machine.execRingDissolveSized a log2 s
  | .strokeTrap t => Sys2Proof.Machine.execStrokeTrap t s
  | .issueSelect g => Sys2Proof.Machine.execIssueSelect g s
  | .seatAssign g => Sys2Proof.Machine.execSeatAssign g s
  | .quantumEnd t => Sys2Proof.Machine.execQuantumEnd t s
  | .parkTimeout t => Sys2Proof.Machine.execParkTimeout t s
  | .strokeRepetition t => Sys2Proof.Machine.execStrokeRepetition t s
  | .fetchLineLands k => Sys2Proof.Machine.execFetchLineLands k s
  | .istoreParityError g ia => Sys2Proof.Machine.execIstoreParityError g ia s
  | .sliceRequest die sl k => Sys2Proof.Machine.execSliceRequest die sl k s
  | .fillLands die sl line => Sys2Proof.Machine.execFillLands die sl line s
  | .stagedStorePerform die sl k => Sys2Proof.Machine.execStagedStorePerform die sl k s
  | .storeAck k => Sys2Proof.Machine.execStoreAck k s
  | .performedNotice k => Sys2Proof.Machine.execPerformedNotice k s
  | .loadReply k => Sys2Proof.Machine.execLoadReply k s
  | .faultReply k => Sys2Proof.Machine.execFaultReply k s
  | .walkComplete die sl k => Sys2Proof.Machine.execWalkComplete die sl k s
  | .faultQueueSpace die sl => Sys2Proof.Machine.execFaultQueueSpace die sl s
  | .wakeDelivery k => Sys2Proof.Machine.execWakeDelivery k s
  | .killDelivery k => Sys2Proof.Machine.execKillDelivery k s
  | .exitRetire t => Sys2Proof.Machine.execExitRetire t s
  | .launchComplete lid => Sys2Proof.Machine.execLaunchComplete lid s
  | .stepRelease lid dies => Sys2Proof.Machine.execStepRelease lid dies s
  | .spawnReply k => Sys2Proof.Machine.execSpawnReply k s
  | .contextGrant g => Sys2Proof.Machine.execContextGrant g s
  | .mmaStart g => Sys2Proof.Machine.execMmaStart g s
  | .mmaComplete g => Sys2Proof.Machine.execMmaComplete g s
  | .epilogueComplete g => Sys2Proof.Machine.execEpilogueComplete g s
  | .latchPassArrival g => Sys2Proof.Machine.execLatchPassArrival g s
  | .engineCommandStart g k => Sys2Proof.Machine.execEngineCommandStart g k s
  | .engineChunk g k moved => Sys2Proof.Machine.execEngineChunk g k moved s
  | .tokenWrite g k => Sys2Proof.Machine.execTokenWrite g k s
  | .barrierObjectArrival k => Sys2Proof.Machine.execBarrierObjectArrival k s
  | .reductionContribution k => Sys2Proof.Machine.execReductionContribution k s
  | .reductionRound k => Sys2Proof.Machine.execReductionRound k s
  | .ratomRequest k => Sys2Proof.Machine.execRatomRequest k s
  | .ratomResponse k => Sys2Proof.Machine.execRatomResponse k s
  | .atomicTimeout g k => Sys2Proof.Machine.execAtomicTimeout g k s
  | .flowItemArrival k => Sys2Proof.Machine.execFlowItemArrival k s
  | .creditGrant die => Sys2Proof.Machine.execCreditGrant die s
  | .markerComplete k => Sys2Proof.Machine.execMarkerComplete k s
  | .markerAck k => Sys2Proof.Machine.execMarkerAck k s
  | .messageArrival k => Sys2Proof.Machine.execMessageArrival k s
  | .sendRetry g k => Sys2Proof.Machine.execSendRetry g k s
  | .barrierUnitArrival k => Sys2Proof.Machine.execBarrierUnitArrival k s
  | .barrierGeneration k => Sys2Proof.Machine.execBarrierGeneration k s
  | .unitReply k => Sys2Proof.Machine.execUnitReply k s
  | .mapFetchReply k => Sys2Proof.Machine.execMapFetchReply k s
  | .departure t => Sys2Proof.Machine.execDeparture t s
  | .slotGrant g => Sys2Proof.Machine.execSlotGrant g s
  | .gondolaLanding k => Sys2Proof.Machine.execGondolaLanding k s
  | .landingAck k => Sys2Proof.Machine.execLandingAck k s
  | .lgrantDecision fibre => Sys2Proof.Machine.execLgrantDecision fibre s
  | .waitingRaiseStart fibre => Sys2Proof.Machine.execWaitingRaiseStart fibre s
  | .orderChangeStepA path => Sys2Proof.Machine.execOrderChangeStepA path s
  | .rampEnd path => Sys2Proof.Machine.execRampEnd path s
  | .orderRaiseStepC path => Sys2Proof.Machine.execOrderRaiseStepC path s
  | .flitTransmit path => Sys2Proof.Machine.execFlitTransmit path s
  | .flitReceive path peer raw => Sys2Proof.Machine.execFlitReceive path peer raw s
  | .ack path peer seq => Sys2Proof.Machine.execAck path peer seq s
  | .nak path peer seq => Sys2Proof.Machine.execNak path peer seq s
  | .berWindowEnd fibre colour errors => Sys2Proof.Machine.execBerWindowEnd fibre colour errors s
  | .retrainComplete fibre colour ok => Sys2Proof.Machine.execRetrainComplete fibre colour ok s
  | .lossOfLight fibre source => Sys2Proof.Machine.execLossOfLight fibre source s
  | .ageingScan fibre change => Sys2Proof.Machine.execAgeingScan fibre change s
  | .spoolWatchdogReset => Sys2Proof.Machine.execSpoolWatchdogReset s
  | .spoolRestart => Sys2Proof.Machine.execSpoolRestart s
  | .bridleItemReceive item => Sys2Proof.Machine.execBridleItemReceive item s
  | .bridleOutputServe path k => Sys2Proof.Machine.execBridleOutputServe path k s
  | .circuitUp fibre peer loss => Sys2Proof.Machine.execCircuitUp fibre peer loss s
  | .circuitDown fibre => Sys2Proof.Machine.execCircuitDown fibre s
  | .windowOpen fibre => Sys2Proof.Machine.execWindowOpen fibre s
  | .windowClose fibre => Sys2Proof.Machine.execWindowClose fibre s
  | .keyConfirmation fibre peer peerLit tagsMatch => Sys2Proof.Machine.execKeyConfirmation fibre peer peerLit tagsMatch s
  | .keyTag fibre peer tag => Sys2Proof.Machine.execKeyTag fibre peer tag s
  | .attestationExchange peer digest ok => Sys2Proof.Machine.execAttestationExchange peer digest ok s
  | .keyUpdate peer outgoing => Sys2Proof.Machine.execKeyUpdate peer outgoing s
  | .drainLimitExpiry => Sys2Proof.Machine.execDrainLimitExpiry s
  | .retopoResume => Sys2Proof.Machine.execRetopoResume s
  | .preemptSave lid => Sys2Proof.Machine.execPreemptSave lid s
  | .correctedError die => Sys2Proof.Machine.execCorrectedError die s
  | .uncorrectableError site => Sys2Proof.Machine.execUncorrectableError site s
  | .eventAreaSpace => Sys2Proof.Machine.execEventAreaSpace s
  | .thermalTrip die => Sys2Proof.Machine.execThermalTrip die s
  | .bringUp => Sys2Proof.Machine.execBringUp s
  | .bringUpTested found => Sys2Proof.Machine.execBringUpTested found s
  | .launch q => Sys2Proof.Machine.execLaunch q s
  | .preempt q => Sys2Proof.Machine.execPreempt q s
  | .resume q => Sys2Proof.Machine.execResume q s
  | .copyCommand q => Sys2Proof.Machine.execCopyCommand q s
  | .retopo q => Sys2Proof.Machine.execRetopo q s
  | .powerState q => Sys2Proof.Machine.execPowerState q s
  | .powerLaserCap q => Sys2Proof.Machine.execPowerLaserCap q s
  | .grantpol q => Sys2Proof.Machine.execGrantpol q s
  | .attestAllowList q => Sys2Proof.Machine.execAttestAllowList q s
  | .attestStart q => Sys2Proof.Machine.execAttestStart q s
  | .attestEndSession q => Sys2Proof.Machine.execAttestEndSession q s
  | .attestLeafCounter q => Sys2Proof.Machine.execAttestLeafCounter q s
  | .attestNewIdentity q => Sys2Proof.Machine.execAttestNewIdentity q s
  | .resetPackage q => Sys2Proof.Machine.execResetPackage q s
  | .resetConfigure q => Sys2Proof.Machine.execResetConfigure q s
  | .resetFirmware q => Sys2Proof.Machine.execResetFirmware q s
  | .spill q => Sys2Proof.Machine.execSpill q s
  | .qtail q v => Sys2Proof.Machine.execQtail q v s
  | .qctl q v => Sys2Proof.Machine.execQctl q v s
  | .evcons v => Sys2Proof.Machine.execEvcons v s
  | .wakeRegister die t => Sys2Proof.Machine.execWakeRegister die t s
  | .registerWrite offset size v => Sys2Proof.Machine.execRegisterWrite offset size v s
  | .hostWindowWrite die offset bytes => Sys2Proof.Machine.execHostWindowWrite die offset bytes s
  | .hostWindowRead die offset size => Sys2Proof.Machine.execHostWindowRead die offset size s
  | .registerRead offset size => Sys2Proof.Machine.execRegisterRead offset size s
  | .slotTableAnswer k => Sys2Proof.Machine.execSlotTableAnswer k s
  | .laserModuleReplaced fibre source => Sys2Proof.Machine.execLaserModuleReplaced fibre source s

end Sys2Proof.Machine
end

