-- ==== Sys2Proof/Machine/Settle.lean ====
section
/-! DEFINITION. What follows from the state at once, without an event of its own, and is brought up to date after every step (log entry 2): parked
threads whose reason has resolved (spec/08 R136), requests a core's port lets go, latches that can be passed or taken, strokes that have ended,
commands whose arrival at another package has left, colours without light at their path's flit boundary (spec/17 R276), and cores that have no more
to do with their segment. -/

namespace Sys2Proof.Machine

/-- The instruction at a thread's IA, where its core's I-store holds it. -/
def instrAt (s : State) (t : Thread) : Option Instr :=
  match fetchHead (s.core t.core) t.pc with
  | .head (.found h tail) => decodeInstr (headOp h) tail
  | _ => none

/-- Whether an instruction that parked because of the matrix engine may issue again (R131, R158, R164, R170): no mma reads the latch, none is at work on a
tile it names. -/
def matrixFree (s : State) (t : Thread) (i : Instr) : Bool :=
  let c := s.core t.core
  match i with
  | .mmrLoad _ => !latchRead c
  | i =>
    (tileFields i).all fun f => !tileBusy c (physTile t f)

/-- Whether a thread's operation is with the matrix engine, the epilogue unit or a latch on its way to the next core (R158). -/
def matrixWork (s : State) (tid : Tid) (t : Thread) : Bool :=
  let m := (s.core t.core).mx
  hasMma s tid t || (m.epilogue.any fun o => o.tid == tid) || (m.transit.map fun x => x.2.1) == some tid

/-- How a parked thread goes on, where its reason has resolved. -/
def resolved (s : State) (tid : Tid) (t : Thread) : Option Resume :=
  match t.status with
  | .parked (.register i) => if hazard i t then none else some .again
  | .parked .engineQueue => if queueUse s t.core < 8 then some .again else none
  | .parked .sendQueue => if (s.core t.core).msg.sends.length < 8 then some .again else none
  | .parked .recvTable => if (s.core t.core).msg.posted.length < 64 then some .again else none
  | .parked (.reissue _ since) => if since < s.coreClock t.core then some .again else none
  | .parked (.fence loads stores engines marks r) =>
    let before := r == .again
    let waits := (loads && !loadsDone s tid t) || (stores && !storesDone s tid t) || (before && strokeLeft t loads stores) || marks != 0
      || (match engines with
          | some n => enginesOpen s tid n
          | none => false)
    if waits then none else some r
  | .parked (.fenceSent pod) => if atomsUnsent s tid t pod then none else some .again
  | .parked (.matrix (.done last)) => if matrixWork s tid t then none else some (.done last)
  | .parked (.matrix .again) =>
    match instrAt s t with
    | some i => if matrixFree s t i then some .again else none
    | none => some .again
  | _ => none

/-- Parked threads whose reason has resolved go on, in order of core and context (R208). -/
def resumeResolved (s : State) : State :=
  let ready := threadsThat s fun tid t => t.ctx.isSome && !t.io.dying && launchLive s tid && (resolved s tid t).isSome
  ready.foldl
    (fun s e => match s.thread? e.1 with
      | some t =>
        (match resolved s e.1 t with
         | some r => resumeThread s e.1 r
         | none => s)
      | none => s)
    s

/-- A stroke whose acquire has its thread's earlier loads answered holds nothing back for it any more (R228). -/
def Stroke.settled (k : Stroke) (loads : Bool) : Stroke := { k with acquire := k.acquire && !loads }

/-- A stroke with nothing left to do is over (R195). -/
def endStroke (s : State) (tid : Tid) (t : Thread) : Thread :=
  match t.stroke with
  | some k =>
    let k := k.settled (loadsDone s tid t)
    { t with stroke := if k.finished && !k.acquire && !k.stopped && k.trap.isNone then none else some k }
  | none => t

/-- Whether every load of a stroke that is on its way has faulted: its thread is then Faulted at its next boundary (R124, R195). -/
def strokeFaulted (t : Thread) : Bool :=
  match t.stroke with
  | some k => !k.loads.isEmpty && k.loads.all fun l => l.faulted
  | none => false

/-- A thread whose stroke's loads, or whose posted store, has faulted: Faulted at its next boundary (R124, R195), beneath a wait at once (log
entry 62). -/
def settleFault (s : State) (tid : Tid) (t : Thread) : State :=
  if t.io.dying || t.ctx.isNone || !(strokeFaulted t || t.io.storeFault) then s
  else
    match t.status with
    | .parked .exit | .parked (.departure ..) => faultThread s tid
    | .parked _ => if t.unissued then faultThread s tid else s.setThread tid { t with io := { t.io with storeFault := true } }
    | .seated .. | .ready => faultThread s tid
    | _ => s

/-- Strokes that have ended and faults at boundaries. -/
def settleThreads (s : State) : State :=
  let s := { s with threads := s.threads.map fun (e : Nat × Thread) => (e.1, endStroke s (BitVec.ofNat 32 e.1) e.2) }
  s.threads.foldl (fun s e => settleFault s (BitVec.ofNat 32 e.1) e.2) s

/-- Whether an arrival, or a flit, of a command is still to leave for another package, or not acknowledged. -/
def commandLeaving (s : State) (id : Nat) : Bool :=
  (s.links.queues.any fun q => itemIs q.item) || (s.dies.any fun e => e.2.outgoing.any itemIs) || flitsLeft s id
where
  itemIs (x : Item) : Bool :=
    match x.body with
    | .arrival _ _ _ (some c) => c.2 == id
    | _ => false

/-- Commands whose arrival at another package has been made and acknowledged, or whose flits are, are done (R338); a remote atomic within reach of its home has its
timeout before it, which runs from when it last was (R187, R291). -/
def settleCommand (s : State) (g : Nat) (c : EngCmd) : Option EngCmd :=
  match c.phase, c.object, c.kind with
  | .arriving, some o, k =>
    let far := (match k with
      | .mcast _ => true
      | _ => false) || (match placeOf s g o with
      | some (.far _) => true
      | _ => false)
    if far && !commandLeaving s c.id then none else some c
  | .arriving, none, _ => if flitsLeft s c.id then some c else none
  | _, _, .ratom .. =>
    (match placeOf s g c.dst with
     | some (.far x) =>
       if reaches s (x / 8) then some { c with sentAt := s.cycle.toNat, cut := false }
       else some (if c.cut then c else { c with sentAt := s.cycle.toNat, cut := true })
     | _ => some c)
  | _, _, _ => some c

/-- A core that receives no more departures, with no thread, landing slot or request left, gives up its segment (R255). -/
def settleCore (s : State) (g : Nat) (c : Core) : Core :=
  let c := { c with engine := c.engine.filterMap (settleCommand s g) }
  if c.iss.draining && (s.threadsOn g).isEmpty && c.iss.slots.isEmpty && c.iss.slotRequests.isEmpty then
    { c with iss := { c.iss with segment := none, istore := [], draining := false } }
  else c

/-- The seats a core's threads hold. -/
def seatsHeld (s : State) (g : Nat) : NatSet :=
  (s.threadsOn g).foldl (fun l e => match e.2.status with
    | .seated k _ => setAdd l k
    | _ => l) []

/-- The seats left in this step noted with the cycle, so that they are free from the next (R206). -/
def settleSeats (s : State) (g : Nat) (c : Core) : Core :=
  let now := s.coreClock g
  let held := seatsHeld s g
  let left := (c.iss.held.filter fun k => !setHas held k).foldl (fun l k => tabPut l k now) (c.iss.left.filter fun e => decide (now ≤ e.2))
  { c with iss := { c.iss with held := held, left := left } }

/-- The colours that have lost their light leave the stripe set of every path at whose flit boundary this is (R276). -/
def settleColours (s : State) : State := s.spool.paths.foldl (fun s e => dropColours s e.1) s

/-- Everything that follows at once brought up to date. -/
def settle (s : State) : State :=
  let s := settleColours s
  let s := { s with
    cores := s.cores.map fun (e : Nat × Core) => (e.1, settleCore s e.1 e.2)
    dies := s.dies.map fun (e : Nat × Die) => (e.1, { e.2 with engine := e.2.engine.filterMap (settleCommand s (2048 + e.1)) }) }
  let s := s.cores.foldl (fun s e => servePass_ (serveTake (lserveWaiting (pump s e.1) e.1) e.1) e.1) s
  let s := resumeResolved (settleThreads s)
  { s with cores := s.cores.map fun (e : Nat × Core) => (e.1, settleSeats s e.1 e.2) }

end Sys2Proof.Machine
end

