-- ==== Sys2Proof/Machine/Step.lean ====
section
/-! DEFINITION. One step of the part: the next move of the agenda, or one more core cycle of the focus core where the agenda is empty, the
instruction of the turn it opens, and what follows from both at once (log entry 2). -/

namespace Sys2Proof.Machine

/-- One event, and the meaning of the instruction of the turn it opens, if it opens one. -/
def runTurn (ev : Instr) (s : State) : Host.Outcome State Fault Refusal :=
  match exec ev { s with issue := none } with
  | .next t =>
    match t.issue with
    | some u => exec u.instr t
    | none => .next t
  | o => o

/-- One event with all that follows from it. -/
def runEvent (ev : Instr) (s : State) : Host.Outcome State Fault Refusal :=
  match runTurn ev s with
  | .next t => .next (settle t)
  | o => o

/-- One step. -/
def step (s : State) : Host.Outcome State Fault Refusal :=
  match s.agenda with
  | [] => runEvent (.issueSelect s.focus) (advance s 1)
  | m :: rest =>
    if m.ev.isEvent then runEvent m.ev (advanceTo { s with agenda := rest } m.tick) else .fault .agendaNotEvent

/-- The state whose next step fetches and runs the instruction numbered w of nbits bits (log entry 15). -/
def State.withFetchWord (s : State) (nbits w : Nat) : State := placeLine s (tableLine nbits w)

end Sys2Proof.Machine
end

