-- ==== Sys2Proof/Certificates/Slice0/Obligations.lean ====
section
/-! DEFINITION. The statements for the provers, each formalising what the spec says an instruction, an event, a command or the whole machine
does. -/

namespace Sys2Proof.Claims

open Sys2Proof.Machine

/-! ### A turn -/

/-- Thread t, named by u, has its turn: u is the instruction it issues, in a turn of its own (spec/12 R204). -/
structure Turn (s : State) (u : Issue) (t : Thread) : Prop where
  latch : s.issue = some u
  own : u.rep = none
  thread : s.thread? u.tid = some t

/-- Instruction i issues in that turn: it passes the decode checks on its operands (R62), and no register it names is pending or held by the
thread's stroke (R32, R195). -/
abbrev Issues (i : Instr) (u : Issue) (t : Thread) : Prop := decodeCheck i t u.head = none ∧ hazard i t = false

/-- Sequential flow after the turn's instruction stays on the core: in normal mode always, in travelling mode inside the segment the core
pins (R75, R256). -/
abbrev Stays (s : State) (u : Issue) (t : Thread) : Prop :=
  flowTo s u.tid t.core (seqThread t u.ia (headLast u.head)).pc = .here

/-- Nothing of the part changes but the issuing thread, which becomes t', and the turn, which is over: every other thread, every core with its
L-store, full/empty bits, tiles, barriers, queues and port, every die with its slices and memory, every launch, everything in flight, light, links
and the host's side are as before. -/
structure OnlyThread (s s' : State) (u : Issue) (t' : Thread) : Prop where
  thread : s'.thread? u.tid = some t'
  others : ∀ tid, tid ≠ u.tid → s'.thread? tid = s.thread? tid
  over_ : s'.issue = none
  cores : s'.cores = s.cores
  dies : s'.dies = s.dies
  launches : s'.launches = s.launches
  podBars : s'.podBars = s.podBars
  podPeers : s'.podPeers = s.podPeers
  net : s'.net = s.net
  spool : s'.spool = s.spool
  links : s'.links = s.links
  host : s'.host = s.host
  cycle : s'.cycle = s.cycle
  cfg : s'.cfg = s.cfg

/-- A thread keeps its place, context, windows, privilege, handler state, priority, stroke and pending registers; of what its core and launch
manager keep beside its context, at most the mark that its quantum is due changes (R209). -/
structure SameThread (t t' : Thread) : Prop where
  core : t'.core = t.core
  ctx : t'.ctx = t.ctx
  status : t'.status = t.status
  wbase : t'.wbase = t.wbase
  wsize : t'.wsize = t.wsize
  tbase : t'.tbase = t.tbase
  tcount : t'.tcount = t.tcount
  privileged : t'.privileged = t.privileged
  handler : t'.handler = t.handler
  entries : t'.entries = t.entries
  prio : t'.prio = t.prio
  stroke : t'.stroke = t.stroke
  pending : t'.pending = t.pending
  io : t'.io = { t.io with quantumDue := t'.io.quantumDue }

/-- Flow goes on sequentially from the turn's instruction: the next head or line, or a loop's start, by R75 and R78. -/
structure Flows (u : Issue) (t t' : Thread) : Prop where
  pc : t'.pc = (seqThread t u.ia (headLast u.head)).pc
  loop0 : t'.loop0 = (seqThread t u.ia (headLast u.head)).loop0
  loop1 : t'.loop1 = (seqThread t u.ia (headLast u.head)).loop1
  loop2 : t'.loop2 = (seqThread t u.ia (headLast u.head)).loop2

/-- Every register but g0 and register n reads as before; n reads v, unless it is g0, which discards the write (R24). -/
def OnlyReg (t t' : Thread) (d : Reg) (v : Word) : Prop := ∀ n, t'.reg n = if n = d.toNat ∧ n ≠ 0 then v else t.reg n

/-- Instruction i completes in every turn it issues in, whatever its operands: it writes v of its thread to d, and changes no predicate, flag or
special register and nothing else but the flow. -/
def WritesReg (i : Instr) (d : Reg) (v : Thread → Word) : Prop :=
  ∀ s u t, Turn s u t → Issues i u t → Stays s u t →
    ∃ s' t', exec i s = .next s' ∧ OnlyThread s s' u t' ∧ SameThread t t' ∧ Flows u t t' ∧ OnlyReg t t' d (v t) ∧ t'.preds = t.preds ∧
      t'.sp = t.sp

/-- Instruction i completes in every turn it issues in, whatever its operands: its thread's predicates become p of its thread, and no register,
flag or special register and nothing else changes but the flow. -/
def WritesPreds (i : Instr) (p : Thread → BitVec 8) : Prop :=
  ∀ s u t, Turn s u t → Issues i u t → Stays s u t →
    ∃ s' t', exec i s = .next s' ∧ OnlyThread s s' u t' ∧ SameThread t t' ∧ Flows u t t' ∧ (∀ n, t'.reg n = t.reg n) ∧ t'.preds = p t ∧
      t'.sp = t.sp

/-- A value cut to 32 bits and extended with its sign, or with zeros (R87). -/
def sext32 (x : Word) : Word := (x.setWidth 32).signExtend 64
def zext32 (x : Word) : Word := (x.setWidth 32).setWidth 64

/-- The written value at width code w (R87). -/
def byWidth (w : Width) (r : Word) : Word :=
  match w with
  | .w64 => r
  | .s32 => sext32 r
  | .n32 => zext32 r

end Sys2Proof.Claims

open Sys2Proof Sys2Proof.Machine Sys2Proof.Claims

/-! ### Integer instructions (spec/05 R87 to R94) -/

/-- spec/05 R88, R87: the additive instructions write the sum, difference or product-sum modulo 2^64 at their width, and nothing else. spec/05 R89, R90:
the product's low half, or the high half of the 128-bit signed or natural product; quotient and remainder at a width, with division by zero giving all
ones and the dividend, and the most negative number by -1 giving itself and 0. No operand stops them. -/
def Obligations.IntegerArithmeticWritesItsResult : Prop :=
  ((∀ d a b w, WritesReg (.add d a b w) d fun t => byWidth w (t.g a + t.g b)) ∧
   (∀ d a b w, WritesReg (.sub d a b w) d fun t => byWidth w (t.g a - t.g b)) ∧
   (∀ d a w imm, WritesReg (.addi d a w imm) d fun t => byWidth w (t.g a + imm.signExtend 64)) ∧
   (∀ d a b c w, WritesReg (.madd d a b c w) d fun t => byWidth w (t.g a * t.g b + t.g c))) ∧
  ((∀ d a b w, WritesReg (.mul d a b (.lo w)) d fun t => byWidth w (t.g a * t.g b)) ∧
   (∀ d a b, WritesReg (.mul d a b .hs) d fun t => BitVec.ofInt 64 ((t.g a).toInt * (t.g b).toInt / 2 ^ 64)) ∧
   (∀ d a b, WritesReg (.mul d a b .hn) d fun t => BitVec.ofNat 64 ((t.g a).toNat * (t.g b).toNat / 2 ^ 64)) ∧
   (∀ d a b, WritesReg (.div d a b true .w64) d fun t =>
     if t.g b = 0 then BitVec.allOnes 64
     else if t.g a = BitVec.intMin 64 ∧ t.g b = BitVec.allOnes 64 then t.g a
     else BitVec.ofInt 64 ((t.g a).toInt.tdiv (t.g b).toInt)) ∧
   (∀ d a b, WritesReg (.rem d a b true .w64) d fun t =>
     if t.g b = 0 then t.g a
     else if t.g a = BitVec.intMin 64 ∧ t.g b = BitVec.allOnes 64 then 0
     else BitVec.ofInt 64 ((t.g a).toInt.tmod (t.g b).toInt)) ∧
   (∀ d a b, WritesReg (.div d a b false .w64) d fun t =>
     if t.g b = 0 then BitVec.allOnes 64 else BitVec.ofNat 64 ((t.g a).toNat / (t.g b).toNat)) ∧
   (∀ d a b, WritesReg (.rem d a b false .w64) d fun t =>
     if t.g b = 0 then t.g a else BitVec.ofNat 64 ((t.g a).toNat % (t.g b).toNat)) ∧
   (∀ d a b (ext : Bool), WritesReg (.div d a b true (if ext then .s32 else .n32)) d fun t =>
     let x := (t.g a).setWidth 32
     let y := (t.g b).setWidth 32
     let q := if y = 0 then BitVec.allOnes 32 else if x = BitVec.intMin 32 ∧ y = BitVec.allOnes 32 then x else BitVec.ofInt 32 (x.toInt.tdiv y.toInt)
     if ext then q.signExtend 64 else q.setWidth 64) ∧
   (∀ d a b (ext : Bool), WritesReg (.rem d a b true (if ext then .s32 else .n32)) d fun t =>
     let x := (t.g a).setWidth 32
     let y := (t.g b).setWidth 32
     let r := if y = 0 then x else if x = BitVec.intMin 32 ∧ y = BitVec.allOnes 32 then 0 else BitVec.ofInt 32 (x.toInt.tmod y.toInt)
     if ext then r.signExtend 64 else r.setWidth 64) ∧
   (∀ d a b (ext : Bool), WritesReg (.div d a b false (if ext then .s32 else .n32)) d fun t =>
     let x := (t.g a).setWidth 32
     let y := (t.g b).setWidth 32
     let q := if y = 0 then BitVec.allOnes 32 else BitVec.ofNat 32 (x.toNat / y.toNat)
     if ext then q.signExtend 64 else q.setWidth 64) ∧
   (∀ d a b (ext : Bool), WritesReg (.rem d a b false (if ext then .s32 else .n32)) d fun t =>
     let x := (t.g a).setWidth 32
     let y := (t.g b).setWidth 32
     let r := if y = 0 then x else BitVec.ofNat 32 (x.toNat % y.toNat)
     if ext then r.signExtend 64 else r.setWidth 64))

/-! ### Bitfields and packed integers (spec/06 R102 to R109) -/

/-- spec/05 R91 to R94: bitwise results, shifts and rotations by an amount modulo the width, immediates, minimum and maximum, address forming, bit counts
and moves, and selection. spec/05 R94: what bits counts and moves: x has no set bit above the first of its leading ones and below the last, the counts
are 64 for 0, bit i moves to 63 - i, and byte i to byte 7 - i. spec/06 R102: bfx writes the field of len1 + 1 bits from pos, its sign extended or not;
bfi replaces that field and nothing else. The encoding admits pos + len1 + 1 up to 64. -/
def Obligations.LogicShiftsMovesAndBitfieldsWriteTheirResult : Prop :=
  ((∀ d a b, WritesReg (.logic d a b .and) d fun t => t.g a &&& t.g b) ∧
   (∀ d a b, WritesReg (.logic d a b .or) d fun t => t.g a ||| t.g b) ∧
   (∀ d a b, WritesReg (.logic d a b .xor) d fun t => t.g a ^^^ t.g b) ∧
   (∀ d a b, WritesReg (.logic d a b .andn) d fun t => t.g a &&& ~~~(t.g b)) ∧
   (∀ d a b, WritesReg (.logic d a b .orn) d fun t => t.g a ||| ~~~(t.g b)) ∧
   (∀ d a b, WritesReg (.logic d a b .xnor) d fun t => ~~~(t.g a ^^^ t.g b)) ∧
   (∀ d a imm, WritesReg (.logi d a .and imm) d fun t => t.g a &&& imm.signExtend 64) ∧
   (∀ d a imm, WritesReg (.logi d a .or imm) d fun t => t.g a ||| imm.signExtend 64) ∧
   (∀ d a imm, WritesReg (.logi d a .xor imm) d fun t => t.g a ^^^ imm.signExtend 64) ∧
   (∀ d a b, WritesReg (.shift d a b .sll false) d fun t => t.g a <<< ((t.g b).toNat % 64)) ∧
   (∀ d a b, WritesReg (.shift d a b .srl false) d fun t => t.g a >>> ((t.g b).toNat % 64)) ∧
   (∀ d a b, WritesReg (.shift d a b .sra false) d fun t => (t.g a).sshiftRight ((t.g b).toNat % 64)) ∧
   (∀ d a b, WritesReg (.shift d a b .rol false) d fun t => (t.g a).rotateLeft ((t.g b).toNat % 64)) ∧
   (∀ d a b, WritesReg (.shift d a b .ror false) d fun t => (t.g a).rotateRight ((t.g b).toNat % 64)) ∧
   (∀ d a b, WritesReg (.shift d a b .sll true) d fun t => ((t.g a).setWidth 32 <<< ((t.g b).toNat % 32)).signExtend 64) ∧
   (∀ d a b, WritesReg (.shift d a b .srl true) d fun t => ((t.g a).setWidth 32 >>> ((t.g b).toNat % 32)).signExtend 64) ∧
   (∀ d a b, WritesReg (.shift d a b .sra true) d fun t => (((t.g a).setWidth 32).sshiftRight ((t.g b).toNat % 32)).signExtend 64) ∧
   (∀ d a b, WritesReg (.shift d a b .rol true) d fun t => (((t.g a).setWidth 32).rotateLeft ((t.g b).toNat % 32)).signExtend 64) ∧
   (∀ d a b, WritesReg (.shift d a b .ror true) d fun t => (((t.g a).setWidth 32).rotateRight ((t.g b).toNat % 32)).signExtend 64) ∧
   (∀ d a amt op w32, WritesReg (.shifti d a amt op w32) d fun t => shiftValue op w32 (t.g a) amt.toNat) ∧
   (∀ d imm, WritesReg (.li d .sx imm) d fun _ => imm.signExtend 64) ∧
   (∀ d imm, WritesReg (.li d .n imm) d fun _ => imm.setWidth 64) ∧
   (∀ d imm, WritesReg (.li d .hi imm) d fun t => (imm.setWidth 64 <<< 32) ||| zext32 (t.g d)) ∧
   (∀ d a b, WritesReg (.mnx d a b .minS) d fun t => if (t.g a).toInt ≤ (t.g b).toInt then t.g a else t.g b) ∧
   (∀ d a b, WritesReg (.mnx d a b .maxS) d fun t => if (t.g b).toInt ≤ (t.g a).toInt then t.g a else t.g b) ∧
   (∀ d a b, WritesReg (.mnx d a b .minN) d fun t => if (t.g a).toNat ≤ (t.g b).toNat then t.g a else t.g b) ∧
   (∀ d a b, WritesReg (.mnx d a b .maxN) d fun t => if (t.g b).toNat ≤ (t.g a).toNat then t.g a else t.g b) ∧
   (∀ d a b sh disp, WritesReg (.lea d a b sh disp) d fun t => t.g a + (t.g b <<< sh.toNat) + disp.signExtend 64) ∧
   (∀ d a op, WritesReg (.bits d a op) d fun t => bitsValue op (t.g a)) ∧
   (∀ d a b c, WritesReg (.sel d a b c) d fun t => (t.g a &&& t.g c) ||| (t.g b &&& ~~~(t.g c)))) ∧
  (∀ x : Word,
     (bitsValue .clz 0 = 64 ∧ bitsValue .ctz 0 = 64 ∧ bitsValue .popc 0 = 0) ∧
     (x ≠ 0 → (bitsValue .clz x).toNat < 64 ∧ x.getLsbD (63 - (bitsValue .clz x).toNat) = true ∧
       ∀ i, 63 - (bitsValue .clz x).toNat < i → x.getLsbD i = false) ∧
     (x ≠ 0 → (bitsValue .ctz x).toNat < 64 ∧ x.getLsbD (bitsValue .ctz x).toNat = true ∧
       ∀ i, i < (bitsValue .ctz x).toNat → x.getLsbD i = false) ∧
     (∀ i, i < 64 → (bitsValue .brev x).getLsbD (63 - i) = x.getLsbD i) ∧
     (∀ i, i < 8 → (bitsValue .bswap x).extractLsb' (8 * (7 - i)) 8 = x.extractLsb' (8 * i) 8)) ∧
  ((∀ d a pos len1 sx, WritesReg (.bfx d a pos len1 sx) d fun t => extractField (t.g a) pos len1 sx) ∧
   (∀ d a b pos len1, WritesReg (.bfi d a b pos len1) d fun t => insertField (t.g a) (t.g b) pos len1) ∧
   (∀ (x y : Word) (pos len1 : BitVec 6), pos.toNat + len1.toNat + 1 ≤ 64 → ∀ i, i < 64 →
     ((extractField x pos len1 false).getLsbD i = (decide (i ≤ len1.toNat) && x.getLsbD (pos.toNat + i))) ∧
     ((extractField x pos len1 true).getLsbD i =
       if i ≤ len1.toNat then x.getLsbD (pos.toNat + i) else x.getLsbD (pos.toNat + len1.toNat)) ∧
     ((insertField x y pos len1).getLsbD i =
       if pos.toNat ≤ i ∧ i ≤ pos.toNat + len1.toNat then y.getLsbD (i - pos.toNat) else x.getLsbD i)))

/-- spec/06 R104 to R109: each packed instruction writes, to each lane of d, its result on the same lanes of its operands; vred writes one value. No
operand stops them and no flag changes. spec/06 R103, spec/03 R39, R108: a word made lane by lane reads back lane by lane, and the sum of vred is the
exact sum of the signed lanes, its minimum the least of them. -/
def Obligations.PackedInstructionsWriteEveryLane : Prop :=
  ((∀ d a b vt, WritesReg (.vadd d a b vt .wrap) d fun t => eachLane vt fun i => laneBits vt (t.g a) i + laneBits vt (t.g b) i) ∧
   (∀ d a b vt, WritesReg (.vadd d a b vt .ss) d fun t => eachLane vt fun i =>
     BitVec.ofInt _ (max (-(2 ^ (laneWidth vt - 1))) (min (2 ^ (laneWidth vt - 1) - 1) ((laneBits vt (t.g a) i).toInt + (laneBits vt (t.g b) i).toInt)))) ∧
   (∀ d a b vt, WritesReg (.vadd d a b vt .sn) d fun t => eachLane vt fun i =>
     BitVec.ofNat _ (min (2 ^ laneWidth vt - 1) ((laneBits vt (t.g a) i).toNat + (laneBits vt (t.g b) i).toNat))) ∧
   (∀ d a b vt, WritesReg (.vsub d a b vt .wrap) d fun t => eachLane vt fun i => laneBits vt (t.g a) i - laneBits vt (t.g b) i) ∧
   (∀ d a b vt, WritesReg (.vsub d a b vt .ss) d fun t => eachLane vt fun i =>
     BitVec.ofInt _ (max (-(2 ^ (laneWidth vt - 1))) (min (2 ^ (laneWidth vt - 1) - 1) ((laneBits vt (t.g a) i).toInt - (laneBits vt (t.g b) i).toInt)))) ∧
   (∀ d a b vt, WritesReg (.vsub d a b vt .sn) d fun t => eachLane vt fun i =>
     BitVec.ofNat _ ((laneBits vt (t.g a) i).toNat - (laneBits vt (t.g b) i).toNat)) ∧
   (∀ d a b vt, WritesReg (.vmul d a b vt .lo) d fun t => eachLane vt fun i => laneBits vt (t.g a) i * laneBits vt (t.g b) i) ∧
   (∀ d a b vt, WritesReg (.vmul d a b vt .hs) d fun t => eachLane vt fun i =>
     BitVec.ofInt _ ((laneBits vt (t.g a) i).toInt * (laneBits vt (t.g b) i).toInt / 2 ^ laneWidth vt)) ∧
   (∀ d a b vt, WritesReg (.vmul d a b vt .hn) d fun t => eachLane vt fun i =>
     BitVec.ofNat _ ((laneBits vt (t.g a) i).toNat * (laneBits vt (t.g b) i).toNat / 2 ^ laneWidth vt)) ∧
   (∀ d a b vt op, WritesReg (.vmnx d a b vt op) d fun t => eachLane vt fun i => minMax op (laneBits vt (t.g a) i) (laneBits vt (t.g b) i)) ∧
   (∀ d a b vt, WritesReg (.vshf d a b vt .sll) d fun t => eachLane vt fun i =>
     laneBits vt (t.g a) i <<< ((laneBits vt (t.g b) i).toNat % laneWidth vt)) ∧
   (∀ d a b vt, WritesReg (.vshf d a b vt .srl) d fun t => eachLane vt fun i =>
     laneBits vt (t.g a) i >>> ((laneBits vt (t.g b) i).toNat % laneWidth vt)) ∧
   (∀ d a b vt, WritesReg (.vshf d a b vt .sra) d fun t => eachLane vt fun i =>
     (laneBits vt (t.g a) i).sshiftRight ((laneBits vt (t.g b) i).toNat % laneWidth vt)) ∧
   (∀ d a b vt, WritesReg (.vshf d a b vt .perm) d fun t => eachLane vt fun i =>
     laneBits vt (t.g a) ((laneBits vt (t.g b) i).toNat % laneCount vt)) ∧
   (∀ d a vt op, WritesReg (.vred d a vt op) d fun t => reduceLanes vt op (t.g a)) ∧
   (∀ d a b vt cond, WritesReg (.vcmp d a b vt cond) d fun t => eachLane vt fun i =>
     if laneCond cond (laneBits vt (t.g a) i) (laneBits vt (t.g b) i) then BitVec.allOnes _ else 0)) ∧
  ((∀ (vt : LaneType) (f : Nat → BitVec (laneWidth vt)) (i : Nat), i < laneCount vt → laneBits vt (eachLane vt f) i = f i) ∧
   (∀ (vt : LaneType) (x : Word),
     (reduceLanes vt .sum x).toInt = (((List.range (laneCount vt)).map fun i => (laneBits vt x i).toInt).sum)) ∧
   (∀ (vt : LaneType) (x : Word),
     (∀ i, i < laneCount vt → (reduceLanes vt .minS x).toInt ≤ (laneBits vt x i).toInt) ∧
     (∃ i, i < laneCount vt ∧ (reduceLanes vt .minS x).toInt = (laneBits vt x i).toInt)) ∧
   (∀ (vt : LaneType) (x : Word),
     (∀ i, i < laneCount vt → (laneBits vt x i).toNat ≤ (reduceLanes vt .maxN x).toNat) ∧
     (∃ i, i < laneCount vt ∧ (reduceLanes vt .maxN x).toNat = (laneBits vt x i).toNat)))

/-! ### Compares and predicates (spec/06 R95 to R101) -/

/-- spec/06 R95 to R97, R99, R101: a compare writes its pair by its combine mode, both results from the old predicates, the first only where both names
are one; pset, pmov.gp and plog write the predicates they name. No register, flag or special register changes. spec/06 R95, R96: what a combine mode
writes, predicate by predicate, and what the integer conditions test. -/
def Obligations.PredicateInstructionsAndComparesWriteTheirPredicates : Prop :=
  ((∀ p a b ic cm, WritesPreds (.cmp p a b ic cm false) fun t => (combinePair t p cm (intCond ic (t.g a) (t.g b))).preds) ∧
   (∀ p a b ic cm, WritesPreds (.cmp p a b ic cm true) fun t =>
     (combinePair t p cm (intCond ic ((t.g a).setWidth 32) ((t.g b).setWidth 32))).preds) ∧
   (∀ p a ic cm imm, WritesPreds (.cmpi p a ic cm imm) fun t => (combinePair t p cm (intCond ic (t.g a) (imm.signExtend 64))).preds) ∧
   (∀ value mask, WritesPreds (.pset value mask) fun t => (t.preds &&& ~~~mask) ||| (value &&& mask)) ∧
   (∀ a mask, WritesPreds (.pmovGp a mask) fun t => (t.preds &&& ~~~mask) ||| ((t.g a).setWidth 8 &&& mask)) ∧
   (∀ pd pa pb pc table, WritesPreds (.plog pd pa pb pc table) fun t =>
     (t.setPred pd (table.getLsbD (4 * bitOf (t.pred pa) + 2 * bitOf (t.pred pb) + bitOf (t.pred pc)))).preds) ∧
   (∀ d, WritesReg (.pmovPg d) d fun t => t.preds.setWidth 64) ∧
   (∀ value mask : BitVec 8, decodeInstr 0x23 ((value ++ mask).setWidth 64) = some (.pset value mask)) ∧
   (∀ (pd pa pb pc : BitVec 3) (table : BitVec 8),
     decodeInstr 0x25 (((0 : BitVec 4) ++ pd ++ (0 : BitVec 24) ++ table ++ pa ++ pb ++ pc).setWidth 64) = some (.plog pd pa pb pc table)) ∧
   (∀ w : BitVec 48, w.extractLsb' 17 24 ≠ 0 ∨ w.extractLsb' 44 4 ≠ 0 → decodeInstr 0x25 (w.setWidth 64) = none) ∧
   (∀ w : BitVec 32, w.getLsbD 31 = true → decodeInstr 0x20 (w.setWidth 64) = none ∧ decodeInstr 0x22 (w.setWidth 64) = none) ∧
   (∀ w : BitVec 64, w.getLsbD 63 = true → decodeInstr 0x21 w = none) ∧
   (∀ w : BitVec 32, w.extractLsb' 4 2 = 3 → decodeInstr 0x20 (w.setWidth 64) = none) ∧
   (∀ w : BitVec 64, w.extractLsb' 43 2 = 3 → decodeInstr 0x21 w = none) ∧
   (∀ w : BitVec 32, w.extractLsb' 6 2 = 3 → decodeInstr 0x22 (w.setWidth 64) = none)) ∧
  ((∀ (t : Thread) (p : Pair) (cm : Combine) (c : Bool) (k : BitVec 3),
     (combinePair t p cm c).pred k =
       if k = p.pa then (match cm with | .set => c | .and => t.pred k && c | .or => t.pred k || c)
       else if k = p.pb then (match cm with | .set => !c | .and => t.pred k && !c | .or => t.pred k || !c)
       else t.pred k) ∧
   (∀ (w : Nat) (a b : BitVec w),
     (intCond .eq a b = decide (a = b)) ∧ (intCond .ne a b = decide (a ≠ b)) ∧
     (intCond .lt a b = decide (a.toInt < b.toInt)) ∧ (intCond .ge a b = decide (b.toInt ≤ a.toInt)) ∧
     (intCond .le a b = decide (a.toInt ≤ b.toInt)) ∧ (intCond .gt a b = decide (b.toInt < a.toInt)) ∧
     (intCond .ltn a b = decide (a.toNat < b.toNat)) ∧ (intCond .gen a b = decide (b.toNat ≤ a.toNat)) ∧
     (intCond .len a b = decide (a.toNat ≤ b.toNat)) ∧ (intCond .gtn a b = decide (b.toNat < a.toNat)) ∧
     (intCond .any a b = decide (a &&& b ≠ 0)) ∧ (intCond .none a b = decide (a &&& b = 0))))

/-! ### Float instructions (spec/03 R40 to R47, spec/06 R98, R110 to R120) -/

namespace Sys2Proof.Claims

/-- Instruction i completes in every turn it issues in with a result f of its thread: where no raised flag meets its enable, it writes the lanes
to d and ORs the flags into fstat, and changes no predicate and nothing else but the flow; where one does, it takes cause 0x0B with the flags as
value, and neither d nor fstat changes first (R47, R110). -/
def WritesFloat (i : Instr) (d : Reg) (f : Thread → Word × Flags) : Prop :=
  ∀ s u t, Turn s u t → Issues i u t →
    (flagTrap t (f t).2 = false → Stays s u t →
      ∃ s' t', exec i s = .next s' ∧ OnlyThread s s' u t' ∧ SameThread t t' ∧ Flows u t t' ∧ OnlyReg t t' d (f t).1 ∧ t'.preds = t.preds ∧
        t'.sp = { t.sp with fstat := t.sp.fstat ||| (f t).2.setWidth 15 }) ∧
    (flagTrap t (f t).2 = true → exec i s = .next (closeTurn (trapEntry s u.tid u.ia 0x0B ((f t).2.setWidth 64)) u))

/-- The rational number an exact finite value is. -/
def ratOf : FVal → Rat
  | .num n m e => (if n then -1 else 1) * (m : Rat) * (2 : Rat) ^ e
  | _ => 0

/-- Code c of a format is finite. -/
def FiniteCode (f : Fmt) (c : Nat) : Prop := c < 2 ^ f.bits ∧ ∃ n m e, decodeF f c = .num n m e

/-- Code c of a format is the number v rounded once in a mode, among the finite values of the format (spec/03 R46): the nearest, a tie going to the even
code or away from zero; the nearest that lies no further from zero; no higher; no lower. -/
def RoundsTo (f : Fmt) (rm : Mode) (v : Rat) (c : Nat) : Prop :=
  let x := ratOf (decodeF f c)
  FiniteCode f c ∧ ∀ d, FiniteCode f d →
    let y := ratOf (decodeF f d)
    (rm = .rne → (x - v).abs ≤ (y - v).abs ∧ ((x - v).abs = (y - v).abs → x = y ∨ c % 2 = 0)) ∧
    (rm = .rmm → (x - v).abs ≤ (y - v).abs ∧ ((x - v).abs = (y - v).abs → y.abs ≤ x.abs)) ∧
    (rm = .rtz → x.abs ≤ v.abs ∧ 0 ≤ x * v ∧ (y.abs ≤ v.abs → y.abs ≤ x.abs)) ∧
    (rm = .rdn → x ≤ v ∧ (y ≤ v → y ≤ x)) ∧
    (rm = .rup → v ≤ x ∧ (v ≤ y → x ≤ y))

/-- A number within the finite range of a format. -/
def InRange (f : Fmt) (v : Rat) : Prop := v.abs ≤ ((layoutOf f).maxM : Rat) * (2 : Rat) ^ (layoutOf f).maxE

end Sys2Proof.Claims

/-- spec/06 R110 to R113, R120: the arithmetic instructions round each lane's exact result once into the lane type by their mode; fdot sums c and the
lane products exactly and rounds once. spec/03 R46: of two finite codes the sum, the product and the quotient, within the finite range, are the exact number
rounded once in the mode, to the nearest or the neighbour the mode names.
Beyond the rules' words it takes the model's own readings, log entry 18. -/
def Obligations.FloatArithmeticRoundsExactResultsOnce : Prop :=
  (∀ d a b ft rm, WritesFloat (.fadd d a b ft rm) d fun t =>
    ftLanes ft (modeOf t rm) fun i => addF (modeOf t rm) [ftValue ft (t.g a) i, ftValue ft (t.g b) i]) ∧
  (∀ d a b ft rm, WritesFloat (.fsub d a b ft rm) d fun t =>
    ftLanes ft (modeOf t rm) fun i => addF (modeOf t rm) [ftValue ft (t.g a) i, (ftValue ft (t.g b) i).neg]) ∧
  (∀ d a b ft rm, WritesFloat (.fmul d a b ft rm) d fun t =>
    ftLanes ft (modeOf t rm) fun i => mulF (ftValue ft (t.g a) i) (ftValue ft (t.g b) i)) ∧
  (∀ d a b ft rm, WritesFloat (.fdiv d a b ft rm) d fun t =>
    ftLanes ft (modeOf t rm) fun i => divF (ftValue ft (t.g a) i) (ftValue ft (t.g b) i)) ∧
  (∀ d a b c ft rm np nc, WritesFloat (.fma d a b c ft rm np nc) d fun t =>
    ftLanes ft (modeOf t rm) fun i =>
      let prod := mulF (ftValue ft (t.g a) i) (ftValue ft (t.g b) i)
      let add := ftValue ft (t.g c) i
      let r := addF (modeOf t rm) [if np then prod.1.neg else prod.1, if nc then add.neg else add]
      (r.1, prod.2 ||| r.2)) ∧
  (∀ d a ft rm, WritesFloat (.fsqrt d a ft rm) d fun t => ftLanes ft (modeOf t rm) fun i => sqrtF (ftValue ft (t.g a) i)) ∧
  (∀ d a b c ft rm, WritesFloat (.fdot d a b c ft rm) d fun t => fdotValue ft (modeOf t rm) (t.g a) (t.g b) (t.g c)) ∧
  (∀ (f : Fmt) (rm : Mode) (a b : Nat), f = .f64 ∨ f = .f32 ∨ f = .bf16 ∨ f = .f16 → FiniteCode f a → FiniteCode f b →
    let x := decodeF f a
    let y := decodeF f b
    (InRange f (ratOf x + ratOf y) →
      RoundsTo f rm (ratOf x + ratOf y) (roundF f rm (addF rm [x, y])).1 ∧ (roundF f rm (addF rm [x, y])).2 &&& 0x1C = 0) ∧
    (InRange f (ratOf x * ratOf y) →
      RoundsTo f rm (ratOf x * ratOf y) (roundF f rm (mulF x y)).1 ∧ (roundF f rm (mulF x y)).2 &&& 0x1C = 0) ∧
    (ratOf y ≠ 0 → InRange f (ratOf x / ratOf y) →
      RoundsTo f rm (ratOf x / ratOf y) (roundF f rm (divF x y)).1 ∧ (roundF f rm (divF x y)).2 &&& 0x1C = 0))

/-- spec/06 R114 to R119: selection, special functions, conversions, sign operations and classes, lane by lane. spec/06 R98: fcmp writes its pair from the
order of lane 0 of its operands, none where one is NaN, and raises NV for a signalling operand and, with .sig, for any NaN; with NV raised and enabled
it takes cause 0x0B and writes no predicate.
Beyond the rules' words it takes the model's own readings, log entry 17. -/
def Obligations.FloatSelectionConversionClassAndComparesComplete : Prop :=
  ((∀ d a b ft op, WritesFloat (.fmnx d a b ft op) d fun t =>
     flagLanes ft.fmt.bits ft.lanes fun i => fmnxLane ft.fmt op (lane ft.fmt.bits (t.g a) i) (lane ft.fmt.bits (t.g b) i)) ∧
   (∀ d a ft, WritesFloat (.fexp2 d a ft) d fun t => sfuLanes fexp2Code ft (t.g a)) ∧
   (∀ d a ft, WritesFloat (.flog2 d a ft) d fun t => sfuLanes flog2Code ft (t.g a)) ∧
   (∀ d a ft, WritesFloat (.frcp d a ft) d fun t => sfuLanes frcpCode ft (t.g a)) ∧
   (∀ d a ft, WritesFloat (.frsq d a ft) d fun t => sfuLanes frsqCode ft (t.g a)) ∧
   (∀ d a ft rm fmt, WritesFloat (.fcvt d a ft rm fmt false) d fun t =>
     flagLanes fmt.bits ft.lanes fun i => encodeF fmt (modeOf t rm) (ftValue ft (t.g a) i)) ∧
   (∀ d a ft rm fmt, WritesFloat (.fcvt d a ft rm fmt true) d fun t =>
     ftLanes ft (modeOf t rm) fun i => (decodeF fmt (lane fmt.bits (t.g a) i), 0)) ∧
   (∀ d a ft rm iw signed toInt, WritesFloat (.icvt d a ft rm iw signed toInt) d fun t => icvtValue ft (modeOf t rm) iw signed toInt (t.g a)) ∧
   (∀ d a b ft op, WritesFloat (.fsgn d a b ft op) d fun t =>
     flagLanes ft.fmt.bits ft.lanes fun i => fsgnLane ft.fmt op (lane ft.fmt.bits (t.g a) i) (lane ft.fmt.bits (t.g b) i)) ∧
   (∀ d a ft, WritesFloat (.fclass d a ft) d fun t =>
     (BitVec.ofNat 64 (2 ^ classBit ft.fmt (lane ft.fmt.bits (t.g a) 0)), 0))) ∧
  (∀ p a b ty cond cm sig s u t, Turn s u t → Issues (.fcmp p a b ty cond cm sig) u t →
     let x := fcmpValue ty (t.g a)
     let y := fcmpValue ty (t.g b)
     let nv : Flags := if x = .nan true ∨ y = .nan true ∨ sig = true ∧ (x.isNan = true ∨ y.isNan = true) then 0x10 else 0
     (flagTrap t nv = false → Stays s u t →
       ∃ s' t', exec (.fcmp p a b ty cond cm sig) s = .next s' ∧ OnlyThread s s' u t' ∧ SameThread t t' ∧ Flows u t t' ∧
         (∀ n, t'.reg n = t.reg n) ∧ t'.preds = (combinePair t p cm (floatCond cond (cmpF x y))).preds ∧
         t'.sp = { t.sp with fstat := t.sp.fstat ||| nv.setWidth 15 }) ∧
     (flagTrap t nv = true →
       exec (.fcmp p a b ty cond cm sig) s = .next (closeTurn (trapEntry s u.tid u.ia 0x0B 0x10) u)))

/-- spec/06 R111, R113: the invalid and dividing cases: opposite infinities added, 0 times infinity, 0 or infinity by itself, a finite value by 0, the
root of a negative value; NV or DZ and nothing else is raised, and a NaN operand raises NV only where it signals. spec/03 R46, spec/05 R64: a rounding
step keeps the count of units below the value or goes to the next, by its mode: rtz toward zero, rdn down, rup up, rne and rmm to the nearer, a tie to
the even count or away from zero. -/
def Obligations.FloatInvalidCasesAndRoundingModes : Prop :=
  ((∀ rm n, addF rm [.inf n, .inf (!n)] = (.nan false, 0x10)) ∧
   (∀ n x e, mulF (.num x 0 e) (.inf n) = (.nan false, 0x10) ∧ mulF (.inf n) (.num x 0 e) = (.nan false, 0x10)) ∧
   (∀ x e y k, divF (.num x 0 e) (.num y 0 k) = (.nan false, 0x10)) ∧
   (∀ x y, divF (.inf x) (.inf y) = (.nan false, 0x10)) ∧
   (∀ x m e y k, m ≠ 0 → divF (.num x m e) (.num y 0 k) = (.inf (x != y), 0x08)) ∧
   (∀ m e, m ≠ 0 → sqrtF (.num true m e) = (.nan false, 0x10)) ∧ sqrtF (.inf true) = (.nan false, 0x10) ∧
   (∀ n e, sqrtF (.num n 0 e) = (.num n 0 0, 0)) ∧ sqrtF (.inf false) = (.inf false, 0) ∧
   (∀ rm s v, v.isNan = false → addF rm [.nan s, v] = (.nan false, if s then 0x10 else 0) ∧ mulF (.nan s) v = (.nan false, if s then 0x10 else 0) ∧
     divF (.nan s) v = (.nan false, if s then 0x10 else 0) ∧ addF rm [v, .nan s] = (.nan false, if s then 0x10 else 0) ∧
     mulF v (.nan s) = (.nan false, if s then 0x10 else 0) ∧ divF v (.nan s) = (.nan false, if s then 0x10 else 0)) ∧
   (∀ s, sqrtF (.nan s) = (.nan false, if s then 0x10 else 0))) ∧
  (∀ (rm : Mode) (neg : Bool) (m k : Nat), 0 < k →
     let unit := 2 ^ k
     let n := m / unit
     let r := (roundUnits rm neg m 0 k).1
     (roundUnits rm neg m 0 k).2 = decide (m % unit ≠ 0) ∧ (r = n ∨ r = n + 1) ∧ (m % unit = 0 → r = n) ∧
     (rm = .rtz → r = n) ∧ (rm = .rdn → m % unit ≠ 0 → r = if neg then n + 1 else n) ∧
     (rm = .rup → m % unit ≠ 0 → r = if neg then n else n + 1) ∧
     (rm = .rne ∨ rm = .rmm → (2 * (m % unit) < unit → r = n) ∧ (unit < 2 * (m % unit) → r = n + 1)) ∧
     (rm = .rmm → 2 * (m % unit) = unit → r = n + 1) ∧ (rm = .rne → 2 * (m % unit) = unit → r % 2 = 0))

/-- spec/03 R40: rounding a value into the format it came from gives its code back and raises nothing, whatever the mode: every finite code and
infinity of the four IEEE-like formats of the registers. -/
def Obligations.EncodingADecodedValueGivesItsCode : Prop :=
  ∀ (f : Fmt) (rm : Mode) (c : Nat), f = .f64 ∨ f = .f32 ∨ f = .bf16 ∨ f = .f16 → c < 2 ^ f.bits → (decodeF f c).isNan = false →
    encodeF f rm (decodeF f c) = (c, 0)

/-! ### Flow, loops, traps and special registers (spec/04 R58, spec/05 R74 to R84, spec/19 R292) -/

namespace Sys2Proof.Claims

/-- The IA of an encoded target: the line that holds the instruction, delta lines on, head h (R58). -/
def targetOf (ia : Word) (x : Target) : Word := (ia &&& ~~~(63 : Word)) + (x.delta.signExtend 64 <<< 6) + (x.head.setWidth 64 <<< 1)

/-- The head after the turn's instruction: next in the line, or head 0 of the next line after a head with L = 1 (R75). -/
def nextOf (u : Issue) : Word := if headLast u.head then (u.ia &&& ~~~(63 : Word)) + 64 else u.ia + 2

/-- Instruction i transfers its thread to a target on its core: every loop level, predicate, special register and pending register stays, only the
link register, if there is one, is written, and nothing else changes. -/
def TransfersTo (i : Instr) (s : State) (u : Issue) (t : Thread) (link : Reg) (target : Word) : Prop :=
  ∃ s' t', exec i s = .next s' ∧ OnlyThread s s' u t' ∧ SameThread t t' ∧ t'.pc = target ∧ t'.loop0 = t.loop0 ∧ t'.loop1 = t.loop1 ∧
    t'.loop2 = t.loop2 ∧ OnlyReg t t' link (nextOf u) ∧ t'.preds = t.preds ∧ t'.sp = t.sp

/-- The thread t' after trap entry of thread t at an IA, with a cause and a value (R292): the IA, cause, value, selector and predicates are saved,
the thread is privileged, flow goes to its vector, and everything else of it is as it was. -/
structure Entered (t t' : Thread) (ia : Word) (cause : Nat) (v : Word) : Prop where
  sp : t'.sp = { t.sp with tepc := ia, tcause := BitVec.ofNat 64 cause, tval := v,
                           tgsel := (t.preds.setWidth 64) ||| (t.sp.gsel.setWidth 64 <<< 8) }
  privileged : t'.privileged = true
  handler : t'.handler = true
  entries : t'.entries = t.entries + 1
  pc : t'.pc = t.sp.tvb + BitVec.ofNat 64 (64 * cause)
  regs : ∀ n, t'.reg n = t.reg n
  preds : t'.preds = t.preds
  core : t'.core = t.core
  ctx : t'.ctx = t.ctx
  status : t'.status = t.status
  wbase : t'.wbase = t.wbase
  wsize : t'.wsize = t.wsize
  tbase : t'.tbase = t.tbase
  tcount : t'.tcount = t.tcount
  prio : t'.prio = t.prio
  loop0 : t'.loop0 = t.loop0
  loop1 : t'.loop1 = t.loop1
  loop2 : t'.loop2 = t.loop2
  stroke : t'.stroke = t.stroke
  pending : t'.pending = t.pending
  io : t'.io = { t.io with quantumDue := t'.io.quantumDue }

/-- A trap with a cause enters on the thread's core: its vector is set, it is not the eighth entry, and the vector lies where flow stays (R292). -/
abbrev Vectored (s : State) (u : Issue) (t : Thread) (cause : Nat) : Prop :=
  t.sp.tvb.getLsbD 63 = true ∧ t.entries < 7 ∧ flowTo s u.tid t.core (t.sp.tvb + BitVec.ofNat 64 (64 * cause)) = .here

end Sys2Proof.Claims

/-- spec/05 R74, R82: nop changes nothing but the flow; gsel writes the selector a, b, c and nothing else but the flow. spec/05 R75, spec/04 R58: where
the source checks pass and flow stays on the core, a transfer sets the pc to its target, which jalr reads before the link is written; call and jalr
write the head after them to d, and g0 takes no link. spec/04 R58: a register target with bit 0 = 1 or bit 63 = 0, and an encoded target whose offset
leaves [0, 2^48), trap at the source with cause 0x01; a target on another die or package in normal mode with cause 0x07; the value is the target, and
the link register is not written. -/
def Obligations.TransfersGoToTheirTargetOrTrap : Prop :=
  ((∀ s u t, Turn s u t → Issues .nop u t → Stays s u t →
     ∃ s' t', exec .nop s = .next s' ∧ OnlyThread s s' u t' ∧ SameThread t t' ∧ Flows u t t' ∧ (∀ n, t'.reg n = t.reg n) ∧
       t'.preds = t.preds ∧ t'.sp = t.sp) ∧
   (∀ a b c s u t, Turn s u t → Issues (.gsel a b c) u t → Stays s u t →
     ∃ s' t', exec (.gsel a b c) s = .next s' ∧ OnlyThread s s' u t' ∧ SameThread t t' ∧ Flows u t t' ∧ (∀ n, t'.reg n = t.reg n) ∧
       t'.preds = t.preds ∧
       t'.sp = { t.sp with gsel := (a.setWidth 9 <<< 6) ||| (b.setWidth 9 <<< 3) ||| c.setWidth 9 })) ∧
  ((∀ x s u t, Turn s u t → Issues (.br x) u t → targetTrap s u.tid t.core u.ia x = none →
     flowTo s u.tid t.core (targetOf u.ia x) = .here → TransfersTo (.br x) s u t 0 (targetOf u.ia x)) ∧
   (∀ d x s u t, Turn s u t → Issues (.call d x) u t → targetTrap s u.tid t.core u.ia x = none →
     flowTo s u.tid t.core (targetOf u.ia x) = .here → TransfersTo (.call d x) s u t d (targetOf u.ia x)) ∧
   (∀ a s u t, Turn s u t → Issues (.jr a) u t → registerTrap s u.tid t.core (t.g a) = none →
     flowTo s u.tid t.core (t.g a) = .here → TransfersTo (.jr a) s u t 0 (t.g a)) ∧
   (∀ d a s u t, Turn s u t → Issues (.jalr d a) u t → registerTrap s u.tid t.core (t.g a) = none →
     flowTo s u.tid t.core (t.g a) = .here → TransfersTo (.jalr d a) s u t d (t.g a))) ∧
  ((∀ s tid core v, (v.getLsbD 0 = true ∨ v.getLsbD 63 = false) → registerTrap s tid core v = some 0x01) ∧
   (∀ s tid core (v : Word), v.getLsbD 0 = false → v.getLsbD 63 = true → travelling s tid = false →
     (v.toNat / 2 ^ 51 % 2 ^ 12 ≠ s.cfg.package ∨ v.toNat / 2 ^ 48 % 8 ≠ core / 256) → registerTrap s tid core v = some 0x07) ∧
   (∀ s tid core ia (x : Target),
     (((ia.toNat % 2 ^ 48 / 64 * 64 : Nat) : Int) + 64 * x.delta.toInt + 2 * x.head.toNat < 0 ∨
       2 ^ 48 ≤ ((ia.toNat % 2 ^ 48 / 64 * 64 : Nat) : Int) + 64 * x.delta.toInt + 2 * x.head.toNat) → targetTrap s tid core ia x = some 0x01) ∧
   (∀ a s u t cause, Turn s u t → Issues (.jr a) u t → registerTrap s u.tid t.core (t.g a) = some cause →
     exec (.jr a) s = .next (closeTurn (trapEntry s u.tid u.ia cause (t.g a)) u)) ∧
   (∀ d a s u t cause, Turn s u t → Issues (.jalr d a) u t → registerTrap s u.tid t.core (t.g a) = some cause →
     exec (.jalr d a) s = .next (closeTurn (trapEntry s u.tid u.ia cause (t.g a)) u)) ∧
   (∀ d x s u t cause, Turn s u t → Issues (.call d x) u t → targetTrap s u.tid t.core u.ia x = some cause →
     exec (.call d x) s = .next (closeTurn (trapEntry s u.tid u.ia cause (targetOf u.ia x)) u)))

/-- spec/05 R78, R33: the loop-end checks. With no level ending at the IA flow goes to the next head; the innermost active level that ends there counts
down, and either returns to its start, the outer levels untouched, or goes inactive and leaves the check to the next. spec/05 R77: loop.N with a count
that is not 0 makes its level active with the next head as start, its target as end and the count; no other level, register, predicate or special
register changes. With count 0, where the head at its end is found, the level goes inactive and flow skips the body to the head after it, whose line
is the most recently used of the I-store (R59). An end before the body traps with cause 0x01 and that IA. -/
def Obligations.LoopsStartCountAndReturn : Prop :=
  (∀ (t : Thread) (ia : Word) (last : Bool),
     let next := if last then (ia &&& ~~~(63 : Word)) + 64 else ia + 2
     let ends := fun (x : LoopState) => x.active = true ∧ x.stop = ia
     (¬ ends t.loop2 → ¬ ends t.loop1 → ¬ ends t.loop0 → seqThread t ia last = { t with pc := next }) ∧
     (ends t.loop2 → 2 ≤ t.loop2.lc.toNat →
       seqThread t ia last = { t with pc := t.loop2.start, loop2 := { t.loop2 with lc := t.loop2.lc - 1 } }) ∧
     (¬ ends t.loop2 → ends t.loop1 → 2 ≤ t.loop1.lc.toNat →
       seqThread t ia last = { t with pc := t.loop1.start, loop1 := { t.loop1 with lc := t.loop1.lc - 1 } }) ∧
     (¬ ends t.loop2 → ¬ ends t.loop1 → ends t.loop0 → 2 ≤ t.loop0.lc.toNat →
       seqThread t ia last = { t with pc := t.loop0.start, loop0 := { t.loop0 with lc := t.loop0.lc - 1 } }) ∧
     (ends t.loop2 → t.loop2.lc.toNat ≤ 1 →
       seqThread t ia last = seqThread { t with loop2 := { t.loop2 with lc := 0, active := false } } ia last) ∧
     (¬ ends t.loop2 → ends t.loop1 → t.loop1.lc.toNat ≤ 1 →
       seqThread t ia last = seqThread { t with loop1 := { t.loop1 with lc := 0, active := false } } ia last) ∧
     (¬ ends t.loop2 → ¬ ends t.loop1 → ends t.loop0 → t.loop0.lc.toNat ≤ 1 →
       seqThread t ia last = { t with pc := next, loop0 := { t.loop0 with lc := 0, active := false } })) ∧
  (∀ d level x s u t, Turn s u t → Issues (.loop d level x) u t → targetOut u.ia x = false →
     ((targetOf u.ia x).toNat < (nextOf u).toNat →
       exec (.loop d level x) s = .next (closeTurn (trapEntry s u.tid u.ia 0x01 (targetOf u.ia x)) u)) ∧
     ((nextOf u).toNat ≤ (targetOf u.ia x).toNat → (t.g d).setWidth 32 ≠ (0 : BitVec 32) →
       let r := t.setLoop level { active := true, start := nextOf u, stop := targetOf u.ia x, lc := (t.g d).setWidth 32 }
       Stays s u r →
       ∃ s' t', exec (.loop d level x) s = .next s' ∧ OnlyThread s s' u t' ∧ SameThread t t' ∧ Flows u r t' ∧ (∀ n, t'.reg n = t.reg n) ∧
         t'.preds = t.preds ∧ t'.sp = t.sp) ∧
     ((nextOf u).toNat ≤ (targetOf u.ia x).toNat → (t.g d).setWidth 32 = (0 : BitVec 32) →
       ∀ h tail, flowTo s u.tid t.core (targetOf u.ia x) = .here → fetchHead (s.core t.core) (targetOf u.ia x) = .head (.found h tail) →
       let after := if headLast h then (targetOf u.ia x &&& ~~~(63 : Word)) + 64 else targetOf u.ia x + 2
       flowTo s u.tid t.core after = .here →
       ∃ s' t', exec (.loop d level x) s = .next s' ∧ OnlyThread (s.modCore t.core fun c => useLine c (targetOf u.ia x)) s' u t' ∧ SameThread t t' ∧
         t'.pc = after ∧
         (t'.loop level).active = false ∧ (∀ l, l ≠ level → t'.loop l = t.loop l) ∧ (∀ n, t'.reg n = t.reg n) ∧ t'.preds = t.preds ∧
         t'.sp = t.sp))

/-- spec/19 R292: taking an exception. The IA, cause, value, selector and predicates are saved in tepc, tcause, tval and tgsel, the thread becomes
privileged and goes on at tvb + 64 * cause; no register, predicate, loop level, stroke or pending register changes, and no other thread or unit.
spec/19 R292: no entry is made where tvb has bit 63 = 0, its reset value included, or on the eighth entry without an eret between: the thread is
killed by the steps of R143, with an UNHANDLED record that holds cause, value and the IA of the trap, which for trap (cause 0x09, R79) is the pc, or a
TRAPLOOP record that holds cause, value and tepc (R302). -/
def Obligations.TrapEntrySavesAndVectorsOrKills : Prop :=
  (∀ s u t ia cause v, s.thread? u.tid = some t → Vectored s u t cause →
     ∃ s' t', closeTurn (trapEntry s u.tid ia cause v) u = s' ∧ OnlyThread s s' u t' ∧ Entered t t' ia cause v) ∧
  (∀ s tid t ia cause v, s.thread? tid = some t →
     (t.sp.tvb.getLsbD 63 = false →
       trapEntry s tid ia cause v = killThread (emitThread s 0x0010 tid t [BitVec.ofNat 64 cause, v, if cause = 0x09 then t.pc else ia]) tid) ∧
     (t.sp.tvb.getLsbD 63 = true → 7 ≤ t.entries →
       trapEntry s tid ia cause v = killThread (emitThread s 0x0011 tid t [BitVec.ofNat 64 cause, v, ia]) tid))

/-- spec/05 R79: trap enters with cause 0x09, the immediate as value and the next head as return address; trap 0xFFFF with the breakpoint cause 0x0F and
its own IA. spec/05 R80, R62: eret in a privileged thread whose tepc passes R58's checks restores selector and predicates from tgsel, the privilege
held before entry and the pc from tepc; no register, loop level or other special register changes. A tepc that fails traps with its cause and that
value, and in a user thread eret takes cause 0x04. -/
def Obligations.TrapAndEretEnterAndRestore : Prop :=
  ((∀ (imm : BitVec 16) s u t, imm ≠ 0xFFFF → Turn s u t → Issues (.trap imm) u t → Vectored s u t 0x09 →
     ∃ s' t', exec (.trap imm) s = .next s' ∧ OnlyThread s s' u t' ∧ Entered t t' (nextOf u) 0x09 (imm.setWidth 64)) ∧
   (∀ s u t, Turn s u t → Issues (.trap 0xFFFF) u t → Vectored s u t 0x0F →
     ∃ s' t', exec (.trap 0xFFFF) s = .next s' ∧ OnlyThread s s' u t' ∧ Entered t t' u.ia 0x0F 0xFFFF)) ∧
  ((∀ s u t, Turn s u t → Issues .eret u t → registerTrap s u.tid t.core t.sp.tepc = none → flowTo s u.tid t.core t.sp.tepc = .here →
     ∃ s' t', exec .eret s = .next s' ∧ OnlyThread s s' u t' ∧ t'.pc = t.sp.tepc ∧
       t'.sp = { t.sp with gsel := (t.sp.tgsel >>> 8).setWidth 9 } ∧ t'.preds = t.sp.tgsel.setWidth 8 ∧
       (∀ l, s.launch? (tidLaunch u.tid) = some l → t'.privileged = l.desc.supervisor) ∧ t'.handler = false ∧ t'.entries = 0 ∧
       (∀ n, t'.reg n = t.reg n) ∧ t'.loop0 = t.loop0 ∧ t'.loop1 = t.loop1 ∧ t'.loop2 = t.loop2 ∧ t'.core = t.core ∧ t'.ctx = t.ctx ∧
       t'.status = t.status ∧ t'.wbase = t.wbase ∧ t'.wsize = t.wsize ∧ t'.tbase = t.tbase ∧ t'.tcount = t.tcount ∧ t'.prio = t.prio ∧
       t'.pending = t.pending) ∧
   (∀ s u t cause, Turn s u t → Issues .eret u t → registerTrap s u.tid t.core t.sp.tepc = some cause →
     exec .eret s = .next (closeTurn (trapEntry s u.tid u.ia cause t.sp.tepc) u)) ∧
   (∀ s u t, Turn s u t → t.privileged = false →
     exec .eret s = .next (closeTurn (trapEntry s u.tid u.ia 0x04 (u.head.setWidth 64)) u)))

/-- spec/05 R81, R31: mfs writes the special register's value to d and nothing else; mts writes the special register and no other part of the thread but
the loop count a counter names and, in the handler of a stroke's trap, what the stroke's later repetitions read (R197); both complete in user mode for
a number below 0x100, and for every number in a privileged thread. spec/05 R81, spec/02 R31: a special register from 0x100 in user mode takes cause
0x04 with its number; an unassigned number, and a write of a read-only one, cause 0x01 with the number; a value with a reserved bit or out of range
(fstat's rounding mode above 4, trs above 64, tvb's low bits) cause 0x01 with the value; fstat's QTRAP bit in a launch without QTRAP cause 0x04 with
the value. Nothing is written. -/
def Obligations.SpecialRegistersReadWriteAndCheck : Prop :=
  ((∀ d n s u t v, Turn s u t → Issues (.mfs d n) u t → Stays s u t → (n.toNat < 0x100 ∨ t.privileged = true) →
     specialRead s u.tid t n = some v →
     ∃ s' t', exec (.mfs d n) s = .next s' ∧ OnlyThread s s' u t' ∧ SameThread t t' ∧ Flows u t t' ∧ OnlyReg t t' d v ∧ t'.preds = t.preds ∧
       t'.sp = t.sp) ∧
   (∀ a n s u t, Turn s u t → Issues (.mts a n) u t → (n.toNat < 0x100 ∨ t.privileged = true) → mtsTrap s u.tid t n (t.g a) = none →
     Stays s u (specialWrite t n (t.g a)) →
     ∃ s' t', exec (.mts a n) s = .next s' ∧ OnlyThread s s' u t' ∧ SameThread (specialWrite t n (t.g a)) t' ∧
       Flows u (specialWrite t n (t.g a)) t' ∧ (∀ k, t'.reg k = t.reg k) ∧ t'.preds = t.preds ∧ t'.sp = (specialWrite t n (t.g a)).sp ∧
       ((∀ k, t.stroke = some k → k.stopped = false) → SameThread t t')) ∧
   (∀ (t : Thread) (s : State) (tid : Tid) (n : BitVec 11) (v : Word), mtsTrap s tid t n v = none → n.toNat ≠ 0x01B → n.toNat ≠ 0x01C →
     n.toNat ≠ 0x01D → specialRead s tid (specialWrite t n v) n = some v)) ∧
  ((∀ d n s u t, Turn s u t → Issues (.mfs d n) u t → 0x100 ≤ n.toNat → t.privileged = false →
     exec (.mfs d n) s = .next (closeTurn (trapEntry s u.tid u.ia 0x04 (n.setWidth 64)) u)) ∧
   (∀ d n s u t, Turn s u t → Issues (.mfs d n) u t → (n.toNat < 0x100 ∨ t.privileged = true) → specialRead s u.tid t n = none →
     exec (.mfs d n) s = .next (closeTurn (trapEntry s u.tid u.ia 0x01 (n.setWidth 64)) u)) ∧
   (∀ a n s u t, Turn s u t → Issues (.mts a n) u t → 0x100 ≤ n.toNat → t.privileged = false →
     exec (.mts a n) s = .next (closeTurn (trapEntry s u.tid u.ia 0x04 (n.setWidth 64)) u)) ∧
   (∀ a n s u t cause v, Turn s u t → Issues (.mts a n) u t → (n.toNat < 0x100 ∨ t.privileged = true) →
     mtsTrap s u.tid t n (t.g a) = some (cause, v) → exec (.mts a n) s = .next (closeTurn (trapEntry s u.tid u.ia cause v) u)) ∧
   (∀ s tid t (n : BitVec 11) v, specialWritable n = false → mtsTrap s tid t n v = some (0x01, n.setWidth 64)) ∧
   (∀ s tid t (n : BitVec 11), (∀ k ∈ [0x000, 0x001, 0x002, 0x003, 0x004, 0x005, 0x006, 0x007, 0x010, 0x011, 0x012, 0x013, 0x014, 0x015, 0x016, 0x017,
       0x018, 0x019, 0x01A, 0x01B, 0x01C, 0x01D, 0x020, 0x021, 0x022, 0x023, 0x030, 0x100, 0x101, 0x102, 0x103, 0x104], n.toNat ≠ k) →
     specialRead s tid t n = none ∧ specialWritable n = false) ∧
   (∀ s tid t (v : Word),
     (0x200 ≤ v.toNat → mtsTrap s tid t 0x010 v = some (0x01, v)) ∧ (0x100 ≤ v.toNat → mtsTrap s tid t 0x011 v = some (0x01, v)) ∧
     (0x8000 ≤ v.toNat ∨ 4 < v.toNat / 2 ^ 6 % 8 → mtsTrap s tid t 0x012 v = some (0x01, v)) ∧
     (v.toNat < 0x8000 → v.toNat / 2 ^ 6 % 8 ≤ 4 → 0x4000 ≤ v.toNat → (∀ l, s.launch? (tidLaunch tid) = some l → l.desc.qtrap = false) →
       mtsTrap s tid t 0x012 v = some (0x04, v)) ∧
     (8 ≤ v.toNat → mtsTrap s tid t 0x013 v = some (0x01, v)) ∧ (64 ≤ v.toNat → mtsTrap s tid t 0x018 v = some (0x01, v)) ∧
     (64 < v.toNat → mtsTrap s tid t 0x019 v = some (0x01, v)) ∧ (64 ≤ v.toNat → mtsTrap s tid t 0x01A v = some (0x01, v)) ∧
     (2 ^ 32 ≤ v.toNat → mtsTrap s tid t 0x01B v = some (0x01, v) ∧ mtsTrap s tid t 0x01C v = some (0x01, v) ∧
       mtsTrap s tid t 0x01D v = some (0x01, v)) ∧
     (v.toNat % 64 ≠ 0 → mtsTrap s tid t 0x100 v = some (0x01, v)) ∧ (0x100 ≤ v.toNat → mtsTrap s tid t 0x102 v = some (0x01, v)) ∧
     (2 ^ 17 ≤ v.toNat → mtsTrap s tid t 0x104 v = some (0x01, v))))

/-! ### Memory instructions (spec/07 R121 to R135) -/

namespace Sys2Proof.Claims

/-- As OnlyThread, but that core g changes too, in its L-store bytes only, and in that errors replaced by a write are gone: every other core, and every
other part of core g, is as before. -/
structure OnlyLstore (s s' : State) (u : Issue) (t' : Thread) (g : Nat) : Prop where
  thread : s'.thread? u.tid = some t'
  others : ∀ tid, tid ≠ u.tid → s'.thread? tid = s.thread? tid
  over_ : s'.issue = none
  core : s'.core g = { s.core g with lstore := (s'.core g).lstore, errors := (s'.core g).errors }
  errors : ∀ w, w ∈ (s'.core g).errors → w ∈ (s.core g).errors
  cores : ∀ k, k ≠ g → s'.core k = s.core k
  dies : s'.dies = s.dies
  launches : s'.launches = s.launches
  podBars : s'.podBars = s.podBars
  podPeers : s'.podPeers = s.podPeers
  net : s'.net = s.net
  spool : s'.spool = s.spool
  links : s'.links = s.links
  host : s'.host = s.host
  cycle : s'.cycle = s.cycle
  cfg : s'.cfg = s.cfg

/-- Byte k of a register's value, byte 0 the lowest (R126: little-endian). -/
def byteOf (v : Word) (k : Nat) : Byte := BitVec.ofNat 8 (v.toNat / 256 ^ k)

/-- The n bytes of core g's L-store from off on are those of f, and every other byte of it reads as before. -/
def Stored (s s' : State) (g off n : Nat) (f : Nat → Byte) : Prop :=
  ∀ a, Memory.get (s'.core g).lstore a = if off ≤ a ∧ a < off + n then f (a - off) else Memory.get (s.core g).lstore a

/-- No word that n bytes of core g's L-store from off on touch holds an uncorrectable error (spec/19 R299). -/
abbrev Sound (s : State) (g off n : Nat) : Prop := wordMet (s.core g).errors off n = none

/-- The little-endian value of n bytes of core g's L-store. -/
def lstoreValue (s : State) (g off : Nat) : Nat → Nat
  | 0 => 0
  | n + 1 => (Memory.get (s.core g).lstore off).toNat + 256 * lstoreValue s g (off + 1) n

/-- An access with an order field may be made at once: it is relaxed, or every earlier load of the thread has its reply and every earlier store is
performed (R125, R228). -/
abbrev OrderFree (s : State) (u : Issue) (t : Thread) (o : Ord) : Prop := o = .relaxed ∨ loadsDone s u.tid t = true ∧ storesDone s u.tid t = true

end Sys2Proof.Claims

/-- spec/07 R121, R122, R134: the checks of an access, in their order: the alignment (cause 0x05), the host form (0x07), an L-store range that does not
lie below lcap and in one window with the permissions (0x06), another package (0x07) and, in normal mode, another die (0x07); the value is the
effective address. A range of L-store that passes is the access's place, and so is the own die. spec/07 R122, spec/19 R293: a load, store, full/empty
or atomic instruction whose address fails a check takes that check's cause with the address as value, and does nothing else: no register, word or bit
changes before the entry. spec/07 R127: so does a fem whose run leaves its die, cause 0x07.
Beyond the rules' words it takes the model's own readings, log entry 19. -/
def Obligations.AddressChecksInOrderTrap : Prop :=
  (∀ s tid t (ea : Word) n align r w, 0 < align →
     (ea.toNat % align ≠ 0 → checkAccess s tid t ea n align r w = .trap 0x05 ea) ∧
     (ea.toNat % align = 0 → ea.toNat / 2 ^ 61 = 1 → checkAccess s tid t ea n align r w = .trap 0x07 ea) ∧
     (ea.toNat % align = 0 → ea.toNat / 2 ^ 61 ≠ 1 → ea.toNat < 2 ^ 63 → s.cfg.lcap < ea.toNat + n →
       checkAccess s tid t ea n align r w = .trap 0x06 ea) ∧
     (ea.toNat % align = 0 → ea.toNat / 2 ^ 61 ≠ 1 → ea.toNat < 2 ^ 63 → ea.toNat + n ≤ s.cfg.lcap →
       checkAccess s tid t ea n align r w =
         if ∃ x ∈ (s.core t.core).windows, x.size ≠ 0 ∧ x.base ≤ ea.toNat ∧ ea.toNat + n ≤ x.base + x.size ∧ (r = true → x.r = true) ∧
           (w = true → x.w = true) then .lstore ea.toNat else .trap 0x06 ea) ∧
     (ea.toNat % align = 0 → 2 ^ 63 ≤ ea.toNat → ea.toNat / 2 ^ 51 % 2 ^ 12 ≠ s.cfg.package →
       checkAccess s tid t ea n align r w = .trap 0x07 ea) ∧
     (ea.toNat % align = 0 → 2 ^ 63 ≤ ea.toNat → ea.toNat / 2 ^ 51 % 2 ^ 12 = s.cfg.package → ea.toNat / 2 ^ 48 % 8 = t.core / 256 →
       checkAccess s tid t ea n align r w = .global) ∧
     (ea.toNat % align = 0 → 2 ^ 63 ≤ ea.toNat → ea.toNat / 2 ^ 51 % 2 ^ 12 = s.cfg.package → ea.toNat / 2 ^ 48 % 8 ≠ t.core / 256 →
       checkAccess s tid t ea n align r w = if travelling s tid then .shipHome else .trap 0x07 ea)) ∧
  ((∀ d a b x s u t c v, Turn s u t → Issues (.ld d a b x) u t →
     checkAccess s u.tid t (t.g a + (t.g b <<< x.shift.toNat) + x.disp.signExtend 64) (Size.n x.size) (Size.n x.size) true false = .trap c v →
     exec (.ld d a b x) s = .next (closeTurn (trapEntry s u.tid u.ia c v) u)) ∧
   (∀ a b c x s u t k v, Turn s u t → Issues (.st a b c x) u t →
     checkAccess s u.tid t (t.g a + (t.g b <<< x.shift.toNat) + x.disp.signExtend 64) (Size.n x.size) (Size.n x.size) false true = .trap k v →
     exec (.st a b c x) s = .next (closeTurn (trapEntry s u.tid u.ia k v) u)) ∧
   (∀ d a b x s u t c v, Turn s u t → Issues (.ldf d a b x) u t →
     checkAccess s u.tid t (t.g a + (t.g b <<< x.shift.toNat) + x.disp.signExtend 64) 8 8 true false = .trap c v →
     exec (.ldf d a b x) s = .next (closeTurn (trapEntry s u.tid u.ia c v) u)) ∧
   (∀ a b c we x s u t k v, Turn s u t → Issues (.stf a b c we x) u t →
     checkAccess s u.tid t (t.g a + (t.g b <<< x.shift.toNat) + x.disp.signExtend 64) 8 8 false true = .trap k v →
     exec (.stf a b c we x) s = .next (closeTurn (trapEntry s u.tid u.ia k v) u)) ∧
   (∀ d a b x s u t c v, Turn s u t → Issues (.lde d a b x) u t →
     checkAccess s u.tid t (t.g a + (t.g b <<< x.shift.toNat) + x.disp.signExtend 64) 8 8 true true = .trap c v →
     exec (.lde d a b x) s = .next (closeTurn (trapEntry s u.tid u.ia c v) u)) ∧
   (∀ d a b c eight ord shift ao (disp : BitVec 24) s u t k v, Turn s u t → Issues (.atom d a b c eight ord shift ao disp) u t →
     checkAccess s u.tid t (t.g a + (t.g b <<< shift.toNat) + disp.signExtend 64) (if eight then 8 else 4) (if eight then 8 else 4) true true =
       .trap k v →
     exec (.atom d a b c eight ord shift ao disp) s = .next (closeTurn (trapEntry s u.tid u.ia k v) u)) ∧
   (∀ d a count1 ord (disp : BitVec 28) s u t, Turn s u t → Issues (.ldm d a count1 ord disp) u t →
     let ea := t.g a + disp.signExtend 64
     (ea.toNat % 8 ≠ 0 ∨ 128 < ea.toNat % 128 + 8 * (count1.toNat + 1) →
       exec (.ldm d a count1 ord disp) s = .next (closeTurn (trapEntry s u.tid u.ia 0x05 ea) u)) ∧
     (∀ k v, ea.toNat % 8 = 0 → ea.toNat % 128 + 8 * (count1.toNat + 1) ≤ 128 →
       checkAccess s u.tid t ea (8 * (count1.toNat + 1)) 8 true false = .trap k v →
       exec (.ldm d a count1 ord disp) s = .next (closeTurn (trapEntry s u.tid u.ia k v) u))) ∧
   (∀ a c count1 ord (disp : BitVec 28) s u t, Turn s u t → Issues (.stm a c count1 ord disp) u t →
     let ea := t.g a + disp.signExtend 64
     (ea.toNat % 8 ≠ 0 ∨ 128 < ea.toNat % 128 + 8 * (count1.toNat + 1) →
       exec (.stm a c count1 ord disp) s = .next (closeTurn (trapEntry s u.tid u.ia 0x05 ea) u)) ∧
     (∀ k v, ea.toNat % 8 = 0 → ea.toNat % 128 + 8 * (count1.toNat + 1) ≤ 128 →
       checkAccess s u.tid t ea (8 * (count1.toNat + 1)) 8 false true = .trap k v →
       exec (.stm a c count1 ord disp) s = .next (closeTurn (trapEntry s u.tid u.ia k v) u))) ∧
   (∀ a full count1 s u t k v, Turn s u t → Issues (.fem a full count1) u t →
     checkAccess s u.tid t (t.g a) (8 * (count1.toNat + 1)) 8 false true = .trap k v →
     exec (.fem a full count1) s = .next (closeTurn (trapEntry s u.tid u.ia k v) u)) ∧
   (∀ a full count1 s u t, Turn s u t → Issues (.fem a full count1) u t → checkAccess s u.tid t (t.g a) (8 * (count1.toNat + 1)) 8 false true = .global →
     2 ^ 48 < eaOffset (t.g a) + 8 * (count1.toNat + 1) →
     exec (.fem a full count1) s = .next (closeTurn (trapEntry s u.tid u.ia 0x07 (t.g a)) u)))

/-- spec/07 R126, R132: a load from the own L-store reads n bytes, the lowest first, and writes them to d extended with their sign or with zeros; ldm
writes count1 + 1 registers from d on with consecutive words. No byte of memory, bit or other register changes. spec/19 R299: a load that touches a
word with an uncorrectable error kills its thread instead, with an UNCORR record of its EA. spec/07 R126, R132, spec/02 R37: a store to the own
L-store writes the low n bytes of its register there, the lowest first, and stm the registers from c on; no other byte, full/empty bit or register
changes. -/
def Obligations.LocalLoadsAndStoresMoveTheirBytesOnly : Prop :=
  ((∀ d a b x s u t off, Turn s u t → Issues (.ld d a b x) u t → Stays s u t → OrderFree s u t x.ord →
     checkAccess s u.tid t (t.g a + (t.g b <<< x.shift.toNat) + x.disp.signExtend 64) (Size.n x.size) (Size.n x.size) true false = .lstore off →
     Sound s t.core off (Size.n x.size) →
     ∃ s' t', exec (.ld d a b x) s = .next s' ∧ OnlyThread s s' u t' ∧ SameThread t t' ∧ Flows u t t' ∧ t'.preds = t.preds ∧ t'.sp = t.sp ∧
       OnlyReg t t' d (if x.sx then (BitVec.ofNat (8 * Size.n x.size) (lstoreValue s t.core off (Size.n x.size))).signExtend 64
         else BitVec.ofNat 64 (lstoreValue s t.core off (Size.n x.size)))) ∧
   (∀ d a b x s u t off, Turn s u t → Issues (.ld d a b x) u t → OrderFree s u t x.ord →
     let ea := t.g a + (t.g b <<< x.shift.toNat) + x.disp.signExtend 64
     checkAccess s u.tid t ea (Size.n x.size) (Size.n x.size) true false = .lstore off →
     (wordMet (s.core t.core).errors off (Size.n x.size)).isSome = true →
     exec (.ld d a b x) s = .next (closeTurn (uncorrThread s u.tid ea) u)) ∧
   (∀ d a count1 ord (disp : BitVec 28) s u t off, Turn s u t → Issues (.ldm d a count1 ord disp) u t → Stays s u t → OrderFree s u t ord →
     (let ea := t.g a + disp.signExtend 64; ea.toNat % 8 = 0 ∧ ea.toNat % 128 + 8 * (count1.toNat + 1) ≤ 128) →
     checkAccess s u.tid t (t.g a + disp.signExtend 64) (8 * (count1.toNat + 1)) 8 true false = .lstore off →
     Sound s t.core off (8 * (count1.toNat + 1)) →
     ∃ s' t', exec (.ldm d a count1 ord disp) s = .next s' ∧ OnlyThread s s' u t' ∧ SameThread t t' ∧ Flows u t t' ∧ t'.preds = t.preds ∧
       t'.sp = t.sp ∧
       ∀ n, t'.reg n = if d.toNat ≤ n ∧ n ≤ d.toNat + count1.toNat ∧ n ≠ 0 then BitVec.ofNat 64 (lstoreValue s t.core (off + 8 * (n - d.toNat)) 8)
         else t.reg n)) ∧
  ((∀ a b c x s u t off, Turn s u t → Issues (.st a b c x) u t → Stays s u t → OrderFree s u t x.ord →
     checkAccess s u.tid t (t.g a + (t.g b <<< x.shift.toNat) + x.disp.signExtend 64) (Size.n x.size) (Size.n x.size) false true = .lstore off →
     x.size = .b8 ∨ Sound s t.core off (Size.n x.size) →
     ∃ s' t', exec (.st a b c x) s = .next s' ∧ OnlyLstore s s' u t' t.core ∧ SameThread t t' ∧ Flows u t t' ∧ (∀ n, t'.reg n = t.reg n) ∧
       t'.preds = t.preds ∧ t'.sp = t.sp ∧ Stored s s' t.core off (Size.n x.size) (byteOf (t.g c))) ∧
   (∀ a c count1 ord (disp : BitVec 28) s u t off, Turn s u t → Issues (.stm a c count1 ord disp) u t → Stays s u t → OrderFree s u t ord →
     (let ea := t.g a + disp.signExtend 64; ea.toNat % 8 = 0 ∧ ea.toNat % 128 + 8 * (count1.toNat + 1) ≤ 128) →
     checkAccess s u.tid t (t.g a + disp.signExtend 64) (8 * (count1.toNat + 1)) 8 false true = .lstore off →
     ∃ s' t', exec (.stm a c count1 ord disp) s = .next s' ∧ OnlyLstore s s' u t' t.core ∧ SameThread t t' ∧ Flows u t t' ∧
       (∀ n, t'.reg n = t.reg n) ∧ t'.preds = t.preds ∧ t'.sp = t.sp ∧
       Stored s s' t.core off (8 * (count1.toNat + 1)) fun k => byteOf (t.reg (c.toNat + k / 8)) (k % 8)))

/-- spec/07 R130: an atomic on the own L-store writes the old word to d and the new one to memory in one step; the flags of a float add are merged. Beyond
the rules' words it takes the model's own readings, log entry 19. spec/07 R130: what each atomic operation makes of the old word x and its operand y,
of 8 bytes or of 4, cas replacing only an equal word and the float sums rounded once to the nearest.
Beyond the rules' words it takes the model's own readings, log entry 19. -/
def Obligations.LocalAtomicsReadModifyWrite : Prop :=
  (∀ d a b c eight ord shift ao (disp : BitVec 24) s u t off, Turn s u t → Issues (.atom d a b c eight ord shift ao disp) u t → Stays s u t →
     OrderFree s u t ord →
     checkAccess s u.tid t (t.g a + (t.g b <<< shift.toNat) + disp.signExtend 64) (if eight then 8 else 4) (if eight then 8 else 4) true true =
       .lstore off →
     Sound s t.core off (if eight then 8 else 4) →
     let n := if eight then 8 else 4
     let old : Word := BitVec.ofNat 64 (lstoreValue s t.core off n)
     let new := atomValue ao eight old (if eight then t.g c else zext32 (t.g c)) (t.g d)
     ∃ s' t', exec (.atom d a b c eight ord shift ao disp) s = .next s' ∧ OnlyLstore s s' u t' t.core ∧ SameThread t t' ∧ Flows u t t' ∧
       OnlyReg t t' d old ∧ t'.preds = t.preds ∧ t'.sp = { t.sp with fstat := t.sp.fstat ||| new.2.setWidth 15 } ∧
       Stored s s' t.core off n (byteOf new.1)) ∧
  (∀ (x y e : Word),
     atomValue .swap true x y e = (y, 0) ∧ atomValue .add true x y e = (x + y, 0) ∧ atomValue .and true x y e = (x &&& y, 0) ∧
     atomValue .or true x y e = (x ||| y, 0) ∧ atomValue .xor true x y e = (x ^^^ y, 0) ∧
     atomValue .cas true x y e = (if x = e then y else x, 0) ∧
     atomValue .minS true x y e = (if x.toInt ≤ y.toInt then x else y, 0) ∧ atomValue .maxS true x y e = (if y.toInt ≤ x.toInt then x else y, 0) ∧
     atomValue .minN true x y e = (if x.toNat ≤ y.toNat then x else y, 0) ∧ atomValue .maxN true x y e = (if y.toNat ≤ x.toNat then x else y, 0) ∧
     atomValue .add false x y e = (zext32 (x + y), 0) ∧ atomValue .swap false x y e = (zext32 y, 0) ∧
     atomValue .cas false x y e = (if zext32 x = zext32 e then zext32 y else zext32 x, 0) ∧
     atomValue .and false x y e = (zext32 (x &&& y), 0) ∧ atomValue .or false x y e = (zext32 (x ||| y), 0) ∧
     atomValue .xor false x y e = (zext32 (x ^^^ y), 0) ∧
     atomValue .minS false x y e = (if (sext32 x).toInt ≤ (sext32 y).toInt then zext32 x else zext32 y, 0) ∧
     atomValue .maxS false x y e = (if (sext32 y).toInt ≤ (sext32 x).toInt then zext32 x else zext32 y, 0) ∧
     atomValue .minN false x y e = (if (zext32 x).toNat ≤ (zext32 y).toNat then zext32 x else zext32 y, 0) ∧
     atomValue .maxN false x y e = (if (zext32 y).toNat ≤ (zext32 x).toNat then zext32 x else zext32 y, 0) ∧
     (let r := roundF .f64 .rne (addF .rne [decodeF .f64 x.toNat, decodeF .f64 y.toNat])
      atomValue .faddF64 true x y e = (BitVec.ofNat 64 r.1, r.2)) ∧
     (let r := roundF .f32 .rne (addF .rne [decodeF .f32 (zext32 x).toNat, decodeF .f32 (zext32 y).toNat])
      atomValue .faddF32 false x y e = (BitVec.ofNat 64 r.1, r.2)) ∧
     (let v := ratOf (decodeF .f64 x.toNat) + ratOf (decodeF .f64 y.toNat)
      FiniteCode .f64 x.toNat → FiniteCode .f64 y.toNat → InRange .f64 v → RoundsTo .f64 .rne v (atomValue .faddF64 true x y e).1.toNat) ∧
     (let v := ratOf (decodeF .f32 (zext32 x).toNat) + ratOf (decodeF .f32 (zext32 y).toNat)
      FiniteCode .f32 (zext32 x).toNat → FiniteCode .f32 (zext32 y).toNat → InRange .f32 v →
       RoundsTo .f32 .rne v (atomValue .faddF32 false x y e).1.toNat))

/-- spec/07 R127, spec/02 R37: ldf of a full word of the own L-store completes and leaves it full; of an empty word it parks, with the reason "empty word"
and a place at the end of the word's wait list. lde, where the thread's earlier accesses are done, parks on an empty word likewise. stf.we parks on a
full word. fem of words that have the wanted state already changes no bit. spec/07 R128: the wait list of an L-store word is served oldest first, and
again until nothing more can be served: a waiting ldf takes the value and leaves the word full, a waiting lde takes it and leaves the word empty, and
a waiting stf.we fills an empty word with its value. Of a list of any length every ldf of a full word is served, in its order; of several lde, or of
several stf.we, the oldest alone, the others staying in their order; an ldf before a stf.we is served in the pass after it.
Beyond the rules' words it takes the model's own readings, log entry 19. -/
def Obligations.FullEmptyInstructionsWaitAndAreServed : Prop :=
  ((∀ d a b x s u t off, Turn s u t → Issues (.ldf d a b x) u t →
     checkAccess s u.tid t (t.g a + (t.g b <<< x.shift.toNat) + x.disp.signExtend 64) 8 8 true false = .lstore off →
     (setHas (s.core t.core).lempty (off / 8) = false → Sound s t.core off 8 → loadsDone s u.tid t = true → Stays s u t →
       ∃ s' t', exec (.ldf d a b x) s = .next s' ∧ OnlyThread s s' u t' ∧ SameThread t t' ∧ Flows u t t' ∧
         OnlyReg t t' d (BitVec.ofNat 64 (lstoreValue s t.core off 8)) ∧ t'.preds = t.preds ∧ t'.sp = t.sp) ∧
     (setHas (s.core t.core).lempty (off / 8) = true →
       ∃ s' t', exec (.ldf d a b x) s = .next s' ∧ s'.thread? u.tid = some t' ∧ t'.status = .parked (.emptyWord (.done (headLast u.head))) ∧
         s'.core t.core = { s.core t.core with waiters := (s.core t.core).waiters ++ [{ word := off / 8, tid := u.tid, want := .ldf d.toNat }] } ∧
         (∀ n, t'.reg n = t.reg n) ∧ t'.pc = t.pc)) ∧
   (∀ d a b x s u t off, Turn s u t → Issues (.lde d a b x) u t → OrderFree s u t .sc → loadsDone s u.tid t = true → storesDone s u.tid t = true →
     checkAccess s u.tid t (t.g a + (t.g b <<< x.shift.toNat) + x.disp.signExtend 64) 8 8 true true = .lstore off →
     (setHas (s.core t.core).lempty (off / 8) = true →
       ∃ s' t', exec (.lde d a b x) s = .next s' ∧ s'.thread? u.tid = some t' ∧ t'.status = .parked (.emptyWord (.done (headLast u.head))) ∧
         s'.core t.core = { s.core t.core with waiters := (s.core t.core).waiters ++ [{ word := off / 8, tid := u.tid, want := .lde d.toNat }] }) ∧
     (setHas (s.core t.core).lempty (off / 8) = false → Sound s t.core off 8 → (s.core t.core).waiters = [] → Stays s u t →
       ∃ s' t', exec (.lde d a b x) s = .next s' ∧ s'.thread? u.tid = some t' ∧ Flows u t t' ∧
         OnlyReg t t' d (BitVec.ofNat 64 (lstoreValue s t.core off 8)) ∧
         s'.core t.core = { s.core t.core with lempty := setAdd (s.core t.core).lempty (off / 8) })) ∧
   (∀ a b c we x s u t off, Turn s u t → Issues (.stf a b c we x) u t → loadsDone s u.tid t = true → storesDone s u.tid t = true →
     checkAccess s u.tid t (t.g a + (t.g b <<< x.shift.toNat) + x.disp.signExtend 64) 8 8 false true = .lstore off →
     (we = true → setHas (s.core t.core).lempty (off / 8) = false →
       ∃ s' t', exec (.stf a b c we x) s = .next s' ∧ s'.thread? u.tid = some t' ∧ t'.status = .parked (.fullWord (.done (headLast u.head))) ∧
         s'.core t.core = { s.core t.core with waiters := (s.core t.core).waiters ++ [{ word := off / 8, tid := u.tid, want := .stfwe (t.g c) }] }) ∧
     (off % 8 = 0 → we = false ∨ setHas (s.core t.core).lempty (off / 8) = true → (s.core t.core).waiters = [] → Stays s u t →
       ∃ s' t', exec (.stf a b c we x) s = .next s' ∧ s'.thread? u.tid = some t' ∧ Flows u t t' ∧ (∀ n, t'.reg n = t.reg n) ∧
         Stored s s' t.core off 8 (byteOf (t.g c)) ∧ setHas (s'.core t.core).lempty (off / 8) = false ∧
         (∀ w, w ≠ off / 8 → setHas (s'.core t.core).lempty w = setHas (s.core t.core).lempty w))) ∧
   (∀ a full count1 s u t off, Turn s u t → Issues (.fem a full count1) u t → loadsDone s u.tid t = true → storesDone s u.tid t = true →
     checkAccess s u.tid t (t.g a) (8 * (count1.toNat + 1)) 8 false true = .lstore off → (s.core t.core).waiters = [] → Stays s u t →
     ∃ s' t', exec (.fem a full count1) s = .next s' ∧ s'.thread? u.tid = some t' ∧ Flows u t t' ∧ (∀ n, t'.reg n = t.reg n) ∧
       (s'.core t.core).lstore = (s.core t.core).lstore ∧
       ∀ w, setHas (s'.core t.core).lempty w = if off / 8 ≤ w ∧ w ≤ off / 8 + count1.toNat then !full else setHas (s.core t.core).lempty w)) ∧
  (∀ (c : Core) (w : Nat) (q : Waiter), q.word = w →
     (∀ d, q.want = .ldf d → setHas c.lempty w = false → lserveAll 2 c w [q] = (c, [], [(q, c.lstore.word (8 * w))])) ∧
     (∀ d, q.want = .lde d → setHas c.lempty w = false →
       lserveAll 2 c w [q] = ({ c with lempty := setAdd c.lempty w }, [], [(q, c.lstore.word (8 * w))])) ∧
     (∀ v, q.want = .stfwe v → setHas c.lempty w = true →
       lserveAll 2 c w [q] = ({ c with lempty := setDel c.lempty w, lstore := c.lstore.write (8 * w) (wordLE v 8), errors := wordsLeft c.errors (8 * w) 8 }, [], [(q, 0)])) ∧
     (∀ d, q.want = .ldf d ∨ q.want = .lde d → setHas c.lempty w = true → lserveAll 2 c w [q] = (c, [q], [])) ∧
     (∀ qs : List Waiter, (∀ x, x ∈ q :: qs → x.word = w ∧ ∃ d, x.want = .ldf d) → setHas c.lempty w = false →
       lserveAll 2 c w (q :: qs) = (c, [], (q :: qs).map fun x => (x, c.lstore.word (8 * w)))) ∧
     (∀ qs : List Waiter, (∀ x, x ∈ q :: qs → x.word = w ∧ ∃ d, x.want = .lde d) → setHas c.lempty w = false →
       lserveAll 2 c w (q :: qs) = ({ c with lempty := setAdd c.lempty w }, qs, [(q, c.lstore.word (8 * w))])) ∧
     (∀ (qs : List Waiter) v, (∀ x, x ∈ qs → x.word = w ∧ ∃ y, x.want = .stfwe y) → q.want = .stfwe v → setHas c.lempty w = true →
       lserveAll 2 c w (q :: qs) = ({ c with lempty := setDel c.lempty w, lstore := c.lstore.write (8 * w) (wordLE v 8), errors := wordsLeft c.errors (8 * w) 8 }, qs, [(q, 0)])) ∧
     (∀ (r : Waiter) d e, r.word = w → q.want = .ldf d → r.want = .lde e → setHas c.lempty w = false →
       lserveAll 2 c w [q, r] = ({ c with lempty := setAdd c.lempty w }, [], [(q, c.lstore.word (8 * w)), (r, c.lstore.word (8 * w))])) ∧
     (∀ (r : Waiter) d e, r.word = w → q.want = .lde d → r.want = .ldf e → setHas c.lempty w = false →
       lserveAll 2 c w [q, r] = ({ c with lempty := setAdd c.lempty w }, [r], [(q, c.lstore.word (8 * w))])) ∧
     (∀ (r : Waiter) d v, r.word = w → q.want = .ldf d → r.want = .stfwe v → setHas c.lempty w = true →
       lserveAll 3 c w [q, r] = ({ c with lempty := setDel c.lempty w, lstore := c.lstore.write (8 * w) (wordLE v 8), errors := wordsLeft c.errors (8 * w) 8 }, [], [(r, 0), (q, v)])) ∧
     (∀ qs : List Waiter, (∀ x, x ∈ qs → x.word ≠ w) → lserveAll 1 c w qs = (c, qs, [])))

/-- spec/07 R131: tld loads the 1,024 bytes of a tile from 16 rows of 64 bytes in the own L-store, a stride apart; its status and kind stay. tst stores
them there, and no other byte changes. A tile that a queued or running mma accumulates into parks the thread instead. -/
def Obligations.TileMovesCopySixteenRows : Prop :=
  (∀ x a b (disp : BitVec 28) s u t, Turn s u t → Issues (.tld x a b disp) u t → Stays s u t →
    let ea := t.g a + disp.signExtend 64
    let stride := if b = 0 then 64 else t.g b
    tileMoveTrap s t ea stride false = none →
    (tileBusy (s.core t.core) (physTile t x) = true → exec (.tld x a b disp) s = .next (closeTurn (parkThread s u.tid (.matrix .again)) u)) ∧
    (tileBusy (s.core t.core) (physTile t x) = false → (∀ i, i < 16 → Sound s t.core (ea + BitVec.ofNat 64 i * stride).toNat 64) →
    ∃ s' t', exec (.tld x a b disp) s = .next s' ∧ s'.thread? u.tid = some t' ∧ SameThread t t' ∧ Flows u t t' ∧ (∀ n, t'.reg n = t.reg n) ∧
      (∀ i k, i < 16 → k < 64 → Memory.get ((s'.core t.core).tile (physTile t x)).bytes (64 * i + k) =
        Memory.get (s.core t.core).lstore ((ea + BitVec.ofNat 64 i * stride).toNat + k)) ∧
      ((s'.core t.core).tile (physTile t x)).st = ((s.core t.core).tile (physTile t x)).st ∧
      (∀ p, p ≠ physTile t x → (s'.core t.core).tile p = (s.core t.core).tile p) ∧ (s'.core t.core).lstore = (s.core t.core).lstore ∧
      (∀ g, g ≠ t.core → s'.core g = s.core g) ∧ s'.dies = s.dies)) ∧
  (∀ x a b (disp : BitVec 28) s u t, Turn s u t → Issues (.tst x a b disp) u t → Stays s u t →
    let ea := t.g a + disp.signExtend 64
    let stride := if b = 0 then 64 else t.g b
    let row := fun i => (ea + BitVec.ofNat 64 i * stride).toNat
    tileMoveTrap s t ea stride true = none →
    (tileBusy (s.core t.core) (physTile t x) = true → exec (.tst x a b disp) s = .next (closeTurn (parkThread s u.tid (.matrix .again)) u)) ∧
    (tileBusy (s.core t.core) (physTile t x) = false → tileMet (s.core t.core) (physTile t x) = false →
    ∃ s' t', exec (.tst x a b disp) s = .next s' ∧ OnlyLstore s s' u t' t.core ∧ SameThread t t' ∧ Flows u t t' ∧ (∀ n, t'.reg n = t.reg n) ∧
      (∀ y, (∀ i, i < 16 → ¬ (row i ≤ y ∧ y < row i + 64)) →
        Memory.get (s'.core t.core).lstore y = Memory.get (s.core t.core).lstore y) ∧
      (∀ i k, i < 16 → k < 64 → (∀ j, i < j → j < 16 → ¬ (row j ≤ row i + k ∧ row i + k < row j + 64)) →
        Memory.get (s'.core t.core).lstore (row i + k) = Memory.get ((s.core t.core).tile (physTile t x)).bytes (64 * i + k))))

/-- spec/07 R123, R126, R127, R130, R132: an access of the own die leaves the core as one request at the end of its port, and changes no memory itself: a
load, ldm, atom or lde makes its destinations pending and parks its thread until the reply; a relaxed store is posted and its thread goes on.
The request names core, thread, address, kind and order; a store that finds 32 in the store queue is tried again at the next turn. -/
def Obligations.GlobalAccessesGoThroughThePort : Prop :=
  (∀ d a b x s u t, Turn s u t → Issues (.ld d a b x) u t → OrderFree s u t x.ord → d ≠ 0 →
    let ea := t.g a + (t.g b <<< x.shift.toNat) + x.disp.signExtend 64
    checkAccess s u.tid t ea (Size.n x.size) (Size.n x.size) true false = .global →
    exec (.ld d a b x) s = .next (closeTurn (parkThread (portAdd (s.setThread u.tid (t.setPending d.toNat))
      { id := s.net.nextReq, core := t.core, tid := u.tid, ea := ea, kind := .ld d.toNat x.size x.sx, na := x.na, rep := none,
        last := headLast u.head, ordered := x.ord == .sc, acq := x.ord != .relaxed }) u.tid (.reply (.done (headLast u.head)))) u)) ∧
  (∀ d a count1 ord (disp : BitVec 28) s u t, Turn s u t → Issues (.ldm d a count1 ord disp) u t → OrderFree s u t ord → d ≠ 0 →
    let ea := t.g a + disp.signExtend 64
    ea.toNat % 8 = 0 ∧ ea.toNat % 128 + 8 * (count1.toNat + 1) ≤ 128 → checkAccess s u.tid t ea (8 * (count1.toNat + 1)) 8 true false = .global →
    exec (.ldm d a count1 ord disp) s = .next (closeTurn (parkThread (portAdd
      (s.setThread u.tid (((List.range (count1.toNat + 1)).map fun i => d.toNat + i).foldl Thread.setPending t))
      { id := s.net.nextReq, core := t.core, tid := u.tid, ea := ea, kind := .ldm d.toNat (count1.toNat + 1), na := false, rep := none,
        last := headLast u.head, ordered := ord == .sc, acq := ord != .relaxed }) u.tid (.reply (.done (headLast u.head)))) u)) ∧
  (∀ d a b c eight ord shift ao (disp : BitVec 24) s u t, Turn s u t → Issues (.atom d a b c eight ord shift ao disp) u t → OrderFree s u t ord →
    d ≠ 0 →
    let ea := t.g a + (t.g b <<< shift.toNat) + disp.signExtend 64
    let n := if eight then 8 else 4
    checkAccess s u.tid t ea n n true true = .global →
    exec (.atom d a b c eight ord shift ao disp) s = .next (closeTurn (parkThread (portAdd (s.setThread u.tid (t.setPending d.toNat))
      { id := s.net.nextReq, core := t.core, tid := u.tid, ea := ea,
        kind := .atom ao eight ((t.g c).zext (8 * n)) (t.g d) d.toNat, na := false, rep := none,
        last := headLast u.head, ordered := ord == .sc, acq := ord != .relaxed }) u.tid (.reply (.done (headLast u.head)))) u)) ∧
  (∀ d a b x s u t, Turn s u t → Issues (.lde d a b x) u t → OrderFree s u t .sc → loadsDone s u.tid t = true → storesDone s u.tid t = true → d ≠ 0 →
    let ea := t.g a + (t.g b <<< x.shift.toNat) + x.disp.signExtend 64
    checkAccess s u.tid t ea 8 8 true true = .global →
    exec (.lde d a b x) s = .next (closeTurn (parkThread (portAdd (s.setThread u.tid (t.setPending d.toNat))
      { id := s.net.nextReq, core := t.core, tid := u.tid, ea := ea, kind := .lde d.toNat, na := x.na, rep := none,
        last := headLast u.head, ordered := false, acq := true }) u.tid (.reply (.done (headLast u.head)))) u)) ∧
  (∀ a b c x s u t, Turn s u t → Issues (.st a b c x) u t → x.ord = .relaxed → storeQueue (s.core t.core) < 32 →
    let ea := t.g a + (t.g b <<< x.shift.toNat) + x.disp.signExtend 64
    checkAccess s u.tid t ea (Size.n x.size) (Size.n x.size) false true = .global →
    exec (.st a b c x) s = .next (closeTurn (completeSeq (portAdd s
      { id := s.net.nextReq, core := t.core, tid := u.tid, ea := ea, kind := .st (wordLE (t.g c) (Size.n x.size)) false, na := x.na, rep := none,
        last := headLast u.head, ordered := false, acq := false }) u.tid u.ia (headLast u.head)) u)) ∧
  (∀ a b c x s u t, Turn s u t → Issues (.st a b c x) u t → OrderFree s u t x.ord → 32 ≤ storeQueue (s.core t.core) →
    checkAccess s u.tid t (t.g a + (t.g b <<< x.shift.toNat) + x.disp.signExtend 64) (Size.n x.size) (Size.n x.size) false true = .global →
    exec (.st a b c x) s = .next (closeTurn s u))

/-- spec/07 R133: line.zero sets the 128 bytes of a writable L-store line to 0 and its words full; the other line operations leave L-store alone. On the
own die they leave as one request: pref without waiting, zero posted, flush and drop with the thread parked; line.iinv drops the line from every
I-store of the die and parks the thread until it is told so. spec/07 R134, R135: mprot writes one protection window of the core where its bounds are
multiples of 64 within lcap, and nothing else but the flow; xlat.probe writes the translation's word, or 0 off the issuing die or without a
translation; xlat.inv and xlat.invall remove translations from the die's TLBs and park the thread with d pending.
Beyond the rules' words it takes the model's own readings, log entries 13 and 20. -/
def Obligations.LineProtectionAndTranslationInstructionsComplete : Prop :=
  ((∀ a s u t, Turn s u t → Issues (.linePref a) u t → Stays s u t → (t.g a).toNat < 2 ^ 61 →
     ∃ s' t', exec (.linePref a) s = .next s' ∧ OnlyThread s s' u t' ∧ SameThread t t' ∧ Flows u t t' ∧ ∀ n, t'.reg n = t.reg n) ∧
   (∀ a s u t, Turn s u t → Issues (.linePref a) u t → linePlace s t (t.g a) = .own →
     exec (.linePref a) s = .next (closeTurn (completeSeq (portAdd s
       { id := s.net.nextReq, core := t.core, tid := u.tid, ea := t.g a &&& ~~~(127 : Word), kind := .pref, na := false, rep := none,
         last := headLast u.head, ordered := false, acq := false }) u.tid u.ia (headLast u.head)) u)) ∧
   (∀ a s u t, Turn s u t → Issues (.lineZero a) u t → linePlace s t (t.g a) = .lstore →
     lstoreOk s t.core (t.g a &&& ~~~(127 : Word)).toNat 128 false true = true →
     exec (.lineZero a) s = .next (closeTurn (completeSeq
       (lwriteFull s t.core (t.g a &&& ~~~(127 : Word)).toNat (List.replicate 128 0)) u.tid u.ia (headLast u.head)) u)) ∧
   (∀ a s u t, Turn s u t → Issues (.lineZero a) u t → linePlace s t (t.g a) = .own → storeQueue (s.core t.core) < 32 →
     exec (.lineZero a) s = .next (closeTurn (completeSeq (portAdd s
       { id := s.net.nextReq, core := t.core, tid := u.tid, ea := t.g a &&& ~~~(127 : Word), kind := .zero, na := false, rep := none,
         last := headLast u.head, ordered := false, acq := false }) u.tid u.ia (headLast u.head)) u)) ∧
   (∀ a s u t, Turn s u t → Issues (.lineFlush a) u t → linePlace s t (t.g a) = .own →
     exec (.lineFlush a) s = .next (closeTurn (parkThread (portAdd (s.setThread u.tid t)
       { id := s.net.nextReq, core := t.core, tid := u.tid, ea := t.g a &&& ~~~(127 : Word), kind := .flush, na := false, rep := none,
         last := headLast u.head, ordered := false, acq := false }) u.tid (.reply (.done (headLast u.head)))) u)) ∧
   (∀ a s u t, Turn s u t → Issues (.lineDrop a) u t → linePlace s t (t.g a) = .own →
     exec (.lineDrop a) s = .next (closeTurn (parkThread (portAdd (s.setThread u.tid t)
       { id := s.net.nextReq, core := t.core, tid := u.tid, ea := t.g a &&& ~~~(127 : Word), kind := .drop, na := false, rep := none,
         last := headLast u.head, ordered := false, acq := false }) u.tid (.reply (.done (headLast u.head)))) u)) ∧
   (∀ a s u t, Turn s u t → Issues (.lineIinv a) u t → linePlace s t (t.g a) = .own →
     exec (.lineIinv a) s = .next (closeTurn (parkThread
       (sendNote (dropCode s (t.core / 256) (eaOffset (t.g a &&& ~~~(127 : Word))) 128) (t.core / 256 * 256 + homeSlice (lineOf (eaOffset (t.g a)))) t.core
         (.inval u.tid 0 (headLast u.head) [])) u.tid (.reply (.done (headLast u.head)))) u)) ∧
   (∀ i a s u t, i = Instr.lineZero a ∨ i = .lineFlush a ∨ i = .lineDrop a ∨ i = .lineIinv a → Turn s u t → Issues i u t →
     linePlace s t (t.g a) = .other → exec i s = .next (closeTurn (trapEntry s u.tid u.ia 0x07 (t.g a)) u))) ∧
  ((∀ win a b r w s u t, Turn s u t → Issues (.mprot win a b r w) u t → Stays s u t → (t.g a).toNat % 64 = 0 → (t.g b).toNat % 64 = 0 →
     (t.g a).toNat + (t.g b).toNat ≤ s.cfg.lcap →
     ∃ s' t', exec (.mprot win a b r w) s = .next s' ∧ s'.thread? u.tid = some t' ∧ SameThread t t' ∧ Flows u t t' ∧ (∀ n, t'.reg n = t.reg n) ∧
       (∀ k, k < 8 → (s'.core t.core).windows[k]? =
         if k = win.toNat then some { base := (t.g a).toNat, size := (t.g b).toNat, r := r, w := w }
         else some ((s.core t.core).windows.getD k { base := 0, size := 0, r := false, w := false })) ∧
       s'.core t.core = { s.core t.core with windows := (s'.core t.core).windows } ∧ (∀ g, g ≠ t.core → s'.core g = s.core g) ∧
       s'.dies = s.dies) ∧
   (∀ d a s u t, Turn s u t → Issues (.xlatProbe d a) u t → Stays s u t →
     ∃ s' t', exec (.xlatProbe d a) s = .next s' ∧ OnlyThread s s' u t' ∧ SameThread t t' ∧ Flows u t t' ∧
       OnlyReg t t' d (if onOwnDie s t (t.g a) then
           (match (translate s (t.core / 256) (eaOffset (t.g a))).2 with | some x => probeWord x | none => 0)
         else 0)) ∧
   (∀ d a s u t, Turn s u t → Issues (.xlatInvall d a) u t →
     ∃ s' t', exec (.xlatInvall d a) s = .next s' ∧ s'.thread? u.tid = some t' ∧ t'.status = .parked (.reply (.done (headLast u.head))) ∧
       t'.pending = (t.setPending d.toNat).pending ∧ (∀ e, e ∈ (s'.die (t.core / 256)).slices → e.2.tlb = []) ∧ s'.cores = s.cores) ∧
   (∀ d a s u t, Turn s u t → Issues (.xlatInv d a) u t → onOwnDie s t (t.g a) = true →
     ∃ s' t', exec (.xlatInv d a) s = .next s' ∧ s'.thread? u.tid = some t' ∧ t'.status = .parked (.reply (.done (headLast u.head))) ∧
       t'.pending = (t.setPending d.toNat).pending ∧
       (∀ e x, e ∈ (s'.die (t.core / 256)).slices → x ∈ e.2.tlb →
         ¬ (x.vbase ≤ eaOffset (t.g a) ∧ eaOffset (t.g a) < x.vbase + if x.big then 2 ^ 21 else 2 ^ 16)) ∧ s'.cores = s.cores))

/-! ### Strokes (spec/10 R193 to R195, spec/02 R34) -/

/-- spec/10 R193, R194, spec/02 R34: strk in a thread without a stroke captures the next len1 + 1 instructions, where all may be body instructions and no
shifted field leaves the window, and executes none of them: the stroke stands at repetition (0, 0), flow goes on after the body, and no register,
predicate or special register changes. With an earlier stroke of the thread running, it is tried again. spec/10 R195, spec/02 R34, spec/11 R197, R202:
the sequencer performs repetition (j, i), i innermost: a repetition whose guard held at capture is left as the instruction to execute, its registers
shifted by i times the stride from the floor on, its thread with the predicates and the control fields of fstat it had at the strk; a suppressed one
is passed over. A load that was answered with a fault goes first, sent again as it was sent before. A completed additive repetition writes its result,
moves (j, i) on, gives the thread its own predicates and fstat back and leaves the pc alone.
Beyond the rules' words it takes the model's own readings, log entries 14 and 23. -/
def Obligations.StrokesAreCapturedAndRepeatInOrder : Prop :=
  ((∀ n1 len1 stride floor s u t b next, Turn s u t → Issues (.strk n1 len1 stride floor) u t → t.stroke = none →
     capture s u.tid t (len1.toNat + 1) (nextOf u) [] = .body b next →
     windowTest t n1.toNat stride.toNat floor.toNat (b.map (·.2)) = none → flowTo s u.tid t.core (seqFlow t u.ia next).pc = .here →
     ∃ s' t', exec (.strk n1 len1 stride floor) s = .next s' ∧ OnlyThread s.takeReq s' u t' ∧
       t'.stroke = some { id := s.net.nextReq, n1 := n1, len1 := len1, stride := stride, floor := floor, body := b.map (·.1), preds := t.preds,
                          fstat := t.sp.fstat, j := 0, i := 0, loads := [], resend := [], stores := [], barrierReq := none, acquire := false,
                          trap := none, stopped := false } ∧
       t'.pc = (seqFlow t u.ia next).pc ∧ (∀ n, t'.reg n = t.reg n) ∧ t'.preds = t.preds ∧ t'.sp = t.sp ∧ t'.pending = t.pending ∧
       t'.status = t.status) ∧
   (∀ n1 len1 stride floor s u t, Turn s u t → Issues (.strk n1 len1 stride floor) u t → t.stroke ≠ none →
     exec (.strk n1 len1 stride floor) s = .next (closeTurn s u))) ∧
  ((∀ tid s t k x b, s.thread? tid = some t → t.stroke = some k → sequencerOn s tid t k = true → k.resend = [] → k.trap = none →
     k.j ≤ k.len1.toNat → strokeInstr k k.j k.i = some x → k.body[k.j]? = some b →
     exec (.strokeRepetition tid) s = .next { s.setThread tid t.strokeView with
       issue := some { core := t.core, tid := tid, ia := t.pc, head := b.head, tail := b.tail, instr := x, rep := some (k.j, k.i) } }) ∧
   (∀ (t : Thread) k, t.stroke = some k → t.strokeView.preds = k.preds ∧ t.strokeView.strokeView = t ∧ t.strokeView.regs = t.regs ∧
     (∀ n, n < 15 → t.strokeView.sp.fstat.getLsbD n = if n < 6 then t.sp.fstat.getLsbD n else k.fstat.getLsbD n)) ∧
   (∀ tid s t k, s.thread? tid = some t → t.stroke = some k → sequencerOn s tid t k = true → k.resend = [] → k.trap = none →
     k.j ≤ k.len1.toNat → strokeInstr k k.j k.i = none →
     exec (.strokeRepetition tid) s = .next (s.setThread tid { t with stroke := some k.next })) ∧
   (∀ tid s t k r rest, s.thread? tid = some t → t.stroke = some k → sequencerOn s tid t k = true → k.resend = r :: rest →
     k.barrierReq = none → k.acquire = false → (∀ l ∈ k.loads, lineOf (eaOffset l.req.ea) ≠ lineOf (eaOffset r.ea)) →
     ∃ s' t' k', exec (.strokeRepetition tid) s = .next s' ∧ s'.thread? tid = some t' ∧ t'.stroke = some k' ∧ k'.resend = rest ∧
       k'.loads = k.loads ++ [{ req := { r with id := s.net.nextReq, core := t.core }, faulted := false }] ∧ k'.j = k.j ∧ k'.i = k.i ∧
       (∀ n, t'.reg n = t.reg n) ∧ t'.pc = t.pc) ∧
   (∀ d a b w s u t k ji, s.issue = some u → u.rep = some ji → s.thread? u.tid = some t.strokeView → t.stroke = some k →
     decodeCheck (.add d a b w) t.strokeView u.head = none → (∀ r ∈ [a, b, d], setHas t.pending r.toNat = false) →
     ∃ s' t', exec (.add d a b w) s = .next s' ∧ s'.thread? u.tid = some t' ∧ s'.issue = none ∧ OnlyReg t t' d (byWidth w (t.g a + t.g b)) ∧
       t'.stroke = some k.next ∧ t'.pc = t.pc ∧ t'.preds = t.preds ∧ t'.sp = t.sp ∧ s'.cores = s.cores) ∧
   (∀ (k : Stroke),
     k.next = if k.i < k.n1.toNat then { k with i := k.i + 1 } else { k with j := k.j + 1, i := 0 }) ∧
   (∀ (floor stride : BitVec 7) (i : Nat) (r : Reg), shiftField floor stride i r =
     if r = 0 ∨ r.toNat < floor.toNat then r else BitVec.ofNat 7 (r.toNat + i * stride.toNat)))

/-- spec/19 R292, spec/06 R110: a trap raised by a repetition is kept by its stroke, bit 63 of a flag trap's value set, and taken at the thread's next issue boundary, with the IA
it would have issued next as return address; the stroke stays, stopped at its (j, i).
Beyond the rules' words it takes the model's own readings, log entry 71. -/
def Obligations.StrokeTrapsEnterAtTheBoundary : Prop :=
  (∀ tid s t k cause v u, u.tid = tid → s.thread? tid = some t → t.stroke = some k → k.trap = some (cause, v) → k.stopped = false → k.reissues = [] →
    t.isSeated = true → t.io.dying = false → Vectored s u t cause →
    ∃ s' t', exec (.strokeTrap tid) s = .next s' ∧ s'.thread? tid = some t' ∧
      Entered { t with stroke := some { k with stopped := true } } t' t.pc cause v ∧ s'.cores = s.cores) ∧
  (∀ (k : Stroke) v, (k.stop 0x0B v).trap = some (0x0B, v ||| (1 : Word) <<< 63) ∧ (k.stop 0x0B v).j = k.j ∧ (k.stop 0x0B v).i = k.i) ∧
  (∀ (k : Stroke) cause v, cause ≠ 0x0B → (k.stop cause v).trap = some (cause, v))

/-! ### Issue, seats and threads (spec/04 R59 to R62, spec/08 R137 to R145, spec/12 R203 to R209, R215, R216, spec/16 R259) -/

namespace Sys2Proof.Claims

/-- Thread tid, as t, has joined its class's seat queue on its core: at the tail, but for threads that joined it in the same core cycle from higher
contexts (R208); the others stand in their order. -/
def Joined (s s' : State) (tid : Tid) (t : Thread) : Prop :=
  ∃ a b, (s.core t.core).iss.queue t.prio = a ++ b ∧ (s'.core t.core).iss.queue t.prio = a ++ tid :: b ∧
    ∀ x, b.head? = some x → ∃ y, s.thread? x = some y ∧ y.io.readyAt = s.coreClock t.core ∧ t.ctx.getD 0 < y.ctx.getD 0

/-- A parked thread's instruction is complete: the thread is Ready-unseated in its class's seat queue, its pc has gone on sequentially, and its
registers, predicates and special registers are as before (R136, R208). -/
def ReadyAgain (s s' : State) (tid : Tid) (t : Thread) (last : Bool) : Prop :=
  ∃ t', s'.thread? tid = some t' ∧ t'.status = .ready ∧ t'.pc = (seqThread t t.pc last).pc ∧ (∀ n, t'.reg n = t.reg n) ∧ t'.preds = t.preds ∧
    t'.sp = t.sp ∧ Joined s s' tid t

/-- A parked thread's flow stays on its core, and nothing turns its readiness into something else: no posted store of it has faulted, and it is not being
killed. -/
abbrev MayGoOn (s : State) (tid : Tid) (t : Thread) (last : Bool) : Prop :=
  s.thread? tid = some t ∧ t.io.dying = false ∧ t.io.storeFault = false ∧ flowTo s tid t.core (seqThread t t.pc last).pc = .here

end Sys2Proof.Claims

/-- spec/12 R204, spec/04 R59 to R62: in a cycle in which a seat's thread is selected, its head is fetched, decoded and checked; where the guard holds the
instruction is left to execute, with the seat, the cycle and the quantum counted; where it does not, the instruction completes with its flow alone and
nothing else of the thread changes. spec/04 R60: a head executes exactly where its truth table, indexed by 4 P[a] + 2 P[b] + P[c] of the guard
selector, holds; 0xFF always does, 0x00 never. A captured instruction keeps the guard's value at capture for every repetition. -/
def Obligations.IssueSelectRunsTheGuardedInstruction : Prop :=
  (∀ g s seat tid t head tail i, s.issue = none → (s.die (g / 256)).power < 3 → (s.core g).iss.lastTurn ≠ some (s.coreClock g) →
     selectSeat s g (s.coreClock g) 16 1 = some (seat, tid, t) → s.thread? tid = some t → flowTo s tid g t.pc = .here →
     t.io.skipFail = none → (travelling s tid = true ∨ elsewhere s g t.pc = false) →
     fetchHead (s.core g) t.pc = .head (.found head tail) → (privilegedOp (headOp head) = false ∨ t.privileged = true) →
     decodeInstr (headOp head) tail = some i → decodeCheck i t head = none →
     (guardTrue t head = true →
       ∃ s', exec (.issueSelect g) s = .next s' ∧
         s'.issue = some { core := g, tid := tid, ia := t.pc, head := head, tail := tail, instr := i, rep := none } ∧
         (s'.core g).iss.sLast = seat ∧ (s'.core g).iss.lastTurn = some (s.coreClock g) ∧
         s'.thread? tid = some { t with io := { t.io with lastIssue := some (s.coreClock g), quantum := t.io.quantum + 1 } } ∧
         (∀ x, x ≠ tid → s'.thread? x = s.thread? x)) ∧
     (guardTrue t head = false → t.core = g → flowTo s tid g (seqThread t t.pc (headLast head)).pc = .here →
       ∃ s' t', exec (.issueSelect g) s = .next s' ∧ s'.issue = none ∧ s'.thread? tid = some t' ∧ t'.pc = (seqThread t t.pc (headLast head)).pc ∧
         (∀ n, t'.reg n = t.reg n) ∧ t'.preds = t.preds ∧ t'.sp = t.sp ∧ t'.pending = t.pending ∧ t'.stroke = t.stroke ∧
         (∀ x, x ≠ tid → s'.thread? x = s.thread? x))) ∧
  (∀ (t : Thread) (head : BitVec 16),
     guardTrue t head = (head.setWidth 8).getLsbD
       (4 * (if t.preds.getLsbD (t.sp.gsel.toNat / 64 % 8) then 1 else 0) + 2 * (if t.preds.getLsbD (t.sp.gsel.toNat / 8 % 8) then 1 else 0)
         + (if t.preds.getLsbD (t.sp.gsel.toNat % 8) then 1 else 0)) ∧
     (head.setWidth 8 = 0xFF#8 → guardTrue t head = true) ∧ (head.setWidth 8 = 0x00#8 → guardTrue t head = false) ∧
     (∀ s tid n ia b next, capture s tid t n ia [] = .body b next → ∀ x ∈ b, x.1.guard = guardTrue t x.1.head) ∧
     (∀ (k : Stroke) (y : BodyInstr) j i, k.body[j]? = some y → y.guard = false → strokeInstr k j i = none))

/-- spec/05 R83, R84: exit leaves the seat, parks for retiring and withdraws the thread's posted receives, whose tokens are no longer pending; step parks
the thread with its id. spec/12 R208, R209, spec/08 R140: the head of the highest class takes the lowest free seat with a new quantum; a thread whose
quantum is due leaves its seat for the tail of its class; yield gives the seat up where a thread of a class at least as high waits, and else only
moves on. spec/08 R141, R142: park parks until the core cycle its register adds, or without a limit for g0, and goes straight on for a register that
holds 0; the timeout and a wake message both make the thread Ready after its park, its predicates and registers as before. wake sends its message
behind the issuer's stores; a message that finds no parked thread is lost. spec/08 R143, spec/05 R83: kill of the own tid parks the thread for
retiring; of another it sends its message. A kill that may act marks a thread with a context as dying, parked for retiring and without a stroke; a
thread without one is gone at once. Retiring, once nothing it waits for is left, removes the thread; a kill from another launch in user mode does
nothing.
Beyond the rules' words it takes the model's own readings, log entries 51 and 62. -/
def Obligations.SeatsParkWakeKillExitAndStep : Prop :=
  ((∀ s u t, Turn s u t → Issues .exit u t →
     ∃ s' t', exec .exit s = .next s' ∧ s'.issue = none ∧ s'.thread? u.tid = some t' ∧ t'.status = .parked .exit ∧
       (s'.core t.core).msg.posted = (s.core t.core).msg.posted.filter (fun p => p.tid != u.tid) ∧
       (∀ p, p ∈ (s.core t.core).msg.posted → p.tid = u.tid → setHas t'.pending p.reg = false) ∧
       (∀ n, t'.reg n = t.reg n) ∧ t'.preds = t.preds ∧ t'.sp = t.sp ∧ t'.pc = t.pc) ∧
   (∀ (id : BitVec 16) s u t, Turn s u t → Issues (.step id) u t →
     ∃ s' t', exec (.step id) s = .next s' ∧ OnlyThread s s' u t' ∧ t'.status = .parked (.step id (headLast u.head)) ∧
       (∀ n, t'.reg n = t.reg n) ∧ t'.preds = t.preds ∧ t'.sp = t.sp ∧ t'.pc = t.pc ∧ t'.pending = t.pending)) ∧
  ((∀ g s k tid t, (s.die (g / 256)).power < 3 → freeSeat s g = some k → queueHead s g = some tid → s.thread? tid = some t →
     ∃ s', exec (.seatAssign g) s = .next s' ∧
       s'.thread? tid = some { t with status := .seated k (s.coreClock g), io := { t.io with quantum := 0, quantumDue := false } } ∧
       (s'.core g).iss.queue0 = (s.core g).iss.queue0.erase tid ∧ (s'.core g).iss.queue1 = (s.core g).iss.queue1.erase tid ∧
       (s'.core g).iss.queue2 = (s.core g).iss.queue2.erase tid ∧ (s'.core g).iss.queue3 = (s.core g).iss.queue3.erase tid ∧
       (∀ x, x ≠ tid → s'.thread? x = s.thread? x)) ∧
   (∀ tid s t k since, s.thread? tid = some t → t.status = .seated k since → t.io.quantumDue = true → t.handler = false → t.io.storeFault = false →
     ∃ s', exec (.quantumEnd tid) s = .next s' ∧ s'.thread? tid = some { t with status := .ready, io := { t.io with quantumDue := false, readyAt := s.coreClock t.core } } ∧
       Joined s s' tid t) ∧
   (∀ s u t, Turn s u t → Issues .yield u t → Stays s u t → classWaits s t.core t.prio = false →
     ∃ s' t', exec .yield s = .next s' ∧ OnlyThread s s' u t' ∧ SameThread t t' ∧ Flows u t t' ∧ (∀ n, t'.reg n = t.reg n) ∧ t'.preds = t.preds ∧
       t'.sp = t.sp) ∧
   (∀ s u t, Turn s u t → Issues .yield u t → Stays s u t → classWaits s t.core t.prio = true → t.isSeated = true → t.io.storeFault = false →
     ∃ s' t', exec .yield s = .next s' ∧ s'.thread? u.tid = some t' ∧ t'.status = .ready ∧ Flows u t t' ∧ (∀ n, t'.reg n = t.reg n) ∧
       Joined s s' u.tid t)) ∧
  ((∀ s u t, Turn s u t → Issues (.park 0) u t →
     ∃ s' t', exec (.park 0) s = .next s' ∧ OnlyThread s s' u t' ∧ t'.status = .parked (.timed none (headLast u.head)) ∧ t'.pc = t.pc ∧
       ∀ n, t'.reg n = t.reg n) ∧
   (∀ a s u t, a ≠ 0 → Turn s u t → Issues (.park a) u t → t.g a ≠ 0 →
     ∃ s' t', exec (.park a) s = .next s' ∧ OnlyThread s s' u t' ∧
       t'.status = .parked (.timed (some (s.coreClock t.core + (t.g a).toNat)) (headLast u.head)) ∧ t'.pc = t.pc ∧ ∀ n, t'.reg n = t.reg n) ∧
   (∀ a s u t, a ≠ 0 → Turn s u t → Issues (.park a) u t → t.g a = 0 → Stays s u t →
     ∃ s' t', exec (.park a) s = .next s' ∧ OnlyThread s s' u t' ∧ SameThread t t' ∧ Flows u t t' ∧ ∀ n, t'.reg n = t.reg n) ∧
   (∀ tid s t limit last, MayGoOn s tid t last → t.status = .parked (.timed (some limit) last) → limit ≤ s.coreClock t.core →
     launchLive s tid = true → t.ctx.isSome = true → ∃ s', exec (.parkTimeout tid) s = .next s' ∧ ReadyAgain s s' tid t last) ∧
   (∀ a s u t, Turn s u t → Issues (.wake a) u t → threadDie s ((t.g a).setWidth 32) (t.core / 256) = t.core / 256 →
     exec (.wake a) s = .next (closeTurn (completeSeq (s.modNet fun n => { n with
       wakes := n.wakes ++ [{ src := t.core, at_ := podDie s t.core, tid := (t.g a).setWidth 32, priv := t.privileged, launch := tidLaunch u.tid, after := storesOpen s u.tid t }] })
       u.tid u.ia (headLast u.head)) u)) ∧
   (∀ k s n t limit last, s.net.wakes[k]? = some n → stillOpen s n.after = false → firstSignal s s.net.wakes k n = true → MayGoOn s n.tid t last →
     (n.priv = true ∨ tidLaunch n.tid = n.launch) → t.status = .parked (.timed limit last) → t.ctx.isSome = true →
     ∃ s', exec (.wakeDelivery k) s = .next s' ∧ ReadyAgain s s' n.tid t last ∧ s'.net.wakes = s.net.wakes.eraseIdx k) ∧
   (∀ k s n t, s.net.wakes[k]? = some n → stillOpen s n.after = false → firstSignal s s.net.wakes k n = true → s.thread? n.tid = some t → t.status = .ready → t.io.storeFault = false →
     t.io.dying = false → exec (.wakeDelivery k) s = .next (s.modNet fun x => { x with wakes := x.wakes.eraseIdx k }))) ∧
  ((∀ a s u t, Turn s u t → Issues (.kill a) u t → (t.g a).setWidth 32 = u.tid →
     ∃ s' t', exec (.kill a) s = .next s' ∧ s'.thread? u.tid = some t' ∧ t'.status = .parked .exit ∧ ∀ n, t'.reg n = t.reg n) ∧
   (∀ a s u t, Turn s u t → Issues (.kill a) u t → (t.g a).setWidth 32 ≠ u.tid →
     threadDie s ((t.g a).setWidth 32) (t.core / 256) = t.core / 256 →
     exec (.kill a) s = .next (closeTurn (completeSeq (s.modNet fun n => { n with
       kills := n.kills ++ [{ src := t.core, at_ := podDie s t.core, tid := (t.g a).setWidth 32, priv := t.privileged, launch := tidLaunch u.tid, after := [] }] })
       u.tid u.ia (headLast u.head)) u)) ∧
   (∀ k s n t, s.net.kills[k]? = some n → firstSignal s s.net.kills k n = true → (n.priv = true ∨ tidLaunch n.tid = n.launch) → s.thread? n.tid = some t → t.status = .ready →
     t.ctx.isSome = true →
     ∃ s' t', exec (.killDelivery k) s = .next s' ∧ s'.thread? n.tid = some t' ∧ t'.status = .parked .exit ∧ t'.stroke = none ∧
       t'.io.dying = true ∧ ∀ r, t'.reg r = t.reg r) ∧
   (∀ k s n t, s.net.kills[k]? = some n → firstSignal s s.net.kills k n = true → (n.priv = true ∨ tidLaunch n.tid = n.launch) → s.thread? n.tid = some t → t.status = .pooled →
     t.io.storeFault = false → ∃ s', exec (.killDelivery k) s = .next s' ∧ s'.thread? n.tid = none) ∧
   (∀ k s n, s.net.kills[k]? = some n → firstSignal s s.net.kills k n = true → n.priv = false → tidLaunch n.tid ≠ n.launch →
     exec (.killDelivery k) s = .next (s.modNet fun x => { x with kills := x.kills.eraseIdx k })) ∧
   (∀ tid s t, s.thread? tid = some t → t.status = .parked .exit → mayRetire s tid t = true →
     ∃ s', exec (.exitRetire tid) s = .next s' ∧ s'.thread? tid = none ∧ ∀ x, x ≠ tid → s'.thread? x = s.thread? x))

/-- spec/08 R139: a child's first state: its entry, its operand in g1 and 0 in every other register, predicates 0, the reset selector, flags clear with
rounding mode, enables and QTRAP of its parent, the parent's vector and qmax, the privilege of its launch, no loop, stroke or pending register.
spec/08 R137, R138: a spawn whose child fits on the issuing core creates it there before the next turn, with the launch's next index, and writes its
tid to d and the pair; one whose indices are used up writes all ones and 0 to both; any other waits for the placement, its thread parked with d
pending, and the placement's answer writes the same results, or all ones and 0 to both where the child has no place. A target outside the encodable
lines takes cause 0x01. spec/08 R144, R145, spec/12 R215, spec/16 R259: ctx.query writes the state word of a context of the issuing core, all ones for
a number past 63; ctx.evict and ctx.reseat write 1 for a tid that names no such thread of the core, 0 where they evict or reseat, evict 2 where the
thread may not be evicted and 3 where no record fits; and a context that becomes free goes to the core's first waiter. Beyond the rules' words it
takes the model's own readings, log entry 93. -/
def Obligations.SpawnCreatesItsChildAndContextsAreManaged : Prop :=
  (∀ s tid t x tiles e v,
     let c := childOf s tid t x tiles e v
     c.pc = e ∧ c.reg 1 = v ∧ (∀ n, n ≠ 1 → c.reg n = 0) ∧ c.preds = 0 ∧ c.sp.gsel = 0x00A ∧ c.sp.plive = 0xFF ∧
     c.sp.fstat.extractLsb' 0 6 = 0 ∧ c.sp.fstat.extractLsb' 6 9 = t.sp.fstat.extractLsb' 6 9 ∧ c.sp.tvb = t.sp.tvb ∧ c.sp.qmax = t.sp.qmax ∧
     c.sp.tepc = 0 ∧ c.sp.tcause = 0 ∧ c.sp.tval = 0 ∧ c.sp.tgsel = 0 ∧ c.privileged = launchPrivilege s tid ∧ c.handler = false ∧
     c.prio = (if x.prio = 0 then t.prio else x.prio.toNat - 1) ∧ c.wsize = 8 * (x.win.toNat + 1) ∧ c.tcount = tiles ∧
     c.loop0.active = false ∧ c.loop1.active = false ∧ c.loop2.active = false ∧ c.stroke = none ∧ c.pending = []) ∧
  ((∀ d a tiles p x s u t s1 r t1, Turn s u t → Issues (.spawn d a tiles p x) u t → targetOut u.ia (spawnTarget x) = false →
     indicesUsed s (tidLaunch u.tid) = false → travelling s u.tid = false →
     let c := childOf s u.tid t x tiles.toNat (targetOf u.ia (spawnTarget x)) (t.g a)
     childCore s (tidLaunch u.tid) x.place c = some t.core → roomFor s t.core 0 c.wsize c.tcount = true →
     createThread s (tidLaunch u.tid) c = (s1, some r) → s1.thread? u.tid = some t1 →
     exec (.spawn d a tiles p x) s =
       finishThread u s1 ((t1.setReg d.toNat (r.1.setWidth 64)).setPair p true r.2)) ∧
   (∀ d a tiles p x s u t, Turn s u t → Issues (.spawn d a tiles p x) u t → targetOut u.ia (spawnTarget x) = false →
     indicesUsed s (tidLaunch u.tid) = true → Stays s u t →
     ∃ s' t', exec (.spawn d a tiles p x) s = .next s' ∧ OnlyThread s s' u t' ∧ SameThread t t' ∧ Flows u t t' ∧ OnlyReg t t' d (BitVec.allOnes 64) ∧
       t'.pred p.pa = false ∧ t'.pred p.pb = false ∧ t'.sp = t.sp) ∧
   (∀ lid c s l, s.launch? lid = some l → l.next < 2 ^ 24 → roomFor s c.core (makeTid lid l.next) c.wsize c.tcount = true →
     createThread s lid c = (takeContext ((s.setThread (makeTid lid l.next) c).setLaunch lid { l with next := l.next + 1 }) (makeTid lid l.next),
       some (makeTid lid l.next, false))) ∧
   (∀ d a tiles p x s u t g, Turn s u t → Issues (.spawn d a tiles p x) u t → targetOut u.ia (spawnTarget x) = false →
     indicesUsed s (tidLaunch u.tid) = false → (travelling s u.tid = false ∨ x.place = .own) →
     let c := childOf s u.tid t x tiles.toNat (targetOf u.ia (spawnTarget x)) (t.g a)
     childCore s (tidLaunch u.tid) x.place c = some g → (g ≠ t.core ∨ roomFor s g 0 c.wsize c.tcount = false) →
     exec (.spawn d a tiles p x) s = .next (closeTurn (parkThread ((s.setThread u.tid (t.setPending d.toNat)).modNet fun n => { n with
       spawns := n.spawns ++ [{ parent := u.tid, d := d.toNat, pair := p, place := x.place, last := headLast u.head, state := c }] })
       u.tid (.reply (.done (headLast u.head)))) u)) ∧
   (∀ d a tiles p x s u t, Turn s u t → Issues (.spawn d a tiles p x) u t → targetOut u.ia (spawnTarget x) = true →
     exec (.spawn d a tiles p x) s = .next (closeTurn (trapEntry s u.tid u.ia 0x01 (targetOf u.ia (spawnTarget x))) u)) ∧
   (∀ k s n t g s1 r, s.net.spawns[k]? = some n → launchLive s n.parent = true → isEvicted s n.parent = false →
     childCore s (tidLaunch n.parent) n.place n.state = some g → childGap s (tidLaunch n.parent) { n.state with core := g } = none →
     let s0 := (gapServed s n.parent.toNat).modNet fun x => { x with spawns := x.spawns.eraseIdx k }
     createThread s0 (tidLaunch n.parent) { n.state with core := g } = (s1, r) → s1.thread? n.parent = some t →
     exec (.spawnReply k) s = .next (resumeThread (s1.setThread n.parent (match r with
       | some x => ((t.clearPending n.d).setReg (BitVec.ofNat 7 n.d).toNat (x.1.setWidth 64)).setPair n.pair true x.2
       | none => ((t.clearPending n.d).setReg (BitVec.ofNat 7 n.d).toNat (BitVec.allOnes 64)).setPair n.pair false false)) n.parent (.done n.last)))) ∧
  ((∀ d a s u t, Turn s u t → Issues (.ctxQuery d a) u t → Stays s u t →
     ∃ s' t', exec (.ctxQuery d a) s = .next s' ∧ OnlyThread s s' u t' ∧ SameThread t t' ∧ Flows u t t' ∧
       OnlyReg t t' d (if (t.g a).toNat < 64 then contextWord s t.core (t.g a).toNat else BitVec.allOnes 64)) ∧
   (∀ d a s u t, Turn s u t → Issues (.ctxEvict d a) u t → Stays s u t → s.thread? ((t.g a).setWidth 32) = none →
     ∃ s' t', exec (.ctxEvict d a) s = .next s' ∧ OnlyThread s s' u t' ∧ SameThread t t' ∧ Flows u t t' ∧ OnlyReg t t' d 1) ∧
   (∀ d a s u t x, Turn s u t → Issues (.ctxEvict d a) u t → Stays s u t → s.thread? ((t.g a).setWidth 32) = some x →
     (x.core ≠ t.core ∨ x.ctx = none ∨ 2 ^ 32 ≤ (t.g a).toNat →
       ∃ s' t', exec (.ctxEvict d a) s = .next s' ∧ OnlyThread s s' u t' ∧ SameThread t t' ∧ Flows u t t' ∧ OnlyReg t t' d 1) ∧
     (x.core = t.core → x.ctx.isSome = true → (t.g a).toNat < 2 ^ 32 → evictBarred s ((t.g a).setWidth 32) x = true →
       ∃ s' t', exec (.ctxEvict d a) s = .next s' ∧ OnlyThread s s' u t' ∧ SameThread t t' ∧ Flows u t t' ∧ OnlyReg t t' d 2) ∧
     (x.core = t.core → x.ctx.isSome = true → (t.g a).toNat < 2 ^ 32 → evictBarred s ((t.g a).setWidth 32) x = false → x.io.dying = false →
       freeRecord s (tidLaunch ((t.g a).setWidth 32)) = none →
       ∃ s' t', exec (.ctxEvict d a) s = .next s' ∧ OnlyThread s s' u t' ∧ SameThread t t' ∧ Flows u t t' ∧ OnlyReg t t' d 3)) ∧
   (∀ d a s u t x k s1 t1, Turn s u t → Issues (.ctxEvict d a) u t → (t.g a).toNat < 2 ^ 32 → (t.g a).setWidth 32 ≠ u.tid →
     s.thread? ((t.g a).setWidth 32) = some x → x.core = t.core → x.ctx.isSome = true → evictBarred s ((t.g a).setWidth 32) x = false → x.io.dying = false →
     freeRecord s (tidLaunch ((t.g a).setWidth 32)) = some k → writeRecord s ((t.g a).setWidth 32) x k = (s1, true) →
     (evictThread s1 ((t.g a).setWidth 32) x k).thread? u.tid = some t1 →
     exec (.ctxEvict d a) s = finishReg u (evictThread s1 ((t.g a).setWidth 32) x k) t1 d 0) ∧
   (∀ d a s u t, Turn s u t → Issues (.ctxReseat d a) u t → Stays s u t → s.thread? ((t.g a).setWidth 32) = none →
     ∃ s' t', exec (.ctxReseat d a) s = .next s' ∧ OnlyThread s s' u t' ∧ SameThread t t' ∧ Flows u t t' ∧ OnlyReg t t' d 1) ∧
   (∀ d a s u t x t1, Turn s u t → Issues (.ctxReseat d a) u t → (t.g a).toNat < 2 ^ 32 →
     s.thread? ((t.g a).setWidth 32) = some x → x.core = t.core → x.ctx = none → x.status = .pooled →
     roomFor s t.core ((t.g a).setWidth 32) x.wsize x.tcount = true → (takeContext s ((t.g a).setWidth 32)).thread? u.tid = some t1 →
     exec (.ctxReseat d a) s = finishReg u (takeContext s ((t.g a).setWidth 32)) t1 d 0) ∧
   (∀ g s tid t, contextWaiter s g = some tid → freeContexts s g ≠ [] → s.thread? tid = some t → roomFor s g tid t.wsize t.tcount = true →
     recordGap s tid t 2048 = none → exec (.contextGrant g) s = .next (takeContext (gapServed s tid.toNat) tid)))

/-- spec/05 R83, R84, spec/20 R312, spec/14 R243, R244: a launch with no thread, busy engine or spawn left ends, and its record is emitted; a step whose
threads have all arrived, with nothing outstanding, releases them all on the dies they have, or, where the launch manager may change the dies, on those
it asks for; differing ids are recorded.
Beyond the rules' words it takes the model's own readings, log entries 44, 45 and 57. -/
def Obligations.LaunchesCompleteAndStepsRelease : Prop :=
  (∀ lid s l, s.launch? lid = some l → l.phase = .live → s.threadsOf lid = [] → launchEngines s lid = false →
    (s.net.spawns.any fun n => tidLaunch n.parent == lid) = false →
    exec (.launchComplete lid) s = .next (emit (releaseLaunch s lid l) 0x0001 0 0 0 [BitVec.ofNat 64 lid])) ∧
  (∀ lid dies s l x xs, s.launch? lid = some l → l.phase = .live → stepIds (s.threadsOf lid) = some (x :: xs) → launchEngines s lid = false →
    launchQuiet s lid = true → (∀ y ∈ xs, y = x) → ((List.range 8).filter fun d => dies.contains d) = l.dies →
    exec (.stepRelease lid dies) s = .next (releaseStep s lid)) ∧
  (∀ lid dies s l x xs, s.launch? lid = some l → l.phase = .live → stepIds (s.threadsOf lid) = some (x :: xs) → launchEngines s lid = false →
    launchQuiet s lid = true → (∀ y ∈ xs, y = x) → ((List.range 8).filter fun d => dies.contains d) ≠ l.dies →
    diesAllowed s l ((List.range 8).filter fun d => dies.contains d) = true →
    exec (.stepRelease lid dies) s = .next (releaseStep (changeDies s lid l ((List.range 8).filter fun d => dies.contains d)) lid)) ∧
  (∀ lid dies s l x xs y, s.launch? lid = some l → l.phase = .live → stepIds (s.threadsOf lid) = some (x :: xs) → launchEngines s lid = false →
    launchQuiet s lid = true → y ∈ xs → y ≠ x →
    exec (.stepRelease lid dies) s = .next (releaseStep
      (emit s 0x0004 0 0 0 [BitVec.ofNat 64 (xs.foldl min x), BitVec.ofNat 64 (xs.foldl max x)]) lid))

/-- spec/05 R83, spec/20 R312: for a live launch with no thread left, no command of it in an engine and no spawn on its way, LAUNCH_COMPLETE takes effect: the
launch is gone and no other is, every core it still held belongs to no launch, without barriers or windows, every thread stays, and one event record is
produced. -/
def Obligations.LaunchCompleteEndsTheLaunch : Prop :=
  ∀ lid s l, s.launch? lid = some l → l.phase = .live → s.threadsOf lid = [] → (∀ e ∈ s.cores, ∀ c ∈ e.2.engine, c.launch ≠ lid) →
    (∀ n ∈ s.net.spawns, tidLaunch n.parent ≠ lid) →
    ∃ s', exec (.launchComplete lid) s = .next s' ∧ s'.launch? lid = none ∧ (∀ x, x ≠ lid → s'.launch? x = s.launch? x) ∧
      (∀ g ∈ l.cores, (s.core g).launch = lid → (s'.core g).launch = 0 ∧ (s'.core g).bars = [] ∧ (s'.core g).windows = []) ∧
      s'.threads = s.threads ∧ s'.host.evSeq = s.host.evSeq + 1

/-- spec/05 R84: for a live launch all of whose threads have arrived at one step, none of them being killed or with a posted store that faulted, with no command
of it in an engine and every access of its threads performed, STEP_RELEASE on the dies it has takes effect: every thread is Ready-unseated after its
step, with its registers, predicates and special registers as they were, and no thread of another launch changes. -/
def Obligations.StepReleaseReadiesEveryThread : Prop :=
  ∀ lid dies s l (id : BitVec 16), s.launch? lid = some l → l.phase = .live → s.threadsOf lid ≠ [] →
    ((s.threadsOf lid).map (·.1)).Nodup → (∀ e ∈ s.threadsOf lid, s.thread? e.1 = some e.2) →
    (∀ e ∈ s.threadsOf lid, (∃ last, e.2.status = .parked (.step id last) ∧
        flowTo s e.1 e.2.core (seqThread e.2 e.2.pc last).pc = .here) ∧
      e.2.io.dying = false ∧ e.2.io.storeFault = false) →
    (∀ e ∈ s.cores, ∀ c ∈ e.2.engine, c.launch ≠ lid) → launchQuiet s lid = true →
    ((List.range 8).filter fun d => dies.contains d) = l.dies →
    ∃ s', exec (.stepRelease lid dies) s = .next s' ∧
      (∀ e ∈ s.threadsOf lid, ∃ t' last, s'.thread? e.1 = some t' ∧ e.2.status = .parked (.step id last) ∧ t'.status = .ready ∧
        t'.pc = (seqThread e.2 e.2.pc last).pc ∧ (∀ n, t'.reg n = e.2.reg n) ∧ t'.preds = e.2.preds ∧ t'.sp = e.2.sp) ∧
      (∀ x, x ∉ (s.threadsOf lid).map (·.1) → s'.thread? x = s.thread? x)
/-! ### Travelling threads, messages, barriers and the launch manager (spec/08 R146 to R155, spec/16 R253 to R260, spec/05 R85, R86) -/

namespace Sys2Proof.Claims

/-- Instruction i of the turn sets its thread's record aside for a wait, whatever the wait leaves behind in the part: the thread t' is parked and nothing else of
it, no other thread and no core changes. -/
structure Waits (s s' : State) (u : Issue) (t : Thread) (p : Park) : Prop where
  thread : s'.thread? u.tid = some { t with status := .parked p }
  others : ∀ tid, tid ≠ u.tid → s'.thread? tid = s.thread? tid
  over_ : s'.issue = none
  cores : s'.cores = s.cores
  dies : s'.dies = s.dies

/-- Instruction i takes cause c with value v, and has no other effect. -/
def Takes (i : Instr) (s : State) (u : Issue) (c : Nat) (v : Word) : Prop := exec i s = .next (closeTurn (trapEntry s u.tid u.ia c v) u)

/-- The token of a message (R151): count, tag, the sender's launch-local index and a status. -/
def tokenOf (count : Nat) (tag : BitVec 16) (src : Tid) (status : Nat) : Word :=
  BitVec.ofNat 64 (count + tag.toNat * 2 ^ 16 + src.toNat % 2 ^ 24 * 2 ^ 32 + status * 2 ^ 56)

end Sys2Proof.Claims

/-- spec/08 R146, R148, R149: with the map entry in the core's cache, ship parks its thread for departure to the named core, or to the replica of the segment its
tid selects, continuing at the IA; without it, the entry is fetched first and ship issues again. Unknown places and IAs outside the segment take
cause 0x0D. cargo declares an L-store range, segq answers from the map.
Beyond the rules' words it takes the model's own readings, log entry 76. -/
def Obligations.ShipCargoAndSegqComplete : Prop :=
  (∀ a b s u t l g x, Turn s u t → Issues (.shipCore a b) u t → s.launch? (tidLaunch u.tid) = some l → l.desc.travelling = true →
    (t.g b).getLsbD 0 = false → (t.g b).getLsbD 63 = true → s.cfg.package < 4096 → g < 2048 → (t.g a).toNat = s.cfg.package * 2048 + g →
    setHas l.cores g = true → l.segments.find? (fun y => y.reps.contains g) = some x →
    x.base.toNat ≤ (t.g b).toNat ∧ (t.g b).toNat < x.base.toNat + x.len → (s.core t.core).iss.mapCache.contains x.id = true →
    ∃ s', exec (.shipCore a b) s = .next s' ∧ OnlyThread s s' u { t with pc := t.g b, status := .parked (.departure g (t.g b) l.mapVer none) }) ∧
  (∀ a b s u t l x, Turn s u t → Issues (.shipSeg a b) u t → s.launch? (tidLaunch u.tid) = some l → l.desc.travelling = true →
    (t.g b).getLsbD 0 = false → (t.g b).getLsbD 63 = true → l.segments.find? (fun y => y.id == (t.g a).toNat) = some x →
    x.base.toNat ≤ (t.g b).toNat ∧ (t.g b).toNat < x.base.toNat + x.len →
    ((s.core t.core).iss.mapCache.contains x.id = true →
      ∃ s', exec (.shipSeg a b) s = .next s' ∧
        OnlyThread s s' u { t with pc := t.g b, status := .parked (.departure (x.reps.getD (u.tid.toNat % x.reps.length) 0) (t.g b) l.mapVer none) }) ∧
    ((s.core t.core).iss.mapCache.contains x.id = false →
      ∃ s', exec (.shipSeg a b) s = .next s' ∧ Waits s s' u t (.reply .again) ∧
        s'.net = { s.net with maps := s.net.maps ++ [{ tid := u.tid, seg := some x.id, cont := .again }] })) ∧
  (∀ i a b s u t, i = Instr.shipCore a b ∨ i = .shipSeg a b → Turn s u t → Issues i u t →
    (∀ l, s.launch? (tidLaunch u.tid) = some l → l.desc.travelling = false) ∨ (t.g b).getLsbD 0 = true ∨ (t.g b).getLsbD 63 = false →
    Takes i s u 0x01 (t.g b)) ∧
  (∀ a b s u t l, Turn s u t → Issues (.shipSeg a b) u t → s.launch? (tidLaunch u.tid) = some l → l.desc.travelling = true →
    (t.g b).getLsbD 0 = false → (t.g b).getLsbD 63 = true →
    (l.segments.find? (fun y => y.id == (t.g a).toNat) = none → Takes (.shipSeg a b) s u 0x0D (t.g a)) ∧
    (∀ x, l.segments.find? (fun y => y.id == (t.g a).toNat) = some x →
      (t.g b).toNat < x.base.toNat ∨ x.base.toNat + x.len ≤ (t.g b).toNat → Takes (.shipSeg a b) s u 0x0D (t.g b))) ∧
  (∀ a b s u t, Turn s u t → Issues (.cargo a b) u t → travelling s u.tid = true →
    (16384 < (t.g b).toNat ∨ (t.g b).toNat % 8 ≠ 0 → Takes (.cargo a b) s u 0x01 (t.g b)) ∧
    ((t.g b).toNat = 0 ∨ (t.g b).toNat ≤ 16384 ∧ (t.g b).toNat % 8 = 0 ∧ checkLocal s t (t.g a) (t.g b).toNat 8 true false = none → Stays s u t →
      ∃ s' t', exec (.cargo a b) s = .next s' ∧ OnlyThread s s' u t' ∧ Flows u t t' ∧ (∀ n, t'.reg n = t.reg n) ∧ t'.status = t.status ∧
        t'.io.cargoDecl = if (t.g b).toNat = 0 then none else some ((t.g a).toNat, (t.g b).toNat))) ∧
  (∀ d a s u t l, Turn s u t → Issues (.segq d a .ver) u t → Stays s u t → s.launch? (tidLaunch u.tid) = some l → l.desc.travelling = true →
    ∃ s' t', exec (.segq d a .ver) s = .next s' ∧ OnlyThread s s' u t' ∧ SameThread t t' ∧ Flows u t t' ∧ OnlyReg t t' d (l.mapVer.setWidth 64)) ∧
  (∀ d a s u t l x, Turn s u t → Issues (.segq d a .seg) u t → Stays s u t → s.launch? (tidLaunch u.tid) = some l → l.desc.travelling = true →
    l.segments.find? (fun y => y.id == (t.g a).toNat) = some x → (s.core t.core).iss.mapCache.contains x.id = true →
    ∃ s' t', exec (.segq d a .seg) s = .next s' ∧ OnlyThread s s' u t' ∧ SameThread t t' ∧ Flows u t t' ∧
      OnlyReg t t' d (BitVec.ofNat 64
        (s.cfg.package * 2048 + x.reps.getD (u.tid.toNat % x.reps.length) 0 + x.reps.length * 2 ^ 24))) ∧
  (∀ d a s u t l x, Turn s u t → Issues (.segq d a .ia) u t → Stays s u t → s.launch? (tidLaunch u.tid) = some l → l.desc.travelling = true →
    segmentOf l (t.g a) = some x → (s.core t.core).iss.mapCache.contains x.id = true →
    ∃ s' t', exec (.segq d a .ia) s = .next s' ∧ OnlyThread s s' u t' ∧ SameThread t t' ∧ Flows u t t' ∧ OnlyReg t t' d (BitVec.ofNat 64 x.id)) ∧
  (∀ d a op s u t l, Turn s u t → Issues (.segq d a op) u t → Stays s u t → s.launch? (tidLaunch u.tid) = some l → l.desc.travelling = false →
    ∃ s' t', exec (.segq d a op) s = .next s' ∧ OnlyThread s s' u t' ∧ SameThread t t' ∧ Flows u t t' ∧ OnlyReg t t' d (BitVec.allOnes 64))

/-- spec/08 R146, R147, spec/16 R255, R257 to R260: a fetched map entry joins the cache and its thread goes on. A thread that meets the departure conditions
goes on where it is, or is sent to a granted slot; a grant sends a Departure-blocked thread. Landing writes live registers, cargo and word 0 into
the slot, the thread standing there Pooled with its registers; the acknowledgement frees what the source held. spec/14 R243: a gondola of a step's release
lands in a free context of its die instead.
Beyond the rules' words it takes the model's own readings, log entries 30, 44 and 75. -/
def Obligations.DeparturesGrantsAndLandings : Prop :=
  (∀ k s n t g d v last, s.net.maps[k]? = some n → n.seg = some g → n.cont = .answer d v last → MayGoOn s n.tid t last →
    (∃ r, t.status = .parked (.reply r)) →
    ∃ s' t', exec (.mapFetchReply k) s = .next s' ∧ s'.net.maps = s.net.maps.eraseIdx k ∧ (s'.core t.core).iss.mapCache.contains g = true ∧
      s'.thread? n.tid = some t' ∧ t'.status = .ready ∧ t'.pc = (seqThread t t.pc last).pc ∧
      ∀ r, t'.reg r = if r = d ∧ r ≠ 0 then v else t.reg r) ∧
  (∀ k s n t l g pc skip, s.net.maps[k]? = some n → n.seg = some g.id → n.cont = .depart pc skip → s.thread? n.tid = some t →
    s.launch? (tidLaunch n.tid) = some l → l.segments.find? (fun x => n.seg == some x.id) = some g →
    ∃ s', exec (.mapFetchReply k) s = .next s' ∧
      s'.thread? n.tid = some { t with status := .parked (.departure (g.reps.getD (n.tid.toNat % g.reps.length) 0) pc l.mapVer skip) }) ∧
  (∀ tid s t pc ver skip, s.thread? tid = some t → t.status = .parked (.departure t.core pc ver skip) → mayDepart s tid t = true →
    ∃ s', exec (.departure tid) s = .next s' ∧ s'.thread? tid = some { t with pc := pc, status := .ready, io := { t.io with readyAt := s.coreClock t.core } } ∧
      Joined s s' tid t) ∧
  (∀ tid s t dest pc ver skip k, s.thread? tid = some t → t.status = .parked (.departure dest pc ver skip) → mayDepart s tid t = true →
    dest ≠ t.core → dest / 256 = t.core / 256 → freeSlotOf s dest = some k → (s.core dest).iss.slotRequests = [] →
    ∃ s' x, exec (.departure tid) s = .next s' ∧ s'.thread? tid = some { dropFinished t with status := .inFlight dest pc ver skip } ∧
      s'.net.gondolas = s.net.gondolas ++ [x] ∧ x.tid = tid ∧ x.dest = dest ∧ x.slot = k ∧ x.pc = pc ∧ x.arrived = true ∧
      x.cargo = (match t.io.cargoDecl with | some (a, n) => (s.core t.core).lstore.bytes a n | none => []) ∧
      (tabGet (s'.core dest).iss.slots k).map (·.granted) = some (some tid)) ∧
  (∀ tid s t dest pc ver skip, s.thread? tid = some t → t.status = .parked (.departure dest pc ver skip) → mayDepart s tid t = false →
    exec (.departure tid) s = .next s) ∧
  (∀ g s t tid rest k pc ver skip, (s.core g).iss.slotRequests = tid :: rest → freeSlotOf s g = some k → s.thread? tid = some t →
    launchLive s tid = true → t.status = .blocked g pc ver skip → t.core ≠ g → g / 256 = t.core / 256 →
    ∃ s' x, exec (.slotGrant g) s = .next s' ∧ s'.thread? tid = some { dropFinished t with status := .inFlight g pc ver skip } ∧
      (s'.core g).iss.slotRequests = rest ∧ s'.net.gondolas = s.net.gondolas ++ [x] ∧ x.tid = tid ∧ x.dest = g ∧ x.slot = k ∧ x.arrived = true) ∧
  (∀ k s n t, s.net.gondolas[k]? = some n → n.arrived = true → n.step = none → s.thread? n.tid = some t → t.io.dying = false →
    n.cargo.length ≤ 16384 → n.slot < 8 → (s.core n.dest).waiters = [] → n.skip = none →
    let base := s.cfg.lcap - 0x22000 + n.slot * 0x4400
    ∃ s' t', exec (.gondolaLanding k) s = .next s' ∧ s'.thread? n.tid = some t' ∧ t'.core = n.dest ∧ t'.ctx = none ∧ t'.status = .pooled ∧
      t'.pc = n.pc ∧ (∀ r, t'.reg r = t.reg r) ∧ t'.preds = t.preds ∧ t'.io.landing = some n.slot ∧ t'.io.record = none ∧
      t'.io.cargoDecl = none ∧ t'.sp = { t.sp with cargo := if n.cargo = [] then BitVec.allOnes 64 else BitVec.ofNat 64 (base + 0x440) } ∧
      s'.net.gondolas = s.net.gondolas.eraseIdx k ∧ s'.net.landAcks = s.net.landAcks ++ [n] ∧
      lstoreValue s' n.dest base 8 = n.tid.toNat + n.cargo.length * 2 ^ 32 ∧ setHas (s'.core n.dest).lempty (base / 8) = false ∧
      (∀ r, r < 128 → lstoreValue s' n.dest (base + 0x40 + 8 * r) 8 = if r < t.wsize ∧ liveReg t r = true then (t.reg r).toNat else 0) ∧
      (∀ i, i < n.cargo.length → Memory.get (s'.core n.dest).lstore (base + 0x440 + i) = n.cargo.getD i 0)) ∧
  (∀ k s n t load s1, s.net.gondolas[k]? = some n → n.arrived = true → n.step = some load → s.thread? n.tid = some t → t.io.dying = false →
    landOnDie s n t load = some s1 →
    ∃ s', exec (.gondolaLanding k) s = .next s' ∧ s'.threads = s1.threads ∧ s'.cores = s1.cores ∧
      s'.net.gondolas = s1.net.gondolas.eraseIdx k ∧ s'.net.landAcks = s1.net.landAcks ++ [n]) ∧
  (∀ k s n t j, s.net.landAcks[k]? = some n → n.step = none → n.held.landing = some j → s.thread? n.tid = some t →
    ((s.core n.held.core).msg.overflow.filter fun o => o.dst == n.tid) = [] →
    ∃ s', exec (.landingAck k) s = .next s' ∧ s'.net.landAcks = s.net.landAcks.eraseIdx k ∧ s'.threads = s.threads ∧
      tabGet (s'.core n.held.core).iss.slots j = none ∧ setHas (s'.core n.held.core).lempty ((s.cfg.lcap - 0x22000 + j * 0x4400) / 8) = true ∧
      (s'.core n.held.core).lstore = (s.core n.held.core).lstore ∧
      (s'.core n.held.core).mx.tiles = if n.held.ctx.isSome then (s.core n.held.core).mx.tiles.filter
          (fun e => decide (e.1 < n.held.tbase ∨ n.held.tbase + n.held.tcount ≤ e.1)) else (s.core n.held.core).mx.tiles)

/-- spec/08 R150 to R153: send takes its buffer and goes to a live receiver of its die once nothing is ahead of it, d pending; a full queue parks; a thread that
does not live is answered with status 0x22. recv takes the oldest accepted overflow entry, or posts; probe reports it. An arriving message goes
to the receive that accepts it, to a free overflow place, or is refused and sent again after 512 n cycles; one that another stands before on its way waits (R217).
Beyond the rules' words it takes the model's own readings, log entries 10, 51 and 74. -/
def Obligations.MessagesAreSentMatchedAndRefused : Prop :=
  (∀ d a b c tag s u t x, Turn s u t → Issues (.send d a b c tag) u t → Stays s u t →
    bufferTrap s t (t.g b) (t.g c) true false = none → (s.core t.core).msg.sends.length < 8 → storesOpen s u.tid t = [] →
    (∀ y ∈ (s.core t.core).msg.sends, y.order < s.net.nextReq) → aheadOf s u.tid ((t.g a).setWidth 32) s.net.nextReq = false →
    s.thread? ((t.g a).setWidth 32) = some x → tidLaunch ((t.g a).setWidth 32) = tidLaunch u.tid → x.io.dying = false →
    x.core / 256 = t.core / 256 → Sound s t.core (t.g b).toNat (t.g c).toNat →
    ∃ s' t', exec (.send d a b c tag) s = .next s' ∧ s'.thread? u.tid = some t' ∧ Flows u t t' ∧ (∀ n, t'.reg n = t.reg n) ∧
      t'.pending = (t.setPending d.toNat).pending ∧ t'.preds = t.preds ∧ t'.sp = t.sp ∧
      s'.net.messages = s.net.messages ++
        [{ srcCore := t.core, dstCore := x.core, src := u.tid, dst := (t.g a).setWidth 32, tag := tag,
           data := (s.core t.core).lstore.bytes (t.g b).toNat (t.g c).toNat, order := s.net.nextReq, forwarded := false,
           via := none }] ∧
      (s'.core t.core).lstore = (s.core t.core).lstore) ∧
  (∀ d a b c tag s u t, Turn s u t → Issues (.send d a b c tag) u t → bufferTrap s t (t.g b) (t.g c) true false = none →
    8 ≤ (s.core t.core).msg.sends.length → ∃ s', exec (.send d a b c tag) s = .next s' ∧ Waits s s' u t .sendQueue) ∧
  (∀ d a b c tag s u t, Turn s u t → Issues (.send d a b c tag) u t → 1024 < (t.g c).toNat ∨ (t.g c).toNat % 8 ≠ 0 →
    Takes (.send d a b c tag) s u 0x01 (t.g c)) ∧
  (∀ d a b c tag anyTag anySrc s u t, Turn s u t → Issues (.recv d a b c tag anyTag anySrc) u t → Stays s u t →
    bufferTrap s t (t.g b) (t.g c) false true = none → refusedMark s u.tid t = none → (s.core t.core).msg.posted.length < 64 →
    overflowMatch s u.tid t (if anySrc then none else some ((t.g a).setWidth 32)) (if anyTag then none else some tag) = none →
    ∃ s' t', exec (.recv d a b c tag anyTag anySrc) s = .next s' ∧ s'.thread? u.tid = some t' ∧ Flows u t t' ∧ (∀ n, t'.reg n = t.reg n) ∧
      t'.pending = (t.setPending d.toNat).pending ∧
      (s'.core t.core).msg.posted = (s.core t.core).msg.posted ++
        [{ tid := u.tid, reg := d.toNat, src := if anySrc then none else some ((t.g a).setWidth 32), tag := if anyTag then none else some tag,
           buf := (t.g b).toNat, cap := (t.g c).toNat }]) ∧
  (∀ d a b c tag anyTag anySrc s u t o, Turn s u t → Issues (.recv d a b c tag anyTag anySrc) u t → Stays s u t →
    bufferTrap s t (t.g b) (t.g c) false true = none → refusedMark s u.tid t = none → (s.core t.core).waiters = [] →
    overflowMatch s u.tid t (if anySrc then none else some ((t.g a).setWidth 32)) (if anyTag then none else some tag) = some o →
    let data := overflowData s (tidLaunch u.tid) t.core o
    ∃ s' t', exec (.recv d a b c tag anyTag anySrc) s = .next s' ∧ s'.thread? u.tid = some t' ∧ Flows u t t' ∧
      OnlyReg t t' d (tokenOf (min data.length (t.g c).toNat) o.tag o.src (if (t.g c).toNat < data.length then 0x21 else 0)) ∧
      Stored s s' t.core (t.g b).toNat (min data.length (t.g c).toNat) (fun k => data.getD k 0) ∧
      (s'.core t.core).msg.overflow = (s.core t.core).msg.overflow.filter (fun y => y.place != o.place)) ∧
  (∀ d a b anyTag anySrc s u t, Turn s u t → Issues (.probe d a b anyTag anySrc) u t → Stays s u t → refusedMark s u.tid t = none →
    ∃ s' t', exec (.probe d a b anyTag anySrc) s = .next s' ∧ OnlyThread s s' u t' ∧ SameThread t t' ∧ Flows u t t' ∧
      OnlyReg t t' d (match overflowMatch s u.tid t (if anySrc then none else some ((t.g a).setWidth 32))
          (if anyTag then none else some ((t.g b).setWidth 16)) with
        | some o => tokenOf o.len o.tag o.src 0
        | none => tokenOf 0 0 0 0x24)) ∧
  (∀ g k s e x, (s.core g).msg.sends[k]? = some e → e.retryAt ≤ s.coreClock g → e.inFlight = false → stillOpen s e.after = false →
    aheadOf s e.tid e.dst e.order = false → s.thread? e.dst = some x → tidLaunch e.dst = tidLaunch e.tid → x.io.dying = false →
    x.core / 256 = g / 256 → Sound s g e.buf e.len →
    ∃ s', exec (.sendRetry g k) s = .next s' ∧ s'.threads = s.threads ∧
      s'.net.messages = s.net.messages ++
        [{ srcCore := g, dstCore := x.core, src := e.tid, dst := e.dst, tag := e.tag,
           data := (s.core g).lstore.bytes e.buf e.len, order := e.order, forwarded := false, via := none }]) ∧
  (∀ g k s e t, (s.core g).msg.sends[k]? = some e → e.retryAt ≤ s.coreClock g → e.inFlight = false → stillOpen s e.after = false →
    aheadOf s e.tid e.dst e.order = false → s.thread? e.dst = none → s.thread? e.tid = some t →
    (∀ y ∈ (s.core g).msg.sends, y.order = e.order → y = e) →
    ∃ s' t', exec (.sendRetry g k) s = .next s' ∧ s'.thread? e.tid = some t' ∧
      (∀ n, t'.reg n = if n = e.reg ∧ n ≠ 0 then tokenOf 0 0 0 0x22 else t.reg n) ∧
      (s'.core g).msg.sends = (s.core g).msg.sends.filter (fun y => y.order != e.order)) ∧
  (∀ k s m t p, s.net.messages[k]? = some m → s.thread? m.dst = some t → t.core = m.dstCore → earlierElsewhere s t.core m = false →
    preempted s m.dst = false → m.forwarded = true → (s.core t.core).waiters = [] →
    (s.core t.core).msg.posted.find? (fun p => p.tid == m.dst && accepts p.src p.tag m.src m.tag) = some p →
    ∃ s' t', exec (.messageArrival k) s = .next s' ∧ s'.thread? m.dst = some t' ∧
      (∀ n, t'.reg n = if n = p.reg ∧ n ≠ 0 then
          tokenOf (min m.data.length p.cap) m.tag m.src (if p.cap < m.data.length then 0x21 else 0) else t.reg n) ∧
      Stored s s' t.core p.buf (min m.data.length p.cap) (fun i => m.data.getD i 0) ∧
      (s'.core t.core).msg.posted = (s.core t.core).msg.posted.erase p ∧ s'.net.messages = s.net.messages.eraseIdx k) ∧
  (∀ k s m t l j, s.net.messages[k]? = some m → s.thread? m.dst = some t → t.core = m.dstCore → earlierElsewhere s t.core m = false →
    preempted s m.dst = false → messageBehind s k m = false →
    (s.core t.core).msg.posted.find? (fun p => p.tid == m.dst && accepts p.src p.tag m.src m.tag) = none → s.launch? (tidLaunch m.dst) = some l → (s.core t.core).msg.overflow.length < 16 → (s.core t.core).waiters = [] →
    (List.range 16).find? (fun i => !(s.core t.core).msg.overflow.any fun o => o.place == i) = some j →
    ∃ s', exec (.messageArrival k) s = .next s' ∧ s'.net.messages = s.net.messages.eraseIdx k ∧
      (s'.core t.core).msg.overflow = (s.core t.core).msg.overflow ++
        [{ place := j, order := m.order, dst := m.dst, src := m.src, tag := m.tag, len := m.data.length }]) ∧
  (∀ k s m t e, s.net.messages[k]? = some m → s.thread? m.dst = some t → t.core = m.dstCore → earlierElsewhere s t.core m = false →
    preempted s m.dst = false → messageBehind s k m = false →
    (s.core t.core).msg.posted.find? (fun p => p.tid == m.dst && accepts p.src p.tag m.src m.tag) = none →
    (s.core t.core).msg.overflow.length = 16 → m.forwarded = false →
    (s.core m.srcCore).msg.sends.find? (fun x => x.order == m.order) = some e → e.refusals < 15 →
    ∃ s', exec (.messageArrival k) s = .next s' ∧ s'.net.messages = s.net.messages.eraseIdx k ∧ s'.threads = s.threads ∧
      (s'.core m.srcCore).msg.sends.find? (fun x => x.order == m.order) =
        some { e with refusals := e.refusals + 1, retryAt := s.coreClock m.srcCore + 512 * (e.refusals + 1), inFlight := false }) ∧
  (∀ k s m, s.net.messages[k]? = some m → messageBehind s k m = true → exec (.messageArrival k) s = .next s)

/-- spec/08 R154, R155, spec/05 R85: at core scope barr returns the generation and counts at once, the last arrival of a generation starting the next; wider ones
are posted. barw parks while the generation stands and returns at once when it is past; barc sets a count anew where none has arrived. A unit counts and
returns; a new generation wakes its waiters. A fence with nothing to wait for completes, and one whose accesses are open parks, at core scope one of kind
engine whose thread's stroke has stores left. A unit's answers and notices come in their order (R217).
Beyond the rules' words it takes the model's own readings, log entries 61, 72, 73 and 88. -/
def Obligations.BarriersCountAndFencesWait : Prop :=
  (∀ d a s u t, Turn s u t → Issues (.barr d a .core) u t → Stays s u t → (t.g a).toNat < 16 →
    let b := tabGetD (s.core t.core).bars (t.g a).toNat Bar.reset
    b.a + 1 ≠ b.m →
    ∃ s' t', exec (.barr d a .core) s = .next s' ∧ s'.thread? u.tid = some t' ∧ SameThread t t' ∧ Flows u t t' ∧
      OnlyReg t t' d (b.n.setWidth 64) ∧ (∀ x, x ≠ u.tid → s'.thread? x = s.thread? x) ∧
      tabGetD (s'.core t.core).bars (t.g a).toNat Bar.reset = { b with a := b.a + 1 }) ∧
  (∀ d a s u t, Turn s u t → Issues (.barr d a .core) u t → Stays s u t → (t.g a).toNat < 16 → s.threads = [(u.tid.toNat, t)] → t.isSeated = true →
    let b := tabGetD (s.core t.core).bars (t.g a).toNat Bar.reset
    b.a + 1 = b.m →
    ∃ s' t', exec (.barr d a .core) s = .next s' ∧ s'.thread? u.tid = some t' ∧ SameThread t t' ∧ Flows u t t' ∧
      OnlyReg t t' d (b.n.setWidth 64) ∧ tabGetD (s'.core t.core).bars (t.g a).toNat Bar.reset = { b with a := 0, n := b.n + 1 }) ∧
  (∀ i d a b count sc s u t, i = Instr.barr d a sc ∨ i = .barw a b sc ∨ i = .barc a count sc → Turn s u t → Issues i u t → 16 ≤ (t.g a).toNat →
    Takes i s u 0x01 (t.g a)) ∧
  (∀ d a sc s u t, sc ≠ .core → Turn s u t → Issues (.barr d a sc) u t → Stays s u t → (t.g a).toNat < 16 →
    ∃ s' t', exec (.barr d a sc) s = .next s' ∧ s'.thread? u.tid = some t' ∧ Flows u t t' ∧ (∀ n, t'.reg n = t.reg n) ∧
      t'.pending = (t.setPending d.toNat).pending ∧ s'.cores = s.cores ∧
      s'.net = { s.net with
        nextReq := s.net.nextReq + 1
        barriers := s.net.barriers ++
          [{ id := s.net.nextReq, after := accessesOpen s u.tid t, marks := if sc = .pkg ∨ sc = .pod then none else some 0, tid := u.tid, sc := sc,
             n := (t.g a).toNat, unit := barUnit s (tidLaunch u.tid) t.core sc, d := d.toNat, count := none, tval := 0,
             last := headLast u.head, from_ := s.cfg.package * 8 + t.core / 256, arrived := false }] }) ∧
  (∀ a b sc s u t, Turn s u t → Issues (.barw a b sc) u t → (t.g a).toNat < 16 →
    let gen := (getBar s sc (barUnit s (tidLaunch u.tid) t.core sc) (t.g a).toNat).n
    (gen = (t.g b).setWidth 32 →
      ∃ s', exec (.barw a b sc) s = .next s' ∧ Waits s s' u t (.barrier sc (t.g a).toNat gen (headLast u.head))) ∧
    (gen ≠ (t.g b).setWidth 32 → Stays s u t →
      ∃ s' t', exec (.barw a b sc) s = .next s' ∧ OnlyThread s s' u t' ∧ SameThread t t' ∧ Flows u t t' ∧ ∀ n, t'.reg n = t.reg n)) ∧
  (∀ a count s u t, Turn s u t → Issues (.barc a count .core) u t → (t.g a).toNat < 16 →
    let b := tabGetD (s.core t.core).bars (t.g a).toNat Bar.reset
    (b.a ≠ 0 → Takes (.barc a count .core) s u 0x01 (t.g a)) ∧
    (b.a = 0 → Stays s u t → s.threads = [(u.tid.toNat, t)] → t.isSeated = true →
      ∃ s' t', exec (.barc a count .core) s = .next s' ∧ s'.thread? u.tid = some t' ∧ SameThread t t' ∧ Flows u t t' ∧
        (∀ n, t'.reg n = t.reg n) ∧
        tabGetD (s'.core t.core).bars (t.g a).toNat Bar.reset = { m := count.toNat, a := 0, n := 0 })) ∧
  (∀ k s b l, s.net.barriers[k]? = some b → stillOpen s b.after = false → b.arrived = false → b.marks = some 0 → b.sc = .die → b.count = none →
    ((s.net.barriers.take k).any fun a => sameWay a b) = false →
    s.launch? (b.unit / 4096) = some l → b.from_ / 8 = s.cfg.package →
    let x := getBar s .die b.unit b.n
    ∃ s', exec (.barrierUnitArrival k) s = .next s' ∧ s'.net.barriers = s.net.barriers.eraseIdx k ∧
      s'.net.units = s.net.units ++ [.gen b.tid .die b.d x.n] ∧ s'.threads = s.threads ∧
      getBar s' .die b.unit b.n = (if x.a + 1 = x.m then { x with a := 0, n := x.n + 1 } else { x with a := x.a + 1 }) ∧
      s'.net.gens = s.net.gens ++ if x.a + 1 = x.m then [(.die, b.unit, b.n, x.n + 1)] else []) ∧
  (∀ k s sc unit n value tid t gen last, s.net.gens[k]? = some (sc, unit, n, value) → s.threads = [(tid.toNat, t)] →
    t.status = .parked (.barrier sc n gen last) → gen ≠ (getBar s sc unit n).n →
    ((s.net.gens.take k).any fun g => g.1 == sc && g.2.1 == unit) = false → barUnit s (tidLaunch tid) t.core sc = unit → launchLive s tid = true →
    MayGoOn s tid t last → t.ctx.isSome = true →
    ∃ s', exec (.barrierGeneration k) s = .next s' ∧ ReadyAgain s s' tid t last ∧ s'.net.gens = s.net.gens.eraseIdx k) ∧
  (∀ k s tid sc d value t, s.net.units[k]? = some (.gen tid sc d value) → firstNote s k (.gen tid sc d value) = true → s.thread? tid = some t → d ≠ 0 →
    ∃ s' t', exec (.unitReply k) s = .next s' ∧ s'.thread? tid = some t' ∧ (∀ n, t'.reg n = if n = d then value.setWidth 64 else t.reg n) ∧
      setHas t'.pending d = false ∧ t'.status = t.status ∧ s'.net.units = s.net.units.eraseIdx k) ∧
  (∀ k s x, s.net.units[k]? = some x → firstNote s k x = false → exec (.unitReply k) s = .next s) ∧
  (∀ k s tid tval last t, s.net.units[k]? = some (.sys tid true tval last) → firstNote s k (.sys tid true tval last) = true → MayGoOn s tid t last → (∃ r, t.status = .parked (.reply r)) →
    ∃ s', exec (.unitReply k) s = .next s' ∧ ReadyAgain s s' tid t last) ∧
  (∀ k s tid tval last, s.net.units[k]? = some (.sys tid false tval last) → firstNote s k (.sys tid false tval last) = true →
    exec (.unitReply k) s = .next (trapWaiting (s.modNet fun n => { n with units := n.units.eraseIdx k }) tid 0x01 tval)) ∧
  (∀ sc kind s u t, Turn s u t → Issues (.fence sc kind) u t → Stays s u t → kind ≠ .engine → sc = .core ∨ sc = .quad ∨ sc = .die →
    (sc = .core ∨ earlierLoads s u.tid t = true ∧ (kind = .acq ∨ earlierStores s u.tid t = true)) →
    ∃ s' t', exec (.fence sc kind) s = .next s' ∧ OnlyThread s s' u t' ∧ SameThread t t' ∧ Flows u t t' ∧ ∀ n, t'.reg n = t.reg n) ∧
  (∀ sc kind s u t, Turn s u t → Issues (.fence sc kind) u t → sc ≠ .core →
    (earlierLoads s u.tid t = false ∨ kind ≠ .acq ∧ earlierStores s u.tid t = false) →
    ∃ s', exec (.fence sc kind) s = .next s' ∧ Waits s s' u t (.fence true (kind != .acq) none 0 .again)) ∧
  (∀ s u t, Turn s u t → Issues (.fence .core .engine) u t → strokeLeft t false true = false → enginesOpen s u.tid s.net.nextReq = true →
    ∃ s', exec (.fence .core .engine) s = .next s' ∧ Waits s s' u t (.fence false false (some s.net.nextReq) 0 (.done (headLast u.head)))) ∧
  (∀ s u t, Turn s u t → Issues (.fence .core .engine) u t → strokeLeft t false true = true →
    ∃ s', exec (.fence .core .engine) s = .next s' ∧ Waits s s' u t (.fence false true none 0 .again))

/-- spec/05 R86, spec/10 R186, spec/16 R255, spec/17 R263: the sys instructions change the launch's plan, its recorded map changes, its map or a path's entry where the spec's
tests hold, ask the launch manager for an answer and park until it comes; a test that fails changes nothing and is answered with a trap.
Beyond the rules' words it takes the model's own readings, log entry 55. -/
def Obligations.ManagerOperationsComplete : Prop :=
  (∀ a s u t l, Turn s u t → Issues (.sysRplan a) u t → s.launch? (tidLaunch u.tid) = some l →
    let w : Word := BitVec.ofNat 64 (lstoreValue s t.core (t.g a).toNat 8)
    let p := w.toNat % 2 ^ 12 + 1
    let ranks := (List.range p).map fun k => lstoreValue s t.core ((t.g a).toNat + 8 + 2 * k) 2
    checkLocal s t (t.g a) 8 8 true false = none → checkLocal s t (t.g a + 8) ((2 * p + 7) / 8 * 8) 8 true false = none →
    w.toNat / 2 ^ 12 % 2 ^ 8 = 0 → w.toNat / 2 ^ 28 = 0 → w.toNat / 2 ^ 20 % 2 ^ 8 ≠ 0 → ranks.Nodup →
    l.desc.job ≠ 0 ∨ ranks = [s.cfg.package] → Sound s t.core (t.g a).toNat (8 + (2 * p + 7) / 8 * 8) →
    ∃ s', exec (.sysRplan a) s = .next s' ∧ s'.thread? u.tid = some { t with status := .parked (.reply (.done (headLast u.head))) } ∧
      s'.launch? (tidLaunch u.tid) = some { l with rplan := some (w.toNat / 2 ^ 20 % 2 ^ 8, ranks) } ∧ s'.cores = s.cores ∧
      s'.net = { s.net with units := s.net.units ++ [.sys u.tid true (t.g a) (headLast u.head)] }) ∧
  (∀ s u t l, Turn s u t → Issues .sysMapver u t → s.launch? (tidLaunch u.tid) = some l → l.desc.travelling = true → changesGap s l = none →
    ∃ s' l', exec .sysMapver s = .next s' ∧ s'.thread? u.tid = some { t with status := .parked (.reply (.done (headLast u.head))) } ∧
      s'.launch? (tidLaunch u.tid) = some l' ∧ l'.mapVer = l.mapVer + 1 ∧ l'.mapChanges = [] ∧
      l'.segments = l.segments.map (fun x => { x with reps := recordedReps l x }) ∧
      (∀ g ∈ l.cores, (s'.core g).iss.mapCache = []) ∧ s'.net.units = s.net.units ++ [.sys u.tid true 0 (headLast u.head)]) ∧
  (∀ a b s u t l g c, Turn s u t → Issues (.sysRepadd a b) u t → s.launch? (tidLaunch u.tid) = some l → l.desc.travelling = true →
    l.segments.find? (fun y => y.id == (t.g a).toNat) = some g → launchCore s l (t.g b) = some c →
    ((recordedReps l g).length < 4 ∧ isSpare s l c = true →
      ∃ s', exec (.sysRepadd a b) s = .next s' ∧ Waits s s' u t (.reply (.done (headLast u.head))) ∧
        s'.launch? (tidLaunch u.tid) = some { l with mapChanges := l.mapChanges ++ [(true, g.id, c)] } ∧
        s'.net.units = s.net.units ++ [.sys u.tid true (t.g a) (headLast u.head)]) ∧
    (4 ≤ (recordedReps l g).length ∨ isSpare s l c = false →
      ∃ s', exec (.sysRepadd a b) s = .next s' ∧ Waits s s' u t (.reply (.done (headLast u.head))) ∧ s'.launches = s.launches ∧
        s'.net.units = s.net.units ++ [.sys u.tid false (t.g a) (headLast u.head)])) ∧
  (∀ a b s u t l g c, Turn s u t → Issues (.sysRepdel a b) u t → s.launch? (tidLaunch u.tid) = some l → l.desc.travelling = true →
    l.segments.find? (fun y => y.id == (t.g a).toNat) = some g → launchCore s l (t.g b) = some c →
    ((recordedReps l g).contains c = true ∧ 2 ≤ (recordedReps l g).length →
      ∃ s', exec (.sysRepdel a b) s = .next s' ∧ Waits s s' u t (.reply (.done (headLast u.head))) ∧
        s'.launch? (tidLaunch u.tid) = some { l with mapChanges := l.mapChanges ++ [(false, g.id, c)] } ∧
        s'.net.units = s.net.units ++ [.sys u.tid true (t.g a) (headLast u.head)]) ∧
    ((recordedReps l g).length ≤ 1 →
      ∃ s', exec (.sysRepdel a b) s = .next s' ∧ Waits s s' u t (.reply (.done (headLast u.head))) ∧ s'.launches = s.launches ∧
        s'.net.units = s.net.units ++ [.sys u.tid false (t.g a) (headLast u.head)])) ∧
  (∀ a b s u t, Turn s u t → Issues (.sysPath a b) u t → checkLocal s t (t.g a) 40 8 true false = none → Sound s t.core (t.g a).toNat 40 → (t.g b).toNat ≤ 255 →
    (s.path (t.g b).toNat).grant = 0 → (s.path (t.g b).toNat).trans = none →
    let bytes := (s.core t.core).lstore.bytes (t.g a).toNat 40
    let e := readEntry bytes
    (e.valid = true → entryOk s (t.g b).toNat (leWord (bytes.take 8)) e = true) →
    ∃ s', exec (.sysPath a b) s = .next s' ∧ Waits s s' u t (.reply (.done (headLast u.head))) ∧
      s'.path (t.g b).toNat = { Path.reset with entry := if e.valid then e else PathEntry.reset } ∧
      (∀ p, p ≠ (t.g b).toNat → s'.path p = s.path p) ∧ s'.net.units = s.net.units ++ [.sys u.tid true (t.g a) (headLast u.head)]) ∧
  (∀ a b s u t, Turn s u t → Issues (.sysPath a b) u t → checkLocal s t (t.g a) 40 8 true false = none → Sound s t.core (t.g a).toNat 40 →
    255 < (t.g b).toNat ∨ (s.path (t.g b).toNat).grant ≠ 0 ∨ (s.path (t.g b).toNat).trans ≠ none →
    ∃ s', exec (.sysPath a b) s = .next s' ∧ Waits s s' u t (.reply (.done (headLast u.head))) ∧ s'.spool = s.spool ∧
      s'.net.units = s.net.units ++ [.sys u.tid false (t.g a) (headLast u.head)])

/-! ### The matrix engine, latches, rings and the epilogue unit (spec/09 R156 to R179, spec/10 R196, spec/03 R45 to R54) -/

namespace Sys2Proof.Claims

/-- The first operation of core g's epilogue unit is o, no mma is at work on its tiles, what it reads holds no uncorrectable error, its thread t waits for it,
and may go on when it is done. -/
structure AtUnit (s : State) (g : Nat) (o : EpOp) (rest : List EpOp) (t : Thread) (last : Bool) : Prop where
  queue : (s.core g).mx.epilogue = o :: rest
  clock : coreClocked s g = true
  free : waitsTile s g o = false
  sound : matrixMet s g o.tilesRead (EpOp.runsRead (s.core g) o) = none
  goOn : MayGoOn s o.tid t last
  status : t.status = .parked (.matrix (.done last))

/-- The operation is done: it has left the unit, and its thread, with its registers but d and its pc moved on, is Ready-unseated (R158). -/
def UnitDone (s s' : State) (g : Nat) (o : EpOp) (rest : List EpOp) (t : Thread) (last : Bool) (d : Reg) (v : Word) : Prop :=
  (s'.core g).mx.epilogue = rest ∧ (s'.core g).mx.queue = (s.core g).mx.queue ∧
    ∃ t', s'.thread? o.tid = some t' ∧ t'.status = .ready ∧ t'.pc = (seqThread t t.pc last).pc ∧ OnlyReg t t' d v

/-- Instruction i of the turn joins the end of its core's epilogue unit as operation o, its thread parked until it is done, and changes nothing else. -/
def Queued (i : Instr) (s : State) (u : Issue) (t : Thread) (o : EpOp) : Prop :=
  ∃ s', exec i s = .next s' ∧ s'.thread? u.tid = some { t with status := .parked (.matrix (.done (headLast u.head))) } ∧
    (∀ x, x ≠ u.tid → s'.thread? x = s.thread? x) ∧ (∀ g, g ≠ t.core → s'.core g = s.core g) ∧ s'.net = s.net ∧
    s'.core t.core = { s.core t.core with mx := { (s.core t.core).mx with epilogue := (s.core t.core).mx.epilogue ++ [o] } }

/-- The operation an instruction of the unit leaves there: the values of its operands, the tiles it names, and those that an mma must have left (R158). -/
def unitOp (i : Instr) (u : Issue) (t : Thread) (a b c : Reg) (x y : TileRef) (tiles : List Nat) : EpOp :=
  { tid := u.tid, instr := i, head := u.head, va := t.g a, vb := t.g b, vc := t.g c, tile := physTile t x, tile2 := physTile t y, tiles := tiles }

/-- A number exceeds the largest finite value of a format at a block's scale (spec/03 R49). -/
def TooLarge (f : Fmt) (scale : Nat) (v : FVal) : Prop :=
  ((layoutOf f).maxM : Rat) * (2 : Rat) ^ (layoutOf f).maxE < (ratOf v).abs * (2 : Rat) ^ ((127 : Int) - scale)

end Sys2Proof.Claims

/-- spec/09 R159 to R164, R170, R171, spec/10 R196, R321, spec/03 R48: mma takes its place behind the matrix operations before it and parks, the first four
being the queue; starting and completing it writes every element of its tile, whose
i8 chunks are exact sums modulo 2^32, its kind, and the flags of its thread. tstat and tring read and turn; the operand latch is loaded, passed round the ring, taken,
the thread parked until it is done; the die's ring unit is asked to join or dissolve a ring, does so or refuses, and its answer ends the wait or
traps. -/
def Obligations.MatrixEngineLatchesAndRings : Prop :=
  (∀ x a b c f s u t, Turn s u t → Issues (.mma x a b c f) u t → mmaTrap s t (t.g a) (t.g b) (t.g c) (b == 0) (c != 0) f = none →
    ∃ s', exec (.mma x a b c f) s = .next s' ∧ s'.thread? u.tid = some { t with status := .parked (.matrix (.done (headLast u.head))) } ∧
      (s'.core t.core).lstore = (s.core t.core).lstore ∧ (s'.core t.core).mx.tiles = (s.core t.core).mx.tiles ∧
      (s'.core t.core).mx.queue = (s.core t.core).mx.queue ++
        [{ tid := u.tid, tile := physTile t x, a := (t.g a).toNat, b := if b = 0 then none else some (t.g b).toNat,
           c := if c = 0 then none else some (t.g c).toNat, x := f, started := false, begun := 0, chunks := 0, flags := 0 }]) ∧
  (∀ c : Core, c.mmas = c.mx.queue.take 4) ∧
  (∀ x a b c f s u t k v, Turn s u t → Issues (.mma x a b c f) u t → mmaTrap s t (t.g a) (t.g b) (t.g c) (b == 0) (c != 0) f = some (k, v) →
    Takes (.mma x a b c f) s u k v) ∧
  (∀ g s o rest, (s.core g).mx.queue = o :: rest → o.started = false → coreClocked s g = true → preemptBegan s g = none →
    exec (.mmaStart g) s = .next (s.setCore g { s.core g with
      mx := { (s.core g).mx with queue := { o with started := true, begun := s.coreClock g } :: rest } })) ∧
  (∀ g s o rest t last, (s.core g).mx.queue = o :: rest → o.started = true → o.chunks = 0 → coreClocked s g = true →
    mayComplete s g o = true → matrixMet s g (if o.x.ow then [] else [o.tile]) (mmaRuns o) = none → MayGoOn s o.tid t last →
    t.status = .parked (.matrix (.done last)) →
    let kind := accKind o.x.fmt
    o.x.n.toNat + 1 ≤ kindCols kind →
    ∃ s' t', exec (.mmaComplete g) s = .next s' ∧ s'.thread? o.tid = some t' ∧ t'.status = .ready ∧ t'.pc = (seqThread t t.pc last).pc ∧
      (∀ n, t'.reg n = t.reg n) ∧
      t'.sp = { t.sp with fstat := t.sp.fstat ||| ((runChunks s g o (o.x.k.toNat + 1)).2 &&& 0x34).setWidth 15 } ∧ (s'.core g).mx.queue = rest ∧ ((s'.core g).tile o.tile).st.kind = kind ∧
      (∀ p, p ≠ o.tile → (s'.core g).tile p = (s.core g).tile p) ∧ (s'.core g).lstore = (s.core g).lstore ∧
      ∀ i j, i ≤ o.x.m.toNat → j ≤ o.x.n.toNat →
        ((s'.core g).tile o.tile).code kind i j =
          (chunksFrom (s.core g) o i j (o.x.k.toNat + 1) 0 (if o.x.ow then 0 else ((s.core g).tile o.tile).code kind i j, 0)).1
            % 2 ^ (8 * kindBytes kind)) ∧
  (∀ (c : Core) (o : MmaOp) i j q acc bp, o.x.fmt = .i8 → o.c = none → o.b = some bp →
    (chunkSum c o i j q acc).1 =
      ((signedOf 32 acc + ((List.range 64).map fun k =>
          (Memory.get c.lstore (o.a + i * o.x.stride.toNat + (q * 64 + k))).toInt *
          (Memory.get c.lstore (bp + (j * (64 * (o.x.k.toNat + 1)) + (q * 64 + k)))).toInt).sum) % 2 ^ 32).toNat) ∧
  (∀ d x clr s u t, Turn s u t → Issues (.tstat d x clr) u t → Stays s u t → tileBusy (s.core t.core) (physTile t x) = false →
    let p := physTile t x
    let st := ((s.core t.core).tile p).st
    ∃ s' t', exec (.tstat d x clr) s = .next s' ∧ s'.thread? u.tid = some t' ∧ SameThread t t' ∧ Flows u t t' ∧
      OnlyReg t t' d (BitVec.ofNat 64 ((if st.of_ then 4 else 0) + (if st.nv then 16 else 0) + (if st.sa then 32 else 0) + 256 * st.kind.toNat
        + st.rsc.toNat * 2 ^ 16)) ∧
      ((s'.core t.core).tile p).bytes = ((s.core t.core).tile p).bytes ∧
      ((s'.core t.core).tile p).st = if clr then { of_ := false, nv := false, sa := false, kind := st.kind, rsc := 0 } else st) ∧
  (∀ op a s u t, Turn s u t → Issues (.tring op a) u t → Stays s u t →
    ∃ s' t', exec (.tring op a) s = .next s' ∧ OnlyThread s s' u t' ∧ SameThread t t' ∧ Flows u t t' ∧ (∀ n, t'.reg n = t.reg n) ∧
      t'.preds = t.preds ∧
      t'.sp = { t.sp with tri := (match op with
        | .inc => BitVec.ofNat 6 (t.sp.tri.toNat + 1)
        | .add => BitVec.ofNat 6 (t.sp.tri.toNat + (t.g a).toNat)
        | .set => BitVec.ofNat 6 (t.g a).toNat) }) ∧
  (∀ a s u t, Turn s u t → Issues (.mmrLoad a) u t → Stays s u t → checkLocal s t (t.g a) 16384 64 true false = none →
    latchRead (s.core t.core) = false → Sound s t.core (t.g a).toNat 16384 →
    ∃ s', exec (.mmrLoad a) s = .next s' ∧ s'.thread? u.tid = some { t with status := .parked (.matrix (.done (headLast u.head))) } ∧
      s'.core t.core = { s.core t.core with mx := { (s.core t.core).mx with operand := (s'.core t.core).mx.operand } } ∧
      ∀ i, i < 16384 → Memory.get (s'.core t.core).mx.operand i = Memory.get (s.core t.core).lstore ((t.g a).toNat + i)) ∧
  (∀ s u t base n, Turn s u t → Issues .mmrPass u t → (s.core t.core).mx.ring = some (base, n) → (s.core t.core).mx.passing = [] →
    (s.core t.core).mx.transit = none → coreClocked s t.core = true →
    let next := t.core / 256 * 256 + base + (t.core % 256 - base + 1) % n
    ((s.core next).mx.incomingFull = false →
      ∃ s', exec .mmrPass s = .next s' ∧ s'.thread? u.tid = some { t with status := .parked (.matrix (.done (headLast u.head))) } ∧
        (s'.core t.core).mx = { (s.core t.core).mx with transit := some ((s.core t.core).mx.operand, u.tid, next) }) ∧
    ((s.core next).mx.incomingFull = true →
      ∃ s', exec .mmrPass s = .next s' ∧ s'.thread? u.tid = some { t with status := .parked (.fullWord (.done (headLast u.head))) } ∧
        (s'.core t.core).mx = { (s.core t.core).mx with passing := [u.tid] })) ∧
  (∀ s u t r, Turn s u t → Issues .mmrTake u t → Stays s u t → (s.core t.core).mx.ring = some r → (s.core t.core).mx.takes = [] →
    coreClocked s t.core = true →
    ((s.core t.core).mx.incomingFull = true → latchRead (s.core t.core) = false →
      ∃ s', exec .mmrTake s = .next s' ∧ s'.thread? u.tid = some { t with status := .parked (.matrix (.done (headLast u.head))) } ∧
        (s'.core t.core).mx = { (s.core t.core).mx with operand := (s.core t.core).mx.incoming, incoming := [], incomingFull := false }) ∧
    ((s.core t.core).mx.incomingFull = false ∨ latchRead (s.core t.core) = true →
      ∃ s', exec .mmrTake s = .next s' ∧ s'.thread? u.tid = some { t with status := .parked (.emptyWord (.done (headLast u.head))) } ∧
        (s'.core t.core).mx = { (s.core t.core).mx with takes := [u.tid] })) ∧
  (∀ i s u t, i = Instr.mmrPass ∨ i = .mmrTake → Turn s u t → Issues i u t → (s.core t.core).mx.ring = none → Takes i s u 0x01 0) ∧
  (∀ g s bytes tid n t last, (s.core g).mx.transit = some (bytes, tid, n) → MayGoOn s tid t last → t.status = .parked (.matrix (.done last)) →
    g ≠ n → coreClocked s g = true →
    ∃ s', exec (.latchPassArrival g) s = .next s' ∧ ReadyAgain s s' tid t last ∧ (s'.core n).mx.incoming = bytes ∧
      (s'.core n).mx.incomingFull = true ∧ (s'.core g).mx.transit = none) ∧
  (∀ i a dissolve (log2 : BitVec 3) s u t,
    (i = Instr.ringJoin a log2 ∧ dissolve = false) ∨ (i = .ringDissolve a ∧ dissolve = true ∧ log2 = 0) ∨ (i = .ringDissolveSized a log2 ∧ dissolve = true) →
    Turn s u t → Issues i u t →
    ∃ s', exec i s = .next s' ∧ Waits s s' u t (.reply (.done (headLast u.head))) ∧
      s'.net = { s.net with units := s.net.units ++ [.ringAsk u.tid (t.core / 256) dissolve log2.toNat (t.g a) (headLast u.head)] }) ∧
  (∀ k s tid d log2 base last l, s.net.units[k]? = some (.ringAsk tid d false log2 base last) →
    firstNote s k (.ringAsk tid d false log2 base last) = true → s.launch? (tidLaunch tid) = some l →
    let at_ := fun i => d * 256 + base.toNat + i
    let may := base.toNat % 2 ^ log2 = 0 ∧ base.toNat + 2 ^ log2 ≤ 256 ∧
      ∀ i, i < 2 ^ log2 → setHas l.cores (at_ i) = true ∧ (s.core (at_ i)).mx.ring = none
    (may → ∃ s', exec (.unitReply k) s = .next s' ∧ s'.threads = s.threads ∧
      s'.net = { s.net with units := s.net.units.eraseIdx k ++ [.ring tid d true base last] } ∧
      ∀ i, i < 2 ^ log2 →
        (s'.core (at_ i)).mx = { (s.core (at_ i)).mx with ring := some (base.toNat, 2 ^ log2), incoming := [], incomingFull := false }) ∧
    (¬ may → exec (.unitReply k) s =
      .next (s.modNet fun n => { n with units := n.units.eraseIdx k ++ [.ring tid d false base last] }))) ∧
  (∀ k s tid d log2 a last, s.net.units[k]? = some (.ringAsk tid d true log2 a last) → firstNote s k (.ringAsk tid d true log2 a last) = true →
    (∀ base n, log2 = 0 → a.toNat < 256 → (s.core (d * 256 + a.toNat)).mx.ring = some (base, n) →
      (∀ i, i < n → ringHeld (s.core (d * 256 + base + i)) = false) →
      ∃ s', exec (.unitReply k) s = .next s' ∧ s'.threads = s.threads ∧
        s'.net = { s.net with units := s.net.units.eraseIdx k ++ [.ring tid d true a last] } ∧
        ∀ i, i < n → (s'.core (d * 256 + base + i)).mx = { (s.core (d * 256 + base + i)).mx with ring := none, incoming := [], incomingFull := false }) ∧
    (log2 ≠ 0 ∨ 256 ≤ a.toNat ∨ (s.core (d * 256 + a.toNat)).mx.ring = none ∨
        (∃ base n i, (s.core (d * 256 + a.toNat)).mx.ring = some (base, n) ∧ i < n ∧ ringHeld (s.core (d * 256 + base + i)) = true) →
      exec (.unitReply k) s = .next (s.modNet fun n => { n with units := n.units.eraseIdx k ++ [.ring tid d false a last] }))) ∧
  (∀ k s tid d ok tval last, s.net.units[k]? = some (.ring tid d ok tval last) → firstNote s k (.ring tid d ok tval last) = true →
    (∀ t r, ok = true → MayGoOn s tid t last → t.status = .parked (.reply r) →
      ∃ s', exec (.unitReply k) s = .next s' ∧ ReadyAgain s s' tid t last) ∧
    (ok = false → exec (.unitReply k) s = .next (trapWaiting (s.modNet fun n => { n with units := n.units.eraseIdx k }) tid 0x01 tval)))

/-- spec/09 R158, R165 to R174: an instruction of the epilogue unit joins the unit behind those before it and parks. When no mma is at work on its tiles it is completed: tzero clears its tile, tscl
and tact map every element, clamp with bounds out of order trapping, tred writes its sums, tcvt its rows and, into a block format, the scale of each block raised
until its elements fit, or with QTRAP set takes cause 0x0A for the first block that would be rescaled (spec/03 R49, R50), topk keeps the row's live candidates and tkrd writes the best of them; nothing
outside what each names changes.
Beyond the rules' words it takes the model's own readings, log entry 58. -/
def Obligations.EpilogueOperationsQueueAndComplete : Prop :=
  (∀ i x s u t o,
    (i = Instr.tzero x ∧ o = unitOp i u t 0 0 0 x x [physTile t x] ∨ (∃ a b c mode bc, i = .tscl x a b c mode bc ∧ o = unitOp i u t a b c x x [physTile t x]) ∨
      (∃ a b op, i = .tact x a b op ∧ o = unitOp i u t a b 0 x x [physTile t x]) ∨
      (∃ p a c fmt b32 stride, i = .tcvt p a x c fmt b32 stride ∧ o = unitOp i u t a 0 c x x [physTile t x]) ∨
      (∃ a cols op, i = .tred a x cols op ∧ o = unitOp i u t a 0 0 x x [physTile t x]) ∨
      (∃ a b k, i = .topk x a b k ∧ o = unitOp i u t a b 0 x x [physTile t x])) →
    Turn s u t → Issues i u t → Queued i s u t o) ∧
  (∀ d a row clr s u t, Turn s u t → Issues (.tkrd d a row clr) u t →
    Queued (.tkrd d a row clr) s u t (unitOp (.tkrd d a row clr) u t a 0 0 0 0 [])) ∧
  (∀ g s o rest t last x, AtUnit s g o rest t last → o.instr = .tzero x →
    ∃ s', exec (.epilogueComplete g) s = .next s' ∧ UnitDone s s' g o rest t last 0 0 ∧
      (s'.core g).tile o.tile = { bytes := [], st := { ((s.core g).tile o.tile).st with kind := 0 } } ∧
      (∀ p, p ≠ o.tile → (s'.core g).tile p = (s.core g).tile p) ∧ (s'.core g).lstore = (s.core g).lstore) ∧
  (∀ g s o rest t last x a b, AtUnit s g o rest t last → o.instr = .tact x a b .relu → ((s.core g).tile o.tile).st.kind = 0 →
    ∃ s', exec (.epilogueComplete g) s = .next s' ∧ UnitDone s s' g o rest t last 0 0 ∧
      (∀ i j, i < 16 → j < 16 →
        let c := ((s.core g).tile o.tile).code 0 i j
        ((s'.core g).tile o.tile).code 0 i j =
          if (val32 c).isNan then 0x7FC00000 else if 2 ^ 31 ≤ c then 0 else c) ∧
      ((s'.core g).tile o.tile).st.kind = 0 ∧ (∀ p, p ≠ o.tile → (s'.core g).tile p = (s.core g).tile p) ∧
      (s'.core g).lstore = (s.core g).lstore) ∧
  (∀ g s o rest t last x a b op, AtUnit s g o rest t last → o.instr = .tact x a b op → op = .gelu ∨ op = .silu → ((s.core g).tile o.tile).st.kind = 0 →
    ∃ s', exec (.epilogueComplete g) s = .next s' ∧ UnitDone s s' g o rest t last 0 0 ∧
      (∀ i j, i < 16 → j < 16 →
        let c := ((s.core g).tile o.tile).code 0 i j
        let z := if op = .gelu then mul32 0xC0135761 (fma32 (mul32 0x3D372713 (mul32 c c)) c c) else mul32 0xBFB8AA3B c
        ((s'.core g).tile o.tile).code 0 i j =
          if (val32 c).isNan then 0x7FC00000 else if c = 0x7F800000 then c else if c = 0xFF800000 then 0x80000000
          else mul32 c (frcpCode (add32 0x3F800000 (fexp2Code z).1).1).1 % 2 ^ 32) ∧
      ((s'.core g).tile o.tile).st.kind = 0 ∧ (∀ p, p ≠ o.tile → (s'.core g).tile p = (s.core g).tile p) ∧
      (s'.core g).lstore = (s.core g).lstore) ∧
  (∀ g s o rest t last x a b, AtUnit s g o rest t last → o.instr = .tact x a b .clamp → ((s.core g).tile o.tile).st.kind = 0 →
    let lo := o.va.toNat % 2 ^ 32
    let hi := o.vb.toNat % 2 ^ 32
    let less := fun a b => cmpF (val32 a) (val32 b) = some .lt ∨ a = 0x80000000 ∧ b = 0
    ((val32 lo).isNan = true ∨ (val32 hi).isNan = true ∨ cmpF (val32 lo) (val32 hi) = some .gt →
      exec (.epilogueComplete g) s = .next (trapWaiting (dropEpilogue s g) o.tid 0x01 o.va)) ∧
    ((val32 lo).isNan = false → (val32 hi).isNan = false → cmpF (val32 lo) (val32 hi) ≠ some .gt →
      ∃ s', exec (.epilogueComplete g) s = .next s' ∧ UnitDone s s' g o rest t last 0 0 ∧
        (∀ i j, i < 16 → j < 16 →
          let c := ((s.core g).tile o.tile).code 0 i j
          let c' := ((s'.core g).tile o.tile).code 0 i j
          ((val32 c).isNan = true → c' = 0x7FC00000) ∧
          ((val32 c).isNan = false →
            (less c lo → ¬ less hi lo → c' = lo) ∧ (less c lo → less hi lo → c' = hi) ∧ (¬ less c lo → less hi c → c' = hi) ∧
            (¬ less c lo → ¬ less hi c → c' = c))) ∧
        (∀ p, p ≠ o.tile → (s'.core g).tile p = (s.core g).tile p) ∧ (s'.core g).lstore = (s.core g).lstore)) ∧
  (∀ g s o rest t last x a b bc, AtUnit s g o rest t last → o.instr = .tscl x a b 0 .row bc → ((s.core g).tile o.tile).st.kind = 0 →
    o.va.toNat % 8 = 0 → checkLocal s t o.va 64 1 true false = none →
    ∃ s', exec (.epilogueComplete g) s = .next s' ∧ UnitDone s s' g o rest t last 0 0 ∧
      (∀ i j, i < 16 → j < 16 → ((s'.core g).tile o.tile).code 0 i j =
        (encodeF .f32 .rne (mulF (val32 (((s.core g).tile o.tile).code 0 i j)) (val32 (lstoreValue s g (o.va.toNat + 4 * i) 4))).1).1 % 2 ^ 32) ∧
      (∀ p, p ≠ o.tile → (s'.core g).tile p = (s.core g).tile p) ∧ (s'.core g).lstore = (s.core g).lstore) ∧
  (∀ g s o rest t last x a b c mode bc, AtUnit s g o rest t last → t.io.dying = false → o.instr = .tscl x a b c mode bc →
    ((s.core g).tile o.tile).st.kind ≠ 0 →
    exec (.epilogueComplete g) s =
      .next (trapWaiting (dropEpilogue s g) o.tid 0x01 (((s.core g).tile o.tile).st.kind.setWidth 64))) ∧
  (∀ g s o rest t last x a, AtUnit s g o rest t last → o.instr = .tred a x false .sum → ((s.core g).tile o.tile).st.kind = 2 →
    o.va.toNat % 4 = 0 → checkLocal s t o.va 64 1 false true = none →
    ∃ s', exec (.epilogueComplete g) s = .next s' ∧ UnitDone s s' g o rest t last 0 0 ∧
      (∀ i, i < 16 → lstoreValue s' g (o.va.toNat + 4 * i) 4 =
        (((List.range 16).map fun j => signedOf 32 (((s.core g).tile o.tile).code 2 i j)).sum % 2 ^ 32).toNat) ∧
      (∀ y, ¬ (o.va.toNat ≤ y ∧ y < o.va.toNat + 64) → Memory.get (s'.core g).lstore y = Memory.get (s.core g).lstore y) ∧
      (∀ p, ((s'.core g).tile p).bytes = ((s.core g).tile p).bytes)) ∧
  (∀ g s o rest t last p a x fmt b32, AtUnit s g o rest t last → o.instr = .tcvt p a x 0 fmt b32 0 → ((s.core g).tile o.tile).st.kind = 0 →
    fmt = .bf16 ∨ fmt = .f16 → o.va.toNat % 8 = 0 → o.va.toNat + 512 < 2 ^ 63 →
    (∀ i, i < 16 → checkLocal s t (o.va + BitVec.ofNat 64 (i * 32)) 32 1 false true = none) →
    ∃ s', exec (.epilogueComplete g) s = .next s' ∧ UnitDone s s' g o rest t last 0 0 ∧
      (∀ i j, i < 16 → j < 16 → lstoreValue s' g (o.va.toNat + 32 * i + 2 * j) 2 =
        (encodeF fmt .rne (val32 (((s.core g).tile o.tile).code 0 i j))).1 % 2 ^ 16) ∧
      (∀ y, ¬ (o.va.toNat ≤ y ∧ y < o.va.toNat + 512) → Memory.get (s'.core g).lstore y = Memory.get (s.core g).lstore y)) ∧
  (∀ g s o rest t last p a x c fmt b32, AtUnit s g o rest t last → o.instr = .tcvt p a x c fmt b32 0 → ((s.core g).tile o.tile).st.kind = 0 →
    fmt = .e4m3 ∨ fmt = .e5m2 ∨ fmt = .nb8 → c ≠ 0 → o.va.toNat % 8 = 0 → o.vc.toNat % 8 = 0 → o.va.toNat + 256 < 2 ^ 63 →
    (∀ i, i < 16 → checkLocal s t (o.va + BitVec.ofNat 64 (i * 16)) 16 1 false true = none) →
    let bs := if b32 then 32 else 16
    checkLocal s t o.vc (256 / bs) 1 true true = none → o.vc.toNat + 256 / bs ≤ o.va.toNat ∨ o.va.toNat + 256 ≤ o.vc.toNat →
    let first := fun q => lstoreValue s g (o.vc.toNat + q) 1
    let el := fun e => val32 (((s.core g).tile o.tile).code 0 (e / 16) (e % 16))
    let tooBig := fun q n => ∃ e, q * bs ≤ e ∧ e < (q + 1) * bs ∧ TooLarge fmt n (el e)
    let rescales := fun q => q < 256 / bs ∧ first q < 0xFE ∧ t.sp.qmax ≠ 0 ∧ tooBig q (first q)
    (∀ q, t.sp.fstat.getLsbD 14 = true → rescales q → (∀ r, r < q → ¬ rescales r) →
      exec (.epilogueComplete g) s = .next (trapWaiting (dropEpilogue s g) o.tid 0x0A (BitVec.ofNat 64 q))) ∧
    (t.sp.fstat.getLsbD 14 = false ∨ (∀ q, ¬ rescales q) →
      ∃ s' t' sat, exec (.epilogueComplete g) s = .next s' ∧ UnitDone s s' g o rest t last 0 0 ∧ s'.thread? o.tid = some t' ∧
        let final := fun q => lstoreValue s' g (o.vc.toNat + q) 1
        let saturated := fun e => final (e / bs) ≠ 0xFF ∧ (fmt ≠ .nb8 ∧ TooLarge fmt (final (e / bs)) (el e) ∨
          (encodeF fmt .rne ((el e).scale (127 - (final (e / bs) : Int)))).2.getLsbD 5 = true)
        (∀ q, q < 256 / bs → (first q = 0xFF → final q = 0xFF) ∧
          (first q ≠ 0xFF → first q ≤ final q ∧ final q ≤ first q + t.sp.qmax.toNat ∧ final q ≤ 0xFE ∧ (∀ n, first q ≤ n → n < final q → tooBig q n) ∧
            (final q = first q + t.sp.qmax.toNat ∨ final q = 0xFE ∨ ¬ tooBig q (final q)))) ∧
        (∀ e, e < 256 → (final (e / bs) = 0xFF → lstoreValue s' g (o.va.toNat + e) 1 = nanOf fmt) ∧
          (final (e / bs) ≠ 0xFF → fmt ≠ .nb8 → TooLarge fmt (final (e / bs)) (el e) →
            lstoreValue s' g (o.va.toNat + e) 1 = (if (el e).isNeg then 0x80 else 0) + if fmt = .e4m3 then 0x7E else 0x7B) ∧
          (final (e / bs) ≠ 0xFF → fmt = .nb8 ∨ ¬ TooLarge fmt (final (e / bs)) (el e) →
            lstoreValue s' g (o.va.toNat + e) 1 = (encodeF fmt .rne ((el e).scale (127 - (final (e / bs) : Int)))).1 % 2 ^ 8)) ∧
        (sat = true ↔ ∃ e, e < 256 ∧ saturated e) ∧ t'.preds = (t.setPair p (!sat) sat).preds ∧
        ((s'.core g).tile o.tile).st.rsc.toNat =
          min 255 (((s.core g).tile o.tile).st.rsc.toNat + ((List.range (256 / bs)).map fun q => final q - first q).sum) ∧
        (∀ y, ¬ (o.va.toNat ≤ y ∧ y < o.va.toNat + 256) → ¬ (o.vc.toNat ≤ y ∧ y < o.vc.toNat + 256 / bs) →
          Memory.get (s'.core g).lstore y = Memory.get (s.core g).lstore y))) ∧
  (∀ g s o rest t last x a b k, AtUnit s g o rest t last → o.instr = .topk x a b k → ((s.core g).tile o.tile).st.kind = 0 → k.new = true →
    o.va.toNat % 2 ^ 16 + 15 ≤ 0xFFFE → k.g = 0 →
    ∃ s', exec (.epilogueComplete g) s = .next s' ∧ UnitDone s s' g o rest t last 0 0 ∧
      (s'.core g).mx.topk.header = some (k.lim ++ k.g ++ k.k) ∧ (s'.core g).lstore = (s.core g).lstore ∧
      ∀ i, i < 16 → ∀ z, z ∈ tabGetD (s'.core g).mx.topk.rows i [] ↔
        ∃ j, j < 16 ∧ o.vb.getLsbD j = false ∧ (val32 (((s.core g).tile o.tile).code 0 i j)).isNan = false ∧
          z = { score := BitVec.ofNat 32 (((s.core g).tile o.tile).code 0 i j), index := o.va.toNat % 2 ^ 16 + j }) ∧
  (∀ g s o rest t last d a row clr h, AtUnit s g o rest t last → o.instr = .tkrd d a row clr → (s.core g).mx.topk.header = some h →
    let k := (h.extractLsb' 0 3).toNat + 1
    let r := topkResult h (tabGetD (s.core g).mx.topk.rows row.toNat [])
    o.va.toNat % 8 = 0 → checkLocal s t o.va (8 + 8 * k) 1 false true = none →
    ∃ s', exec (.epilogueComplete g) s = .next s' ∧ UnitDone s s' g o rest t last d (BitVec.ofNat 64 r.length) ∧
      lstoreValue s' g o.va.toNat 8 = r.length ∧
      (∀ e c, r[e]? = some c → c.index < 2 ^ 16 → lstoreValue s' g (o.va.toNat + 8 + 8 * e) 8 = c.score.toNat + c.index * 2 ^ 32) ∧
      (∀ e, r.length ≤ e → e < k → lstoreValue s' g (o.va.toNat + 8 + 8 * e) 8 = 0xFF800000 + 0xFFFF * 2 ^ 32) ∧
      (clr = true → tabGetD (s'.core g).mx.topk.rows row.toNat [] = [])) ∧
  (∀ (h : BitVec 13) (l : List Cand), (h.extractLsb' 3 5).toNat = 0 → (∀ c ∈ l, (val32 c.score.toNat).isNan = false) →
    (topkResult h l).length = min ((h.extractLsb' 0 3).toNat + 1) l.length ∧ (∀ c ∈ topkResult h l, c ∈ l) ∧
    (∀ c x, c ∈ topkResult h l → x ∈ l → x ∉ topkResult h l → candBefore x c = false))

/-- spec/09 R158, R175 to R179: plan binds 16 tiles, its marginals and its size; bal comes to a restart point after each half sweep, or ends after the second with the sweeps done and
whether it converged, where it has or the limit is reached, and at once where the plan is infeasible or the limit is 0; plnx writes the plan's entries and plnd its cost, which is +0 where every entry is excluded. A plan field that names
other tiles than the bound ones traps.
Beyond the rules' words it takes the model's own readings, log entries 59 and 69. -/
def Obligations.PlansBindBalanceAndRead : Prop :=
  (∀ i x s u t o,
    ((∃ a b c m1 n1, i = Instr.plan x a b c m1 n1 ∧ o = unitOp i u t a b c x x (planTiles t x)) ∨
      (∃ d a b p, i = .bal d a b p x ∧ o = unitOp i u t a b 0 x x (planTiles t x)) ∨
      (∃ a, i = .plnx a x ∧ o = unitOp i u t a 0 0 x x (planTiles t x))) →
    Turn s u t → Issues i u t → Queued i s u t o) ∧
  (∀ d cost x s u t, Turn s u t → Issues (.plnd d cost x) u t →
    Queued (.plnd d cost x) s u t (unitOp (.plnd d cost x) u t 0 0 0 x cost (planTiles t x ++ planTiles t cost))) ∧
  (∀ g s o rest t last x a b c (m1 n1 : BitVec 6), AtUnit s g o rest t last → o.instr = .plan x a b c m1 n1 →
    o.va.toNat % 4 = 0 → o.vb.toNat % 4 = 0 → o.vc.toNat % 4 = 0 →
    checkLocal s t o.va (4 * (m1.toNat + 1) * (n1.toNat + 1)) 1 true false = none → checkLocal s t o.vb (4 * (m1.toNat + 1)) 1 true false = none →
    checkLocal s t o.vc (4 * (n1.toNat + 1)) 1 true false = none →
    ∃ s', exec (.epilogueComplete g) s = .next s' ∧ UnitDone s s' g o rest t last 0 0 ∧ (s'.core g).lstore = (s.core g).lstore ∧
      (let p := (s'.core g).mx.plan
       p.tile = some o.tile ∧ p.m = m1.toNat + 1 ∧ p.n = n1.toNat + 1 ∧ p.inProgress = false ∧ p.s = 0 ∧ p.h = false ∧
       (∀ i, i ≤ m1.toNat → (vec32 p.a i) = lstoreValue s g (o.vb.toNat + 4 * i) 4 ∧ vec32 p.u i = 0) ∧
       (∀ j, j ≤ n1.toNat → (vec32 p.b j) = lstoreValue s g (o.vc.toNat + 4 * j) 4 ∧ vec32 p.v j = 0)) ∧
      (∀ i j, i ≤ m1.toNat → j ≤ n1.toNat →
        let v := lstoreValue s g (o.va.toNat + 4 * (i * (n1.toNat + 1) + j)) 4
        planEntry (s'.core g) o.tile i j = if (val32 v).isNan ∨ v = 0x7F800000 then 0xFF800000 else v) ∧
      (∀ i j, i < 64 → j < 64 → m1.toNat < i ∨ n1.toNat < j → planEntry (s'.core g) o.tile i j = 0xFF800000)) ∧
  (∀ g s o rest t last d a b p x, AtUnit s g o rest t last → o.instr = .bal d a b p x → (s.core g).mx.plan.tile = some o.tile →
    balTrap s g o x = none → (s.core g).mx.plan.infeasible = true →
    ∃ s' t', exec (.epilogueComplete g) s = .next s' ∧ UnitDone s s' g o rest t last d 0 ∧ s'.thread? o.tid = some t' ∧
      t'.preds = (t.setPair p false true).preds ∧ (s'.core g).mx.plan.inProgress = false) ∧
  (∀ g s o rest t last d a b p x, AtUnit s g o rest t last → o.instr = .bal d a b p x → balTrap s g o x = none → o.va ≠ 0 →
    (s.core g).mx.plan.infeasible = false → (s.core g).mx.plan.inProgress = false → launchLive s o.tid = true → t.io.dying = false →
    ∃ s', exec (.epilogueComplete g) s = .next s' ∧ (s'.core g).mx.epilogue = o :: rest ∧
      (s'.core g).mx.plan = { (balHalf (s.core g) { (s.core g).mx.plan with s := 0, h := false } true).1 with
        inProgress := true, h := true, limit := o.va.toNat, tol := o.vb.setWidth 32,
        flags := (balHalf (s.core g) (s.core g).mx.plan true).2 } ∧
      s'.thread? o.tid = some t) ∧
  (∀ g s o rest t last d a b p x, AtUnit s g o rest t last → o.instr = .bal d a b p x → balTrap s g o x = none →
    (s.core g).mx.plan.infeasible = false → (s.core g).mx.plan.inProgress = false → o.va = 0 →
    let conv := (errWithin (s.core g) (s.core g).mx.plan (o.vb.toNat % 2 ^ 32)).1
    ∃ s' t', exec (.epilogueComplete g) s = .next s' ∧ UnitDone s s' g o rest t last d 0 ∧ s'.thread? o.tid = some t' ∧
      t'.preds = (t.setPair p conv (!conv)).preds ∧
      (s'.core g).mx.plan = { (s.core g).mx.plan with s := 0, h := false, inProgress := false, limit := 0, tol := o.vb.setWidth 32, flags := 0 }) ∧
  (∀ g s o rest t last d a b p x, AtUnit s g o rest t last → o.instr = .bal d a b p x → balTrap s g o x = none → o.va ≠ 0 →
    (s.core g).mx.plan.infeasible = false → (s.core g).mx.plan.inProgress = true → (s.core g).mx.plan.h = true →
    let old := (s.core g).mx.plan
    let r := balHalf (s.core g) old false
    let e := errWithin (s.core g) r.1 (o.vb.toNat % 2 ^ 32)
    let new := { r.1 with h := false, s := old.s + 1, limit := o.va.toNat, tol := o.vb.setWidth 32 }
    (e.1 = true ∨ old.s + 1 = o.va.toNat →
      ∃ s' t', exec (.epilogueComplete g) s = .next s' ∧ UnitDone s s' g o rest t last d (BitVec.ofNat 64 (old.s + 1)) ∧
        s'.thread? o.tid = some t' ∧ t'.preds = (t.setPair p e.1 (!e.1)).preds ∧
        t'.sp = { t.sp with fstat := t.sp.fstat ||| ((old.flags ||| (r.2 ||| e.2)) &&& 0x34).setWidth 15 } ∧
        (s'.core g).mx.plan = { new with inProgress := false, flags := 0 }) ∧
    (e.1 = false → old.s + 1 ≠ o.va.toNat → launchLive s o.tid = true → t.io.dying = false →
      ∃ s', exec (.epilogueComplete g) s = .next s' ∧ (s'.core g).mx.epilogue = o :: rest ∧
        (s'.core g).mx.plan = { new with inProgress := true, flags := old.flags ||| (r.2 ||| e.2) } ∧ s'.thread? o.tid = some t)) ∧
  (∀ g s o rest t last a x, AtUnit s g o rest t last → o.instr = .plnx a x → (s.core g).mx.plan.tile = some o.tile →
    planKinds (s.core g) [o.tile] = none → o.va.toNat % 4 = 0 →
    let m := (s.core g).mx.plan.m
    let n := (s.core g).mx.plan.n
    checkLocal s t o.va (4 * m * n) 1 false true = none →
    ∃ s', exec (.epilogueComplete g) s = .next s' ∧ UnitDone s s' g o rest t last 0 0 ∧
      (∀ i j, i < m → j < n →
        lstoreValue s' g (o.va.toNat + 4 * (i * n + j)) 4 = (planP (s.core g) (s.core g).mx.plan i j).1 % 2 ^ 32) ∧
      (∀ y, ¬ (o.va.toNat ≤ y ∧ y < o.va.toNat + 4 * m * n) → Memory.get (s'.core g).lstore y = Memory.get (s.core g).lstore y)) ∧
  (∀ g s o rest t last d cost x, AtUnit s g o rest t last → o.instr = .plnd d cost x → (s.core g).mx.plan.tile = some o.tile →
    planKinds (s.core g) [o.tile, o.tile2] = none →
    (∀ i j, i < (s.core g).mx.plan.m → j < (s.core g).mx.plan.n → (planX (s.core g) (s.core g).mx.plan i j).1 = 0xFF800000) →
    ∃ s', exec (.epilogueComplete g) s = .next s' ∧ UnitDone s s' g o rest t last d 0) ∧
  (∀ g s o rest t last d cost x, AtUnit s g o rest t last → o.instr = .plnd d cost x → (s.core g).mx.plan.tile = some o.tile →
    planKinds (s.core g) [o.tile, o.tile2] = none → (s.core g).mx.plan.m = 1 → (s.core g).mx.plan.n = 1 →
    (planX (s.core g) (s.core g).mx.plan 0 0).1 ≠ 0xFF800000 →
    ∃ s', exec (.epilogueComplete g) s = .next s' ∧
      UnitDone s s' g o rest t last d (BitVec.ofNat 64 (encodeF .f32 .rne (sumF false
        [(mulF (val32 (planP (s.core g) (s.core g).mx.plan 0 0).1) (val32 (planEntry (s.core g) o.tile2 0 0))).1]).1).1) ∧
      (s'.core g).lstore = (s.core g).lstore) ∧
  (∀ g s o rest t last i x, AtUnit s g o rest t last → t.io.dying = false → (s.core g).mx.plan.tile ≠ some o.tile → o.instr = i →
    ((∃ a, i = Instr.plnx a x) ∨ (∃ d cost, i = .plnd d cost x) ∨ ∃ d a b p, i = .bal d a b p x) →
    exec (.epilogueComplete g) s = .next (trapWaiting (dropEpilogue s g) o.tid 0x01 (x.setWidth 64)))

/-! ### Engines, remote atomics, reductions and flows (spec/10 R180 to R189, spec/14 R234 to R238) -/

namespace Sys2Proof.Claims

/-- An operand of an engine command names a place; where that is the core's own L-store, n bytes of it lie below lcap in a window with the permission. -/
abbrev EngOk (s : State) (t : Thread) (ea : Word) (n : Nat) (w : Bool) : Prop :=
  placeOf s t.core ea ≠ none ∧ (eaLocal ea = true → n ≠ 0 → lstoreOk s t.core ea.toNat n (!w) w = true)

/-- With .bo, register d names an aligned barrier object in the own L-store, writable there, or in a remote one (R184). -/
abbrev ObjectOk (s : State) (t : Thread) (d : Reg) (bo : Bool) : Prop :=
  bo = true → (t.g d).toNat % 8 = 0 ∧ (eaLocal (t.g d) = true ∨ remoteOk (t.g d) = true) ∧
    (eaLocal (t.g d) = true → lstoreOk s t.core (t.g d).toNat 8 false true = true)

/-- Instruction i leaves its command at the end of its core's engine queue, its token registers pending, and goes on; no register, predicate or memory
changes (R180). -/
def Enters (i : Instr) (s : State) (u : Issue) (t : Thread) (pend : List Nat) (c : EngCmd) : Prop :=
  ∃ s' t', exec i s = .next s' ∧ s'.thread? u.tid = some t' ∧ Flows u t t' ∧ (∀ n, t'.reg n = t.reg n) ∧ t'.preds = t.preds ∧ t'.sp = t.sp ∧
    t'.status = t.status ∧ t'.pending = (pend.foldl Thread.setPending t).pending ∧
    s'.core t.core = { s.core t.core with engine := (s.core t.core).engine ++ [c] } ∧ (∀ g, g ≠ t.core → s'.core g = s.core g) ∧
    s'.net = { s.net with nextReq := s.net.nextReq + 1 } ∧ s'.dies = s.dies ∧ (∀ x, x ≠ u.tid → s'.thread? x = s.thread? x)

/-- The token register a command without an object makes pending. -/
def tokenReg (d : Reg) (bo : Bool) : List Nat := if bo then [] else [d.toNat]

end Sys2Proof.Claims

/-- spec/10 R180, R183 to R189: with its operands aligned, in place and permitted and fewer than 8 commands in the queue, copy, copyr, gath, mcast and ratom
enter their command and go on, the token registers pending; a full queue parks. A misaligned operand takes cause 0x05, a length out of range
0x01, a ratom of host memory 0x07.
Beyond the rules' words it takes the model's own readings, log entries 24 and 52. -/
def Obligations.EngineInstructionsEnterTheirCommand : Prop :=
  (∀ d a b c bo s u t, Turn s u t → Issues (.copy d a b c bo) u t → (t.g a).toNat % 8 = 0 → (t.g b).toNat % 8 = 0 → (t.g c).toNat % 8 = 0 →
    EngOk s t (t.g a) (t.g c).toNat true → EngOk s t (t.g b) (t.g c).toNat false → ObjectOk s t d bo → (t.g c).toNat ≤ 2 ^ 36 →
    (queueUse s t.core < 8 → Stays s u t → Enters (.copy d a b c bo) s u t (tokenReg d bo)
      (newCommand s u .copy d (if bo then some (t.g d) else none) (t.g a) (t.g b) (t.g c).toNat 0)) ∧
    (8 ≤ queueUse s t.core → ∃ s', exec (.copy d a b c bo) s = .next s' ∧ Waits s s' u t .engineQueue)) ∧
  (∀ d a b c bo s u t, Turn s u t → Issues (.copy d a b c bo) u t →
    ((t.g a).toNat % 8 ≠ 0 → Takes (.copy d a b c bo) s u 0x05 (t.g a)) ∧
    ((t.g a).toNat % 8 = 0 → (t.g b).toNat % 8 ≠ 0 → Takes (.copy d a b c bo) s u 0x05 (t.g b)) ∧
    ((t.g a).toNat % 8 = 0 → (t.g b).toNat % 8 = 0 → (t.g c).toNat % 8 = 0 → (bo = true → (t.g d).toNat % 8 = 0) →
      eaLocal (t.g a) = false → eaLocal (t.g b) = false → (bo = true → eaLocal (t.g d) = false) → 2 ^ 36 < (t.g c).toNat →
      Takes (.copy d a b c bo) s u 0x01 (t.g c))) ∧
  (∀ d a b c op bo tag s u t l, Turn s u t → Issues (.copyr d a b c op bo tag) u t → s.launch? (tidLaunch u.tid) = some l → l.rplan.isSome = true →
    (t.g a).toNat % 8 = 0 → (t.g b).toNat % 8 = 0 → (t.g c).toNat % 8 = 0 → 8 ≤ (t.g c).toNat → (t.g c).toNat ≤ 2 ^ 26 →
    EngOk s t (t.g a) (if op = .bf16 then 2 * (t.g c).toNat else (t.g c).toNat) true → EngOk s t (t.g b) (t.g c).toNat false →
    eaHost (t.g a) = false → ObjectOk s t d bo → queueUse s t.core < 8 → Stays s u t →
    Enters (.copyr d a b c op bo tag) s u t (tokenReg d bo)
      (newCommand s u (.copyr op tag) d (if bo then some (t.g d) else none) (t.g a) (t.g b) (t.g c).toNat 0)) ∧
  (∀ d a b c ao four s u t, Turn s u t → Issues (.ratom d a b c ao .relaxed four) u t → (t.g a).toNat % (if four then 4 else 8) = 0 →
    eaHost (t.g a) = false → EngOk s t (t.g a) (if four then 4 else 8) false → EngOk s t (t.g a) (if four then 4 else 8) true →
    queueUse s t.core < 8 → Stays s u t →
    Enters (.ratom d a b c ao .relaxed four) s u t (if d = 0 then [] else [d.toNat, d.toNat + 1])
      (newCommand s u (.ratom ao .relaxed four (t.g c)) d none (t.g a) 0 0 (t.g b))) ∧
  (∀ d a b c ao ord four s u t, Turn s u t → Issues (.ratom d a b c ao ord four) u t →
    ((t.g a).toNat % (if four then 4 else 8) ≠ 0 → Takes (.ratom d a b c ao ord four) s u 0x05 (t.g a)) ∧
    ((t.g a).toNat % (if four then 4 else 8) = 0 → eaHost (t.g a) = true → Takes (.ratom d a b c ao ord four) s u 0x07 (t.g a))) ∧
  (∀ d a b c scat size bo (count1 : BitVec 16) s u t, Turn s u t → Issues (.gath d a b c scat size bo count1) u t →
    (t.g a).toNat % Size.n size = 0 → (t.g b).toNat % Size.n size = 0 → (t.g c).toNat % 4 = 0 → eaLocal (t.g c) = true →
    EngOk s t (t.g c) (4 * (count1.toNat + 1)) false → placeOf s t.core (t.g a) ≠ none → placeOf s t.core (t.g b) ≠ none →
    EngOk s t (if scat then t.g b else t.g a) ((count1.toNat + 1) * Size.n size) (!scat) → ObjectOk s t d bo → queueUse s t.core < 8 → Stays s u t →
    Enters (.gath d a b c scat size bo count1) s u t (tokenReg d bo)
      (newCommand s u (.gath scat size (count1.toNat + 1)) d (if bo then some (t.g d) else none) (t.g a) (t.g b) (count1.toNat + 1) (t.g c))) ∧
  (∀ d a b c bo (len1 : BitVec 20) s u t, Turn s u t → Issues (.mcast d a b c bo len1) u t → (len1.toNat + 1) % 8 = 0 → (t.g b).toNat % 8 = 0 →
    (t.g c).toNat % 8 = 0 → (eaLocal (t.g b) = true ∧ lstoreOk s t.core (t.g b).toNat (len1.toNat + 1) true false = true ∨
      eaLocal (t.g b) = false ∧ onOwnDie s t (t.g b) = true) →
    (t.g a).toNat ≤ 255 → ownsPath s (tidLaunch u.tid) (t.g a).toNat = true → eaGlobal (t.g c) = true ∨ remoteOk (t.g c) = true →
    (bo = true → (t.g d).toNat % 8 = 0 ∧ remoteOk (t.g d) = true) → queueUse s t.core < 8 → Stays s u t →
    Enters (.mcast d a b c bo len1) s u t (tokenReg d bo)
      (newCommand s u (.mcast (t.g a).toNat) d (if bo then some (t.g d) else none) (t.g c) (t.g b) (len1.toNat + 1) 0)) ∧
  (∀ d a b c bo (len1 : BitVec 20) s u t, Turn s u t → Issues (.mcast d a b c bo len1) u t → (len1.toNat + 1) % 8 ≠ 0 →
    Takes (.mcast d a b c bo len1) s u 0x05 (BitVec.ofNat 64 (len1.toNat + 1)))

/-- spec/10 R181 to R187, R250, R251, spec/14 R237: a waiting command starts in its turn; an element of an L-store copy is moved; a finished command writes its token and
leaves its queue, once every flit of it that a link carries is acknowledged, or makes its arrival, which counts its barrier object down; a remote atomic is performed once at its home and its pair written, or
times out; a reduction is kept until its round is complete, waits while its launch is not live or its die stands in P3, and is then written once.
Beyond the rules' words it takes the model's own readings, log entries 60, 65 and 66. -/
def Obligations.EngineCommandsMoveAndComplete : Prop :=
  (∀ g k s c, g < 2048 → (s.core g).engine[k]? = some c → c.phase = .waiting →
    (((s.core g).engine.take k).any fun x => x.phase == .waiting && mayRun s x) = false → runningOn s (g / 256) < 32 → mayRun s c = true →
    engineClocked s g = true → c.kind = .copy → c.len ≠ 0 →
    ∃ s', exec (.engineCommandStart g k) s = .next s' ∧ s'.threads = s.threads ∧
      (s'.core g).engine[k]? = some { c with phase := .moving, sentAt := s.cycle.toNat } ∧ (s'.core g).lstore = (s.core g).lstore) ∧
  (∀ g k e s c, g < 2048 → (s.core g).engine[k]? = some c → c.phase = .moving → mayRun s c = true → engineClocked s g = true → c.uncorr = false →
    c.status < 0x40 → c.src.toNat % 8 = 0 → setHas c.asked (2 * e + 1) = false → Sound s g (c.src.toNat + 8 * e) 8 → c.kind = .copy → c.host = none → c.dst.toNat + c.len ≤ 2 ^ 19 → c.src.toNat + c.len ≤ 2 ^ 19 → 8 * e + 8 ≤ c.len →
    setHas c.moved e = false → c.moved.length + 1 < c.len / 8 → (s.core g).waiters = [] →
    ∃ s', exec (.engineChunk g k [e]) s = .next s' ∧ s'.threads = s.threads ∧
      (s'.core g).engine[k]? = some { c with moved := setAdd c.moved e, faulted := false } ∧
      Stored s s' g (c.dst.toNat + 8 * e) 8 (fun i => Memory.get (s.core g).lstore (c.src.toNat + 8 * e + i))) ∧
  (∀ g k s c t, g < 2048 → (s.core g).engine[k]? = some c → c.phase = .finished → mayRun s c = true → engineClocked s g = true → c.host = none →
    c.object = none →
    c.kind = .copy → c.status < 0x40 → s.thread? c.tid = some t → t.io.dying = false → c.moved.length < 2 ^ 32 →
    (s.core g).engine.length = 1 →
    ∃ s' t', exec (.tokenWrite g k) s = .next s' ∧ s'.thread? c.tid = some t' ∧
      (∀ n, t'.reg n = if n = c.reg ∧ n ≠ 0 then BitVec.ofNat 64 (8 * c.moved.length + c.status * 2 ^ 56) else t.reg n) ∧
      (c.reg ≠ 0 → setHas t'.pending c.reg = false) ∧ t'.sp = { t.sp with fstat := t.sp.fstat ||| BitVec.ofNat 15 (c.status % 64) } ∧
      t'.status = t.status ∧ (s'.core g).engine = (if flitsLeft s c.id then [{ c with phase := .arriving }] else [])) ∧
  (∀ g k s c o, g < 2048 → (s.core g).engine[k]? = some c → c.phase = .finished → mayRun s c = true → engineClocked s g = true → c.host = none →
    c.object = some o → c.kind = .copy → eaLocal o = true →
    ∃ s', exec (.tokenWrite g k) s = .next s' ∧ (∀ x, x ≠ c.tid → s'.thread? x = s.thread? x) ∧
      s'.thread? c.tid = (s.thread? c.tid).map (fun t =>
        if c.status < 0x40 ∧ t.io.dying = false then { t with sp := { t.sp with fstat := t.sp.fstat ||| BitVec.ofNat 15 (c.status % 64) } } else t) ∧ (s'.core g).engine[k]? = some { c with phase := .arriving } ∧
      s'.net.objects = s.net.objects ++
        [{ launch := c.launch, core := g, local_ := true, obj := o, status := c.status, cmd := some (g, c.id), via := none }]) ∧
  (∀ k s o, s.net.objects[k]? = some o → o.cmd = none → o.local_ = true → eaLocal o.obj = true → (s.core o.core).waiters = [] →
    let off := o.obj.toNat
    let v := lstoreValue s o.core off 8
    let count := v % 2 ^ 32
    let status := v / 2 ^ 56
    (setHas (s.core o.core).lempty (off / 8) = true → count ≠ 0 → o.status < 256 →
      ∃ s', exec (.barrierObjectArrival k) s = .next s' ∧ s'.net.objects = s.net.objects.eraseIdx k ∧
        lstoreValue s' o.core off 8 =
          count - 1 + v / 2 ^ 32 % 2 ^ 24 * 2 ^ 32 + (if status = 0 then o.status else status) * 2 ^ 56 ∧
        (∀ y, ¬ (off ≤ y ∧ y < off + 8) → Memory.get (s'.core o.core).lstore y = Memory.get (s.core o.core).lstore y) ∧
        setHas (s'.core o.core).lempty (off / 8) = decide (count ≠ 1)) ∧
    (setHas (s.core o.core).lempty (off / 8) = false ∨ count = 0 →
      ∃ s', exec (.barrierObjectArrival k) s = .next s' ∧ s'.net.objects = s.net.objects.eraseIdx k ∧
        lstoreValue s' o.core off 8 = (if status = 0 then v + 0x42 * 2 ^ 56 else v) ∧ s'.host.evSeq = s.host.evSeq + 1)) ∧
  (∀ k s r g off, s.net.ratoms[k]? = some r → r.home / 8 = s.cfg.package → r.src / 2048 = s.cfg.package →
    ((s.net.ratoms.take k).any (sameWord r)) = false → ((s.die (r.home % 8)).dedup.find? fun e => e.src == r.src && e.seq == r.seq) = none →
    placeOf s 0 r.ea = some (.lstore g off) → mayUse s (.launch (tidLaunch r.tid)) g off (if r.four then 4 else 8) true true = true →
    r.status ≠ 0x41 → Sound s g off (if r.four then 4 else 8) →
    let n := if r.four then 4 else 8
    let old : Word := BitVec.ofNat 64 (lstoreValue s g off n)
    let x := atomValue r.op (!r.four) old (r.operand.zext (8 * n)) r.expected
    ∃ s', exec (.ratomRequest k) s = .next s' ∧ s'.threads = s.threads ∧ s'.net.ratoms = s.net.ratoms.eraseIdx k ∧
      Stored s s' g off n (byteOf x.1) ∧ s'.net.responses = s.net.responses ++ [{ r with old := old, status := x.2.toNat &&& 0x16 }] ∧
      ((s'.die (r.home % 8)).dedup.find? fun e => e.src == r.src && e.seq == r.seq) =
        some { src := r.src, seq := r.seq, old := old, status := x.2.toNat &&& 0x16 }) ∧
  (∀ k s r e, s.net.ratoms[k]? = some r → r.home / 8 = s.cfg.package → r.src / 2048 = s.cfg.package →
    ((s.net.ratoms.take k).any (sameWord r)) = false → ((s.die (r.home % 8)).dedup.find? fun e => e.src == r.src && e.seq == r.seq) = some e →
    exec (.ratomRequest k) s = .next (s.modNet fun n => { n with
      ratoms := n.ratoms.eraseIdx k, responses := n.responses ++ [{ r with old := e.old, status := e.status }] })) ∧
  (∀ k s r c t ao ord four ex, s.net.responses[k]? = some r → (s.core (r.src % 2048)).engine = [c] → c.phase = .answers 1 → c.len = r.seq →
    c.kind = .ratom ao ord four ex → mayRun s c = true → s.thread? c.tid = some t → t.io.dying = false → c.reg ≠ 0 → r.status < 0x40 →
    ∃ s' t', exec (.ratomResponse k) s = .next s' ∧ s'.thread? c.tid = some t' ∧ t'.reg (c.reg + 1) = r.old ∧
      t'.reg c.reg = BitVec.ofNat 64 (r.old.toNat % 2 ^ 56 + r.status * 2 ^ 56) ∧ (∀ n, n ≠ c.reg → n ≠ c.reg + 1 → t'.reg n = t.reg n) ∧
      (s'.core (r.src % 2048)).engine = [] ∧ s'.net.responses = s.net.responses.eraseIdx k) ∧
  (∀ g k s c t ao ord four ex x, g < 2048 → (s.core g).engine[k]? = some c → c.kind = .ratom ao ord four ex → placeOf s g c.dst = some (.far x) →
    c.phase = .answers 1 → mayRun s c = true → c.cut = true → c.sentAt + 2000 * s.host.atomTimeout ≤ s.cycle.toNat →
    s.thread? c.tid = some t → t.io.dying = false → c.reg ≠ 0 →
    ∃ s' t', exec (.atomicTimeout g k) s = .next s' ∧ s'.thread? c.tid = some t' ∧ t'.reg c.reg = BitVec.ofNat 64 (0x48 * 2 ^ 56) ∧
      t'.reg (c.reg + 1) = 0 ∧ (s'.core g).engine = (s.core g).engine.filter (fun x => x.id != c.id) ∧ s'.host.evSeq = s.host.evSeq + 1) ∧
  (∀ k s c, s.net.contributions[k]? = some c → ((s.net.contributions.take k).any fun x => x.key == c.key && x.die == c.die) = false →
    let d := podDieOf c.dst % 8
    let mine := (s.die d).contributions.filter fun x => x.key == c.key
    (∀ x ∈ mine, x.die ≠ c.die) →
    mine ≠ [] ∨ (((s.die d).contributions.filter fun x => !roundHeld s x).map (·.key)).eraseDups.length < 64 →
    (roundComplete (mine ++ [c]) = false →
      ∃ s', exec (.reductionContribution k) s = .next s' ∧ (s'.die d).contributions = (s.die d).contributions ++ [c] ∧
        s'.net.contributions = s.net.contributions.eraseIdx k ∧ s'.net.rounds = s.net.rounds) ∧
    (roundComplete (mine ++ [c]) = true →
      ∃ s', exec (.reductionContribution k) s = .next s' ∧
        (s'.die d).contributions = (s.die d).contributions.filter (fun y => y.key != c.key) ∧
        s'.net.contributions = s.net.contributions.eraseIdx k ∧ s'.net.rounds = s.net.rounds ++ [(false, mine ++ [c])])) ∧
  (∀ k s told c cs g off, s.net.rounds[k]? = some (told, c :: cs) → roundHeld s c = false → (s.die (podDieOf c.dst % 8)).power ≤ 2 → (∀ x ∈ c :: cs, x.data ≠ []) →
    roundAgrees (c :: cs) = true → c.die / 8 = s.cfg.package →
    placeOf s 0 c.dst = some (.lstore g off) → (s.core g).waiters = [] →
    let n := if c.op = .bf16 then 2 * c.len else c.len
    mayUse s (.launch (tidLaunch c.tid)) g off n true true = true → Sound s g off n →
    ∃ s', exec (.reductionRound k) s = .next s' ∧ s'.threads = s.threads ∧ s'.net.rounds = s.net.rounds.eraseIdx k ∧
      (∀ e, 4 * e + 4 ≤ n → lstoreValue s' g (off + 4 * e) 4 =
        (reduceElem (c :: cs) c.op c.ranks (lstoreValue s g (off + 4 * e) 4) e).1 % 2 ^ 32) ∧
      (∀ y, ¬ (off ≤ y ∧ y < off + n) → Memory.get (s'.core g).lstore y = Memory.get (s.core g).lstore y)) ∧
  (∀ k s told c cs, s.net.rounds[k]? = some (told, c :: cs) → roundHeld s c = false → (s.die (podDieOf c.dst % 8)).power ≤ 2 → (∀ x ∈ c :: cs, x.data ≠ []) →
    roundAgrees (c :: cs) = false → exec (.reductionRound k) s = .next (endRound (s.modNet fun n => { n with rounds := n.rounds.eraseIdx k }) (c :: cs) 0x47)) ∧
  (∀ k s told c cs, s.net.rounds[k]? = some (told, c :: cs) → roundHeld s c = true ∨ (s.die (podDieOf c.dst % 8)).power = 3 →
    exec (.reductionRound k) s = .next s)

/-- spec/14 R234 to R238: an item in its flow's order is delivered and the number expected moves on; one ahead of it is kept, and a number already delivered is
discarded. Held items are admitted as credit comes; a marker is complete once nothing before it waits, and its acknowledgement counts down what waits
for it.
Beyond the rules' words it takes the model's own readings, log entries 34, 50 and 67. -/
def Obligations.FlowsDeliverInOrder : Prop :=
  (∀ k s x tid priv lid, s.net.items[k]? = some x → x.cls < 4 → x.body = .wake tid priv lid → (s.die (x.dst % 8)).reorder = [] →
    markerHolds s x.src x.dst x.cls = false → (s.flow x.src x.dst x.cls).expect = x.seq →
    ∃ s', exec (.flowItemArrival k) s = .next s' ∧ s'.net.items = s.net.items.eraseIdx k ∧ (s'.flow x.src x.dst x.cls).expect = x.seq + 1 ∧
      (s'.flow x.src x.dst x.cls).undelivered = (s.flow x.src x.dst x.cls).undelivered - 1 ∧ (s'.die (x.dst % 8)).reorder = [] ∧
      s'.net.wakes = s.net.wakes ++ [{ src := 2048 + x.src, at_ := x.dst, tid := tid, priv := priv, launch := lid, after := [] }] ∧ s'.threads = s.threads) ∧
  (∀ k s x, s.net.items[k]? = some x → x.cls < 4 → (s.die (x.dst % 8)).reorder = [] → (s.flow x.src x.dst x.cls).expect ≠ x.seq →
    (x.seq - (s.flow x.src x.dst x.cls).expect).toNat < 2 ^ 15 →
    ∃ s', exec (.flowItemArrival k) s = .next s' ∧ s'.net = { s.net with items := s.net.items.eraseIdx k } ∧
      (s'.die (x.dst % 8)).reorder = [x] ∧ s'.threads = s.threads ∧ s'.cores = s.cores) ∧
  (∀ k s x, s.net.items[k]? = some x → x.cls < 4 → 2 ^ 15 ≤ (x.seq - (s.flow x.src x.dst x.cls).expect).toNat →
    ∃ s', exec (.flowItemArrival k) s = .next s' ∧ s'.net.items = s.net.items.eraseIdx k ∧
      (s'.flow x.src x.dst x.cls).expect = (s.flow x.src x.dst x.cls).expect ∧
      (s'.flow x.src x.dst x.cls).undelivered = (s.flow x.src x.dst x.cls).undelivered - 1 ∧
      s'.dies = s.dies ∧ s'.threads = s.threads ∧ s'.cores = s.cores) ∧
  (∀ die s x, (s.die die).stuck = [] → (s.die die).outgoing.find? (fun y => mayAdmit s y) = some x → x.dst / 8 = s.cfg.package →
    x.cls < 4 → ∃ s', exec (.creditGrant die) s = .next s' ∧ s'.net.items = s.net.items ++ [x] ∧
      (s'.flow x.src x.dst x.cls).undelivered = (s.flow x.src x.dst x.cls).undelivered + 1 ∧
      (s'.die die).outgoing = (s.die die).outgoing.erase x ∧ s'.threads = s.threads) ∧
  (∀ k s m, s.net.marks[k]? = some m → m.delivered = true → m.ackWanted = true → m.src / 8 = s.cfg.package →
    (s.die (m.dst % 8)).stuck = [] → (s.die (m.dst % 8)).reorder = [] →
    flowPending s m.src m.dst m.cls = false → setHas (s.flow m.src m.dst m.cls).bad m.id = false →
    ∃ s', exec (.markerComplete k) s = .next s' ∧ s'.net.marks = s.net.marks.eraseIdx k ∧
      s'.net.markAcks = s.net.markAcks ++ [{ m with status := 0 }] ∧ s'.threads = s.threads) ∧
  (∀ k s m, s.net.marks[k]? = some m → (s.die (m.dst % 8)).stuck = [] → flowPending s m.src m.dst m.cls = true →
    exec (.markerComplete k) s = .next s) ∧
  (∀ k s m, s.net.marks[k]? = some m → m.delivered = false → exec (.markerComplete k) s = .next s) ∧
  (∀ k s m tid t l st e n r, s.net.markAcks[k]? = some m → m.who = some tid → m.bar = none → m.cmd = none → s.thread? tid = some t →
    t.status = .parked (.fence l st e n r) →
    ∃ s' t', exec (.markerAck k) s = .next s' ∧ s'.thread? tid = some t' ∧ t'.status = .parked (.fence l st e (n - 1) r) ∧
      (∀ x, t'.reg x = t.reg x) ∧ t'.pc = t.pc ∧ s'.net = { s.net with markAcks := s.net.markAcks.eraseIdx k }) ∧
  (∀ k s m g c, s.net.markAcks[k]? = some m → m.who = none → m.bar = none → m.cmd = some (g, c.id) → g < 2048 → (s.core g).engine = [c] →
    c.phase = .answers 1 → c.status = 0 →
    ∃ s', exec (.markerAck k) s = .next s' ∧ (s'.core g).engine = [{ c with phase := .finished, status := m.status }] ∧ s'.threads = s.threads)

/-! ### Cache slices and the reply channel (spec/13 R218 to R229, spec/04 R59, spec/07 R123, R124) -/

namespace Sys2Proof.Claims

/-- Slice k of die d is the home of request r, which stands alone in its ingress queue with no walk, fill or staged store under way. -/
structure AloneAt (s : State) (d k : Nat) (r : Req) : Prop where
  home : k = homeSlice (lineOf (eaOffset r.ea))
  ingress : (s.slice d k).ingress = [r]
  walks : (s.slice d k).walks = []
  mshrs : (s.slice d k).mshrs = []
  stage : (s.slice d k).stage = []

/-- Note k is the earliest on its channel, and core g's port holds no request back. -/
def Earliest (s : State) (k : Nat) (n : NoteAt) (g : Nat) : Prop :=
  s.net.notes[k]? = some n ∧ (∀ m ∈ s.net.notes.take k, m.slice ≠ n.slice ∨ m.core ≠ n.core) ∧ (s.core g).port.held = []

end Sys2Proof.Claims

/-- spec/13 R218 to R222, R225, spec/07 R123: a request arrives at its home and is taken there: without a translation it walks, without the permission it
faults, a load of a line that is there is answered with the line's bytes, a miss takes a register, a plain store is staged and acknowledged. A walk
fills the TLB or faults, where a fault register is free; a fill lands and answers what waited; a staged store is written into its line and told.
spec/13 R217, R222, R225, spec/07 R123, R124, spec/04 R59, spec/19 R299: an acknowledgement retires its store, a performed notice its performance; a
reply writes its destination and its thread goes on; a fetched line joins the I-store; a fault makes its thread Faulted and is reported, or held until
the fault queue has room; a line with a parity error is taken anew from memory.
Beyond the rules' words it takes the model's own readings, log entries 7, 13, 22 and 79. -/
def Obligations.SlicesServeRequestsAndTheirNotesArrive : Prop :=
  ((∀ d k s r, AloneAt s d k r → (s.slice d k).tlb? (eaOffset r.ea) = none → faultRoom s d k = true →
     ∃ s', exec (.sliceRequest d k 0) s = .next s' ∧ (s'.slice d k).ingress = [] ∧ (s'.slice d k).walks = [r] ∧ s'.net = s.net ∧
       s'.threads = s.threads ∧ s'.cores = s.cores) ∧
   (∀ d k s r x, AloneAt s d k r → (s.slice d k).tlb? (eaOffset r.ea) = some x → x.grants r.kind = false → r.kind ≠ .pref → faultRoom s d k = true →
     ∃ s', exec (.sliceRequest d k 0) s = .next s' ∧ (s'.slice d k).ingress = [] ∧ s'.cores = s.cores ∧
       s'.net = { s.net with notes := s.net.notes ++ [{ slice := d * 256 + k, core := r.core, note := .fault r (faultOf s k r true) }] }) ∧
   (∀ d k s r x dd size sx ln, AloneAt s d k r → (s.slice d k).tlb? (eaOffset r.ea) = some x → x.r = true → r.kind = .ld dd size sx →
     (s.slice d k).line? (lineOf (eaOffset r.ea)) = some ln → requestMet s d r ln = false →
     ∃ s', exec (.sliceRequest d k 0) s = .next s' ∧ (s'.slice d k).ingress = [] ∧ s'.threads = s.threads ∧ s'.cores = s.cores ∧
       (s'.slice d k).line? (lineOf (eaOffset r.ea)) = some ln ∧
       s'.net = { s.net with notes := s.net.notes ++
         [{ slice := d * 256 + k, core := r.core, note := .reply r (ln.data.bytes (eaOffset r.ea % 128) (Size.n size)) 0 }] }) ∧
   (∀ d k s r x dd size sx, AloneAt s d k r → (s.slice d k).tlb? (eaOffset r.ea) = some x → x.r = true → r.kind = .ld dd size sx → r.na = false →
     (s.slice d k).line? (lineOf (eaOffset r.ea)) = none → (s.slice d k).victim (lineOf (eaOffset r.ea)) true = (true, none) →
     ∃ s', exec (.sliceRequest d k 0) s = .next s' ∧ (s'.slice d k).ingress = [] ∧ s'.net = s.net ∧ s'.cores = s.cores ∧
       (s'.slice d k).mshrs =
         [{ l := lineOf (eaOffset r.ea), pa := x.pa (lineOf (eaOffset r.ea) * 128), lpddr := x.lpddr, reqs := [r] }]) ∧
   (∀ d k s r x bytes ln, AloneAt s d k r → (s.slice d k).tlb? (eaOffset r.ea) = some x → x.w = true → r.kind = .st bytes false →
     (s.slice d k).line? (lineOf (eaOffset r.ea)) = some ln →
     ∃ s', exec (.sliceRequest d k 0) s = .next s' ∧ (s'.slice d k).ingress = [] ∧ (s'.slice d k).lines = (s.slice d k).lines ∧ s'.cores = s.cores ∧
       (s'.slice d k).stage = [{ id := r.id, core := r.core, tid := r.tid, l := lineOf (eaOffset r.ea), pa := x.pa (lineOf (eaOffset r.ea) * 128),
                                 lpddr := x.lpddr, off := eaOffset r.ea % 128, bytes := bytes, na := r.na, after := 0 }] ∧
       s'.net = { s.net with notes := s.net.notes ++ [{ slice := d * 256 + k, core := r.core, note := .ack r }] }) ∧
   (∀ d k i s r, (s.slice d k).walks[i]? = some r →
     (∀ x, walk s d (eaOffset r.ea) = some x →
       ∃ s', exec (.walkComplete d k i) s = .next s' ∧ (s'.slice d k).walks = (s.slice d k).walks.eraseIdx i ∧
         (s'.slice d k).ingress = r :: (s.slice d k).ingress ∧ x ∈ (s'.slice d k).tlb ∧ s'.cores = s.cores ∧ s'.net = s.net) ∧
     (walk s d (eaOffset r.ea) = none → r.kind ≠ .pref → faultRoom s d k = true →
       ∃ s', exec (.walkComplete d k i) s = .next s' ∧ (s'.slice d k).walks = (s.slice d k).walks.eraseIdx i ∧ s'.cores = s.cores ∧
         s'.net = { s.net with notes := s.net.notes ++ [{ slice := d * 256 + k, core := r.core, note := .fault r (faultOf s k r false) }] }) ∧
     (walk s d (eaOffset r.ea) = none → r.kind ≠ .pref → faultRoom s d k = false →
       ∃ s', exec (.walkComplete d k i) s = .next s' ∧ (s'.slice d k).walks = (s.slice d k).walks.eraseIdx i ∧
         (s'.slice d k).ingress = r :: (s.slice d k).ingress ∧ s'.cores = s.cores ∧ s'.net = s.net)) ∧
   (∀ d k line s r dd size sx pa lpddr, (s.slice d k).mshrs = [{ l := line, pa := pa, lpddr := lpddr, reqs := [r] }] → (s.slice d k).stage = [] →
     line = lineOf (eaOffset r.ea) → k = homeSlice line → r.kind = .ld dd size sx → r.ordered = false →
     (s.slice d k).line? line = none → requestMet s d r (dramLine (s.die d) line pa lpddr) = false →
     let ln := dramLine (s.die d) line pa lpddr
     ∃ s', exec (.fillLands d k line) s = .next s' ∧ (s'.slice d k).mshrs = [] ∧ (s'.slice d k).line? line = some ln ∧ s'.cores = s.cores ∧
       s'.net = { s.net with notes := s.net.notes ++
         [{ slice := d * 256 + k, core := r.core, note := .reply r (ln.data.bytes (eaOffset r.ea % 128) (Size.n size)) 0 }] }) ∧
   (∀ d k s c q, (s.slice d k).coming = c :: q → (s.slice d k).ingress = [] → (s.slice d k).walks = [] → (s.slice d k).mshrs = [] →
     (s.slice d k).tlb? (eaOffset c.ea) = none → faultRoom s d k = true →
     ∃ s', exec (.sliceRequest d k 0) s = .next s' ∧ (s'.slice d k).coming = q ∧ (s'.slice d k).ingress = [] ∧ (s'.slice d k).walks = [c] ∧
       s'.net = s.net ∧ s'.cores = s.cores) ∧
   (∀ d k s x ln, (s.slice d k).stage = [x] → (s.slice d k).mshrs = [] → k = homeSlice x.l → (s.slice d k).line? x.l = some ln → ln.zero = false →
     ∃ s', exec (.stagedStorePerform d k 0) s = .next s' ∧ (s'.slice d k).stage = [] ∧
       (s'.slice d k).line? x.l = some (ln.write x.off x.bytes) ∧ s'.cores = s.cores ∧ s'.threads = s.threads ∧
       s'.net = { s.net with notes := s.net.notes ++ [{ slice := d * 256 + k, core := x.core, note := .performed x.id x.tid }] })) ∧
  ((∀ k s n r bytes, Earliest s k n r.core → n.note = .ack r → r.kind = .st bytes false →
     ∃ s', exec (.storeAck k) s = .next s' ∧ s'.net.notes = s.net.notes.eraseIdx k ∧ s'.threads = s.threads ∧
       (s'.core r.core).port = { (s.core r.core).port with unacked := (s.core r.core).port.unacked.filter fun q => q.id != r.id }) ∧
   (∀ k s n id tid t, Earliest s k n n.core → n.note = .performed id tid → s.thread? tid = some t → t.stroke = none →
     ∃ s', exec (.performedNotice k) s = .next s' ∧ s'.net.notes = s.net.notes.eraseIdx k ∧ s'.thread? tid = some t ∧
       (s'.core n.core).port = { (s.core n.core).port with unperformed := (s.core n.core).port.unperformed.filter fun e => e.1 != id }) ∧
   (∀ k s n r data flags d size sx t last, Earliest s k n r.core → n.note = .reply r data flags → r.kind = .ld d size sx → r.rep = none → d ≠ 0 →
     r.acq = false → flags < 64 → MayGoOn s r.tid t last → t.status = .parked (.reply (.done last)) →
     ∃ s' t', exec (.loadReply k) s = .next s' ∧ s'.net.notes = s.net.notes.eraseIdx k ∧ s'.thread? r.tid = some t' ∧ t'.status = .ready ∧
       t'.pc = (seqThread t t.pc last).pc ∧ (∀ x, t'.reg x = if x = d then loadValue (Size.n size) sx data else t.reg x) ∧
       setHas t'.pending d = false ∧ t'.preds = t.preds ∧ t'.sp = t.sp ∧
       (s'.core r.core).port.loads = (s.core r.core).port.loads.filter fun e => e.1 != r.id) ∧
   (∀ (n : Nat) (sx : Bool) (m : Memory) (a : Nat), n = 1 ∨ n = 2 ∨ n = 4 ∨ n = 8 →
     loadValue n sx (m.bytes a n) = if sx then (BitVec.ofNat (8 * n) (leNat (m.bytes a n))).signExtend 64 else BitVec.ofNat 64 (leNat (m.bytes a n))) ∧
   (∀ k s n r ea t d x, Earliest s k n r.core → n.note = .trap8 r ea → r.kind = .ldf d → s.thread? r.tid = some t → t.io.dying = false →
     t.io.storeFault = false → t.status = .parked (.emptyWord x) → t.sp.tvb.getLsbD 63 = true → t.entries < 7 →
     flowTo s r.tid t.core (t.sp.tvb + 0x200) = .here →
     ∃ s' t', exec (.loadReply k) s = .next s' ∧ s'.net.notes = s.net.notes.eraseIdx k ∧ s'.thread? r.tid = some t' ∧ t'.status = .ready ∧
       t'.pc = t.sp.tvb + 0x200 ∧ t'.sp.tcause = 0x08 ∧ t'.sp.tval = ea ∧ t'.sp.tepc = t.pc ∧ t'.privileged = true ∧
       (∀ y, t'.reg y = t.reg y) ∧ setHas t'.pending d = false) ∧
   (∀ k s n r data flags t, Earliest s k n r.core → n.note = .reply r data flags → r.kind = .fetch → (s.core r.core).iss.segment = none →
     s.thread? r.tid = some t → t.status = .parked (.reply .again) → t.io.storeFault = false →
     ∃ s', exec (.fetchLineLands k) s = .next s' ∧ s'.net.notes = s.net.notes.eraseIdx k ∧ s'.thread? r.tid = some { t with status := .ready, io := { t.io with readyAt := s.coreClock t.core } } ∧
       (s'.core r.core).iss.istore.getLast? = some { base := r.ea, bytes := data }) ∧
   (∀ k s n r e d size sx t, Earliest s k n r.core → n.note = .fault r e → r.kind = .ld d size sx → r.rep = none → d ≠ 0 →
     s.thread? r.tid = some t → t.io.dying = false → faultSpace s (n.slice / 256) = false → n.slice < 2048 →
     ∃ s' t', exec (.faultReply k) s = .next s' ∧ s'.net.notes = s.net.notes.eraseIdx k ∧ s'.thread? r.tid = some t' ∧ t'.status = .faulted ∧
       setHas t'.pending d = false ∧ (∀ x, t'.reg x = t.reg x) ∧ t'.pc = t.pc ∧
       (s'.slice (n.slice / 256) (n.slice % 256)).held = (s.slice (n.slice / 256) (n.slice % 256)).held ++ [e]) ∧
   (∀ d k s e rest, (s.slice d k).held = e :: rest →
     (faultSpace s d = true → exec (.faultQueueSpace d k) s = .next (putFault (s.modSlice d k fun y => { y with held := rest }) d e)) ∧
     (faultSpace s d = false → exec (.faultQueueSpace d k) s = .next s)) ∧
   (∀ s d e, ((putFault s d e).die d).faultIx = (s.die d).faultIx + 1) ∧
   (∀ g ia s l s1 bs, codeLine? (s.core g) ia = some l → dieRead s (eaDie (ia &&& ~~~(63 : Word))) (eaOffset (ia &&& ~~~(63 : Word))) 64 = (s1, some bs) →
     ∃ s', exec (.istoreParityError g ia) s = .next s' ∧ s'.threads = s1.threads ∧
       (s'.core g).iss.istore = (s1.core g).iss.istore.map fun x => if x.base == ia &&& ~~~(63 : Word) then { x with bytes := bs } else x))

/-! ### Light (spec/10 R190, R191, spec/17 R264 to R278) -/

namespace Sys2Proof.Claims

/-- The oldest request of the Spool controller is tid's lgrant of path pid. -/
abbrev Asked (s : State) (tid : Tid) (d pid g fan : Nat) (priv : Bool) (launch : Nat) (last : Bool) (rest : List SpoolReq) : Prop :=
  s.spool.requests = .lgrant tid d pid g fan priv launch last :: rest

/-- The request is refused with a code and a greq: nothing of the light changes, and the thread goes on with the word of R190. -/
def Refuses (s : State) (tid : Tid) (d pid fan : Nat) (last : Bool) (rest : List SpoolReq) (code greq : Nat) : Prop :=
  exec (.lgrantDecision (s.path pid).entry.fibre) s =
    .next (answerParked { s with spool := { s.spool with requests := rest } } tid d
      (BitVec.ofNat 64 (code + fan * 2 ^ 12 + greq * 2 ^ 16 + budgetLeft s (s.path pid).entry.fibre * 2 ^ 32)) last)

/-- A path with no light, no change of its grant under way and nothing to release. -/
abbrev Dark (p : Path) : Prop := p.grant = 0 ∧ p.order = 0 ∧ p.trans = none ∧ p.release = none ∧ p.state = .dark

/-- A path's change stands at a step while the Spool controller runs. -/
abbrev AtStep (s : State) (pid : Nat) (t : Transition) (step : TransStep) : Prop :=
  s.spool.restarting = false ∧ (s.path pid).trans = some { t with step := step } ∧ (s.path pid).release = none

/-- No path of a fibre but pid has a raise under way. -/
def NoneRises (s : State) (f pid : Nat) : Prop := ∀ e ∈ onFibre s f, e.1 ≠ pid → ∀ t, e.2.trans = some t → t.gNew ≤ t.gOld

end Sys2Proof.Claims

/-- spec/10 R190, R191: lgrant sends its request to the Spool controller and parks; lstat writes the state of a path, 4 while a change of its light
runs; of a DARK path the losses and bound class 3. Numbers out of range take cause 0x01. A path that is not in the table reads as R191's reset values (the model's choice).
Beyond the rules' words it takes the model's own readings, log entry 38. -/
def Obligations.LgrantAndLstatComplete : Prop :=
  (∀ d a b fan s u t, Turn s u t → Issues (.lgrant d a b fan) u t →
    ((t.g a).toNat ≤ 255 → ∃ s', exec (.lgrant d a b fan) s = .next s' ∧ Waits s s' u t (.reply (.done (headLast u.head))) ∧ s'.net = s.net ∧
      s'.links = s.links ∧ s'.spool = { s.spool with requests := s.spool.requests ++
        [.lgrant u.tid d.toNat (t.g a).toNat (t.g b).toNat fan.toNat t.privileged (tidLaunch u.tid) (headLast u.head)] }) ∧
    (255 < (t.g a).toNat → Takes (.lgrant d a b fan) s u 0x01 (t.g a))) ∧
  (∀ d a s u t, Turn s u t → Issues (.lstat d a false) u t → Stays s u t → (t.g a).toNat ≤ 255 →
    (s.path (t.g a).toNat).entry.valid = true → (s.path (t.g a).toNat).trans = none →
    let p := s.path (t.g a).toNat
    let base := pathLoss s p p.fan * 2 ^ 48 + (s.fibre p.entry.fibre).m0 * 2 ^ 52
    ∃ s' t', exec (.lstat d a false) s = .next s' ∧ OnlyThread s s' u t' ∧ SameThread t t' ∧ Flows u t t' ∧
      OnlyReg t t' d (BitVec.ofNat 64 (if p.state = .dark then base + 3 * 2 ^ 6 else
        base + stateNumber p.state + p.order * 2 ^ 3 + boundClass s p * 2 ^ 6 + p.fan * 2 ^ 8 + p.grant * 2 ^ 16 + (stripeSet s p).length * 2 ^ 25))) ∧
  (∀ d a s u t, Turn s u t → Issues (.lstat d a false) u t → Stays s u t → (t.g a).toNat ≤ 255 → (s.path (t.g a).toNat).trans = none →
    (s.path (t.g a).toNat).entry.valid = false →
    ∃ s' t', exec (.lstat d a false) s = .next s' ∧ OnlyThread s s' u t' ∧ SameThread t t' ∧ Flows u t t' ∧
      OnlyReg t t' d (BitVec.ofNat 64 (2 * 2 ^ 52))) ∧
  (∀ d a s u t, Turn s u t → Issues (.lstat d a true) u t → Stays s u t → (t.g a).toNat ≤ 4095 →
    (∀ e ∈ s.spool.paths, e.2.entry.valid = true → (pathPeers s e.2).contains (t.g a).toNat = false) →
    ∃ s' t', exec (.lstat d a true) s = .next s' ∧ OnlyThread s s' u t' ∧ SameThread t t' ∧ Flows u t t' ∧
      OnlyReg t t' d (BitVec.ofNat 64 (2 * 2 ^ 52))) ∧
  (∀ d a s u t, Turn s u t → Issues (.lstat d a false) u t → Stays s u t → (t.g a).toNat ≤ 255 → (s.path (t.g a).toNat).entry.valid = true →
    (s.path (t.g a).toNat).trans.isSome = true →
    ∃ s' t' v, exec (.lstat d a false) s = .next s' ∧ s'.thread? u.tid = some t' ∧ SameThread t t' ∧ Flows u t t' ∧ OnlyReg t t' d v ∧
      v.toNat % 8 = 4 ∧ s'.cores = s.cores) ∧
  (∀ d a peer s u t, Turn s u t → Issues (.lstat d a peer) u t → (if peer then 4095 else 255) < (t.g a).toNat →
    Takes (.lstat d a peer) s u 0x01 (t.g a))

/-- spec/17 R264, R265: the first check of R265 that fails refuses a request, with its code: BUSY, NOTOWNED, CAP, INFLIGHT, MARGIN, BUDGET. From DARK an
accepted raise whose light is free begins its ramp of 4.0 us at once, for the highest order the grant supports, and the thread has R190's word. A
release of a path without light changes nothing.
Beyond the rules' words it takes the model's own readings, log entry 31. -/
def Obligations.RequestsAreDecidedByTheFirstCheckThatFails : Prop :=
  (∀ s p m fan, (s.fibre p.entry.fibre).tAdd = [0, 0, 0, 0] → (s.fibre p.entry.fibre).slots = [] → (s.fibre p.entry.fibre).lMeas = [] →
    gReq s p m fan = p.entry.L * 2 ^ fan *
      ((match m with | 1 => 3 | 2 => 9 | 3 => 21 | 4 => 45 | _ => 0) + (s.fibre p.entry.fibre).m0 + fan)) ∧
  (∀ s tid d pid g fan priv launch last rest, Asked s tid d pid g fan priv launch last rest →
    let p := s.path pid
    let f := p.entry.fibre
    (s.spool.restarting = true → Refuses s tid d pid fan last rest 3 0) ∧
    (s.spool.restarting = false →
      (p.entry.valid = false → Refuses s tid d pid fan last rest 4 0) ∧
      (p.entry.valid = true →
        (priv = false → p.entry.owner ≠ launch → Refuses s tid d pid fan last rest 4 0) ∧
        (priv = true ∨ p.entry.owner = launch → g ≠ 0 →
          (256 < g → Refuses s tid d pid fan last rest 5 0) ∧
          (g ≤ 256 →
            (p.trans.isSome = true ∨ castOpen s pid = true ∧ fan ≠ p.fan → Refuses s tid d pid fan last rest 6 0) ∧
            (p.trans = none → castOpen s pid = false ∨ fan = p.fan →
              ((∀ m, 1 ≤ m → m ≤ 4 → g < gReq s p m fan) → Refuses s tid d pid fan last rest 2 (gReq s p 1 fan)) ∧
              (∀ m, 1 ≤ m → m ≤ 4 → gReq s p m fan ≤ g → (s.fibre f).budget < p.entry.count * g + committedTotal s f pid →
                Refuses s tid d pid fan last rest 1 0))))))) ∧
  (∀ s tid d pid g fan priv launch last rest m, Asked s tid d pid g fan priv launch last rest → s.spool.restarting = false →
    let p := s.path pid
    let f := p.entry.fibre
    p.entry.valid = true → priv = true ∨ p.entry.owner = launch → Dark p → 0 < g → g ≤ 256 → castOpen s pid = false ∨ fan = p.fan →
    1 ≤ m → m ≤ 4 → gReq s p m fan ≤ g → (∀ k, m < k → k ≤ 4 → g < gReq s p k fan) →
    p.entry.count * g + committedTotal s f pid ≤ (s.fibre f).budget → lightFree s pid p g = true → NoneRises s f pid →
    ∃ p', exec (.lgrantDecision f) s = .next (answerParked
        ({ s with spool := { s.spool with requests := rest, accepts := s.spool.accepts + 1 } }.modPath pid fun _ => p') tid d
        (BitVec.ofNat 64 (m * 2 ^ 8 + fan * 2 ^ 12 + gReq s p m fan * 2 ^ 16
          + budgetLeft (s.modPath pid fun _ => p') f * 2 ^ 32)) last) ∧
      p' = { p with
        grant := g, fan := fan, state := .settling, lastSettle := 0xFFFF, acceptNo := s.spool.accepts
        trans := some { gOld := 0, gNew := g, mNew := m, m1 := 0, fNew := fan, accepted := s.cycle.toNat,
                        step := .ramp (s.cycle.toNat + 8000), interrupted := false } }) ∧
  (∀ s tid d pid fan priv launch last rest, Asked s tid d pid 0 fan priv launch last rest → s.spool.restarting = false →
    (s.path pid).entry.valid = true → priv = true ∨ (s.path pid).entry.owner = launch → Dark (s.path pid) →
    exec (.lgrantDecision (s.path pid).entry.fibre) s = .next (answerParked { s with spool := { s.spool with requests := rest } } tid d
      (BitVec.ofNat 64 (fan * 2 ^ 12 + budgetLeft s (s.path pid).entry.fibre * 2 ^ 32)) last)) ∧
  (∀ f s, (∀ q ∈ s.spool.requests, ∀ tid d pid g fan priv launch last, q = .lgrant tid d pid g fan priv launch last →
    (s.path pid).entry.fibre ≠ f) → exec (.lgrantDecision f) s = .next s)

/-- spec/17 R266, R268, R269, R278: a change runs its steps in order. At a flit boundary step A sets order and fan-out, then power ramps 4.0 us up or 1.0 us down; a raise that waits
starts, first accepted first, once its light is free; an order that ageing has found unsupported past step A falls at the next flit boundary; the ramp's end leads to step C, at a flit boundary, where the order is to rise, else to UP or DARK.
Nothing moves early, nor while the Spool controller restarts.
Beyond the rules' words it takes the model's own readings, log entries 31 and 64. -/
def Obligations.GrantChangesRunTheirSteps : Prop :=
  (∀ pid s t b, AtStep s pid t .stepA → boundaryOf s (s.path pid) = some b →
    let s1 := if t.m1 = (s.path pid).order then s else orderChanged s (s.path pid)
    let s2 := s1.modPath pid fun p => { p.from b with order := t.m1, fan := t.fNew, drop := none }
    (t.gOld < t.gNew → raiseHeld s2 pid (s2.path pid) t.gNew = false →
      exec (.orderChangeStepA pid) s = .next (s2.modPath pid fun p => { p with trans := some { t with step := .ramp (s.cycle.toNat + 8000) } })) ∧
    (t.gOld < t.gNew → raiseHeld s2 pid (s2.path pid) t.gNew = true →
      exec (.orderChangeStepA pid) s = .next (s2.modPath pid fun p => { p with trans := some { t with step := .waiting } })) ∧
    (t.gNew < t.gOld →
      exec (.orderChangeStepA pid) s = .next (s2.modPath pid fun p => { p with trans := some { t with step := .ramp (s.cycle.toNat + 2000) } })) ∧
    (t.gNew = t.gOld → t.m1 < t.mNew →
      exec (.orderChangeStepA pid) s = .next (s2.modPath pid fun p => { p with trans := some { t with step := .stepC (s.cycle.toNat + 8000) } }))) ∧
  (∀ pid s t m b, s.spool.restarting = false → (s.path pid).trans = some t → t.step ≠ .stepA → (s.path pid).drop = some m →
    boundaryOf s (s.path pid) = some b →
    exec (.orderChangeStepA pid) s = .next ((orderChanged s (s.path pid)).modPath pid fun p =>
      { p.from b with order := min p.order m, drop := none })) ∧
  (∀ pid s, boundaryOf s (s.path pid) = none → exec (.orderChangeStepA pid) s = .next s ∧ exec (.orderRaiseStepC pid) s = .next s) ∧
  (∀ s pid p g, raiseHeld s pid p g = true ↔ lightFree s pid p g = false ∨
    ∃ e ∈ onFibre s p.entry.fibre, e.1 ≠ pid ∧ e.2.acceptNo < p.acceptNo ∧ raisePending e.2 = true) ∧
  (∀ pid f s t, AtStep s pid t .waiting → (pid, s.path pid) ∈ onFibre s f →
    (∀ e ∈ onFibre s f, e.1 ≠ pid → ∀ t', e.2.trans = some t' → t'.step = .waiting → (s.path pid).acceptNo < (s.path e.1).acceptNo) →
    (raiseHeld s pid (s.path pid) t.gNew = false →
      exec (.waitingRaiseStart f) s = .next (s.modPath pid fun p =>
        { p with trans := some { t with step := .ramp (s.cycle.toNat + 8000) } })) ∧
    (raiseHeld s pid (s.path pid) t.gNew = true → exec (.waitingRaiseStart f) s = .next s)) ∧
  (∀ pid s t ends, AtStep s pid t (.ramp ends) →
    (s.cycle.toNat < ends → exec (.rampEnd pid) s = .next s) ∧
    (ends ≤ s.cycle.toNat → (s.path pid).order < t.mNew →
      exec (.rampEnd pid) s = .next (s.modPath pid fun p =>
        { p with trans := some { t with step := .stepC (s.cycle.toNat + if t.interrupted then 8000 else 0) } })) ∧
    (ends ≤ s.cycle.toNat → t.mNew ≤ (s.path pid).order → (s.path pid).grant = 0 →
      exec (.rampEnd pid) s = .next (s.modPath pid fun p => { p with trans := none, state := .dark }))) ∧
  (∀ pid s t due, AtStep s pid t (.stepC due) →
    (s.cycle.toNat < due → exec (.orderRaiseStepC pid) s = .next s) ∧
    (∀ b, boundaryOf s (s.path pid) = some b → due ≤ s.cycle.toNat → (s.path pid).grant ≠ 0 → (s.path pid).state = .settling →
      (∀ q ∈ facedPeers s (s.path pid), (s.peer q).session = true) →
      t.mNew ≤ max 1 (bestOrder s (s.path pid) (s.path pid).fan (s.path pid).grant) →
      exec (.orderRaiseStepC pid) s = .next ((orderChanged s (s.path pid)).modPath pid fun p =>
        { p.from b with order := t.mNew, drop := none, trans := none, state := .up }))) ∧
  (∀ pid s, s.spool.restarting = true → exec (.orderChangeStepA pid) s = .next s ∧ exec (.rampEnd pid) s = .next s ∧
    exec (.orderRaiseStepC pid) s = .next s ∧ exec (.waitingRaiseStart pid) s = .next s)

/-- spec/17 R275, R276: at the end of its window of 2^24 bits a colour over its error threshold is handed back, at a flit boundary, and retrains; it
rejoins when it has trained, and stays out after three failures in a row. A source that fails takes its four colours out, a replaced one brings them
back to train. Each writes an event record; grants do not change. A colour that has lost its light stays in its path's stripe set until the path's
next flit boundary. A change of order carries a colour's counted bits on and restarts the retrainings. The time a retraining takes is the
implementation's (log entry 97). spec/17 R277, R278, spec/20 R318: a margin within the host's bounds takes effect, is recorded, and lowers the order
of a path whose grant no longer supports it, with no change of power, or lowers the orders of the change that runs there, a record for each order
lowered; one outside changes nothing. A watchdog reset freezes every change; the restart takes each up from where it stands.
Beyond the rules' words it takes the model's own readings, log entries 26 and 27. -/
def Obligations.ColoursAgeingAndWatchdogKeepLinksRunning : Prop :=
  ((∀ f c errors s pid n tick, colourPath s f c = some pid → (s.path pid).entry.fibre = f → tabGet (s.fibre f).windows c = some (n, tick) →
     n + 8 * (s.path pid).order * (s.cycle.toNat - tick) < 2 ^ 24 → exec (.berWindowEnd f c errors) s = .next s) ∧
   (∀ f c errors s pid n tick, colourPath s f c = some pid → (s.path pid).entry.fibre = f → (s.path pid).order ≠ 0 →
     colourWorks (s.fibre f) c = true → tabGet (s.fibre f).windows c = some (n, tick) →
     2 ^ 24 ≤ n + 8 * (s.path pid).order * (s.cycle.toNat - tick) → errors ≤ s.host.ber →
     exec (.berWindowEnd f c errors) s = .next (s.modFibre f fun x => { x with windows := tabPut x.windows c (0, s.cycle.toNat) })) ∧
   (∀ f c errors s pid n tick, colourPath s f c = some pid → (s.path pid).entry.fibre = f → (s.path pid).order ≠ 0 →
     colourWorks (s.fibre f) c = true → tabGet (s.fibre f).windows c = some (n, tick) →
     2 ^ 24 ≤ n + 8 * (s.path pid).order * (s.cycle.toNat - tick) → s.host.ber < errors →
     (boundaryOf s (s.path pid) = none → exec (.berWindowEnd f c errors) s = .next s) ∧
     (boundaryOf s (s.path pid) ≠ none →
     ∃ s', exec (.berWindowEnd f c errors) s = .next s' ∧ s'.host.evSeq = s.host.evSeq + 1 ∧
       tabGet (s'.fibre f).training c = some (if s.spool.restarting then 0 else s.cycle.toNat + 1) ∧ colourWorks (s'.fibre f) c = false ∧
       (∀ x, x ≠ c → tabGet (s'.fibre f).training x = tabGet (s.fibre f).training x) ∧ (s'.path pid).grant = (s.path pid).grant ∧
       ((stripeSet s' (s'.path pid)).isEmpty = false → (s'.path pid).state = (s.path pid).state ∨ (s.path pid).state = .down ∨
         (s.path pid).state = .training) ∧
       ((stripeSet s' (s'.path pid)).isEmpty = true → (s.path pid).hasColour c = true → (s.path pid).state = .up →
         (s'.path pid).state = .training))) ∧
   (∀ s p c, c ∈ stripeSet s p ↔ p.entry.first ≤ c ∧ c < p.entry.first + p.entry.count ∧
     (setHas p.leaving c = true ∨ colourWorks (s.fibre p.entry.fibre) c = true)) ∧
   (∀ f c s began, tabGet (s.fibre f).training c = some began → began ≠ 0 → began + (Config.retrainTicks f c).toNat ≤ s.cycle.toNat + 1 →
     s.spool.restarting = false → (∀ pid, colourPath s f c = some pid → boundaryOf s (s.path pid) ≠ none) →
     (colourPath s f c = none →
       exec (.retrainComplete f c true) s = .next (s.modFibre f fun x =>
         { x with training := tabDel x.training c, failures := tabDel x.failures c, windows := tabPut x.windows c (0, s.cycle.toNat) })) ∧
     (tabGetD (s.fibre f).failures c 0 + 1 < 3 →
       exec (.retrainComplete f c false) s = .next (s.modFibre f fun x =>
         { x with failures := tabPut x.failures c (tabGetD x.failures c 0 + 1), training := tabPut x.training c (s.cycle.toNat + 1) })) ∧
     (3 ≤ tabGetD (s.fibre f).failures c 0 + 1 →
       ∃ s', exec (.retrainComplete f c false) s = .next s' ∧ s'.host.evSeq = s.host.evSeq + 1 ∧ setHas (s'.fibre f).dead c = true ∧
         colourWorks (s'.fibre f) c = false ∧ tabGet (s'.fibre f).training c = none)) ∧
   (∀ f c ok s, tabGetD (s.fibre f).training c 0 = 0 ∨
       s.cycle.toNat + 1 < tabGetD (s.fibre f).training c 0 + (Config.retrainTicks f c).toNat ∨ s.spool.restarting = true ∨
       (∃ pid, colourPath s f c = some pid ∧ boundaryOf s (s.path pid) = none) →
     exec (.retrainComplete f c ok) s = .next s) ∧
   (∀ f src s, src < 16 → (s.fibre f).sources.getLsbD src = true →
     ∃ s', exec (.lossOfLight f src) s = .next s' ∧ s'.host.evSeq = s.host.evSeq + 1 ∧
       (∀ k, k < 16 → (s'.fibre f).sources.getLsbD k = ((s.fibre f).sources.getLsbD k && k != src)) ∧
       (∀ i, i < 4 → colourWorks (s'.fibre f) (4 * src + i) = false) ∧ ∀ pid, (s'.path pid).grant = (s.path pid).grant) ∧
   (∀ s p, let x := orderChanged s p
     (∀ c, c ∈ stripeSet s p → tabGet (x.fibre p.entry.fibre).windows c =
       some (if p.order = 0 then (0, s.cycle.toNat) else (berBits s p c, s.cycle.toNat))) ∧
     (∀ c, c ∉ stripeSet s p → tabGet (x.fibre p.entry.fibre).windows c = tabGet (s.fibre p.entry.fibre).windows c) ∧
     (∀ c t, tabGet (s.fibre p.entry.fibre).training c = some t → tabGet (x.fibre p.entry.fibre).training c =
       some (if p.entry.first ≤ c ∧ c < p.entry.first + p.entry.count ∧ t ≠ 0 then s.cycle.toNat + 1 else t))) ∧
   (∀ f src s, setHas s.cfg.fusedSources (16 * f + src) = true → exec (.laserModuleReplaced f src) s = .next s) ∧
   (∀ f src s, src < 16 → (s.fibre f).sources.getLsbD src = false → setHas s.cfg.fusedSources (16 * f + src) = false →
     ∃ s', exec (.laserModuleReplaced f src) s = .next s' ∧ s'.host = s.host ∧
       (∀ k, k < 16 → (s'.fibre f).sources.getLsbD k = ((s.fibre f).sources.getLsbD k || k == src)) ∧
       (∀ i, i < 4 → setHas (s.fibre f).dead (4 * src + i) = false →
         tabGet (s'.fibre f).training (4 * src + i) = some (if s.spool.restarting then 0 else s.cycle.toNat + 1)))) ∧
  ((∀ f v s, v < (s.fibre f).m0min ∨ (s.fibre f).m0max < v → exec (.ageingScan f (.m0 v)) s = .next s) ∧
   (∀ f s, exec (.ageingScan f .nothing) s = .next s) ∧
   (∀ f v s, f < 48 → (s.fibre f).m0min ≤ v → v ≤ (s.fibre f).m0max → v ≠ (s.fibre f).m0 →
     ∃ s', exec (.ageingScan f (.m0 v)) s = .next s' ∧ (s'.fibre f).m0 = v ∧
       (s'.fibre f).age = { changes := (s.fibre f).age.changes + 1, stamp := s.cycle, kind := 1 } ∧ s'.threads = s.threads ∧
       ∀ pid p, onFibre s f = [(pid, p)] → p.trans = none → s.path pid = p →
         let m := max 1 (bestOrder s' p p.fan p.grant)
         s'.path pid = if p.order ≤ m then p else { p with
           lastSettle := 0xFFFF
           state := if p.state = .up then .settling else p.state
           trans := some { gOld := p.grant, gNew := p.grant, mNew := m, m1 := m, fNew := p.fan, accepted := s.cycle.toNat,
                           step := .stepA, interrupted := false }
           drop := none }) ∧
   (∀ f v s pid p t, f < 48 → (s.fibre f).m0min ≤ v → v ≤ (s.fibre f).m0max → v ≠ (s.fibre f).m0 → onFibre s f = [(pid, p)] → s.path pid = p →
     p.trans = some t → t.gNew ≠ 0 →
     ∃ s', exec (.ageingScan f (.m0 v)) s = .next s' ∧ (s'.fibre f).m0 = v ∧
       let mNew := min t.mNew (max 1 (bestOrder s' p t.fNew t.gNew))
       let m1 := min t.m1 (max 1 (bestOrder s' p t.fNew (min t.gOld t.gNew)))
       let m := max 1 (bestOrder s' p p.fan (guaranteedLight p))
       (t.step = .stepA → s'.path pid = { p with trans := some { t with mNew := mNew, m1 := m1 } } ∧
         s'.host.evSeq = s.host.evSeq + if m1 < t.m1 then 1 else 0) ∧
       (t.step ≠ .stepA → p.drop.getD p.order ≤ m → s'.path pid = { p with trans := some { t with mNew := mNew } } ∧ s'.host.evSeq = s.host.evSeq) ∧
       (t.step ≠ .stepA → m < p.drop.getD p.order → s'.path pid = { p with trans := some { t with mNew := mNew }, drop := some m } ∧
         s'.host.evSeq = s.host.evSeq + 1)) ∧
   (∀ s, s.spool.restarting = false →
     exec .spoolWatchdogReset s = .next { s with spool := { s.spool with restarting := true, resetAt := s.cycle.toNat } }) ∧
   (∀ s, s.spool.restarting = true → ∃ s', exec .spoolRestart s = .next s' ∧ s'.spool.restarting = false ∧ s'.host.evSeq = s.host.evSeq + 1 ∧
     (∀ pid t ends, (s.path pid).trans = some t → t.step = .ramp ends →
       (s'.path pid).trans = some { t with
         step := .ramp (s.cycle.toNat + (ends - s.spool.resetAt)), interrupted := decide (t.gOld < t.gNew) }) ∧
     (∀ pid t due, (s.path pid).trans = some t → t.step = .stepC due →
       (s'.path pid).trans = some { t with step := .stepC (s.cycle.toNat + 8000), interrupted := decide (t.gOld < t.gNew) }) ∧
     (∀ pid t, (s.path pid).trans = some t → t.step = .stepA ∨ t.step = .waiting →
       (s'.path pid).trans = some { t with interrupted := decide (t.gOld < t.gNew) }) ∧
     ∀ f c x, tabGet (s.fibre f).training c = some x → tabGet (s'.fibre f).training c = some (if x = 0 then s.cycle.toNat + 1 else x)) ∧
   (∀ s, s.spool.restarting = false → exec .spoolRestart s = .next s))

/-! ### Flits, the Bridle, circuits and peers (spec/17 R272 to R274, spec/18 R279 to R287, R337, spec/10 R192) -/

namespace Sys2Proof.Claims

/-- A flit boundary b of a path that carries flits falls in this tick, and none of its colours is to leave there. -/
structure AtBoundary (s : State) (pid b : Nat) : Prop where
  flow : flitsFlow s (s.path pid) = true
  boundary : boundaryOf s (s.path pid) = some b
  colours : (s.path pid).leaving = []

/-- At boundary b a path sends data from stream k: its circuits or window are open and confirmed, and no nak is due. -/
structure Sends (s : State) (pid k b : Nat) : Prop extends AtBoundary s pid b where
  stream : sendingStream s (s.path pid) = some k
  noNak : dueStream s (s.path pid) (·.nakDue) = none

/-- A peer's flits reach this package over a path: it carries flits, and hears the peer on a circuit that stands, confirmed and attested. -/
structure Hears (s : State) (pid peer : Nat) : Prop where
  flow : flitsFlow s (s.path pid) = true
  hears : hears s (s.path pid) peer = true

/-- A fibre runs slots and stands in slot x. -/
abbrev InSlot (s : State) (f : Nat) (x : SlotEntry) : Prop := (s.fibre f).slots[(s.fibre f).slotIx]? = some x ∧ (s.fibre f).up = true

end Sys2Proof.Claims

/-- spec/17 R269, R272 to R274, spec/18 R287: a path sends one flit at each boundary, ⌈40 / c⌉ / m ns apart: a nak that is due, else one to be replayed, else a
new one, sealed under the receiver's key, numbered and kept until every receiver has acknowledged it, else an acknowledgement that is due, else an idle one;
with 1,024 kept it sends no new flit. Its beats are dealt to the stripe set's colours in turn; a lit path that carries nothing sends idle flits. From a peer the
path hears, an ack releases what it covers, and a nak starts go-back-N from the flit it names unless a replay runs.
Beyond the rules' words it takes the model's own readings, log entries 32, 64 and 95. -/
def Obligations.FlitsAreSentInOrderAndKeptUntilAcknowledged : Prop :=
  (∀ now next ft, 0 < ft → ∃ j, boundaryNow now next ft = next + j * ft ∧ now < boundaryNow now next ft + 6 ∧
    (j = 0 ∨ boundaryNow now next ft + 6 ≤ now + ft)) ∧
  (∀ s p, 0 < (stripeSet s p).length → 0 < p.order → p.order ≤ 4 →
    flitTime s p * p.order = 12 * ((40 + (stripeSet s p).length - 1) / (stripeSet s p).length)) ∧
  (∀ cs bytes j k, j < cs.length → k * cs.length + j < 40 →
    ∃ l, (stripe cs bytes)[j]? = some (cs.getD j 0, l) ∧
      l[k]? = some (some (bytes.getD (2 * (k * cs.length + j)) 0, bytes.getD (2 * (k * cs.length + j) + 1) 0))) ∧
  (∀ pid s, (s.path pid).leaving = [] → flitsLit s (s.path pid) = false ∨ boundaryOf s (s.path pid) = none →
    exec (.flitTransmit pid) s = .next s) ∧
  (∀ pid b s, (s.path pid).leaving = [] → flitsLit s (s.path pid) = true → flitsFlow s (s.path pid) = false → boundaryOf s (s.path pid) = some b →
    exec (.flitTransmit pid) s = .next (s.modPath pid fun p => { p with
      nextFlit := b + flitTime s (s.path pid), wire := bareFlit 0 0, beats := stripe (stripeSet s (s.path pid)) (bareFlit 0 0) })) ∧
  (∀ pid k b s f rest, Sends s pid k b → ((s.path pid).stream k).resendFrom = none → ((s.path pid).stream k).queue = f :: rest →
    f.under.isSome = true → ((s.path pid).stream k).replay.length < 1024 → (∀ q ∈ receivers s (s.path pid) k, (s.peer q).txCount < 2 ^ 48) →
    receivers s (s.path pid) k ≠ [] →
    ∃ s', exec (.flitTransmit pid) s = .next s' ∧ s'.links = s.links ∧ s'.threads = s.threads ∧ s'.net = s.net ∧
      (s'.path pid).nextFlit = b + flitTime s (s.path pid) ∧
      (s'.path pid).wire = { f with seq := ((s.path pid).stream k).next, unacked := receivers s (s.path pid) k }.bytes ∧
      (s'.path pid).beats = stripe (stripeSet s (s.path pid)) (s'.path pid).wire ∧
      (s'.path pid).stream k = { (s.path pid).stream k with
        queue := rest
        next := ((s.path pid).stream k).next + 1
        replay := ((s.path pid).stream k).replay ++
          [{ f with seq := ((s.path pid).stream k).next, unacked := receivers s (s.path pid) k }] }) ∧
  (∀ pid k b s f rest q, Sends s pid k b → ((s.path pid).stream k).resendFrom = none → ((s.path pid).stream k).queue = f :: rest →
    f.under = none → f.len = 1 → f.place = 0 → f.payload.length = 64 → ((s.path pid).stream k).replay.length < 1024 →
    receivers s (s.path pid) k = [q] → (s.peer q).txCount < 2 ^ 48 →
    ∃ s', exec (.flitTransmit pid) s = .next s' ∧ s'.peer q = { s.peer q with txCount := (s.peer q).txCount + 1 } ∧
      ((s'.path pid).stream k).replay = ((s.path pid).stream k).replay ++
        [{ f with
           seq := ((s.path pid).stream k).next, unacked := [q], under := some (q, (s.peer q).txKey, (s.peer q).txCount)
           payload := f.payload.take 48 ++
             (List.range 16).map (Config.gcmTag q true (s.peer q).txKey (s.peer q).txCount (f.payload.take 48)) }]) ∧
  (∀ pid k b s q i r, Sends s pid k b → ((s.path pid).stream k).resendFrom = some q →
    findIx (fun (x : FlitRec) => x.seq == q) ((s.path pid).stream k).replay = some i → ((s.path pid).stream k).replay[i]? = some r →
    r.under.isSome = true →
    ∃ s', exec (.flitTransmit pid) s = .next s' ∧ (s'.path pid).nextFlit = b + flitTime s (s.path pid) ∧ s'.links = s.links ∧
      (s'.path pid).wire = r.bytes ∧ (s'.path pid).beats = stripe (stripeSet s (s.path pid)) r.bytes ∧
      (s'.path pid).stream k = { (s.path pid).stream k with
        resendFrom := if ((s.path pid).stream k).replay.any (fun r => r.seq == q + 1) then some (q + 1) else none }) ∧
  (∀ pid k b s, Sends s pid k b → ((s.path pid).stream k).resendFrom = none →
    ((s.path pid).stream k).queue = [] ∨ 1024 ≤ ((s.path pid).stream k).replay.length →
    dueStream s (s.path pid) (·.ackDue) = none →
    exec (.flitTransmit pid) s = .next (s.modPath pid fun p => { p with
      nextFlit := b + flitTime s (s.path pid), wire := bareFlit 0 0, beats := stripe (stripeSet s (s.path pid)) (bareFlit 0 0) })) ∧
  (∀ pid b s k, AtBoundary s pid b → dueStream s (s.path pid) (·.nakDue) = some k →
    ∃ s', exec (.flitTransmit pid) s = .next s' ∧ (s'.path pid).wire = bareFlit 3 ((s.path pid).stream k).expect ∧
      (s'.path pid).nextFlit = b + flitTime s (s.path pid) ∧
      (s'.path pid).stream k = { (s.path pid).stream k with nakDue := false }) ∧
  (∀ pid b s k, AtBoundary s pid b → dueStream s (s.path pid) (·.nakDue) = none → sendingStream s (s.path pid) = none →
    dueStream s (s.path pid) (·.ackDue) = some k →
    ∃ s', exec (.flitTransmit pid) s = .next s' ∧ (s'.path pid).wire = bareFlit 2 (((s.path pid).stream k).expect - 1 -
        (if 1024 < ((s.path pid).stream k).partLen then 0 else BitVec.ofNat 16 ((s.path pid).stream k).partItem.length)) ∧
      (s'.path pid).nextFlit = b + flitTime s (s.path pid) ∧
      (s'.path pid).stream k = { (s.path pid).stream k with ackDue := false }) ∧
  (∀ pid peer seq s, hears s (s.path pid) peer = true → (s.fibre (s.path pid).entry.fibre).slots = [] → (∀ r ∈ ((s.path pid).stream 0).replay, r.unacked = [peer]) →
    seqUpTo seq (((s.path pid).stream 0).next - 1) = true → ((s.path pid).stream 0).resendFrom = none →
    exec (.ack pid peer seq) s = .next (modStream s pid 0 fun st =>
      { st with replay := st.replay.filter fun r => !seqUpTo r.seq seq })) ∧
  (∀ pid peer seq s, hears s (s.path pid) peer = false → exec (.ack pid peer seq) s = .next s ∧ exec (.nak pid peer seq) s = .next s) ∧
  (∀ pid peer seq s, seqUpTo seq (((s.path pid).stream (ackStream s (s.path pid) peer)).next - 1) = false →
    exec (.ack pid peer seq) s = .next s) ∧
  (∀ pid peer seq s, ((s.path pid).stream (ackStream s (s.path pid) peer)).resendFrom ≠ none →
    exec (.nak pid peer seq) s = .next s) ∧
  (∀ pid peer seq s r, hears s (s.path pid) peer = true → ((s.path pid).stream (ackStream s (s.path pid) peer)).resendFrom = none →
    r ∈ ((s.path pid).stream (ackStream s (s.path pid) peer)).replay → r.seq = seq →
    exec (.nak pid peer seq) s = .next (modStream s pid (ackStream s (s.path pid) peer) fun st => { st with resendFrom := some seq }))

/-- spec/17 R272, R274, spec/18 R287: a flit reads back from its 80 bytes. A failed flit makes a nak due and what follows is discarded until the awaited
one comes; a number received already is discarded; data in order joins its item. A whole item is taken where its tag is right, and an acknowledgement
is due; else a nak asks for the item again from its first flit, the session ends, the path goes ATTESTING and an event record is written. An item
longer than a replay buffer is acknowledged as it comes (the model's choice, log entry 95). spec/18 R279, R280: an item received whole joins the queue
of its die, or the queue toward its package, where that has room, and from a die's queue it goes on as its flow has credit; an output serves the queue
its service order names, and its flits follow those queued.
Beyond the rules' words it takes the model's own readings, log entries 12, 32 and 33. -/
def Obligations.FlitsAreReceivedInOrderAndItemsServed : Prop :=
  ((∀ f : FlitIn, f.kind < 16 → f.cls < 8 → f.die < 256 → f.len < 65536 → f.payload.length = 64 →
     (flitBytes f).length = 80 ∧ readFlit (flitBytes f) = some f) ∧
   (∀ pid peer raw s, Hears s pid peer → readFlit raw = none →
     exec (.flitReceive pid peer raw) s = .next (modStream s pid (peer + 1) fun st => { st with nakked := true, nakDue := true })) ∧
   (∀ pid peer raw s f, Hears s pid peer → readFlit raw = some f → f.kind = 1 → f.seq ≠ ((s.path pid).stream (peer + 1)).expect →
     exec (.flitReceive pid peer raw) s = .next (
       if seqUpTo f.seq (((s.path pid).stream (peer + 1)).expect - 1) then modStream s pid (peer + 1) fun st => { st with ackDue := true }
       else if ((s.path pid).stream (peer + 1)).nakked then s
       else modStream s pid (peer + 1) fun st => { st with nakked := true, nakDue := true })) ∧
   (∀ pid peer raw s f, Hears s pid peer → readFlit raw = some f → f.kind ≠ 1 → exec (.flitReceive pid peer raw) s = .next s) ∧
   (∀ pid peer raw s f, Hears s pid peer → readFlit raw = some f → f.kind = 1 → f.seq = ((s.path pid).stream (peer + 1)).expect →
     let st := (s.path pid).stream (peer + 1)
     let part := (if f.first then [] else st.partItem) ++ [f.payload]
     let plain := decrypt peer (s.peer peer) part.flatten
     (part.length < f.len →
       exec (.flitReceive pid peer raw) s = .next (modStream s pid (peer + 1) fun st =>
         { st with expect := st.expect + 1, nakked := false, nakDue := false, ackDue := st.ackDue || decide (1024 < f.len), partItem := part,
                   partLen := f.len })) ∧
     (f.len ≤ part.length → tagOk peer (s.peer peer) plain = true →
       ∃ s', exec (.flitReceive pid peer raw) s = .next s' ∧ s'.peer peer = { s.peer peer with rxCount := (s.peer peer).rxCount + 1 } ∧
         (s'.path pid).stream (peer + 1) = { st with
           expect := st.expect + 1, nakked := false, nakDue := false, ackDue := true, partItem := [], partLen := f.len
           whole := st.whole ++ [{ cls := f.cls, die := f.die, bytes := plain.take (plain.length - 16) }] }) ∧
     (f.len ≤ part.length → tagOk peer (s.peer peer) plain = false →
       ∃ s', exec (.flitReceive pid peer raw) s = .next s' ∧ (s'.peer peer).session = false ∧ (s'.peer peer).attesting = true ∧
         s'.host.evSeq = s.host.evSeq + 1 ∧ ((s.path pid).state ≠ .draining → (s'.path pid).state = .attesting) ∧
         (let st' := (s'.path pid).stream (peer + 1)
          st'.expect = st.expect + 1 - BitVec.ofNat 16 part.length ∧ st'.nakked = true ∧ st'.nakDue = true ∧
          st'.ackDue = (st.ackDue || decide (1024 < f.len)) ∧
          st'.partItem = [] ∧ st'.whole = st.whole))) ∧
   (∀ pid peer raw s, flitsFlow s (s.path pid) = false ∨ hears s (s.path pid) peer = false → exec (.flitReceive pid peer raw) s = .next s)) ∧
  ((∀ item s pid p k st w rest, s.spool.paths = [(pid, p)] → p.streams = [(k, st)] → st.whole = w :: rest → itemMatches item w = true →
     let dest := if item.dst / 8 = s.cfg.package then 4096 + item.dst % 8 else item.dst / 8
     (queueFull s dest item.body = false →
       ∃ s', exec (.bridleItemReceive item) s = .next s' ∧ s'.net = s.net ∧ (s'.path pid).stream k = { st with whole := rest } ∧
         s'.links = { s.links with queues := s.links.queues ++ [{ item := item, dest := dest, since := s.cycle.toNat }] }) ∧
     (queueFull s dest item.body = true → exec (.bridleItemReceive item) s = .next s)) ∧
   (∀ die s q, (s.die die).stuck = [] → (s.die die).outgoing = [] → s.links.queues = [q] → q.dest = 4096 + die → q.item.dst / 8 = s.cfg.package →
     q.item.cls < 4 → hasCredit s q.item.src q.item.dst q.item.cls = true →
     ∃ s', exec (.creditGrant die) s = .next s' ∧ s'.links.queues = [] ∧ s'.net.items = s.net.items ++ [q.item] ∧
       (s'.flow q.item.src q.item.dst q.item.cls).undelivered = (s.flow q.item.src q.item.dst q.item.cls).undelivered + 1) ∧
   (∀ item s, (∀ e ∈ s.spool.paths, ∀ x ∈ e.2.streams, x.2.whole = []) → exec (.bridleItemReceive item) s = .next s) ∧
   (∀ pid k s pkg wait q st, nextQueue s pid = some (pkg, k, wait) → s.links.queues[k]? = some q → takingStream s pid q = some st →
     ∃ s', exec (.bridleOutputServe pid k) s = .next s' ∧ s'.links = { s.links with queues := s.links.queues.eraseIdx k } ∧
       s'.threads = s.threads ∧ (s'.path pid).served = pkg ∧
       ((s'.path pid).stream st).queue = ((s.path pid).stream st).queue ++ itemAsFlits (itemCommand s q.item) q.item) ∧
   (∀ pid k s, (∀ pkg wait, nextQueue s pid ≠ some (pkg, k, wait)) → exec (.bridleOutputServe pid k) s = .next s) ∧
   (∀ s pid pkg k wait, nextQueue s pid = some (pkg, k, wait) → 128000 < wait →
     ∀ h ∈ outputHeads s pid, h.2.2 ≤ wait))

/-- spec/18 R283 to R287, R337: while a circuit to a peer is up, measurements on the allow list bring its session up with new keys and confirm the circuits that stand,
anything else fails it, with an event record, and each exchange uses leaves. A later circuit carries data only once both ends' tags match; another package than the slot names leaves it without data, and tags that do not match leave the circuit without an exchange. A slotted end that was dark at its circuit-up confirms none in that slot. A direction at 2^48 items
takes a new key.
Beyond the rules' words it takes the model's own readings, log entries 12 and 29. -/
def Obligations.PeersAreAttestedConfirmedAndKeyed : Prop :=
  (∀ peer digest ok s, (s.peer peer).attesting = false ∨ circuitTo s peer = false → exec (.attestationExchange peer digest ok) s = .next s) ∧
  (∀ peer digest ok s, (s.peer peer).attesting = true → circuitTo s peer = true →
    let done := ok && decide (s.links.used + wholeLeaves ≤ 2 ^ 20) && s.links.allow.contains digest
    let n := if done then wholeLeaves else min wholeLeaves (Config.failedLeaves peer s.links.used).toNat
    let used := min (2 ^ 20) (s.links.used + n)
    let low := if s.links.used < 2 ^ 20 - 4096 ∧ 2 ^ 20 - 4096 ≤ used then 1 else 0
    1 ≤ wholeLeaves ∧ ∃ s', exec (.attestationExchange peer digest ok) s = .next s' ∧ s'.threads = s.threads ∧ s'.links.used = used ∧
      (done = true →
        s'.host.evSeq = s.host.evSeq + low ∧
        (s'.peer peer).session = true ∧ (s'.peer peer).txCount = 0 ∧ (s'.peer peer).rxCount = 0 ∧
        (s'.peer peer).txKey = (s.peer peer).txKey + 1 ∧ (s'.peer peer).rxKey = (s.peer peer).rxKey + 1 ∧
        (s'.peer peer).sid = (s.peer peer).sid + 1 ∧ (s'.peer peer).confirmKey = (s.peer peer).confirmKey + 1 ∧
        ∀ f, (s.fibre f).attests peer = true → setHas (s'.fibre f).confirmed peer = true) ∧
      (done = false ∨ 2 ^ 20 ≤ s.links.used →
        s'.host.evSeq = s.host.evSeq + low + 1 ∧ s'.peer peer = { s.peer peer with attesting := false, failed := true } ∧
        ∀ pid ∈ pathsTo s peer, (s.path pid).state = .attesting → (s'.path pid).state = .down)) ∧
  (∀ peer out s, (s.peer peer).session = true →
    (out = true → 2 ^ 48 ≤ (s.peer peer).txCount →
      exec (.keyUpdate peer out) s = .next (s.modPeer peer fun x => { x with txKey := x.txKey + 1, txCount := 0 })) ∧
    (out = false → 2 ^ 48 ≤ (s.peer peer).rxCount →
      exec (.keyUpdate peer out) s = .next (s.modPeer peer fun x => { x with rxKey := x.rxKey + 1, rxCount := 0 })) ∧
    ((if out then (s.peer peer).txCount else (s.peer peer).rxCount) < 2 ^ 48 → exec (.keyUpdate peer out) s = .next s)) ∧
  (∀ f peer lit ok s, (s.fibre f).up = false ∨ setHas (s.fibre f).confirmed peer = true ∨ lit = false ∨ (∀ e ∈ onFibre s f, e.2.grant = 0) ∨
      (s.fibre f).slots ≠ [] ∧ (s.fibre f).litUp = false →
    exec (.keyConfirmation f peer lit ok) s = .next s) ∧
  (∀ f peer ok s e, (s.fibre f).up = true → setHas (s.fibre f).confirmed peer = false → e ∈ onFibre s f → 0 < e.2.grant →
    (s.fibre f).slots = [] ∨ (s.fibre f).litUp = true →
    ((s.fibre f).slots ≠ [] → peer ≠ (s.fibre f).peer →
      ∃ s', exec (.keyConfirmation f peer true ok) s = .next s' ∧ (s'.fibre f).window = .tail ∧ (s'.fibre f).confirmed = (s.fibre f).confirmed ∧
        s'.host.evSeq = s.host.evSeq + 1) ∧
    ((s.fibre f).faces peer = true → (s.peer peer).session = true →
      let own := (List.range 16).map (Config.confirmTag peer (s.peer peer).sid (s.peer peer).confirmKey (s.fibre f).ups)
      let confirms (i : Instr) : Prop := exec i s = .next (s.modFibre f fun y => { y with tag := own, confirmed := setAdd y.confirmed peer })
      let fails (i : Instr) : Prop := ∃ s', exec i s = .next s' ∧ (s'.peer peer).session = false ∧
        setHas (s'.fibre f).confirmed peer = false ∧ setHas (s'.fibre f).barred peer = true ∧ (s'.fibre f).attests peer = false
      confirms (.keyConfirmation f peer true true) ∧ fails (.keyConfirmation f peer true false) ∧
        ∀ tag, (tag = own → confirms (.keyTag f peer tag)) ∧ (tag ≠ own → fails (.keyTag f peer tag))))

/-- spec/18 R281, R282, R337: a circuit that comes up on a dark standing fibre reaches its peer and its paths' colours train; on a slotted fibre it begins
the next slot, the window closed. One with no darkness before it is ignored. The window opens at the guard's end once the keys are confirmed, and
closes at the slot's end; darkness closes it at once. spec/10 R192: circ checks its count, alignment and table at issue, then its thread waits for the
Spool controller's answer: BUSY, RETOPO, MALFORMED or OK. Only OK stages the table, and with commit commits it.
Beyond the rules' words it takes the model's own readings, log entries 31, 36 and 37. -/
def Obligations.CircuitsWindowsAndSlotTables : Prop :=
  ((∀ f peer loss s, f < 48 → peer < 4096 → 1 ≤ loss → loss ≤ 15 → (s.fibre f).slots = [] → (s.fibre f).committed = none →
     (s.fibre f).up = false → onFibre s f = [] → (s.peer peer).session = true →
     exec (.circuitUp f peer loss) s = .next (s.modFibre f fun x =>
       { x with slotIx := 0, up := true, upTick := s.cycle.toNat, peer := peer, reached := [peer], window := .closed, confirmed := [],
                ups := x.ups + 1, litUp := false, barred := [], lMeas := tabPut x.lMeas peer loss })) ∧
   (∀ f peer loss s, f < 48 → peer < 4096 → 1 ≤ loss → loss ≤ 15 → (s.fibre f).slots = [] → (s.fibre f).committed = none → (s.fibre f).up = false →
     onFibre s f = [] → (s.peer peer).session = false → (s.peer peer).failed = false →
     ∃ s', exec (.circuitUp f peer loss) s = .next s' ∧ (s'.fibre f).reached = [peer] ∧ s'.peer peer = { s.peer peer with attesting := true }) ∧
   (∀ f peer loss s pid p, f < 48 → peer < 4096 → 1 ≤ loss → loss ≤ 15 → (s.fibre f).slots = [] → (s.fibre f).committed = none →
     (s.fibre f).up = false → onFibre s f = [(pid, p)] → s.path pid = p → p.grant ≠ 0 → p.state ≠ .draining → stripeSet s p ≠ [] →
     ∃ s', exec (.circuitUp f peer loss) s = .next s' ∧ (s'.fibre f).up = true ∧ (s'.path pid).state = .training ∧
       ∀ c ∈ stripeSet s p, tabGet (s'.fibre f).training c = some (if s.spool.restarting then 0 else s.cycle.toNat + 1)) ∧
   (∀ f peer loss s x, f < 48 → peer < 4096 → 1 ≤ loss → loss ≤ 15 → (s.fibre f).committed = none → (s.fibre f).slots ≠ [] →
     (s.fibre f).slots[((s.fibre f).slotIx + 1) % (s.fibre f).slots.length]? = some x → (s.fibre f).up = false → onFibre s f = [] →
     ∃ s', exec (.circuitUp f peer loss) s = .next s' ∧ InSlot s' f x ∧ (s'.fibre f).peer = x.peer ∧ (s'.fibre f).window = .closed ∧
       (s'.fibre f).confirmed = [] ∧ (s'.fibre f).upTick = s.cycle.toNat ∧ (s'.fibre f).litUp = false) ∧
   (∀ f peer loss s, (s.fibre f).slots = [] → (s.fibre f).up = true → setHas (s.fibre f).reached peer = true →
     exec (.circuitUp f peer loss) s = .next s) ∧
   (∀ f peer loss s x, InSlot s f x → exec (.circuitUp f peer loss) s = .next s) ∧
   (∀ f s, (s.fibre f).up = true → (s.fibre f).slots ≠ [] →
     exec (.circuitDown f) s = .next (s.modFibre f fun x => { x with up := false, reached := [], window := .closed, confirmed := [] })) ∧
   (∀ f s pid p, (s.fibre f).up = true → (s.fibre f).slots = [] → onFibre s f = [(pid, p)] → s.path pid = p →
     ∃ s', exec (.circuitDown f) s = .next s' ∧ (s'.fibre f).up = false ∧
       (s'.path pid).state = if p.state = .dark ∨ p.state = .draining then p.state else .down) ∧
   (∀ f s, (s.fibre f).up = false → exec (.circuitDown f) s = .next s) ∧
   (∀ f s x, InSlot s f x →
     let guard := if x.guard = 0 then 3000 else x.guard
     let now := s.cycle.toNat
     ((s.fibre f).window = .closed → (s.fibre f).upTick + guard ≤ now → now < (s.fibre f).upTick + x.dur →
       (∃ s', exec (.windowOpen f) s = .next s' ∧
         (s'.fibre f).window = if setHas (s.fibre f).confirmed (s.fibre f).peer then .opened else .closed) ∧
       ((∀ e ∈ onFibre s f, e.2.state ≠ .training ∨ stripeSet s e.2 = []) → exec (.windowOpen f) s = .next (
         if setHas (s.fibre f).confirmed (s.fibre f).peer then s.modFibre f fun y => { y with window := .opened } else s))) ∧
     (now < (s.fibre f).upTick + guard ∨ (s.fibre f).upTick + x.dur ≤ now → exec (.windowOpen f) s = .next s) ∧
     ((s.fibre f).window ≠ .tail → (s.fibre f).upTick + x.dur ≤ now →
       exec (.windowClose f) s = .next (s.modFibre f fun y => { y with window := .tail })) ∧
     (now < (s.fibre f).upTick + x.dur → exec (.windowClose f) s = .next s))) ∧
  ((∀ d a b fibre commit s u t, Turn s u t → Issues (.circ d a b fibre commit) u t →
     (64 < (t.g b).toNat → Takes (.circ d a b fibre commit) s u 0x01 (t.g b)) ∧
     ((t.g b).toNat ≤ 64 → (t.g a).toNat % 8 ≠ 0 → Takes (.circ d a b fibre commit) s u 0x05 (t.g a)) ∧
     ((t.g b).toNat ≤ 64 → (t.g a).toNat % 8 = 0 →
       (∀ v, firstUnreadable s t.core (t.g a) (16 * (t.g b).toNat) = some v → Takes (.circ d a b fibre commit) s u 0x06 v) ∧
       (firstUnreadable s t.core (t.g a) (16 * (t.g b).toNat) = none → Sound s t.core (t.g a).toNat (16 * (t.g b).toNat) →
         ∃ s' slots bad, exec (.circ d a b fibre commit) s = .next s' ∧ Waits s s' u t (.reply (.done (headLast u.head))) ∧
           s'.spool = { s.spool with requests := s.spool.requests ++
             [.circ u.tid d.toNat fibre.toNat commit slots bad (headLast u.head)] } ∧
           slots.length = (t.g b).toNat ∧
           (bad = false → ∀ x ∈ slots, x.peer < 4096 ∧ x.port ≤ 47 ∧ (if x.guard = 0 then 3000 else x.guard) < x.dur)))) ∧
   (∀ k s tid d fibre commit slots bad last, s.spool.requests[k]? = some (.circ tid d fibre commit slots bad last) →
     let s1 := { s with spool := { s.spool with requests := s.spool.requests.eraseIdx k } }
     (s.spool.restarting = true → exec (.slotTableAnswer k) s = .next (answerParked s1 tid d 3 last)) ∧
     (s.spool.restarting = false → s.links.retopo ≠ none → exec (.slotTableAnswer k) s = .next (answerParked s1 tid d 7 last)) ∧
     (s.spool.restarting = false → s.links.retopo = none →
       (bad = true → exec (.slotTableAnswer k) s = .next (answerParked s1 tid d 1 last)) ∧
       (bad = false → exec (.slotTableAnswer k) s = .next (answerParked (s1.modFibre fibre fun f =>
         { f with staged := some slots, committed := if commit then some slots else f.committed }) tid d 0 last)))) ∧
   (∀ k s, (∀ tid d fibre commit slots bad last, s.spool.requests[k]? ≠ some (.circ tid d fibre commit slots bad last)) →
     exec (.slotTableAnswer k) s = .next s))

/-! ### The host's side (spec/20 R301 to R320, spec/19 R294 to R299, spec/18 R290) -/

namespace Sys2Proof.Claims

/-- The next command of queue q has this op and kind and may start: started, with words w, it leaves the part in s1 (R305, R306). -/
abbrev Commands (s : State) (q op kind : Nat) (s1 : State) (ix : BitVec 32) (w : List Word) : Prop :=
  takeCommand s q op kind = .command s1 ix w

/-- Event ev completes a command with a status (0 done, 1 refused, 3 no launch), a reason and a result, the part being x beside. -/
def Answers (ev : Instr) (s x : State) (q : Nat) (ix : BitVec 32) (status reason result : Nat) : Prop :=
  exec ev s = .next (hostComplete x q ix status reason result)

/-- The host reads v at an offset of the register window. -/
def Shows (s : State) (offset : Nat) (v : Word) : Prop :=
  exec (.registerRead offset 8) s = .next (s.modHost fun h => { h with lastRead := some (wordLE v 8) })

/-- The record emit makes. -/
def recordOf (s : State) (type die core : Nat) (tid : Tid) (detail : List Word) : EventRec :=
  { type := type, die := die, core := core, tid := tid, stamp := s.cycle, seq := s.host.evSeq, detail := detail }

end Sys2Proof.Claims

/-- spec/20 R305 to R307, R313, spec/04 R59: a command of an enabled queue is taken once the doorbell has passed it, in slot order where its op waits; a malformed one
is refused with reason 1; completing the oldest moves the head. Doorbells and registers out of their ranges are ignored; a register reads its value, an unlisted offset 0, another size all ones. COPY goes to the engines of die 0; the windows read
and write whole or not at all.
Beyond the rules' words it takes the model's own readings, log entries 5, 80 and 85. -/
def Obligations.HostCommandsRegistersAndWindowsAct : Prop :=
  (∀ s q op kind m s1 w, q < 64 → (s.queue q).enabled = true →
    ((s.queue q).started - (s.queue q).head).toNat < ((s.queue q).tail - (s.queue q).head).toNat → s.host.status / 2 % 2 = 1 →
    slotWords s q (s.queue q).started = (s1, some w) → w.getD 0 0 = BitVec.ofNat 64 (op + kind * 2 ^ 8) → op < 256 → kind < 256 →
    commandKinds op = some m →
    (kind ≤ m → commandWaits op = false ∨ (s.queue q).head = (s.queue q).started →
      Commands s q op kind (s1.modQueue q fun y => { y with started := y.started + 1 }) (s.queue q).started w) ∧
    (m < kind → takeCommand s q op kind =
      .refused (hostComplete (s1.modQueue q fun y => { y with started := y.started + 1 }) q (s.queue q).started 1 1 0))) ∧
  (∀ s q ix status reason result, (s.queue q).done = [] → (s.queue q).head = ix →
    ((hostComplete s q ix status reason result).queue q).head = ix + 1) ∧
  (∀ q v s, q < 64 → (s.queue q).enabled = true → (v - (s.queue q).head).toNat ≤ 2 ^ (s.queue q).log2 →
    exec (.qtail q v) s = .next (s.modQueue q fun x => { x with tail := v })) ∧
  (∀ q v s, 64 ≤ q ∨ (s.queue q).enabled = false ∨ 2 ^ (s.queue q).log2 < (v - (s.queue q).head).toNat → exec (.qtail q v) s = .next s) ∧
  (∀ q size s, q < 64 → 6 ≤ size → size ≤ 16 →
    ((s.queue q).busy = false → (s.queue q).base % 64 = 0 → (s.queue q).base + 64 * 2 ^ size ≤ 2 ^ 48 →
      exec (.qctl q (BitVec.ofNat 64 (size + 2 ^ 8))) s = .next (s.modQueue q fun x =>
        { x with enabled := true, log2 := size, head := 0, tail := 0, started := 0, done := [] })) ∧
    exec (.qctl q (BitVec.ofNat 64 size)) s = .next (s.modQueue q fun x =>
      { x with enabled := false, log2 := if x.busy then x.log2 else size })) ∧
  (∀ q v s, 64 ≤ q ∨ v.toNat % 32 < 6 ∨ 16 < v.toNat % 32 ∨ 512 ≤ v.toNat → exec (.qctl q v) s = .next s) ∧
  (∀ v s, exec (.evcons v) s = .next (if s.host.evCons ≤ v.toNat ∧ v.toNat ≤ s.host.evProd then
    s.modHost fun h => { h with evCons := v.toNat } else s)) ∧
  (∀ die t s, die < 8 → exec (.wakeRegister die t) s = .next (s.modNet fun n =>
    { n with wakes := n.wakes ++ [{ src := 65536, at_ := 0, tid := t, priv := true, launch := 0, after := [] }] })) ∧
  (∀ q v s, q < 64 → exec (.registerWrite (0x40 * q + 0x08) 8 v) s = exec (.qctl q v) s ∧
    exec (.registerWrite (0x40 * q + 0x18) 8 v) s = exec (.qtail q (v.setWidth 32)) s ∧
    ((s.queue q).busy = false → exec (.registerWrite (0x40 * q) 8 v) s = .next (s.modQueue q fun x => { x with base := v.toNat })) ∧
    ((s.queue q).busy = true → exec (.registerWrite (0x40 * q) 8 v) s = .next s)) ∧
  (∀ v s, exec (.registerWrite 0x1008 8 v) s = exec (.evcons v) s) ∧
  (∀ die v s, die < 8 → exec (.registerWrite (0x2000 + 8 * die) 8 v) s = exec (.wakeRegister die (v.setWidth 32)) s) ∧
  (∀ offset size v s, size ≠ 8 → exec (.registerWrite offset size v) s = .next s) ∧
  (∀ offset size s, size ≠ 8 →
    exec (.registerRead offset size) s = .next (s.modHost fun h => { h with lastRead := some (List.replicate size 0xFF) })) ∧
  (∀ q s, q < 64 → Shows s (0x40 * q) (BitVec.ofNat 64 (s.queue q).base) ∧
    Shows s (0x40 * q + 0x08) (BitVec.ofNat 64 ((s.queue q).log2 + if (s.queue q).enabled then 2 ^ 8 else 0)) ∧
    Shows s (0x40 * q + 0x10) ((s.queue q).head.setWidth 64)) ∧
  (∀ s, Shows s 0x1000 (BitVec.ofNat 64 s.host.evProd) ∧ Shows s 0x1008 (BitVec.ofNat 64 s.host.evCons) ∧
    Shows s 0x1010 (BitVec.ofNat 64 s.host.evDrop) ∧ Shows s 0x3000 (BitVec.ofNat 64 s.host.status)) ∧
  (∀ offset s, offset < 0x1000 ∧ (offset % 8 ≠ 0 ∨ 0x18 < offset % 0x40) ∨ 0x1010 < offset ∧ offset < 0x2000 ∨ 0x3000 < offset → Shows s offset 0) ∧
  (∀ die offset bytes s, rangeMapped s die offset.toNat bytes.length true = false → exec (.hostWindowWrite die offset bytes) s = .next s) ∧
  (∀ die offset bytes s, rangeMapped s die offset.toNat bytes.length true = true →
    exec (.hostWindowWrite die offset bytes) s =
      .next (dropCode (dieWrite s die offset.toNat bytes false).1 die offset.toNat bytes.length)) ∧
  (∀ s d off n g, g / 256 = d → (s.core g).iss.segment = none → ((dropCode s d off n).core g).iss.istore = (s.core g).iss.istore.filter fun c =>
    !(eaDie c.base == d && decide (eaOffset c.base < off + n ∧ off < eaOffset c.base + 64))) ∧
  (∀ die offset size s, ∃ s', exec (.hostWindowRead die offset size) s = .next s' ∧
    s'.host.lastRead = (dieRead s die offset.toNat size).2 ∧ s'.threads = s.threads) ∧
  (∀ q s s1 ix w, Commands s q 4 0 s1 ix w →
    let src := w.getD 2 0
    let dst := w.getD 3 0
    let len := w.getD 4 0
    let named (v : Word) : Prop := v.toNat % 8 = 0 ∧ eaLocal v = false ∧ (placeOf s1 0 v).isSome = true
    (named src → named dst → len.toNat % 8 = 0 → len.toNat ≤ 2 ^ 36 →
      ∃ s' c, exec (.copyCommand q) s = .next s' ∧ (s'.die 0).engine = (s1.die 0).engine ++ [c] ∧ s'.cores = s1.cores ∧ s'.host = s1.host ∧
        c.kind = .copy ∧ c.src = src ∧ c.dst = dst ∧ c.len = len.toNat ∧ c.host = some (q, ix.toNat) ∧ c.moved = []) ∧
    (src.toNat % 8 ≠ 0 ∨ dst.toNat % 8 ≠ 0 ∨ len.toNat % 8 ≠ 0 ∨ 2 ^ 36 < len.toNat ∨ eaLocal src = true ∨ eaLocal dst = true →
      Answers (.copyCommand q) s s1 q ix 1 1 0))

/-- spec/20 R306, R309, R311, spec/19 R294, R298: LAUNCH is refused with the lowest reason that applies, or places its launch and answers with its id; while a launch is being
pre-empted on a die that they touch, it and PREEMPT, RESUME and SPILL wait. PREEMPT stops a live
launch; its records written, the launch is pre-empted and holds no context. RESUME takes back a pre-empted one when its cores are free. LAUNCH and RESUME wait for a page that they fault on. SPILL raises the spill limit.
Beyond the rules' words it takes the model's own readings, log entries 39, 40, 42, 43, 53, 77, 102 and 117. -/
def Obligations.LaunchesStartStopAndResume : Prop :=
  (∀ q s, managerBusy s (List.range 8) = true → exec (.launch q) s = .next s) ∧
  (∀ q s, (commandHeld s q 2 true = true → exec (.preempt q) s = .next s) ∧ (commandHeld s q 3 true = true → exec (.resume q) s = .next s) ∧
    (commandHeld s q 10 false = true → exec (.spill q) s = .next s)) ∧
  (∀ q s s1 ix w, managerBusy s (List.range 8) = false → Commands s q 1 0 s1 ix w →
    ((w.getD 2 0).toNat % 64 ≠ 0 → Answers (.launch q) s s1 q ix 1 1 0) ∧
    (∀ s2 bs, (w.getD 2 0).toNat % 64 = 0 → partRead s1 (w.getD 2 0) 256 = (s2, some bs) →
      (∀ s3 r, planLaunch s2 bs = (s3, .error r) → Answers (.launch q) s s3 q ix 1 r 0) ∧
      (∀ s3 p, planLaunch s2 bs = (s3, .ok p) →
        (∀ gap, launchGap s3 p = some gap → exec (.launch q) s = .next (commandWaitsPage s q false gap)) ∧
        (launchGap s3 p = none →
          let placed := startLaunch (gapServed s3 (2 ^ 32 + q)) p
          (∀ gap, pooledGap placed p.lid = some gap → exec (.launch q) s = .next (commandWaitsPage s q true gap)) ∧
          (pooledGap placed p.lid = none → Answers (.launch q) s placed q ix 0 0 p.lid))))) ∧
  (∀ s bs, let d := readDesc bs
    (descReserved bs = false ∨ descLimits s d = false → (planLaunch s bs).2 = .error 1) ∧
    (descReserved bs = true → descLimits s d = true →
      (d.spillLimit < d.threads * (if d.travelling then 18432 else 2048) → (planLaunch s bs).2 = .error 2) ∧
      (d.threads * (if d.travelling then 18432 else 2048) ≤ d.spillLimit →
        ((List.range 8).filter (dieFree s d)).length < d.dmin → (planLaunch s bs).2 = .error 3))) ∧
  (∀ s p, ∃ l, (startLaunch s p).launch? p.lid = some l ∧ l.phase = .live ∧ l.desc = p.desc ∧ l.dies = p.dies ∧ l.cores = p.cores ∧
    l.next = p.desc.threads) ∧
  (∀ q s s1 ix w, commandHeld s q 2 true = false → Commands s q 2 0 s1 ix w →
    let lid := (w.getD 2 0).toNat % 256
    (s1.launch? lid = none → Answers (.preempt q) s s1 q ix 3 0 0) ∧
    (∀ l, s1.launch? lid = some l → l.phase ≠ .live ∨ s1.threadsOf lid = [] → Answers (.preempt q) s s1 q ix 3 0 0) ∧
    (∀ l, s1.launch? lid = some l → l.phase = .live → s1.threadsOf lid ≠ [] →
      let slots := lowestSlots (usedRecords s1 lid) (contextHolders s1 lid).length
      ((∃ k ∈ slots, l.desc.spillLimit < (k + 1) * recordSize l) → Answers (.preempt q) s s1 q ix 1 9 0) ∧
      ((∀ k ∈ slots, (k + 1) * recordSize l ≤ l.desc.spillLimit) → ∃ s', exec (.preempt q) s = .next s' ∧ s'.net = s1.net ∧ s'.dies = s1.dies ∧
        s'.launch? lid = some { l with
          phase := .preempting (w.getD 3 0) q ix.toNat ((List.range 8).map fun d => s1.coreClock (256 * d)) }))) ∧
  (∀ lid s l area q slot clocks s2, s.launch? lid = some l → l.phase = .preempting area q slot clocks →
    let s0 := withdrawWaits s lid
    (launchStopped s0 lid l = false → exec (.preemptSave lid) s = .next s0) ∧
    (launchStopped s0 lid l = true →
      let s1 := l.cores.foldl (fun s g => saveErrors (stopMatrix s g) l g) s0
      saveRecords ((contextHolders s1 lid).foldl (fun s e => s.setThread e.1 (stoppedThread e.2)) s1) lid l area = some s2 →
      ∃ s', exec (.preemptSave lid) s = .next s' ∧ (s'.launch? lid).map (·.phase) = (s2.launch? lid).map (fun _ => .preempted area) ∧
        s'.host.evSeq = s2.host.evSeq + 1 ∧ ∀ tid t, s'.thread? tid = some t → tidLaunch tid = lid → t.ctx = none)) ∧
  (∀ lid s l, s.launch? lid = some l → (∀ area q slot clocks, l.phase ≠ .preempting area q slot clocks) → exec (.preemptSave lid) s = .next s) ∧
  (∀ q s s1 ix w, commandHeld s q 3 true = false → Commands s q 3 0 s1 ix w →
    let lid := (w.getD 2 0).toNat % 256
    (s1.launch? lid = none → Answers (.resume q) s s1 q ix 3 0 0) ∧
    (∀ l, s1.launch? lid = some l → (∀ area, l.phase ≠ .preempted area) → Answers (.resume q) s s1 q ix 3 0 0) ∧
    (∀ l area, s1.launch? lid = some l → l.phase = .preempted area →
      (coresFree s1 l = false → exec (.resume q) s = .next s) ∧
      (∀ gap, coresFree s1 l = true → l.segments.findSome? (segmentGap s1) = some gap →
        exec (.resume q) s = .next (commandWaitsPage s q false gap)) ∧
      (∀ s2, coresFree s1 l = true → l.segments.findSome? (segmentGap s1) = none →
        resumeLaunch (gapServed s1 (2 ^ 32 + q)) lid l (w.getD 3 0) = some s2 →
        Answers (.resume q) s s2 q ix 0 0 0 ∧ (s2.launch? lid).map (·.phase) = some .live))) ∧
  (∀ q s s1 ix w, commandHeld s q 10 false = false → Commands s q 10 0 s1 ix w →
    let lid := (w.getD 2 0).toNat % 256
    (s1.launch? lid = none → Answers (.spill q) s s1 q ix 3 0 0) ∧
    (∀ l, s1.launch? lid = some l → l.phase = .live →
      ((w.getD 3 0).toNat < l.desc.spillLimit → Answers (.spill q) s s1 q ix 1 1 0) ∧
      (l.desc.spillLimit ≤ (w.getD 3 0).toNat → (∀ e ∈ s1.threadsOf lid, ∀ x pc v k, e.2.status ≠ .blocked x pc v k) →
        Answers (.spill q) s (s1.setLaunch lid { l with desc := { l.desc with spillLimit := (w.getD 3 0).toNat } }) q ix 0 0 0)))

/-- spec/20 R301, R308, R314, R316, spec/19 R299: bring-up fuses off what the self-test finds failed, writes the discovery record and raises STATUS. An event record is written where the area has room and none waits,
else held, else dropped and counted; held ones are written when room comes, then a LOST record. A thermal trip lowers a die one state; corrected errors are
counted, a thread that meets an uncorrectable one is killed, and the word keeps it until a write replaces it whole.
Beyond the rules' words it takes the model's own readings, log entries 3, 4, 28, 86 and 87. -/
def Obligations.BringUpEventsErrorsAndTrips : Prop :=
  (∀ s, s.host.status % 2 = 1 → exec .bringUp s = .next s) ∧
  (∀ s, s.host.status % 2 = 0 → ∃ s', exec .bringUp s = .next s' ∧ s'.threads = s.threads ∧ s'.dies = s.dies ∧ s'.host.status % 4 = 3 ∧
    ∀ i, i < 16 → Memory.get s'.host.memory (Config.recordAddress + i) =
      [0x44, 0x58, 0x50, 0x34, 0x2D, 0x30, 0x31, 0x39, 0x32, 0, 0, 0, 0, 0, 0, 0].getD i 0) ∧
  (∀ found s, s.host.status % 2 = 1 → exec (.bringUpTested found) s = .next s) ∧
  (∀ found s, s.host.status % 2 = 0 → ∃ s', exec (.bringUpTested found) s = .next s' ∧ s'.threads = s.threads ∧ s'.host.status % 4 = 3 ∧
    (∀ k ∈ found.cores, setHas s'.cfg.fusedCores k = true) ∧ (∀ k ∈ found.slices, setHas s'.cfg.fusedSlices k = true) ∧
    (∀ k ∈ found.sources, setHas s'.cfg.fusedSources k = true ∧ (s'.fibre (k / 16)).sources.getLsbD (k % 16) = false) ∧
    ∀ d, d < 8 → (∀ k ∈ found.cores, k / 256 ≠ d) → (∀ k ∈ found.slices, k / 256 ≠ d) → found.srams.getD d 0 = 0 → found.drams.getD d 0 = 0 →
      testWord s' d = 1) ∧
  (∀ s type die core tid detail, let r := recordOf s type die core tid detail
    (s.host.evHeld = [] → s.host.dropped = 0 → s.host.evProd - s.host.evCons < s.host.evSize → eaHostOk (s.host.evBase + BitVec.ofNat 64 (64 * (s.host.evProd % s.host.evSize))) = true →
      emit s type die core tid detail = s.modHost fun h =>
        { h with
          evSeq := h.evSeq + 1
          evProd := h.evProd + 1
          memory := h.memory.write ((h.evBase + BitVec.ofNat 64 (64 * (h.evProd % h.evSize))).slice 55 0) (eventBytes s.cfg.package r) }) ∧
    (s.host.evHeld ≠ [] ∨ s.host.evSize ≤ s.host.evProd - s.host.evCons → s.host.evHeld.length < 256 →
      emit s type die core tid detail = s.modHost fun h => { h with evSeq := h.evSeq + 1, evHeld := h.evHeld ++ [r] }) ∧
    (256 ≤ s.host.evHeld.length → emit s type die core tid detail = s.modHost fun h =>
      { h with evSeq := h.evSeq + 1, evDrop := h.evDrop + 1, dropped := h.dropped + 1 })) ∧
  (∀ s, eventSpace s = false ∨ s.host.evHeld = [] ∧ s.host.dropped = 0 → exec .eventAreaSpace s = .next s) ∧
  (∀ s r, eventSpace s = true → s.host.evHeld = [r] → s.host.dropped = 0 →
    exec .eventAreaSpace s = .next ((storeEvent s r).modHost fun h => { h with evHeld := [] })) ∧
  (∀ s n, eventSpace s = true → s.host.evHeld = [] → s.host.dropped = n + 1 →
    exec .eventAreaSpace s = .next (emit (s.modHost fun h => { h with dropped := 0 }) 0x00FF 0 0 0 [BitVec.ofNat 64 (n + 1)])) ∧
  (∀ die s, die < 8 → (s.die die).power < 3 → exec (.thermalTrip die) s =
    .next (emit (s.modDie die fun d => { d with power := d.power + 1 }) 0x0060 die 0 0
      [BitVec.ofNat 64 die, BitVec.ofNat 64 ((s.die die).power + 1)])) ∧
  (∀ die s, die < 8 → 3 ≤ (s.die die).power → exec (.thermalTrip die) s = .next s) ∧
  (∀ die s, die < 8 →
    ((s.die die).corrected % 1024 ≠ 1023 →
      exec (.correctedError die) s = .next (s.modDie die fun d => { d with corrected := d.corrected + 1 })) ∧
    ((s.die die).corrected % 1024 = 1023 →
      exec (.correctedError die) s = .next (emit (s.modDie die fun d => { d with corrected := d.corrected + 1 }) 0x0021 die 0 0
        [BitVec.ofNat 64 ((s.die die).corrected + 1)]))) ∧
  (∀ tid s t, s.thread? tid = some t →
    (∀ reg, exec (.uncorrectableError (.register tid reg)) s =
      .next (killThread (emit s 0x0012 (t.core / 256) (t.core % 256) tid [BitVec.ofNat 64 reg]) tid)) ∧
    (∀ ea, ∃ unit, exec (.uncorrectableError (.lstore tid ea)) s =
        .next (killThread ({ emit (match placeOf s t.core ea with
            | some p => spoilPlace s p
            | none => s) 0x0020 (t.core / 256) (t.core % 256) tid [ea, unit] with fresh := s.fresh + 1 }) tid) ∧
      exec (.uncorrectableError (.dieGlobal tid ea)) s = exec (.uncorrectableError (.lstore tid ea)) s)) ∧
  (∀ s g off w, ((spoilPlace s (.lstore g off)).core g).errors = setAdd (s.core g).errors (off / 8) ∧
    (∀ n, wordMet [w] off n = if off < 8 * w + 8 ∧ 8 * w < off + n then some w else none) ∧
    (∀ n, wordsLeft [w] off n = if off ≤ 8 * w ∧ 8 * w + 8 ≤ off + n then [] else [w])) ∧
  (∀ g k ea s c, g < 2048 → (s.core g).engine[k]? = some c → c.phase = .moving → (∀ x ∈ (s.core g).engine, x.id = c.id → x = c) →
    ∃ s', exec (.uncorrectableError (.engine g k ea)) s = .next s' ∧ s'.threads = s.threads ∧ s'.host.evSeq = s.host.evSeq + 1 ∧
      (s'.core g).engine[k]? = some { c with uncorr := true }) ∧
  (∀ s, exec (.uncorrectableError .overwritten) s = .next s)

/-- spec/20 R311, R316, R317, R319, R320, spec/18 R284 to R286: power, grant policy, identity and reset commands take effect whole, or are refused and change nothing: a die
that is held does not go to P3, a cap or budget never falls below what is in force, and while a launch is live only the timeout and the error threshold
change. A package reset ends everything but the configuration, the identity's counter and what the host holds.
Beyond the rules' words it takes the model's own readings, log entries 12, 82, 83, 84 and 85. -/
def Obligations.PolicyIdentityAndResetCommandsAct : Prop :=
  (∀ q s s1 ix w die state, Commands s q 6 0 s1 ix w → managerBusy s [die] = false → die < 8 → state < 4 → w.getD 2 0 = BitVec.ofNat 64 (2 ^ die) →
    w.getD 3 0 = BitVec.ofNat 64 state → w.getD 4 0 = 0 →
    (state = 3 → dieHeld s1 die = true → Answers (.powerState q) s s1 q ix 1 3 0) ∧
    (state < 3 ∨ dieHeld s1 die = false →
      Answers (.powerState q) s (s1.modDie die fun x => { x with power := state }) q ix 0 0 0)) ∧
  (∀ q s s1 ix w, Commands s q 6 1 s1 ix w →
    let cap := (w.getD 2 0).toNat
    (4096 ≤ cap → cap ≤ 294912 → ((List.range 48).map fun f => (s1.fibre f).budget).sum ≤ cap →
      Answers (.powerLaserCap q) s (s1.modHost fun h => { h with laserCap := cap }) q ix 0 0 0) ∧
    (cap < 4096 ∨ 294912 < cap ∨ cap < ((List.range 48).map fun f => (s1.fibre f).budget).sum →
      Answers (.powerLaserCap q) s s1 q ix 1 1 0)) ∧
  (∀ q s s1 ix w f budget, Commands s q 7 0 s1 ix w → f < 48 → w.getD 2 0 = BitVec.ofNat 64 f → w.getD 3 0 = BitVec.ofNat 64 budget →
    budget < 8192 → (w.getD 4 0).toNat < 65536 →
    let v := (w.getD 4 0).toNat
    let ok := budget ≤ 6144 ∧ accountedTotal s1 f none ≤ budget ∧
      budgetSum s1 (fun x => if x = f then some budget else none) ≤ s1.host.laserCap ∧
      boundsExclude s1 f (v % 16) (v / 16 % 16) (v / 4096) = false
    (ok → Answers (.grantpol q) s (s1.modFibre f fun x =>
      { x with budget := budget, m0min := v % 16, m0max := v / 16 % 16, tmax := v / 256 % 16, lmax := v / 4096 }) q ix 0 0 0) ∧
    (¬ok → Answers (.grantpol q) s s1 q ix 1 1 0)) ∧
  (∀ q s s1 ix w n s2 bs, Commands s q 8 0 s1 ix w → w.getD 3 0 = BitVec.ofNat 64 n → n < 65536 →
    partRead s1 (w.getD 2 0) (32 * n) = (s2, some bs) →
    Answers (.attestAllowList q) s { s2 with links := { s2.links with allow := (List.range n).map fun i => leNat ((bs.drop (32 * i)).take 32) } }
      q ix 0 0 0) ∧
  (∀ q s s1 ix w peer, w.getD 2 0 = BitVec.ofNat 64 peer → peer < 4096 →
    (Commands s q 8 1 s1 ix w → ∃ x, Answers (.attestStart q) s x q ix 0 0 0 ∧ (x.peer peer).session = false ∧ (x.peer peer).attesting = true ∧
      (x.peer peer).failed = false) ∧
    (Commands s q 8 2 s1 ix w → Answers (.attestEndSession q) s (endSession s1 peer true) q ix 0 0 0 ∧
      ((endSession s1 peer true).peer peer).session = false ∧
      ∀ pid ∈ pathsTo s1 peer, (s1.path pid).state = .up → ((endSession s1 peer true).path pid).state = .attesting)) ∧
  (∀ q s s1 ix w, Commands s q 8 3 s1 ix w → ∃ s', exec (.attestLeafCounter q) s = .next s' ∧ s'.links = s1.links ∧ s'.threads = s1.threads ∧
    s'.dies = (hostComplete s1 q ix 0 0 (s1.links.used % 2 ^ 21 + s1.links.gen % 2 ^ 16 * 2 ^ 32)).dies) ∧
  (∀ q s s1 ix w, Commands s q 8 4 s1 ix w →
    ((∃ e ∈ s1.links.peers, e.2.session = true) → Answers (.attestNewIdentity q) s s1 q ix 1 1 0) ∧
    ((∀ e ∈ s1.links.peers, e.2.session = false) → ∃ s', exec (.attestNewIdentity q) s = .next s' ∧
      s'.links = { s1.links with gen := s1.links.gen + 1, used := 0 })) ∧
  (∀ q s s1 ix w, Commands s q 9 0 s1 ix w → ∃ s', exec (.resetPackage q) s = .next s' ∧ s'.threads = [] ∧ s'.cores = [] ∧ s'.dies = [] ∧
    s'.launches = [] ∧ s'.net = Net.reset ∧ s'.spool.paths = [] ∧ s'.host.queues = [] ∧ s'.host.status = 0 ∧ s'.cycle = 0 ∧ s'.cfg = s1.cfg ∧
    s'.links.used = s1.links.used ∧ s'.links.peers = [] ∧ s'.host.memory = s1.host.memory ∧ ∀ f, (s'.fibre f).budget = 4096 ∧ (s'.fibre f).m0 = 2) ∧
  (∀ q s s1 ix w, Commands s q 9 1 s1 ix w → (w.getD 6 0).toNat < 2 ^ 32 → 1 ≤ (w.getD 7 0).toNat → (w.getD 7 0).toNat < 2 ^ 16 →
    (∀ e ∈ s1.launches, e.2.isLive = false) ∨ w.getD 2 0 = s1.host.evBase ∧ (w.getD 3 0).toNat = s1.host.evSize ∧ w.getD 4 0 = s1.host.faultBase ∧
      w.getD 5 0 = s1.host.ptBase →
    Answers (.resetConfigure q) s (s1.modHost fun h =>
      { h with evBase := w.getD 2 0, evSize := (w.getD 3 0).toNat, faultBase := w.getD 4 0, ptBase := w.getD 5 0,
               atomTimeout := (w.getD 6 0).toNat, ber := (w.getD 7 0).toNat }) q ix 0 0 0) ∧
  (∀ q s s1 ix w e, Commands s q 9 1 s1 ix w → e ∈ s1.launches → e.2.isLive = true → w.getD 2 0 ≠ s1.host.evBase →
    Answers (.resetConfigure q) s s1 q ix 1 1 0) ∧
  (∀ q s s1 ix w s2 image, Commands s q 9 2 s1 ix w → partRead s1 (w.getD 2 0) (w.getD 3 0).toNat = (s2, some image) →
    Answers (.resetFirmware q) s
      (if Config.firmwareSigned image = true ∧ s2.host.fwRollback.toNat ≤ Config.firmwareVersion image then
        s2.modHost fun h => { h with fwPending := some (BitVec.ofNat 64 (Config.firmwareVersion image)) } else s2) q ix
      (if Config.firmwareSigned image = true ∧ s2.host.fwRollback.toNat ≤ Config.firmwareVersion image then 0 else 1)
      (if Config.firmwareSigned image = true ∧ s2.host.fwRollback.toNat ≤ Config.firmwareVersion image then 0 else 1) 0)

/-- spec/18 R290: RETOPO waits while the Spool controller restarts or another is under way; else every lit path to an affected package drains. With everything sent on them
acknowledged, and remote atomics answered or the limit past, they are down; once each affected package is reached anew the routes hold and the command is done.
Beyond the rules' words it takes the model's own readings, log entry 81. -/
def Obligations.TopologyChangesDrainAndResume : Prop :=
  (∀ q s, s.spool.restarting = true ∨ s.links.retopo ≠ none → exec (.retopo q) s = .next s) ∧
  (∀ q s s1 ix w s2 r, s.spool.restarting = false → s.links.retopo = none → Commands s q 5 0 s1 ix w → (w.getD 3 0).toNat < 2 ^ 48 →
    (w.getD 5 0).toNat < 2 ^ 32 → readRetopo s1 q ix w = (s2, some r) →
    ∃ s', exec (.retopo q) s = .next s' ∧ s'.links.retopo = some r ∧ s'.threads = s2.threads ∧
      (∀ pid ∈ r.paths, (s'.path pid).state = .draining) ∧
      ∀ pid, pid ∉ r.paths → s'.path pid = s2.path pid) ∧
  (∀ q s s1 ix w, s.spool.restarting = false → s.links.retopo = none → Commands s q 5 0 s1 ix w → 2 ^ 48 ≤ (w.getD 3 0).toNat →
    Answers (.retopo q) s s1 q ix 1 1 0) ∧
  (∀ s r, s.links.retopo = some r → r.drained = false →
    ((∃ pid, (pid ∈ r.paths ∨ pid ∈ litPathsTo s r.peers) ∧ pathDrained (s.path pid) = false) → exec .drainLimitExpiry s = .next s) ∧
    ((∀ pid, pid ∈ r.paths ∨ pid ∈ litPathsTo s r.peers → pathDrained (s.path pid) = true) →
      (atomsOut s r ≠ [] → s.cycle.toNat < r.start + 2000 * r.limit → exec .drainLimitExpiry s = .next s) ∧
      (atomsOut s r = [] ∨ r.start + 2000 * r.limit ≤ s.cycle.toNat →
        ∃ s', exec .drainLimitExpiry s = .next s' ∧ s'.links.retopo = some { r with drained := true } ∧ s'.links.routes = s.links.routes ∧
          s'.host.evSeq = s.host.evSeq + 1 ∧ ∀ pid, pid ∈ r.paths ∨ pid ∈ litPathsTo s r.peers → (s.path pid).state ≠ .dark → (s'.path pid).state = .down))) ∧
  (∀ s, s.links.retopo = none → exec .drainLimitExpiry s = .next s ∧ exec .retopoResume s = .next s) ∧
  (∀ s r, s.links.retopo = some r →
    (r.drained = false ∨ (∃ p ∈ r.peers, tabGetD r.routes p [] ≠ [] ∧ ∀ h ∈ tabGetD r.routes p [], hopUp s h = false) →
      exec .retopoResume s = .next s) ∧
    (r.drained = true → (∀ p ∈ r.peers, tabGetD r.routes p [] = [] ∨ ∃ h ∈ tabGetD r.routes p [], hopUp s h = true) →
      Answers .retopoResume s { s with links := { s.links with retopo := none, routes := r.routes } } r.q (BitVec.ofNat 32 r.slot) 0 0 0))

/-! ### Encoding, reset, and the machine as a whole (spec/04 R54 to R73, spec/02 R35, spec/20 R314) -/

namespace Sys2Proof.Claims

/-- Every core's L-store stands in its canonical form: addresses rising, no entry equal to what an unlisted address reads as. -/
def LStoresCanonical (s : State) : Prop := ∀ e ∈ s.cores, Memory.wf e.2.lstore = true

end Sys2Proof.Claims

/-- spec/04 R55 to R72: every instruction within its operand limits has a word, which fits its opcode's tail and decodes to that instruction; so does the line that holds
it alone. -/
def Obligations.EncodedInstructionsDecodeToThemselves : Prop :=
  ∀ i : Instr, i.wellFormed = true → i.isEvent = false →
    ∃ op tail n, encode i = some (op, tail) ∧ tailLen op = some n ∧ tail.toNat < 2 ^ (8 * n) ∧ decodeInstr op tail = some i ∧
      ∃ line, encodeLine i = some line ∧ line.length = 64 ∧ decodeLine line 0 = some i

/-- spec/04 R62, R65 to R73: what the decoder reads is an instruction within its operand limits, and the word it was read from is that instruction's only word: no
reserved bit is dropped, and no two words of an opcode mean the same. -/
def Obligations.WordsThatDecodeAreTheEncodedOnes : Prop :=
  ∀ op tail n i, tailLen op = some n → tail.toNat < 2 ^ (8 * n) → decodeInstr op tail = some i →
    i.wellFormed = true ∧ i.isEvent = false ∧ encode i = some (op, tail)

/-- spec/04 R65 to R72, spec/05 to spec/10: words written out from the encoding tables and the chapters' examples decode to the instructions they stand for. -/
def Obligations.WordsOfTheSpecDecode : Prop :=
  decodeInstr 0x02 0x0200_FFFF_FFE0 = some (.call 1 { delta := 0x7FFFFFF, head := 0 }) ∧
  decodeInstr 0x0A 0x012E = some (.gsel 4 5 6) ∧
  decodeInstr 0x0D 0x2200 = some (.fence .die .full) ∧
  decodeInstr 0x12 0x52A0_0000_0001 = some (.addi 41 40 .w64 1) ∧
  decodeInstr 0x14 0x0610_2804 = some (.div 3 4 5 true .w64) ∧
  decodeInstr 0x22 0x1008_1811 = some (.fcmp { pa := 0, pb := 1 } 2 3 .f32 .lt .set false) ∧
  decodeInstr 0x23 0x0103 = some (.pset 1 3) ∧
  decodeInstr 0x25 0x0400_0000_1E49 = some (.plog 2 1 1 1 0x0F) ∧
  decodeInstr 0x3B 0x0A18_0182 = some (.fcvt 5 6 .bf16x4 .rne .nb8 false) ∧
  decodeInstr 0x40 0x0A18_3800_0000_404E =
    some (.ld 5 6 7 { size := .b4, sx := true, ord := .acq, shift := 2, na := false, disp := 0x40 }) ∧
  decodeInstr 0x41 0x0004_38C0_0000_0063 =
    some (.st 1 7 12 { size := .b8, sx := false, ord := .relaxed, shift := 3, na := false, disp := 0 }) ∧
  decodeInstr 0x50 0x1230_12C5_1800_0040 =
    some (.spawn 9 12 2 { pa := 4, pb := 5 } { head := 0, delta := 2, win := 3, prio := 2, place := .quad }) ∧
  decodeInstr 0x54 0x0010_2801 = some (.shipSeg 4 5) ∧
  decodeInstr 0x60 0x0030_6800_0808_0002 =
    some (.mma 0 12 13 0 { fmt := .bf16, k := 0, m := 0, n := 0, ow := true, b32 := false, stride := 64 }) ∧
  decodeInstr 0x67 0x0A0C_2000_0000_2111 = some (.topk 5 3 4 { k := 1, g := 2, lim := 1, new := true }) ∧
  decodeInstr 0x70 0x2854_B170_0000_0001 = some (.copy 20 21 22 23 true) ∧
  decodeInstr 0x75 0x1618_0000 = some (.lstat 11 6 false) ∧
  decodeInstr 0x78 0x0000_00A0_0806 = some (.strk 6 0 1 40)

/-- spec/02 R35, spec/17 R264, R275, spec/20 R314, R316: right after reset no launch and no thread is there, nothing is in flight, every die is in P0, every path DARK, the cycle
counter 0, the budgets, margins, thresholds and caps at their reset values, no session is up, and STATUS reads 0. -/
def Obligations.ResetIsAsTheSpecStates : Prop :=
  State.reset.threads = [] ∧ State.reset.launches = [] ∧ State.reset.cycle = 0 ∧ (∀ d, (State.reset.die d).power = 0) ∧
  (∀ p, (State.reset.path p).state = .dark ∧ (State.reset.path p).grant = 0 ∧ (State.reset.path p).order = 0 ∧
    (State.reset.path p).entry.valid = false) ∧
  (∀ f, (State.reset.fibre f).budget = 4096 ∧ (State.reset.fibre f).m0 = 2 ∧ (State.reset.fibre f).slots = []) ∧
  (∀ q, (State.reset.queue q).enabled = false) ∧ (∀ p, (State.reset.peer p).session = false) ∧ State.reset.host.status = 0 ∧
  State.reset.host.ber = 168 ∧ State.reset.host.atomTimeout = 10000 ∧ State.reset.host.laserCap = 196608 ∧
  Sys2Proof.core.reset = State.reset

/-- spec/04 R59 to R62, spec/12 R204: a step with an empty agenda lets one core cycle pass and runs the instruction decoded at the pc of the thread that is selected, then what
follows at once; a move of the agenda runs its event the same way. An instruction on the agenda stops the model (its own fault, log entry 2). -/
def Obligations.AStepRunsTheDecodedInstruction : Prop :=
  (∀ s seat tid t head tail i, s.agenda = [] →
    let g := s.focus
    let s0 := { advance s 1 with issue := none }
    (s0.die (g / 256)).power < 3 → (s0.core g).iss.lastTurn ≠ some (s0.coreClock g) → selectSeat s0 g (s0.coreClock g) 16 1 = some (seat, tid, t) →
    s0.thread? tid = some t → flowTo s0 tid g t.pc = .here → t.io.skipFail = none → (travelling s0 tid = true ∨ elsewhere s0 g t.pc = false) →
    fetchHead (s0.core g) t.pc = .head (.found head tail) →
    (privilegedOp (headOp head) = false ∨ t.privileged = true) → decodeInstr (headOp head) tail = some i → decodeCheck i t head = none →
    guardTrue t head = true →
    ∃ s1, s1.issue = some { core := g, tid := tid, ia := t.pc, head := head, tail := tail, instr := i, rep := none } ∧
      s1.thread? tid = some { t with io := { t.io with lastIssue := some (s0.coreClock g), quantum := t.io.quantum + 1 } } ∧
      (∀ x, x ≠ tid → s1.thread? x = s.thread? x) ∧ s1.cycle = s.cycle + 1 ∧ s1.net = s.net ∧ s1.host = s.host ∧
      step s = (match exec i s1 with
        | .next r => .next (settle r)
        | o => o)) ∧
  (∀ s m rest t, s.agenda = m :: rest → m.ev.isEvent = true →
    exec m.ev { advanceTo { s with agenda := rest } m.tick with issue := none } = .next t → t.issue = none → step s = .next (settle t)) ∧
  (∀ s m rest t u, s.agenda = m :: rest → m.ev.isEvent = true →
    exec m.ev { advanceTo { s with agenda := rest } m.tick with issue := none } = .next t → t.issue = some u →
    step s = (match exec u.instr t with
      | .next r => .next (settle r)
      | o => o)) ∧
  (∀ s m rest, s.agenda = m :: rest → m.ev.isEvent = false → step s = .fault .agendaNotEvent)

/-- The model's own choice, log entry 1, of no rule: the bytes of an L-store, which spec/02 R36 addresses, are kept in a canonical form, addresses rising and no
entry equal to the 0 that an unlisted address reads as, so that equal contents are equal data. Every step keeps every core's L-store in that form. -/
def Obligations.EveryStepKeepsLStoresCanonical : Prop :=
  ∀ s s', LStoresCanonical s → step s = .next s' → LStoresCanonical s'

/-- The model's own choice, log entry 1, of no rule: the canonical form in which the bytes of an L-store, which spec/02 R36 addresses, are kept holds right after
reset. -/
def Obligations.ResetHasCanonicalLStores : Prop := LStoresCanonical State.reset
end

