-- ==== Sys2Proof/Laws/State.lean ====
section
/-! SUPPORT. What each update of the state and of a thread's record leaves alone, one lemma per field per update. -/

namespace Sys2Proof.Machine

/-! ### setThread -/

@[simp] theorem setThread_cfg (s : State) (tid : Tid) (t : Thread) : (s.setThread tid t).cfg = s.cfg := rfl
@[simp] theorem setThread_cycle (s : State) (tid : Tid) (t : Thread) : (s.setThread tid t).cycle = s.cycle := rfl
@[simp] theorem setThread_agenda (s : State) (tid : Tid) (t : Thread) : (s.setThread tid t).agenda = s.agenda := rfl
@[simp] theorem setThread_focus (s : State) (tid : Tid) (t : Thread) : (s.setThread tid t).focus = s.focus := rfl
@[simp] theorem setThread_issue (s : State) (tid : Tid) (t : Thread) : (s.setThread tid t).issue = s.issue := rfl
@[simp] theorem setThread_fresh (s : State) (tid : Tid) (t : Thread) : (s.setThread tid t).fresh = s.fresh := rfl
@[simp] theorem setThread_cores (s : State) (tid : Tid) (t : Thread) : (s.setThread tid t).cores = s.cores := rfl
@[simp] theorem setThread_dies (s : State) (tid : Tid) (t : Thread) : (s.setThread tid t).dies = s.dies := rfl
@[simp] theorem setThread_launches (s : State) (tid : Tid) (t : Thread) : (s.setThread tid t).launches = s.launches := rfl
@[simp] theorem setThread_podBars (s : State) (tid : Tid) (t : Thread) : (s.setThread tid t).podBars = s.podBars := rfl
@[simp] theorem setThread_podPeers (s : State) (tid : Tid) (t : Thread) : (s.setThread tid t).podPeers = s.podPeers := rfl
@[simp] theorem setThread_net (s : State) (tid : Tid) (t : Thread) : (s.setThread tid t).net = s.net := rfl
@[simp] theorem setThread_spool (s : State) (tid : Tid) (t : Thread) : (s.setThread tid t).spool = s.spool := rfl
@[simp] theorem setThread_links (s : State) (tid : Tid) (t : Thread) : (s.setThread tid t).links = s.links := rfl
@[simp] theorem setThread_host (s : State) (tid : Tid) (t : Thread) : (s.setThread tid t).host = s.host := rfl
theorem setThread_threads (s : State) (tid : Tid) (t : Thread) : (s.setThread tid t).threads = tabPut s.threads tid.toNat t := rfl

/-! ### dropThread -/

@[simp] theorem dropThread_cfg (s : State) (tid : Tid) : (s.dropThread tid).cfg = s.cfg := rfl
@[simp] theorem dropThread_cycle (s : State) (tid : Tid) : (s.dropThread tid).cycle = s.cycle := rfl
@[simp] theorem dropThread_agenda (s : State) (tid : Tid) : (s.dropThread tid).agenda = s.agenda := rfl
@[simp] theorem dropThread_focus (s : State) (tid : Tid) : (s.dropThread tid).focus = s.focus := rfl
@[simp] theorem dropThread_issue (s : State) (tid : Tid) : (s.dropThread tid).issue = s.issue := rfl
@[simp] theorem dropThread_fresh (s : State) (tid : Tid) : (s.dropThread tid).fresh = s.fresh := rfl
@[simp] theorem dropThread_cores (s : State) (tid : Tid) : (s.dropThread tid).cores = s.cores := rfl
@[simp] theorem dropThread_dies (s : State) (tid : Tid) : (s.dropThread tid).dies = s.dies := rfl
@[simp] theorem dropThread_launches (s : State) (tid : Tid) : (s.dropThread tid).launches = s.launches := rfl
@[simp] theorem dropThread_podBars (s : State) (tid : Tid) : (s.dropThread tid).podBars = s.podBars := rfl
@[simp] theorem dropThread_podPeers (s : State) (tid : Tid) : (s.dropThread tid).podPeers = s.podPeers := rfl
@[simp] theorem dropThread_net (s : State) (tid : Tid) : (s.dropThread tid).net = s.net := rfl
@[simp] theorem dropThread_spool (s : State) (tid : Tid) : (s.dropThread tid).spool = s.spool := rfl
@[simp] theorem dropThread_links (s : State) (tid : Tid) : (s.dropThread tid).links = s.links := rfl
@[simp] theorem dropThread_host (s : State) (tid : Tid) : (s.dropThread tid).host = s.host := rfl
theorem dropThread_threads (s : State) (tid : Tid) : (s.dropThread tid).threads = tabDel s.threads tid.toNat := rfl

/-! ### modThread -/

@[simp] theorem modThread_cfg (s : State) (tid : Tid) (f : Thread → Thread) : (s.modThread tid f).cfg = s.cfg := by
  unfold State.modThread; split <;> rfl
@[simp] theorem modThread_cycle (s : State) (tid : Tid) (f : Thread → Thread) : (s.modThread tid f).cycle = s.cycle := by
  unfold State.modThread; split <;> rfl
@[simp] theorem modThread_agenda (s : State) (tid : Tid) (f : Thread → Thread) : (s.modThread tid f).agenda = s.agenda := by
  unfold State.modThread; split <;> rfl
@[simp] theorem modThread_focus (s : State) (tid : Tid) (f : Thread → Thread) : (s.modThread tid f).focus = s.focus := by
  unfold State.modThread; split <;> rfl
@[simp] theorem modThread_issue (s : State) (tid : Tid) (f : Thread → Thread) : (s.modThread tid f).issue = s.issue := by
  unfold State.modThread; split <;> rfl
@[simp] theorem modThread_fresh (s : State) (tid : Tid) (f : Thread → Thread) : (s.modThread tid f).fresh = s.fresh := by
  unfold State.modThread; split <;> rfl
@[simp] theorem modThread_cores (s : State) (tid : Tid) (f : Thread → Thread) : (s.modThread tid f).cores = s.cores := by
  unfold State.modThread; split <;> rfl
@[simp] theorem modThread_dies (s : State) (tid : Tid) (f : Thread → Thread) : (s.modThread tid f).dies = s.dies := by
  unfold State.modThread; split <;> rfl
@[simp] theorem modThread_launches (s : State) (tid : Tid) (f : Thread → Thread) : (s.modThread tid f).launches = s.launches := by
  unfold State.modThread; split <;> rfl
@[simp] theorem modThread_podBars (s : State) (tid : Tid) (f : Thread → Thread) : (s.modThread tid f).podBars = s.podBars := by
  unfold State.modThread; split <;> rfl
@[simp] theorem modThread_podPeers (s : State) (tid : Tid) (f : Thread → Thread) : (s.modThread tid f).podPeers = s.podPeers := by
  unfold State.modThread; split <;> rfl
@[simp] theorem modThread_net (s : State) (tid : Tid) (f : Thread → Thread) : (s.modThread tid f).net = s.net := by
  unfold State.modThread; split <;> rfl
@[simp] theorem modThread_spool (s : State) (tid : Tid) (f : Thread → Thread) : (s.modThread tid f).spool = s.spool := by
  unfold State.modThread; split <;> rfl
@[simp] theorem modThread_links (s : State) (tid : Tid) (f : Thread → Thread) : (s.modThread tid f).links = s.links := by
  unfold State.modThread; split <;> rfl
@[simp] theorem modThread_host (s : State) (tid : Tid) (f : Thread → Thread) : (s.modThread tid f).host = s.host := by
  unfold State.modThread; split <;> rfl

/-! ### setCore -/

@[simp] theorem setCore_cfg (s : State) (g : Nat) (c : Core) : (s.setCore g c).cfg = s.cfg := rfl
@[simp] theorem setCore_cycle (s : State) (g : Nat) (c : Core) : (s.setCore g c).cycle = s.cycle := rfl
@[simp] theorem setCore_agenda (s : State) (g : Nat) (c : Core) : (s.setCore g c).agenda = s.agenda := rfl
@[simp] theorem setCore_focus (s : State) (g : Nat) (c : Core) : (s.setCore g c).focus = s.focus := rfl
@[simp] theorem setCore_issue (s : State) (g : Nat) (c : Core) : (s.setCore g c).issue = s.issue := rfl
@[simp] theorem setCore_fresh (s : State) (g : Nat) (c : Core) : (s.setCore g c).fresh = s.fresh := rfl
@[simp] theorem setCore_threads (s : State) (g : Nat) (c : Core) : (s.setCore g c).threads = s.threads := rfl
@[simp] theorem setCore_dies (s : State) (g : Nat) (c : Core) : (s.setCore g c).dies = s.dies := rfl
@[simp] theorem setCore_launches (s : State) (g : Nat) (c : Core) : (s.setCore g c).launches = s.launches := rfl
@[simp] theorem setCore_podBars (s : State) (g : Nat) (c : Core) : (s.setCore g c).podBars = s.podBars := rfl
@[simp] theorem setCore_podPeers (s : State) (g : Nat) (c : Core) : (s.setCore g c).podPeers = s.podPeers := rfl
@[simp] theorem setCore_net (s : State) (g : Nat) (c : Core) : (s.setCore g c).net = s.net := rfl
@[simp] theorem setCore_spool (s : State) (g : Nat) (c : Core) : (s.setCore g c).spool = s.spool := rfl
@[simp] theorem setCore_links (s : State) (g : Nat) (c : Core) : (s.setCore g c).links = s.links := rfl
@[simp] theorem setCore_host (s : State) (g : Nat) (c : Core) : (s.setCore g c).host = s.host := rfl
theorem setCore_cores (s : State) (g : Nat) (c : Core) : (s.setCore g c).cores = tabPut s.cores g c := rfl

/-! ### modCore -/

@[simp] theorem modCore_cfg (s : State) (g : Nat) (f : Core → Core) : (s.modCore g f).cfg = s.cfg := rfl
@[simp] theorem modCore_cycle (s : State) (g : Nat) (f : Core → Core) : (s.modCore g f).cycle = s.cycle := rfl
@[simp] theorem modCore_agenda (s : State) (g : Nat) (f : Core → Core) : (s.modCore g f).agenda = s.agenda := rfl
@[simp] theorem modCore_focus (s : State) (g : Nat) (f : Core → Core) : (s.modCore g f).focus = s.focus := rfl
@[simp] theorem modCore_issue (s : State) (g : Nat) (f : Core → Core) : (s.modCore g f).issue = s.issue := rfl
@[simp] theorem modCore_fresh (s : State) (g : Nat) (f : Core → Core) : (s.modCore g f).fresh = s.fresh := rfl
@[simp] theorem modCore_threads (s : State) (g : Nat) (f : Core → Core) : (s.modCore g f).threads = s.threads := rfl
@[simp] theorem modCore_dies (s : State) (g : Nat) (f : Core → Core) : (s.modCore g f).dies = s.dies := rfl
@[simp] theorem modCore_launches (s : State) (g : Nat) (f : Core → Core) : (s.modCore g f).launches = s.launches := rfl
@[simp] theorem modCore_podBars (s : State) (g : Nat) (f : Core → Core) : (s.modCore g f).podBars = s.podBars := rfl
@[simp] theorem modCore_podPeers (s : State) (g : Nat) (f : Core → Core) : (s.modCore g f).podPeers = s.podPeers := rfl
@[simp] theorem modCore_net (s : State) (g : Nat) (f : Core → Core) : (s.modCore g f).net = s.net := rfl
@[simp] theorem modCore_spool (s : State) (g : Nat) (f : Core → Core) : (s.modCore g f).spool = s.spool := rfl
@[simp] theorem modCore_links (s : State) (g : Nat) (f : Core → Core) : (s.modCore g f).links = s.links := rfl
@[simp] theorem modCore_host (s : State) (g : Nat) (f : Core → Core) : (s.modCore g f).host = s.host := rfl
theorem modCore_cores (s : State) (g : Nat) (f : Core → Core) : (s.modCore g f).cores = tabPut s.cores g (f (s.core g)) := rfl

/-! ### setDie -/

@[simp] theorem setDie_cfg (s : State) (d : Nat) (x : Die) : (s.setDie d x).cfg = s.cfg := rfl
@[simp] theorem setDie_cycle (s : State) (d : Nat) (x : Die) : (s.setDie d x).cycle = s.cycle := rfl
@[simp] theorem setDie_agenda (s : State) (d : Nat) (x : Die) : (s.setDie d x).agenda = s.agenda := rfl
@[simp] theorem setDie_focus (s : State) (d : Nat) (x : Die) : (s.setDie d x).focus = s.focus := rfl
@[simp] theorem setDie_issue (s : State) (d : Nat) (x : Die) : (s.setDie d x).issue = s.issue := rfl
@[simp] theorem setDie_fresh (s : State) (d : Nat) (x : Die) : (s.setDie d x).fresh = s.fresh := rfl
@[simp] theorem setDie_threads (s : State) (d : Nat) (x : Die) : (s.setDie d x).threads = s.threads := rfl
@[simp] theorem setDie_cores (s : State) (d : Nat) (x : Die) : (s.setDie d x).cores = s.cores := rfl
@[simp] theorem setDie_launches (s : State) (d : Nat) (x : Die) : (s.setDie d x).launches = s.launches := rfl
@[simp] theorem setDie_podBars (s : State) (d : Nat) (x : Die) : (s.setDie d x).podBars = s.podBars := rfl
@[simp] theorem setDie_podPeers (s : State) (d : Nat) (x : Die) : (s.setDie d x).podPeers = s.podPeers := rfl
@[simp] theorem setDie_net (s : State) (d : Nat) (x : Die) : (s.setDie d x).net = s.net := rfl
@[simp] theorem setDie_spool (s : State) (d : Nat) (x : Die) : (s.setDie d x).spool = s.spool := rfl
@[simp] theorem setDie_links (s : State) (d : Nat) (x : Die) : (s.setDie d x).links = s.links := rfl
@[simp] theorem setDie_host (s : State) (d : Nat) (x : Die) : (s.setDie d x).host = s.host := rfl
theorem setDie_dies (s : State) (d : Nat) (x : Die) : (s.setDie d x).dies = tabPut s.dies d x := rfl

/-! ### modDie -/

@[simp] theorem modDie_cfg (s : State) (d : Nat) (f : Die → Die) : (s.modDie d f).cfg = s.cfg := rfl
@[simp] theorem modDie_cycle (s : State) (d : Nat) (f : Die → Die) : (s.modDie d f).cycle = s.cycle := rfl
@[simp] theorem modDie_agenda (s : State) (d : Nat) (f : Die → Die) : (s.modDie d f).agenda = s.agenda := rfl
@[simp] theorem modDie_focus (s : State) (d : Nat) (f : Die → Die) : (s.modDie d f).focus = s.focus := rfl
@[simp] theorem modDie_issue (s : State) (d : Nat) (f : Die → Die) : (s.modDie d f).issue = s.issue := rfl
@[simp] theorem modDie_fresh (s : State) (d : Nat) (f : Die → Die) : (s.modDie d f).fresh = s.fresh := rfl
@[simp] theorem modDie_threads (s : State) (d : Nat) (f : Die → Die) : (s.modDie d f).threads = s.threads := rfl
@[simp] theorem modDie_cores (s : State) (d : Nat) (f : Die → Die) : (s.modDie d f).cores = s.cores := rfl
@[simp] theorem modDie_launches (s : State) (d : Nat) (f : Die → Die) : (s.modDie d f).launches = s.launches := rfl
@[simp] theorem modDie_podBars (s : State) (d : Nat) (f : Die → Die) : (s.modDie d f).podBars = s.podBars := rfl
@[simp] theorem modDie_podPeers (s : State) (d : Nat) (f : Die → Die) : (s.modDie d f).podPeers = s.podPeers := rfl
@[simp] theorem modDie_net (s : State) (d : Nat) (f : Die → Die) : (s.modDie d f).net = s.net := rfl
@[simp] theorem modDie_spool (s : State) (d : Nat) (f : Die → Die) : (s.modDie d f).spool = s.spool := rfl
@[simp] theorem modDie_links (s : State) (d : Nat) (f : Die → Die) : (s.modDie d f).links = s.links := rfl
@[simp] theorem modDie_host (s : State) (d : Nat) (f : Die → Die) : (s.modDie d f).host = s.host := rfl
theorem modDie_dies (s : State) (d : Nat) (f : Die → Die) : (s.modDie d f).dies = tabPut s.dies d (f (s.die d)) := rfl

/-! ### setSlice -/

@[simp] theorem setSlice_cfg (s : State) (d k : Nat) (x : Slice) : (s.setSlice d k x).cfg = s.cfg := rfl
@[simp] theorem setSlice_cycle (s : State) (d k : Nat) (x : Slice) : (s.setSlice d k x).cycle = s.cycle := rfl
@[simp] theorem setSlice_agenda (s : State) (d k : Nat) (x : Slice) : (s.setSlice d k x).agenda = s.agenda := rfl
@[simp] theorem setSlice_focus (s : State) (d k : Nat) (x : Slice) : (s.setSlice d k x).focus = s.focus := rfl
@[simp] theorem setSlice_issue (s : State) (d k : Nat) (x : Slice) : (s.setSlice d k x).issue = s.issue := rfl
@[simp] theorem setSlice_fresh (s : State) (d k : Nat) (x : Slice) : (s.setSlice d k x).fresh = s.fresh := rfl
@[simp] theorem setSlice_threads (s : State) (d k : Nat) (x : Slice) : (s.setSlice d k x).threads = s.threads := rfl
@[simp] theorem setSlice_cores (s : State) (d k : Nat) (x : Slice) : (s.setSlice d k x).cores = s.cores := rfl
@[simp] theorem setSlice_launches (s : State) (d k : Nat) (x : Slice) : (s.setSlice d k x).launches = s.launches := rfl
@[simp] theorem setSlice_podBars (s : State) (d k : Nat) (x : Slice) : (s.setSlice d k x).podBars = s.podBars := rfl
@[simp] theorem setSlice_podPeers (s : State) (d k : Nat) (x : Slice) : (s.setSlice d k x).podPeers = s.podPeers := rfl
@[simp] theorem setSlice_net (s : State) (d k : Nat) (x : Slice) : (s.setSlice d k x).net = s.net := rfl
@[simp] theorem setSlice_spool (s : State) (d k : Nat) (x : Slice) : (s.setSlice d k x).spool = s.spool := rfl
@[simp] theorem setSlice_links (s : State) (d k : Nat) (x : Slice) : (s.setSlice d k x).links = s.links := rfl
@[simp] theorem setSlice_host (s : State) (d k : Nat) (x : Slice) : (s.setSlice d k x).host = s.host := rfl

/-! ### modSlice -/

@[simp] theorem modSlice_cfg (s : State) (d k : Nat) (f : Slice → Slice) : (s.modSlice d k f).cfg = s.cfg := rfl
@[simp] theorem modSlice_cycle (s : State) (d k : Nat) (f : Slice → Slice) : (s.modSlice d k f).cycle = s.cycle := rfl
@[simp] theorem modSlice_agenda (s : State) (d k : Nat) (f : Slice → Slice) : (s.modSlice d k f).agenda = s.agenda := rfl
@[simp] theorem modSlice_focus (s : State) (d k : Nat) (f : Slice → Slice) : (s.modSlice d k f).focus = s.focus := rfl
@[simp] theorem modSlice_issue (s : State) (d k : Nat) (f : Slice → Slice) : (s.modSlice d k f).issue = s.issue := rfl
@[simp] theorem modSlice_fresh (s : State) (d k : Nat) (f : Slice → Slice) : (s.modSlice d k f).fresh = s.fresh := rfl
@[simp] theorem modSlice_threads (s : State) (d k : Nat) (f : Slice → Slice) : (s.modSlice d k f).threads = s.threads := rfl
@[simp] theorem modSlice_cores (s : State) (d k : Nat) (f : Slice → Slice) : (s.modSlice d k f).cores = s.cores := rfl
@[simp] theorem modSlice_launches (s : State) (d k : Nat) (f : Slice → Slice) : (s.modSlice d k f).launches = s.launches := rfl
@[simp] theorem modSlice_podBars (s : State) (d k : Nat) (f : Slice → Slice) : (s.modSlice d k f).podBars = s.podBars := rfl
@[simp] theorem modSlice_podPeers (s : State) (d k : Nat) (f : Slice → Slice) : (s.modSlice d k f).podPeers = s.podPeers := rfl
@[simp] theorem modSlice_net (s : State) (d k : Nat) (f : Slice → Slice) : (s.modSlice d k f).net = s.net := rfl
@[simp] theorem modSlice_spool (s : State) (d k : Nat) (f : Slice → Slice) : (s.modSlice d k f).spool = s.spool := rfl
@[simp] theorem modSlice_links (s : State) (d k : Nat) (f : Slice → Slice) : (s.modSlice d k f).links = s.links := rfl
@[simp] theorem modSlice_host (s : State) (d k : Nat) (f : Slice → Slice) : (s.modSlice d k f).host = s.host := rfl

/-! ### setLaunch -/

@[simp] theorem setLaunch_cfg (s : State) (l : Nat) (x : Launch) : (s.setLaunch l x).cfg = s.cfg := rfl
@[simp] theorem setLaunch_cycle (s : State) (l : Nat) (x : Launch) : (s.setLaunch l x).cycle = s.cycle := rfl
@[simp] theorem setLaunch_agenda (s : State) (l : Nat) (x : Launch) : (s.setLaunch l x).agenda = s.agenda := rfl
@[simp] theorem setLaunch_focus (s : State) (l : Nat) (x : Launch) : (s.setLaunch l x).focus = s.focus := rfl
@[simp] theorem setLaunch_issue (s : State) (l : Nat) (x : Launch) : (s.setLaunch l x).issue = s.issue := rfl
@[simp] theorem setLaunch_fresh (s : State) (l : Nat) (x : Launch) : (s.setLaunch l x).fresh = s.fresh := rfl
@[simp] theorem setLaunch_threads (s : State) (l : Nat) (x : Launch) : (s.setLaunch l x).threads = s.threads := rfl
@[simp] theorem setLaunch_cores (s : State) (l : Nat) (x : Launch) : (s.setLaunch l x).cores = s.cores := rfl
@[simp] theorem setLaunch_dies (s : State) (l : Nat) (x : Launch) : (s.setLaunch l x).dies = s.dies := rfl
@[simp] theorem setLaunch_podBars (s : State) (l : Nat) (x : Launch) : (s.setLaunch l x).podBars = s.podBars := rfl
@[simp] theorem setLaunch_podPeers (s : State) (l : Nat) (x : Launch) : (s.setLaunch l x).podPeers = s.podPeers := rfl
@[simp] theorem setLaunch_net (s : State) (l : Nat) (x : Launch) : (s.setLaunch l x).net = s.net := rfl
@[simp] theorem setLaunch_spool (s : State) (l : Nat) (x : Launch) : (s.setLaunch l x).spool = s.spool := rfl
@[simp] theorem setLaunch_links (s : State) (l : Nat) (x : Launch) : (s.setLaunch l x).links = s.links := rfl
@[simp] theorem setLaunch_host (s : State) (l : Nat) (x : Launch) : (s.setLaunch l x).host = s.host := rfl
theorem setLaunch_launches (s : State) (l : Nat) (x : Launch) : (s.setLaunch l x).launches = tabPut s.launches l x := rfl

/-! ### modLaunch -/

@[simp] theorem modLaunch_cfg (s : State) (l : Nat) (f : Launch → Launch) : (s.modLaunch l f).cfg = s.cfg := by
  unfold State.modLaunch; split <;> rfl
@[simp] theorem modLaunch_cycle (s : State) (l : Nat) (f : Launch → Launch) : (s.modLaunch l f).cycle = s.cycle := by
  unfold State.modLaunch; split <;> rfl
@[simp] theorem modLaunch_agenda (s : State) (l : Nat) (f : Launch → Launch) : (s.modLaunch l f).agenda = s.agenda := by
  unfold State.modLaunch; split <;> rfl
@[simp] theorem modLaunch_focus (s : State) (l : Nat) (f : Launch → Launch) : (s.modLaunch l f).focus = s.focus := by
  unfold State.modLaunch; split <;> rfl
@[simp] theorem modLaunch_issue (s : State) (l : Nat) (f : Launch → Launch) : (s.modLaunch l f).issue = s.issue := by
  unfold State.modLaunch; split <;> rfl
@[simp] theorem modLaunch_fresh (s : State) (l : Nat) (f : Launch → Launch) : (s.modLaunch l f).fresh = s.fresh := by
  unfold State.modLaunch; split <;> rfl
@[simp] theorem modLaunch_threads (s : State) (l : Nat) (f : Launch → Launch) : (s.modLaunch l f).threads = s.threads := by
  unfold State.modLaunch; split <;> rfl
@[simp] theorem modLaunch_cores (s : State) (l : Nat) (f : Launch → Launch) : (s.modLaunch l f).cores = s.cores := by
  unfold State.modLaunch; split <;> rfl
@[simp] theorem modLaunch_dies (s : State) (l : Nat) (f : Launch → Launch) : (s.modLaunch l f).dies = s.dies := by
  unfold State.modLaunch; split <;> rfl
@[simp] theorem modLaunch_podBars (s : State) (l : Nat) (f : Launch → Launch) : (s.modLaunch l f).podBars = s.podBars := by
  unfold State.modLaunch; split <;> rfl
@[simp] theorem modLaunch_podPeers (s : State) (l : Nat) (f : Launch → Launch) : (s.modLaunch l f).podPeers = s.podPeers := by
  unfold State.modLaunch; split <;> rfl
@[simp] theorem modLaunch_net (s : State) (l : Nat) (f : Launch → Launch) : (s.modLaunch l f).net = s.net := by
  unfold State.modLaunch; split <;> rfl
@[simp] theorem modLaunch_spool (s : State) (l : Nat) (f : Launch → Launch) : (s.modLaunch l f).spool = s.spool := by
  unfold State.modLaunch; split <;> rfl
@[simp] theorem modLaunch_links (s : State) (l : Nat) (f : Launch → Launch) : (s.modLaunch l f).links = s.links := by
  unfold State.modLaunch; split <;> rfl
@[simp] theorem modLaunch_host (s : State) (l : Nat) (f : Launch → Launch) : (s.modLaunch l f).host = s.host := by
  unfold State.modLaunch; split <;> rfl

/-! ### modNet -/

@[simp] theorem modNet_cfg (s : State) (f : Net → Net) : (s.modNet f).cfg = s.cfg := rfl
@[simp] theorem modNet_cycle (s : State) (f : Net → Net) : (s.modNet f).cycle = s.cycle := rfl
@[simp] theorem modNet_agenda (s : State) (f : Net → Net) : (s.modNet f).agenda = s.agenda := rfl
@[simp] theorem modNet_focus (s : State) (f : Net → Net) : (s.modNet f).focus = s.focus := rfl
@[simp] theorem modNet_issue (s : State) (f : Net → Net) : (s.modNet f).issue = s.issue := rfl
@[simp] theorem modNet_fresh (s : State) (f : Net → Net) : (s.modNet f).fresh = s.fresh := rfl
@[simp] theorem modNet_threads (s : State) (f : Net → Net) : (s.modNet f).threads = s.threads := rfl
@[simp] theorem modNet_cores (s : State) (f : Net → Net) : (s.modNet f).cores = s.cores := rfl
@[simp] theorem modNet_dies (s : State) (f : Net → Net) : (s.modNet f).dies = s.dies := rfl
@[simp] theorem modNet_launches (s : State) (f : Net → Net) : (s.modNet f).launches = s.launches := rfl
@[simp] theorem modNet_podBars (s : State) (f : Net → Net) : (s.modNet f).podBars = s.podBars := rfl
@[simp] theorem modNet_podPeers (s : State) (f : Net → Net) : (s.modNet f).podPeers = s.podPeers := rfl
@[simp] theorem modNet_spool (s : State) (f : Net → Net) : (s.modNet f).spool = s.spool := rfl
@[simp] theorem modNet_links (s : State) (f : Net → Net) : (s.modNet f).links = s.links := rfl
@[simp] theorem modNet_host (s : State) (f : Net → Net) : (s.modNet f).host = s.host := rfl
theorem modNet_net (s : State) (f : Net → Net) : (s.modNet f).net = f s.net := rfl

/-! ### modHost -/

@[simp] theorem modHost_cfg (s : State) (f : HostIf → HostIf) : (s.modHost f).cfg = s.cfg := rfl
@[simp] theorem modHost_cycle (s : State) (f : HostIf → HostIf) : (s.modHost f).cycle = s.cycle := rfl
@[simp] theorem modHost_agenda (s : State) (f : HostIf → HostIf) : (s.modHost f).agenda = s.agenda := rfl
@[simp] theorem modHost_focus (s : State) (f : HostIf → HostIf) : (s.modHost f).focus = s.focus := rfl
@[simp] theorem modHost_issue (s : State) (f : HostIf → HostIf) : (s.modHost f).issue = s.issue := rfl
@[simp] theorem modHost_fresh (s : State) (f : HostIf → HostIf) : (s.modHost f).fresh = s.fresh := rfl
@[simp] theorem modHost_threads (s : State) (f : HostIf → HostIf) : (s.modHost f).threads = s.threads := rfl
@[simp] theorem modHost_cores (s : State) (f : HostIf → HostIf) : (s.modHost f).cores = s.cores := rfl
@[simp] theorem modHost_dies (s : State) (f : HostIf → HostIf) : (s.modHost f).dies = s.dies := rfl
@[simp] theorem modHost_launches (s : State) (f : HostIf → HostIf) : (s.modHost f).launches = s.launches := rfl
@[simp] theorem modHost_podBars (s : State) (f : HostIf → HostIf) : (s.modHost f).podBars = s.podBars := rfl
@[simp] theorem modHost_podPeers (s : State) (f : HostIf → HostIf) : (s.modHost f).podPeers = s.podPeers := rfl
@[simp] theorem modHost_net (s : State) (f : HostIf → HostIf) : (s.modHost f).net = s.net := rfl
@[simp] theorem modHost_spool (s : State) (f : HostIf → HostIf) : (s.modHost f).spool = s.spool := rfl
@[simp] theorem modHost_links (s : State) (f : HostIf → HostIf) : (s.modHost f).links = s.links := rfl
theorem modHost_host (s : State) (f : HostIf → HostIf) : (s.modHost f).host = f s.host := rfl

/-! ### modPath -/

@[simp] theorem modPath_cfg (s : State) (p : Nat) (f : Path → Path) : (s.modPath p f).cfg = s.cfg := rfl
@[simp] theorem modPath_cycle (s : State) (p : Nat) (f : Path → Path) : (s.modPath p f).cycle = s.cycle := rfl
@[simp] theorem modPath_agenda (s : State) (p : Nat) (f : Path → Path) : (s.modPath p f).agenda = s.agenda := rfl
@[simp] theorem modPath_focus (s : State) (p : Nat) (f : Path → Path) : (s.modPath p f).focus = s.focus := rfl
@[simp] theorem modPath_issue (s : State) (p : Nat) (f : Path → Path) : (s.modPath p f).issue = s.issue := rfl
@[simp] theorem modPath_fresh (s : State) (p : Nat) (f : Path → Path) : (s.modPath p f).fresh = s.fresh := rfl
@[simp] theorem modPath_threads (s : State) (p : Nat) (f : Path → Path) : (s.modPath p f).threads = s.threads := rfl
@[simp] theorem modPath_cores (s : State) (p : Nat) (f : Path → Path) : (s.modPath p f).cores = s.cores := rfl
@[simp] theorem modPath_dies (s : State) (p : Nat) (f : Path → Path) : (s.modPath p f).dies = s.dies := rfl
@[simp] theorem modPath_launches (s : State) (p : Nat) (f : Path → Path) : (s.modPath p f).launches = s.launches := rfl
@[simp] theorem modPath_podBars (s : State) (p : Nat) (f : Path → Path) : (s.modPath p f).podBars = s.podBars := rfl
@[simp] theorem modPath_podPeers (s : State) (p : Nat) (f : Path → Path) : (s.modPath p f).podPeers = s.podPeers := rfl
@[simp] theorem modPath_net (s : State) (p : Nat) (f : Path → Path) : (s.modPath p f).net = s.net := rfl
@[simp] theorem modPath_links (s : State) (p : Nat) (f : Path → Path) : (s.modPath p f).links = s.links := rfl
@[simp] theorem modPath_host (s : State) (p : Nat) (f : Path → Path) : (s.modPath p f).host = s.host := rfl

/-! ### modFibre -/

@[simp] theorem modFibre_cfg (s : State) (p : Nat) (f : Fibre → Fibre) : (s.modFibre p f).cfg = s.cfg := rfl
@[simp] theorem modFibre_cycle (s : State) (p : Nat) (f : Fibre → Fibre) : (s.modFibre p f).cycle = s.cycle := rfl
@[simp] theorem modFibre_agenda (s : State) (p : Nat) (f : Fibre → Fibre) : (s.modFibre p f).agenda = s.agenda := rfl
@[simp] theorem modFibre_focus (s : State) (p : Nat) (f : Fibre → Fibre) : (s.modFibre p f).focus = s.focus := rfl
@[simp] theorem modFibre_issue (s : State) (p : Nat) (f : Fibre → Fibre) : (s.modFibre p f).issue = s.issue := rfl
@[simp] theorem modFibre_fresh (s : State) (p : Nat) (f : Fibre → Fibre) : (s.modFibre p f).fresh = s.fresh := rfl
@[simp] theorem modFibre_threads (s : State) (p : Nat) (f : Fibre → Fibre) : (s.modFibre p f).threads = s.threads := rfl
@[simp] theorem modFibre_cores (s : State) (p : Nat) (f : Fibre → Fibre) : (s.modFibre p f).cores = s.cores := rfl
@[simp] theorem modFibre_dies (s : State) (p : Nat) (f : Fibre → Fibre) : (s.modFibre p f).dies = s.dies := rfl
@[simp] theorem modFibre_launches (s : State) (p : Nat) (f : Fibre → Fibre) : (s.modFibre p f).launches = s.launches := rfl
@[simp] theorem modFibre_podBars (s : State) (p : Nat) (f : Fibre → Fibre) : (s.modFibre p f).podBars = s.podBars := rfl
@[simp] theorem modFibre_podPeers (s : State) (p : Nat) (f : Fibre → Fibre) : (s.modFibre p f).podPeers = s.podPeers := rfl
@[simp] theorem modFibre_net (s : State) (p : Nat) (f : Fibre → Fibre) : (s.modFibre p f).net = s.net := rfl
@[simp] theorem modFibre_links (s : State) (p : Nat) (f : Fibre → Fibre) : (s.modFibre p f).links = s.links := rfl
@[simp] theorem modFibre_host (s : State) (p : Nat) (f : Fibre → Fibre) : (s.modFibre p f).host = s.host := rfl

/-! ### modPeer -/

@[simp] theorem modPeer_cfg (s : State) (p : Nat) (f : Peer → Peer) : (s.modPeer p f).cfg = s.cfg := rfl
@[simp] theorem modPeer_cycle (s : State) (p : Nat) (f : Peer → Peer) : (s.modPeer p f).cycle = s.cycle := rfl
@[simp] theorem modPeer_agenda (s : State) (p : Nat) (f : Peer → Peer) : (s.modPeer p f).agenda = s.agenda := rfl
@[simp] theorem modPeer_focus (s : State) (p : Nat) (f : Peer → Peer) : (s.modPeer p f).focus = s.focus := rfl
@[simp] theorem modPeer_issue (s : State) (p : Nat) (f : Peer → Peer) : (s.modPeer p f).issue = s.issue := rfl
@[simp] theorem modPeer_fresh (s : State) (p : Nat) (f : Peer → Peer) : (s.modPeer p f).fresh = s.fresh := rfl
@[simp] theorem modPeer_threads (s : State) (p : Nat) (f : Peer → Peer) : (s.modPeer p f).threads = s.threads := rfl
@[simp] theorem modPeer_cores (s : State) (p : Nat) (f : Peer → Peer) : (s.modPeer p f).cores = s.cores := rfl
@[simp] theorem modPeer_dies (s : State) (p : Nat) (f : Peer → Peer) : (s.modPeer p f).dies = s.dies := rfl
@[simp] theorem modPeer_launches (s : State) (p : Nat) (f : Peer → Peer) : (s.modPeer p f).launches = s.launches := rfl
@[simp] theorem modPeer_podBars (s : State) (p : Nat) (f : Peer → Peer) : (s.modPeer p f).podBars = s.podBars := rfl
@[simp] theorem modPeer_podPeers (s : State) (p : Nat) (f : Peer → Peer) : (s.modPeer p f).podPeers = s.podPeers := rfl
@[simp] theorem modPeer_net (s : State) (p : Nat) (f : Peer → Peer) : (s.modPeer p f).net = s.net := rfl
@[simp] theorem modPeer_spool (s : State) (p : Nat) (f : Peer → Peer) : (s.modPeer p f).spool = s.spool := rfl
@[simp] theorem modPeer_host (s : State) (p : Nat) (f : Peer → Peer) : (s.modPeer p f).host = s.host := rfl

/-! ### takeFree -/

@[simp] theorem takeFree_cfg (s : State) : (s.takeFree).cfg = s.cfg := rfl
@[simp] theorem takeFree_cycle (s : State) : (s.takeFree).cycle = s.cycle := rfl
@[simp] theorem takeFree_agenda (s : State) : (s.takeFree).agenda = s.agenda := rfl
@[simp] theorem takeFree_focus (s : State) : (s.takeFree).focus = s.focus := rfl
@[simp] theorem takeFree_issue (s : State) : (s.takeFree).issue = s.issue := rfl
@[simp] theorem takeFree_threads (s : State) : (s.takeFree).threads = s.threads := rfl
@[simp] theorem takeFree_cores (s : State) : (s.takeFree).cores = s.cores := rfl
@[simp] theorem takeFree_dies (s : State) : (s.takeFree).dies = s.dies := rfl
@[simp] theorem takeFree_launches (s : State) : (s.takeFree).launches = s.launches := rfl
@[simp] theorem takeFree_podBars (s : State) : (s.takeFree).podBars = s.podBars := rfl
@[simp] theorem takeFree_podPeers (s : State) : (s.takeFree).podPeers = s.podPeers := rfl
@[simp] theorem takeFree_net (s : State) : (s.takeFree).net = s.net := rfl
@[simp] theorem takeFree_spool (s : State) : (s.takeFree).spool = s.spool := rfl
@[simp] theorem takeFree_links (s : State) : (s.takeFree).links = s.links := rfl
@[simp] theorem takeFree_host (s : State) : (s.takeFree).host = s.host := rfl
theorem takeFree_fresh (s : State) : (s.takeFree).fresh = s.fresh + 1 := rfl

/-! ### takeReq -/

@[simp] theorem takeReq_cfg (s : State) : (s.takeReq).cfg = s.cfg := rfl
@[simp] theorem takeReq_cycle (s : State) : (s.takeReq).cycle = s.cycle := rfl
@[simp] theorem takeReq_agenda (s : State) : (s.takeReq).agenda = s.agenda := rfl
@[simp] theorem takeReq_focus (s : State) : (s.takeReq).focus = s.focus := rfl
@[simp] theorem takeReq_issue (s : State) : (s.takeReq).issue = s.issue := rfl
@[simp] theorem takeReq_fresh (s : State) : (s.takeReq).fresh = s.fresh := rfl
@[simp] theorem takeReq_threads (s : State) : (s.takeReq).threads = s.threads := rfl
@[simp] theorem takeReq_cores (s : State) : (s.takeReq).cores = s.cores := rfl
@[simp] theorem takeReq_dies (s : State) : (s.takeReq).dies = s.dies := rfl
@[simp] theorem takeReq_launches (s : State) : (s.takeReq).launches = s.launches := rfl
@[simp] theorem takeReq_podBars (s : State) : (s.takeReq).podBars = s.podBars := rfl
@[simp] theorem takeReq_podPeers (s : State) : (s.takeReq).podPeers = s.podPeers := rfl
@[simp] theorem takeReq_spool (s : State) : (s.takeReq).spool = s.spool := rfl
@[simp] theorem takeReq_links (s : State) : (s.takeReq).links = s.links := rfl
@[simp] theorem takeReq_host (s : State) : (s.takeReq).host = s.host := rfl

/-! ### Thread.setReg -/

@[simp] theorem setReg_core (t : Thread) (n : Nat) (v : Word) : (t.setReg n v).core = t.core := by
  unfold Thread.setReg; split <;> rfl
@[simp] theorem setReg_ctx (t : Thread) (n : Nat) (v : Word) : (t.setReg n v).ctx = t.ctx := by
  unfold Thread.setReg; split <;> rfl
@[simp] theorem setReg_status (t : Thread) (n : Nat) (v : Word) : (t.setReg n v).status = t.status := by
  unfold Thread.setReg; split <;> rfl
@[simp] theorem setReg_wbase (t : Thread) (n : Nat) (v : Word) : (t.setReg n v).wbase = t.wbase := by
  unfold Thread.setReg; split <;> rfl
@[simp] theorem setReg_wsize (t : Thread) (n : Nat) (v : Word) : (t.setReg n v).wsize = t.wsize := by
  unfold Thread.setReg; split <;> rfl
@[simp] theorem setReg_tbase (t : Thread) (n : Nat) (v : Word) : (t.setReg n v).tbase = t.tbase := by
  unfold Thread.setReg; split <;> rfl
@[simp] theorem setReg_tcount (t : Thread) (n : Nat) (v : Word) : (t.setReg n v).tcount = t.tcount := by
  unfold Thread.setReg; split <;> rfl
@[simp] theorem setReg_pc (t : Thread) (n : Nat) (v : Word) : (t.setReg n v).pc = t.pc := by
  unfold Thread.setReg; split <;> rfl
@[simp] theorem setReg_privileged (t : Thread) (n : Nat) (v : Word) : (t.setReg n v).privileged = t.privileged := by
  unfold Thread.setReg; split <;> rfl
@[simp] theorem setReg_handler (t : Thread) (n : Nat) (v : Word) : (t.setReg n v).handler = t.handler := by
  unfold Thread.setReg; split <;> rfl
@[simp] theorem setReg_entries (t : Thread) (n : Nat) (v : Word) : (t.setReg n v).entries = t.entries := by
  unfold Thread.setReg; split <;> rfl
@[simp] theorem setReg_prio (t : Thread) (n : Nat) (v : Word) : (t.setReg n v).prio = t.prio := by
  unfold Thread.setReg; split <;> rfl
@[simp] theorem setReg_preds (t : Thread) (n : Nat) (v : Word) : (t.setReg n v).preds = t.preds := by
  unfold Thread.setReg; split <;> rfl
@[simp] theorem setReg_sp (t : Thread) (n : Nat) (v : Word) : (t.setReg n v).sp = t.sp := by
  unfold Thread.setReg; split <;> rfl
@[simp] theorem setReg_loop0 (t : Thread) (n : Nat) (v : Word) : (t.setReg n v).loop0 = t.loop0 := by
  unfold Thread.setReg; split <;> rfl
@[simp] theorem setReg_loop1 (t : Thread) (n : Nat) (v : Word) : (t.setReg n v).loop1 = t.loop1 := by
  unfold Thread.setReg; split <;> rfl
@[simp] theorem setReg_loop2 (t : Thread) (n : Nat) (v : Word) : (t.setReg n v).loop2 = t.loop2 := by
  unfold Thread.setReg; split <;> rfl
@[simp] theorem setReg_stroke (t : Thread) (n : Nat) (v : Word) : (t.setReg n v).stroke = t.stroke := by
  unfold Thread.setReg; split <;> rfl
@[simp] theorem setReg_pending (t : Thread) (n : Nat) (v : Word) : (t.setReg n v).pending = t.pending := by
  unfold Thread.setReg; split <;> rfl
@[simp] theorem setReg_io (t : Thread) (n : Nat) (v : Word) : (t.setReg n v).io = t.io := by
  unfold Thread.setReg; split <;> rfl

/-! ### Thread.setPred -/

@[simp] theorem setPred_core (t : Thread) (n : BitVec 3) (b : Bool) : (t.setPred n b).core = t.core := rfl
@[simp] theorem setPred_ctx (t : Thread) (n : BitVec 3) (b : Bool) : (t.setPred n b).ctx = t.ctx := rfl
@[simp] theorem setPred_status (t : Thread) (n : BitVec 3) (b : Bool) : (t.setPred n b).status = t.status := rfl
@[simp] theorem setPred_wbase (t : Thread) (n : BitVec 3) (b : Bool) : (t.setPred n b).wbase = t.wbase := rfl
@[simp] theorem setPred_wsize (t : Thread) (n : BitVec 3) (b : Bool) : (t.setPred n b).wsize = t.wsize := rfl
@[simp] theorem setPred_tbase (t : Thread) (n : BitVec 3) (b : Bool) : (t.setPred n b).tbase = t.tbase := rfl
@[simp] theorem setPred_tcount (t : Thread) (n : BitVec 3) (b : Bool) : (t.setPred n b).tcount = t.tcount := rfl
@[simp] theorem setPred_pc (t : Thread) (n : BitVec 3) (b : Bool) : (t.setPred n b).pc = t.pc := rfl
@[simp] theorem setPred_privileged (t : Thread) (n : BitVec 3) (b : Bool) : (t.setPred n b).privileged = t.privileged := rfl
@[simp] theorem setPred_handler (t : Thread) (n : BitVec 3) (b : Bool) : (t.setPred n b).handler = t.handler := rfl
@[simp] theorem setPred_entries (t : Thread) (n : BitVec 3) (b : Bool) : (t.setPred n b).entries = t.entries := rfl
@[simp] theorem setPred_prio (t : Thread) (n : BitVec 3) (b : Bool) : (t.setPred n b).prio = t.prio := rfl
@[simp] theorem setPred_regs (t : Thread) (n : BitVec 3) (b : Bool) : (t.setPred n b).regs = t.regs := rfl
@[simp] theorem setPred_sp (t : Thread) (n : BitVec 3) (b : Bool) : (t.setPred n b).sp = t.sp := rfl
@[simp] theorem setPred_loop0 (t : Thread) (n : BitVec 3) (b : Bool) : (t.setPred n b).loop0 = t.loop0 := rfl
@[simp] theorem setPred_loop1 (t : Thread) (n : BitVec 3) (b : Bool) : (t.setPred n b).loop1 = t.loop1 := rfl
@[simp] theorem setPred_loop2 (t : Thread) (n : BitVec 3) (b : Bool) : (t.setPred n b).loop2 = t.loop2 := rfl
@[simp] theorem setPred_stroke (t : Thread) (n : BitVec 3) (b : Bool) : (t.setPred n b).stroke = t.stroke := rfl
@[simp] theorem setPred_pending (t : Thread) (n : BitVec 3) (b : Bool) : (t.setPred n b).pending = t.pending := rfl
@[simp] theorem setPred_io (t : Thread) (n : BitVec 3) (b : Bool) : (t.setPred n b).io = t.io := rfl

/-! ### Thread.setPair -/

@[simp] theorem setPair_core (t : Thread) (p : Pair) (x y : Bool) : (t.setPair p x y).core = t.core := by
  unfold Thread.setPair; split <;> rfl
@[simp] theorem setPair_ctx (t : Thread) (p : Pair) (x y : Bool) : (t.setPair p x y).ctx = t.ctx := by
  unfold Thread.setPair; split <;> rfl
@[simp] theorem setPair_status (t : Thread) (p : Pair) (x y : Bool) : (t.setPair p x y).status = t.status := by
  unfold Thread.setPair; split <;> rfl
@[simp] theorem setPair_wbase (t : Thread) (p : Pair) (x y : Bool) : (t.setPair p x y).wbase = t.wbase := by
  unfold Thread.setPair; split <;> rfl
@[simp] theorem setPair_wsize (t : Thread) (p : Pair) (x y : Bool) : (t.setPair p x y).wsize = t.wsize := by
  unfold Thread.setPair; split <;> rfl
@[simp] theorem setPair_tbase (t : Thread) (p : Pair) (x y : Bool) : (t.setPair p x y).tbase = t.tbase := by
  unfold Thread.setPair; split <;> rfl
@[simp] theorem setPair_tcount (t : Thread) (p : Pair) (x y : Bool) : (t.setPair p x y).tcount = t.tcount := by
  unfold Thread.setPair; split <;> rfl
@[simp] theorem setPair_pc (t : Thread) (p : Pair) (x y : Bool) : (t.setPair p x y).pc = t.pc := by
  unfold Thread.setPair; split <;> rfl
@[simp] theorem setPair_privileged (t : Thread) (p : Pair) (x y : Bool) : (t.setPair p x y).privileged = t.privileged := by
  unfold Thread.setPair; split <;> rfl
@[simp] theorem setPair_handler (t : Thread) (p : Pair) (x y : Bool) : (t.setPair p x y).handler = t.handler := by
  unfold Thread.setPair; split <;> rfl
@[simp] theorem setPair_entries (t : Thread) (p : Pair) (x y : Bool) : (t.setPair p x y).entries = t.entries := by
  unfold Thread.setPair; split <;> rfl
@[simp] theorem setPair_prio (t : Thread) (p : Pair) (x y : Bool) : (t.setPair p x y).prio = t.prio := by
  unfold Thread.setPair; split <;> rfl
@[simp] theorem setPair_regs (t : Thread) (p : Pair) (x y : Bool) : (t.setPair p x y).regs = t.regs := by
  unfold Thread.setPair; split <;> rfl
@[simp] theorem setPair_sp (t : Thread) (p : Pair) (x y : Bool) : (t.setPair p x y).sp = t.sp := by
  unfold Thread.setPair; split <;> rfl
@[simp] theorem setPair_loop0 (t : Thread) (p : Pair) (x y : Bool) : (t.setPair p x y).loop0 = t.loop0 := by
  unfold Thread.setPair; split <;> rfl
@[simp] theorem setPair_loop1 (t : Thread) (p : Pair) (x y : Bool) : (t.setPair p x y).loop1 = t.loop1 := by
  unfold Thread.setPair; split <;> rfl
@[simp] theorem setPair_loop2 (t : Thread) (p : Pair) (x y : Bool) : (t.setPair p x y).loop2 = t.loop2 := by
  unfold Thread.setPair; split <;> rfl
@[simp] theorem setPair_stroke (t : Thread) (p : Pair) (x y : Bool) : (t.setPair p x y).stroke = t.stroke := by
  unfold Thread.setPair; split <;> rfl
@[simp] theorem setPair_pending (t : Thread) (p : Pair) (x y : Bool) : (t.setPair p x y).pending = t.pending := by
  unfold Thread.setPair; split <;> rfl
@[simp] theorem setPair_io (t : Thread) (p : Pair) (x y : Bool) : (t.setPair p x y).io = t.io := by
  unfold Thread.setPair; split <;> rfl

/-! ### Thread.setPending -/

@[simp] theorem setPending_core (t : Thread) (n : Nat) : (t.setPending n).core = t.core := by
  unfold Thread.setPending; split <;> rfl
@[simp] theorem setPending_ctx (t : Thread) (n : Nat) : (t.setPending n).ctx = t.ctx := by
  unfold Thread.setPending; split <;> rfl
@[simp] theorem setPending_status (t : Thread) (n : Nat) : (t.setPending n).status = t.status := by
  unfold Thread.setPending; split <;> rfl
@[simp] theorem setPending_wbase (t : Thread) (n : Nat) : (t.setPending n).wbase = t.wbase := by
  unfold Thread.setPending; split <;> rfl
@[simp] theorem setPending_wsize (t : Thread) (n : Nat) : (t.setPending n).wsize = t.wsize := by
  unfold Thread.setPending; split <;> rfl
@[simp] theorem setPending_tbase (t : Thread) (n : Nat) : (t.setPending n).tbase = t.tbase := by
  unfold Thread.setPending; split <;> rfl
@[simp] theorem setPending_tcount (t : Thread) (n : Nat) : (t.setPending n).tcount = t.tcount := by
  unfold Thread.setPending; split <;> rfl
@[simp] theorem setPending_pc (t : Thread) (n : Nat) : (t.setPending n).pc = t.pc := by
  unfold Thread.setPending; split <;> rfl
@[simp] theorem setPending_privileged (t : Thread) (n : Nat) : (t.setPending n).privileged = t.privileged := by
  unfold Thread.setPending; split <;> rfl
@[simp] theorem setPending_handler (t : Thread) (n : Nat) : (t.setPending n).handler = t.handler := by
  unfold Thread.setPending; split <;> rfl
@[simp] theorem setPending_entries (t : Thread) (n : Nat) : (t.setPending n).entries = t.entries := by
  unfold Thread.setPending; split <;> rfl
@[simp] theorem setPending_prio (t : Thread) (n : Nat) : (t.setPending n).prio = t.prio := by
  unfold Thread.setPending; split <;> rfl
@[simp] theorem setPending_regs (t : Thread) (n : Nat) : (t.setPending n).regs = t.regs := by
  unfold Thread.setPending; split <;> rfl
@[simp] theorem setPending_preds (t : Thread) (n : Nat) : (t.setPending n).preds = t.preds := by
  unfold Thread.setPending; split <;> rfl
@[simp] theorem setPending_sp (t : Thread) (n : Nat) : (t.setPending n).sp = t.sp := by
  unfold Thread.setPending; split <;> rfl
@[simp] theorem setPending_loop0 (t : Thread) (n : Nat) : (t.setPending n).loop0 = t.loop0 := by
  unfold Thread.setPending; split <;> rfl
@[simp] theorem setPending_loop1 (t : Thread) (n : Nat) : (t.setPending n).loop1 = t.loop1 := by
  unfold Thread.setPending; split <;> rfl
@[simp] theorem setPending_loop2 (t : Thread) (n : Nat) : (t.setPending n).loop2 = t.loop2 := by
  unfold Thread.setPending; split <;> rfl
@[simp] theorem setPending_stroke (t : Thread) (n : Nat) : (t.setPending n).stroke = t.stroke := by
  unfold Thread.setPending; split <;> rfl
@[simp] theorem setPending_io (t : Thread) (n : Nat) : (t.setPending n).io = t.io := by
  unfold Thread.setPending; split <;> rfl

/-! ### Thread.clearPending -/

@[simp] theorem clearPending_core (t : Thread) (n : Nat) : (t.clearPending n).core = t.core := rfl
@[simp] theorem clearPending_ctx (t : Thread) (n : Nat) : (t.clearPending n).ctx = t.ctx := rfl
@[simp] theorem clearPending_status (t : Thread) (n : Nat) : (t.clearPending n).status = t.status := rfl
@[simp] theorem clearPending_wbase (t : Thread) (n : Nat) : (t.clearPending n).wbase = t.wbase := rfl
@[simp] theorem clearPending_wsize (t : Thread) (n : Nat) : (t.clearPending n).wsize = t.wsize := rfl
@[simp] theorem clearPending_tbase (t : Thread) (n : Nat) : (t.clearPending n).tbase = t.tbase := rfl
@[simp] theorem clearPending_tcount (t : Thread) (n : Nat) : (t.clearPending n).tcount = t.tcount := rfl
@[simp] theorem clearPending_pc (t : Thread) (n : Nat) : (t.clearPending n).pc = t.pc := rfl
@[simp] theorem clearPending_privileged (t : Thread) (n : Nat) : (t.clearPending n).privileged = t.privileged := rfl
@[simp] theorem clearPending_handler (t : Thread) (n : Nat) : (t.clearPending n).handler = t.handler := rfl
@[simp] theorem clearPending_entries (t : Thread) (n : Nat) : (t.clearPending n).entries = t.entries := rfl
@[simp] theorem clearPending_prio (t : Thread) (n : Nat) : (t.clearPending n).prio = t.prio := rfl
@[simp] theorem clearPending_regs (t : Thread) (n : Nat) : (t.clearPending n).regs = t.regs := rfl
@[simp] theorem clearPending_preds (t : Thread) (n : Nat) : (t.clearPending n).preds = t.preds := rfl
@[simp] theorem clearPending_sp (t : Thread) (n : Nat) : (t.clearPending n).sp = t.sp := rfl
@[simp] theorem clearPending_loop0 (t : Thread) (n : Nat) : (t.clearPending n).loop0 = t.loop0 := rfl
@[simp] theorem clearPending_loop1 (t : Thread) (n : Nat) : (t.clearPending n).loop1 = t.loop1 := rfl
@[simp] theorem clearPending_loop2 (t : Thread) (n : Nat) : (t.clearPending n).loop2 = t.loop2 := rfl
@[simp] theorem clearPending_stroke (t : Thread) (n : Nat) : (t.clearPending n).stroke = t.stroke := rfl
@[simp] theorem clearPending_io (t : Thread) (n : Nat) : (t.clearPending n).io = t.io := rfl

/-! ### Thread.raise -/

@[simp] theorem raise_core (t : Thread) (f : BitVec 6) : (t.raise f).core = t.core := rfl
@[simp] theorem raise_ctx (t : Thread) (f : BitVec 6) : (t.raise f).ctx = t.ctx := rfl
@[simp] theorem raise_status (t : Thread) (f : BitVec 6) : (t.raise f).status = t.status := rfl
@[simp] theorem raise_wbase (t : Thread) (f : BitVec 6) : (t.raise f).wbase = t.wbase := rfl
@[simp] theorem raise_wsize (t : Thread) (f : BitVec 6) : (t.raise f).wsize = t.wsize := rfl
@[simp] theorem raise_tbase (t : Thread) (f : BitVec 6) : (t.raise f).tbase = t.tbase := rfl
@[simp] theorem raise_tcount (t : Thread) (f : BitVec 6) : (t.raise f).tcount = t.tcount := rfl
@[simp] theorem raise_pc (t : Thread) (f : BitVec 6) : (t.raise f).pc = t.pc := rfl
@[simp] theorem raise_privileged (t : Thread) (f : BitVec 6) : (t.raise f).privileged = t.privileged := rfl
@[simp] theorem raise_handler (t : Thread) (f : BitVec 6) : (t.raise f).handler = t.handler := rfl
@[simp] theorem raise_entries (t : Thread) (f : BitVec 6) : (t.raise f).entries = t.entries := rfl
@[simp] theorem raise_prio (t : Thread) (f : BitVec 6) : (t.raise f).prio = t.prio := rfl
@[simp] theorem raise_regs (t : Thread) (f : BitVec 6) : (t.raise f).regs = t.regs := rfl
@[simp] theorem raise_preds (t : Thread) (f : BitVec 6) : (t.raise f).preds = t.preds := rfl
@[simp] theorem raise_loop0 (t : Thread) (f : BitVec 6) : (t.raise f).loop0 = t.loop0 := rfl
@[simp] theorem raise_loop1 (t : Thread) (f : BitVec 6) : (t.raise f).loop1 = t.loop1 := rfl
@[simp] theorem raise_loop2 (t : Thread) (f : BitVec 6) : (t.raise f).loop2 = t.loop2 := rfl
@[simp] theorem raise_stroke (t : Thread) (f : BitVec 6) : (t.raise f).stroke = t.stroke := rfl
@[simp] theorem raise_pending (t : Thread) (f : BitVec 6) : (t.raise f).pending = t.pending := rfl
@[simp] theorem raise_io (t : Thread) (f : BitVec 6) : (t.raise f).io = t.io := rfl

end Sys2Proof.Machine
end

