-- ==== Sys2Proof/Laws/Memory.lean ====
section
/-! SUPPORT. What the accesses of the part's units to memory can change, and what an event record can: the dies, the notes on their way and the
host's side, and nothing else. -/

namespace Sys2Proof.Machine

/-! ### Accesses to memory -/

/-- Nothing is changed but the dies, the notes on their way and host memory. -/
structure OnlyMemory (s s' : State) : Prop where
  cfg : s'.cfg = s.cfg
  cycle : s'.cycle = s.cycle
  agenda : s'.agenda = s.agenda
  focus : s'.focus = s.focus
  issue : s'.issue = s.issue
  fresh : s'.fresh = s.fresh
  threads : s'.threads = s.threads
  cores : s'.cores = s.cores
  launches : s'.launches = s.launches
  podBars : s'.podBars = s.podBars
  podPeers : s'.podPeers = s.podPeers
  spool : s'.spool = s.spool
  links : s'.links = s.links
  net : s'.net = { s.net with notes := s'.net.notes }
  host : s'.host = { s.host with memory := s'.host.memory }

theorem OnlyMemory.refl (s : State) : OnlyMemory s s := by constructor <;> rfl

theorem OnlyMemory.trans {s s' s'' : State} (h : OnlyMemory s s') (h' : OnlyMemory s' s'') : OnlyMemory s s'' := by
  obtain ⟨a1, a2, a3, a4, a5, a6, a7, a8, a9, a10, a11, a12, a13, a14, a15⟩ := h
  obtain ⟨b1, b2, b3, b4, b5, b6, b7, b8, b9, b10, b11, b12, b13, b14, b15⟩ := h'
  refine ⟨b1.trans a1, b2.trans a2, b3.trans a3, b4.trans a4, b5.trans a5, b6.trans a6, b7.trans a7, b8.trans a8, b9.trans a9, b10.trans a10,
    b11.trans a11, b12.trans a12, b13.trans a13, ?_, ?_⟩
  · rw [b14, a14]
  · rw [b15, a15]

theorem OnlyMemory.foldl {α : Type} {f : State → α → State} (h : ∀ s a, OnlyMemory s (f s a)) :
    ∀ (l : List α) (s : State), OnlyMemory s (l.foldl f s)
  | [], s => .refl s
  | a :: l, s => (h s a).trans (OnlyMemory.foldl h l (f s a))

theorem onlyMemory_setDie (s : State) (d : Nat) (x : Die) : OnlyMemory s (s.setDie d x) := by constructor <;> rfl
theorem onlyMemory_modDie (s : State) (d : Nat) (f : Die → Die) : OnlyMemory s (s.modDie d f) := by constructor <;> rfl
theorem onlyMemory_setSlice (s : State) (d k : Nat) (x : Slice) : OnlyMemory s (s.setSlice d k x) := by constructor <;> rfl
theorem onlyMemory_modSlice (s : State) (d k : Nat) (f : Slice → Slice) : OnlyMemory s (s.modSlice d k f) := by constructor <;> rfl
theorem onlyMemory_sendNote (s : State) (k g : Nat) (n : Note) : OnlyMemory s (sendNote s k g n) := by constructor <;> rfl

theorem onlyMemory_dieWritten (s : State) (d off n : Nat) : OnlyMemory s (dieWritten s d off n) := by
  unfold dieWritten
  split
  · exact .refl s
  · exact onlyMemory_modDie ..

theorem onlyMemory_sendServed (s : State) (d k : Nat) (r : Req) (bs : List Byte) : OnlyMemory s (sendServed s d k r bs) := by
  unfold sendServed
  split
  · exact (onlyMemory_dieWritten ..).trans (onlyMemory_sendNote ..)
  · exact onlyMemory_sendNote ..

theorem onlyMemory_putServed (s : State) (d : Nat) (ln : Line) (ws : List Nat) : OnlyMemory s (putServed s d ln ws) :=
  (onlyMemory_setSlice ..).trans (.foldl (fun _ _ => onlyMemory_sendServed ..) _ _)

theorem onlyMemory_translate (s : State) (d off : Nat) : OnlyMemory s (translate s d off).1 := by
  unfold translate
  dsimp only
  split
  · exact .refl s
  · cases walk s d off with
    | some x => exact onlyMemory_modSlice s d (homeSlice (lineOf off)) fun sl => sl.addTlb x
    | none => exact .refl s

theorem onlyMemory_fetchLine (s : State) (d l pa : Nat) (lp : Bool) : OnlyMemory s (fetchLine s d l pa lp).1 := by
  unfold fetchLine
  dsimp only
  split
  · next ln _ => exact onlyMemory_modSlice s d (homeSlice l) fun sl => sl.putLine ln
  · split
    · next die _ =>
      exact (onlyMemory_setDie s d die).trans
        (onlyMemory_modSlice (s.setDie d die) d (homeSlice l) fun sl => sl.putLine (dramLine (s.die d) l pa lp))
    · exact .refl s

theorem onlyMemory_storeLine (s : State) (d : Nat) (ln : Line) (ws : List Nat) : OnlyMemory s (storeLine s d ln ws) := by
  unfold storeLine
  dsimp only
  split
  · split
    · exact (onlyMemory_setDie ..).trans (onlyMemory_putServed ..)
    · exact onlyMemory_putServed ..
  · have h := (onlyMemory_modDie s d fun die => writeBack die ln).trans (onlyMemory_putServed _ d ln ws)
    split
    · exact h.trans ((onlyMemory_modDie ..).trans (onlyMemory_modSlice ..))
    · exact h

theorem onlyMemory_performStaged (s : State) (d : Nat) (x : Staged) : OnlyMemory s (performStaged s d x) := by
  unfold performStaged
  dsimp only
  split
  · exact (onlyMemory_modSlice ..).trans (onlyMemory_sendNote ..)
  refine OnlyMemory.trans (OnlyMemory.trans ?_ (onlyMemory_dieWritten ..)) (onlyMemory_sendNote ..)
  split
  · exact (onlyMemory_modSlice ..).trans (onlyMemory_modDie ..)
  · exact (onlyMemory_modSlice ..).trans ((onlyMemory_fetchLine ..).trans (onlyMemory_storeLine ..))

theorem onlyMemory_flushStage (s : State) (d l : Nat) : OnlyMemory s (flushStage s d l) :=
  .foldl (fun _ _ => onlyMemory_performStaged ..) _ _

theorem onlyMemory_lineAt (s : State) (d off : Nat) (x : Xlat) : OnlyMemory s (lineAt s d off x).1 := by
  unfold lineAt
  dsimp only
  split
  · exact .refl s
  · split
    · exact onlyMemory_fetchLine ..
    · exact (onlyMemory_flushStage ..).trans (onlyMemory_fetchLine ..)

theorem onlyMemory_writePiece (s : State) (d off : Nat) (x : Xlat) (bs : List Byte) (fill : Bool) :
    OnlyMemory s (writePiece s d off x bs fill) :=
  (onlyMemory_lineAt s d off x).trans ((onlyMemory_dieWritten ..).trans (onlyMemory_storeLine ..))

/-- A write by a unit of the part changes memory alone. -/
theorem onlyMemory_dieWrite (s : State) (d off : Nat) (bs : List Byte) (fill : Bool) : OnlyMemory s (dieWrite s d off bs fill).1 := by
  have h : ∀ (l : List (Nat × Nat)) (acc : State × List Byte), OnlyMemory acc.1 (l.foldl (fun acc p =>
      match translate acc.1 d p.1 with
      | (s, some x) => (writePiece s d p.1 x (acc.2.take p.2) fill, acc.2.drop p.2)
      | (s, none) => (s, acc.2.drop p.2)) acc).1 := by
    intro l
    induction l with
    | nil => exact fun acc => .refl acc.1
    | cons p l ih =>
      intro acc
      have ht := onlyMemory_translate acc.1 d p.1
      rw [List.foldl_cons]
      refine OnlyMemory.trans ?_ (ih _)
      split
      · next e => rw [e] at ht; exact ht.trans (onlyMemory_writePiece ..)
      · next e => rw [e] at ht; exact ht
  unfold dieWrite
  split
  · exact h (pieces off bs.length) (s, bs)
  · exact .refl s

/-- A read by a unit of the part changes memory alone: its translations, and stores staged before it. -/
theorem onlyMemory_dieRead (s : State) (d off n : Nat) : OnlyMemory s (dieRead s d off n).1 := by
  have h : ∀ (l : List (Nat × Nat)) (acc : State × Option (List Byte)), OnlyMemory acc.1 (l.foldl (fun acc p =>
      match acc with
      | (s, none) => (s, none)
      | (s, some bs) =>
        match translate s d p.1 with
        | (s, some x) =>
          if x.r then
            let (s, ln) := lineAt s d p.1 x
            (s, some (bs ++ ln.data.bytes (p.1 % 128) p.2))
          else (s, none)
        | (s, none) => (s, none)) acc).1 := by
    intro l
    induction l with
    | nil => exact fun acc => .refl acc.1
    | cons p l ih =>
      intro acc
      rw [List.foldl_cons]
      refine OnlyMemory.trans ?_ (ih _)
      split
      · exact .refl _
      · rename_i s0 bs
        have ht := onlyMemory_translate s0 d p.1
        split
        · next e =>
          rw [e] at ht
          split
          · exact ht.trans (onlyMemory_lineAt ..)
          · exact ht
        · next e => rw [e] at ht; exact ht
  exact h (pieces off n) (s, some [])

theorem onlyMemory_partRead (s : State) (ea : Word) (n : Nat) : OnlyMemory s (partRead s ea n).1 := by
  unfold partRead
  split
  · exact .refl s
  · split
    · exact onlyMemory_dieRead ..
    · exact .refl s

theorem onlyMemory_partWrite (s : State) (ea : Word) (bs : List Byte) : OnlyMemory s (partWrite s ea bs).1 := by
  unfold partWrite
  split
  · constructor <;> rfl
  · split
    · exact onlyMemory_dieWrite ..
    · exact .refl s

/-! ### Event records -/

/-- Nothing is changed but the dies, the notes on their way and the host's side, where one record more has been produced. -/
structure OnlyEvent (s s' : State) : Prop where
  cfg : s'.cfg = s.cfg
  cycle : s'.cycle = s.cycle
  agenda : s'.agenda = s.agenda
  focus : s'.focus = s.focus
  issue : s'.issue = s.issue
  fresh : s'.fresh = s.fresh
  threads : s'.threads = s.threads
  cores : s'.cores = s.cores
  launches : s'.launches = s.launches
  podBars : s'.podBars = s.podBars
  podPeers : s'.podPeers = s.podPeers
  spool : s'.spool = s.spool
  links : s'.links = s.links
  net : s'.net = { s.net with notes := s'.net.notes }
  evSeq : s'.host.evSeq = s.host.evSeq + 1
  queues : s'.host.queues = s.host.queues

/-- A record produced, wherever it goes. -/
theorem onlyEvent_emit (s : State) (type die core : Nat) (tid : Tid) (detail : List Word) :
    OnlyEvent s (emit s type die core tid detail) := by
  unfold emit
  dsimp only
  split
  · unfold storeEvent
    have h := onlyMemory_partWrite (s.modHost fun h => { h with evSeq := h.evSeq + 1 })
    constructor <;> simp [(h _ _).cfg, (h _ _).cycle, (h _ _).agenda, (h _ _).focus, (h _ _).issue, (h _ _).fresh, (h _ _).threads,
      (h _ _).cores, (h _ _).launches, (h _ _).podBars, (h _ _).podPeers, (h _ _).spool, (h _ _).links]
    · exact (h _ _).net
    · rw [modHost_host, (h _ _).host]; rfl
    · rw [modHost_host, (h _ _).host]; rfl
  · split <;> constructor <;> rfl

end Sys2Proof.Machine
end

