-- ==== Sys2Proof/Laws/Tab.lean ====
section
/-! SUPPORT. Tables and byte memories: read after write, and the canonical form kept by every operation. -/

namespace Sys2Proof.Machine

/-! ### Tables -/

@[simp] theorem tabGet_put_same {α : Type} (t : Tab α) (k : Nat) (v : α) : tabGet (tabPut t k v) k = some v := by
  induction t with
  | nil => simp [tabPut, tabGet]
  | cons e t ih =>
    obtain ⟨j, w⟩ := e
    unfold tabPut
    split
    · simp [tabGet]
    · split
      · simp [tabGet]
      · simp [tabGet, *]

@[simp] theorem tabGetD_put_same {α : Type} (t : Tab α) (k : Nat) (v d : α) : tabGetD (tabPut t k v) k d = v := by
  simp [tabGetD]

theorem tabGet_put_ne {α : Type} (t : Tab α) {k k' : Nat} (v : α) (h : k' ≠ k) :
    tabGet (tabPut t k v) k' = tabGet t k' := by
  induction t with
  | nil => simp [tabPut, tabGet, h]
  | cons e t ih =>
    obtain ⟨j, w⟩ := e
    unfold tabPut
    split
    · rename_i hk
      subst hk
      simp [tabGet, h]
    · split
      · simp [tabGet, h]
      · simp only [tabGet, ih]

theorem tabGetD_put_ne {α : Type} (t : Tab α) {k k' : Nat} (v d : α) (h : k' ≠ k) :
    tabGetD (tabPut t k v) k' d = tabGetD t k' d := by
  simp [tabGetD, tabGet_put_ne t v h]

@[simp] theorem tabGet_del_same {α : Type} (t : Tab α) (k : Nat) : tabGet (tabDel t k) k = none := by
  induction t with
  | nil => rfl
  | cons e t ih =>
    obtain ⟨j, w⟩ := e
    unfold tabDel
    split
    · exact ih
    · rename_i h
      simp [tabGet, h, ih]

theorem tabGet_del_ne {α : Type} (t : Tab α) {k k' : Nat} (hk : k' ≠ k) : tabGet (tabDel t k) k' = tabGet t k' := by
  induction t with
  | nil => rfl
  | cons e t ih =>
    obtain ⟨j, w⟩ := e
    unfold tabDel
    split
    · rename_i h
      subst h
      simp [tabGet, hk, ih]
    · simp only [tabGet, ih]

/-! ### The rising form -/

theorem risingFrom_mono {α : Type} (t : Tab α) {lo lo' : Nat} (h : risingFrom lo t = true) (hl : lo' ≤ lo) : risingFrom lo' t = true := by
  cases t with
  | nil => rfl
  | cons e t =>
    obtain ⟨j, w⟩ := e
    simp [risingFrom] at *
    exact ⟨by omega, h.2⟩

theorem risingFrom_put {α : Type} (t : Tab α) {lo : Nat} (k : Nat) (v : α) (h : risingFrom lo t = true) (hk : lo ≤ k) :
    risingFrom lo (tabPut t k v) = true := by
  induction t generalizing lo with
  | nil => simp [tabPut, risingFrom, hk]
  | cons e t ih =>
    obtain ⟨j, w⟩ := e
    simp [risingFrom] at h
    unfold tabPut
    split
    · rename_i h1
      subst h1
      simp [risingFrom, h]
    · split
      · rename_i h1 h2
        simp [risingFrom, hk, h.2]
        omega
      · rename_i h1 h2
        simp [risingFrom, h.1]
        exact ih h.2 (by omega)

theorem risingFrom_del {α : Type} (t : Tab α) {lo : Nat} (k : Nat) (h : risingFrom lo t = true) : risingFrom lo (tabDel t k) = true := by
  induction t generalizing lo with
  | nil => rfl
  | cons e t ih =>
    obtain ⟨j, w⟩ := e
    simp [risingFrom] at h
    unfold tabDel
    split
    · exact risingFrom_mono _ (ih h.2) (by omega)
    · simp [risingFrom, h.1, ih h.2]

theorem risingFrom_filter {α : Type} (t : Tab α) {lo : Nat} (p : Nat × α → Bool) (h : risingFrom lo t = true) :
    risingFrom lo (t.filter p) = true := by
  induction t generalizing lo with
  | nil => rfl
  | cons e t ih =>
    obtain ⟨j, w⟩ := e
    simp [risingFrom] at h
    simp only [List.filter_cons]
    split
    · simp [risingFrom, h.1, ih h.2]
    · exact risingFrom_mono _ (ih h.2) (by omega)

/-! ### Memory: the canonical form -/

theorem all_put {α : Type} (t : Tab α) (k : Nat) (v : α) (p : Nat × α → Bool) (h : t.all p = true) (hv : p (k, v) = true) :
    (tabPut t k v).all p = true := by
  induction t with
  | nil => simp [tabPut, hv]
  | cons e t ih =>
    obtain ⟨j, w⟩ := e
    simp only [List.all_cons, Bool.and_eq_true] at h
    unfold tabPut
    split
    · simp only [List.all_cons, Bool.and_eq_true]
      exact ⟨hv, h.2⟩
    · split
      · simp only [List.all_cons, Bool.and_eq_true]
        exact ⟨hv, h⟩
      · simp only [List.all_cons, Bool.and_eq_true]
        exact ⟨h.1, ih h.2⟩

theorem all_del {α : Type} (t : Tab α) (k : Nat) (p : Nat × α → Bool) (h : t.all p = true) : (tabDel t k).all p = true := by
  induction t with
  | nil => rfl
  | cons e t ih =>
    obtain ⟨j, w⟩ := e
    simp only [List.all_cons, Bool.and_eq_true] at h
    unfold tabDel
    split
    · exact ih h.2
    · simp only [List.all_cons, Bool.and_eq_true]
      exact ⟨h.1, ih h.2⟩

/-- Writing one byte keeps the canonical form. -/
theorem Memory.set_wf (m : Memory) (a : Nat) (b : Byte) (h : Memory.wf m = true) : Memory.wf (Memory.set m a b) = true := by
  unfold Memory.wf at *
  simp only [Bool.and_eq_true] at *
  unfold Memory.set
  split
  · exact ⟨risingFrom_del m a h.1, all_del m a _ h.2⟩
  · rename_i hb
    exact ⟨risingFrom_put m a b h.1 (Nat.zero_le _), all_put m a b _ h.2 (by simpa using hb)⟩

/-- Writing bytes keeps the canonical form. -/
theorem Memory.write_wf (m : Memory) (a : Nat) (bs : List Byte) (h : Memory.wf m = true) : Memory.wf (Memory.write m a bs) = true := by
  induction bs generalizing m a with
  | nil => exact h
  | cons b bs ih => exact ih _ _ (Memory.set_wf m a b h)

/-- Clearing bytes keeps the canonical form. -/
theorem Memory.clear_wf (m : Memory) (a n : Nat) (h : Memory.wf m = true) : Memory.wf (Memory.clear m a n) = true := by
  unfold Memory.wf at *
  simp only [Bool.and_eq_true] at *
  refine ⟨risingFrom_filter m _ h.1, ?_⟩
  unfold Memory.clear
  rw [List.all_eq_true] at *
  intro x hx
  exact h.2 x (List.mem_filter.mp hx).1

theorem Memory.empty_wf : Memory.wf [] = true := rfl

/-! ### Memory: read after write -/

/-- The byte written is the byte read. -/
@[simp] theorem Memory.get_set_same (m : Memory) (a : Nat) (b : Byte) : Memory.get (Memory.set m a b) a = b := by
  unfold Memory.set Memory.get tabGetD
  split
  · rename_i hb
    simp [hb]
  · simp

/-- Every other byte reads as before. -/
theorem Memory.get_set_ne (m : Memory) {a a' : Nat} (b : Byte) (ha : a' ≠ a) : Memory.get (Memory.set m a b) a' = Memory.get m a' := by
  unfold Memory.set Memory.get tabGetD
  split
  · rw [tabGet_del_ne m ha]
  · rw [tabGet_put_ne m b ha]

/-- A byte outside the bytes written reads as before. -/
theorem Memory.get_write_outside (m : Memory) (a : Nat) (bs : List Byte) (a' : Nat) (ha : a' < a ∨ a + bs.length ≤ a') :
    Memory.get (Memory.write m a bs) a' = Memory.get m a' := by
  induction bs generalizing m a with
  | nil => rfl
  | cons b bs ih =>
    simp only [List.length_cons] at ha
    unfold Memory.write
    rw [ih _ _ (by omega), Memory.get_set_ne m b (by omega)]

/-- A byte written reads as written. -/
theorem Memory.get_write_inside (m : Memory) (a : Nat) (bs : List Byte) (i : Nat) (hi : i < bs.length) :
    Memory.get (Memory.write m a bs) (a + i) = bs.getD i 0 := by
  induction bs generalizing m a i with
  | nil => simp at hi
  | cons b bs ih =>
    unfold Memory.write
    cases i with
    | zero =>
      rw [Memory.get_write_outside _ _ _ _ (by omega)]
      simp
    | succ i =>
      rw [show a + (i + 1) = a + 1 + i from by omega, ih (Memory.set m a b) (a + 1) i (by simpa using hi)]
      simp

/-- The bytes read back are those written. -/
theorem Memory.bytes_write (m : Memory) (a : Nat) (bs : List Byte) : Memory.bytes (Memory.write m a bs) a bs.length = bs := by
  have key : ∀ (n i : Nat), i + n = bs.length → Memory.bytes (Memory.write m a bs) (a + i) n = bs.drop i := by
    intro n
    induction n with
    | zero => intro i hi; simp [Memory.bytes, List.drop_eq_nil_of_le (by omega : bs.length ≤ i)]
    | succ n ih =>
      intro i hi
      have hlt : i < bs.length := by omega
      unfold Memory.bytes
      rw [Memory.get_write_inside m a bs i hlt, show a + i + 1 = a + (i + 1) from by omega, ih (i + 1) (by omega),
        List.drop_eq_getElem_cons hlt]
      congr 1
      simp [List.getD, hlt]
  simpa using key bs.length 0 (by omega)

/-! ### Sets -/

theorem setHas_add_same (s : NatSet) (k : Nat) : setHas (setAdd s k) k = true := by
  unfold setHas
  induction s with
  | nil => simp [setAdd]
  | cons j t ih =>
    unfold setAdd
    split
    · rename_i h
      simp [h]
    · split <;> simp_all

theorem setHas_del_same (s : NatSet) (k : Nat) : setHas (setDel s k) k = false := by
  unfold setHas
  induction s with
  | nil => rfl
  | cons j t ih =>
    unfold setDel
    split
    · exact ih
    · simp_all

theorem setHas_add_ne (s : NatSet) {k k' : Nat} (h : k' ≠ k) : setHas (setAdd s k) k' = setHas s k' := by
  unfold setHas
  induction s with
  | nil => simp [setAdd, h]
  | cons j t ih =>
    unfold setAdd
    split
    · rfl
    · split
      · simp [h]
      · simp_all

theorem setHas_del_ne (s : NatSet) {k k' : Nat} (h : k' ≠ k) : setHas (setDel s k) k' = setHas s k' := by
  unfold setHas
  induction s with
  | nil => rfl
  | cons j t ih =>
    unfold setDel
    split
    · rename_i hk
      subst hk
      simp_all
    · simp_all

end Sys2Proof.Machine
end

