-- ==== Sys2Proof/Laws/Turn.lean ====
section
/-! SUPPORT. What the shared operations of a turn can do: entering a meaning, sequential flow, closing a turn, threads and registers read after
they are written. -/

namespace Sys2Proof.Machine

/-! ### Threads, cores and launches after an update -/

theorem tid_toNat_ne {a b : Tid} (h : a ≠ b) : a.toNat ≠ b.toNat := fun e => h (BitVec.eq_of_toNat_eq e)

@[simp] theorem thread_setThread_same (s : State) (tid : Tid) (t : Thread) : (s.setThread tid t).thread? tid = some t := by
  simp [State.thread?, State.setThread]

theorem thread_setThread_ne (s : State) {tid tid' : Tid} (t : Thread) (h : tid' ≠ tid) :
    (s.setThread tid t).thread? tid' = s.thread? tid' := by
  simp [State.thread?, State.setThread, tabGet_put_ne _ _ (tid_toNat_ne h)]

@[simp] theorem thread_dropThread_same (s : State) (tid : Tid) : (s.dropThread tid).thread? tid = none := by
  simp [State.thread?, State.dropThread]

theorem thread_dropThread_ne (s : State) {tid tid' : Tid} (h : tid' ≠ tid) : (s.dropThread tid).thread? tid' = s.thread? tid' := by
  simp [State.thread?, State.dropThread, tabGet_del_ne _ (tid_toNat_ne h)]

@[simp] theorem thread_setCore (s : State) (g : Nat) (c : Core) (tid : Tid) : (s.setCore g c).thread? tid = s.thread? tid := rfl

@[simp] theorem thread_modCore (s : State) (g : Nat) (f : Core → Core) (tid : Tid) : (s.modCore g f).thread? tid = s.thread? tid := rfl

@[simp] theorem thread_modDie (s : State) (d : Nat) (f : Die → Die) (tid : Tid) : (s.modDie d f).thread? tid = s.thread? tid := rfl

@[simp] theorem thread_modSlice (s : State) (d k : Nat) (f : Slice → Slice) (tid : Tid) :
    (s.modSlice d k f).thread? tid = s.thread? tid := rfl

@[simp] theorem thread_modNet (s : State) (f : Net → Net) (tid : Tid) : (s.modNet f).thread? tid = s.thread? tid := rfl

@[simp] theorem thread_modHost (s : State) (f : HostIf → HostIf) (tid : Tid) : (s.modHost f).thread? tid = s.thread? tid := rfl

@[simp] theorem thread_setLaunch (s : State) (l : Nat) (x : Launch) (tid : Tid) : (s.setLaunch l x).thread? tid = s.thread? tid := rfl

@[simp] theorem core_setThread (s : State) (tid : Tid) (t : Thread) (g : Nat) : (s.setThread tid t).core g = s.core g := rfl

@[simp] theorem core_setCore_same (s : State) (g : Nat) (c : Core) : (s.setCore g c).core g = c := by
  simp [State.core, State.setCore]

theorem core_setCore_ne (s : State) {g g' : Nat} (c : Core) (h : g' ≠ g) : (s.setCore g c).core g' = s.core g' := by
  simp [State.core, State.setCore, tabGetD_put_ne _ _ _ h]

@[simp] theorem core_modCore_same (s : State) (g : Nat) (f : Core → Core) : (s.modCore g f).core g = f (s.core g) := by
  simp [State.modCore]

theorem core_modCore_ne (s : State) {g g' : Nat} (f : Core → Core) (h : g' ≠ g) : (s.modCore g f).core g' = s.core g' := by
  simp [State.modCore, core_setCore_ne _ _ h]

@[simp] theorem core_modNet (s : State) (f : Net → Net) (g : Nat) : (s.modNet f).core g = s.core g := rfl

@[simp] theorem die_setThread (s : State) (tid : Tid) (t : Thread) (d : Nat) : (s.setThread tid t).die d = s.die d := rfl

@[simp] theorem die_setCore (s : State) (g : Nat) (c : Core) (d : Nat) : (s.setCore g c).die d = s.die d := rfl

@[simp] theorem die_modCore (s : State) (g : Nat) (f : Core → Core) (d : Nat) : (s.modCore g f).die d = s.die d := rfl

@[simp] theorem die_setDie_same (s : State) (d : Nat) (x : Die) : (s.setDie d x).die d = x := by
  simp [State.die, State.setDie]

@[simp] theorem launch_setThread (s : State) (tid : Tid) (t : Thread) (l : Nat) : (s.setThread tid t).launch? l = s.launch? l := rfl

@[simp] theorem launch_setCore (s : State) (g : Nat) (c : Core) (l : Nat) : (s.setCore g c).launch? l = s.launch? l := rfl

@[simp] theorem launch_modCore (s : State) (g : Nat) (f : Core → Core) (l : Nat) : (s.modCore g f).launch? l = s.launch? l := rfl

@[simp] theorem launch_modNet (s : State) (f : Net → Net) (l : Nat) : (s.modNet f).launch? l = s.launch? l := rfl

@[simp] theorem launch_setLaunch_same (s : State) (l : Nat) (x : Launch) : (s.setLaunch l x).launch? l = some x := by
  simp [State.launch?, State.setLaunch]

theorem modThread_some {s : State} {tid : Tid} {t : Thread} (f : Thread → Thread) (h : s.thread? tid = some t) :
    s.modThread tid f = s.setThread tid (f t) := by
  simp [State.modThread, h]

/-! ### Registers -/

@[simp] theorem reg_zero (t : Thread) : t.reg 0 = 0 := rfl

theorem reg_setReg (t : Thread) (d n : Nat) (v : Word) : (t.setReg d v).reg n = if n = d ∧ n ≠ 0 then v else t.reg n := by
  unfold Thread.setReg Thread.reg
  by_cases hd : d = 0
  · subst hd
    by_cases hn : n = 0 <;> simp [hn]
  · by_cases hn : n = 0
    · subst hn
      simp
    · by_cases h : n = d
      · subst h
        simp [hn]
      · simp [hd, hn, h, tabGetD_put_ne _ _ _ h]

/-! ### Flow -/

/-- Where flow goes depends on the launch and the core's segment only. -/
theorem flowTo_setThread (s : State) (tid tid' : Tid) (t : Thread) (g : Nat) (ia : Word) :
    flowTo (s.setThread tid t) tid' g ia = flowTo s tid' g ia := rfl

/-- What one loop-end check can do. -/
theorem loopEnd_cases (t : Thread) (l : Level) (ia : Word) :
    loopEnd t l ia = (t, false) ∨ ∃ x p b, loopEnd t l ia = ({ t.setLoop l x with pc := p }, b) := by
  unfold loopEnd
  simp only
  by_cases c : ((t.loop l).active && (t.loop l).stop == ia) = true
  · by_cases d : (if (t.loop l).lc = 0 then (0 : BitVec 32) else (t.loop l).lc - 1) = 0
    · rw [if_pos c, if_pos d]
      exact .inr ⟨{ t.loop l with lc := 0, active := false }, t.pc, false, by cases l <;> rfl⟩
    · rw [if_pos c, if_neg d]
      exact .inr ⟨_, _, true, rfl⟩
  · rw [if_neg c]
    exact .inl rfl

/-- The parts of a thread that sequential flow reads and writes. -/
theorem loopEnd_frame (t : Thread) (l : Level) (ia : Word) :
    (loopEnd t l ia).1 =
      { t with pc := (loopEnd t l ia).1.pc, loop0 := (loopEnd t l ia).1.loop0, loop1 := (loopEnd t l ia).1.loop1,
               loop2 := (loopEnd t l ia).1.loop2 } := by
  rcases loopEnd_cases t l ia with e | ⟨x, p, b, e⟩ <;> rw [e]
  cases l <;> rfl

theorem seqFlow_frame (t : Thread) (ia next : Word) :
    seqFlow t ia next =
      { t with pc := (seqFlow t ia next).pc, loop0 := (seqFlow t ia next).loop0, loop1 := (seqFlow t ia next).loop1,
               loop2 := (seqFlow t ia next).loop2 } := by
  have h2 := loopEnd_frame t .l2 ia
  unfold seqFlow
  split
  · rename_i t2 e2
    simpa [e2] using h2
  · rename_i t2 e2
    have h1 := loopEnd_frame t2 .l1 ia
    split
    · rename_i t1 e1
      simp only [e1, e2] at h1 h2
      rw [h1, h2]
    · rename_i t1 e1
      have h0 := loopEnd_frame t1 .l0 ia
      split
      · rename_i t0 e0
        simp only [e0, e1, e2] at h0 h1 h2
        rw [h0, h1, h2]
      · rename_i t0 e0
        simp only [e0, e1, e2] at h0 h1 h2
        rw [h0, h1, h2]

/-- Sequential flow changes a thread's pc and loop levels only. -/
theorem seqThread_frame (t : Thread) (ia : Word) (last : Bool) :
    seqThread t ia last =
      { t with pc := (seqThread t ia last).pc, loop0 := (seqThread t ia last).loop0, loop1 := (seqThread t ia last).loop1,
               loop2 := (seqThread t ia last).loop2 } :=
  seqFlow_frame t ia _

/-- A change of a thread that leaves its pc and loops alone commutes with sequential flow. -/
theorem loopEnd_congr (t t' : Thread) (l : Level) (ia : Word) (h0 : t'.loop0 = t.loop0) (h1 : t'.loop1 = t.loop1)
    (h2 : t'.loop2 = t.loop2) (hp : t'.pc = t.pc) :
    (loopEnd t' l ia).2 = (loopEnd t l ia).2 ∧ (loopEnd t' l ia).1.pc = (loopEnd t l ia).1.pc ∧
      (loopEnd t' l ia).1.loop0 = (loopEnd t l ia).1.loop0 ∧ (loopEnd t' l ia).1.loop1 = (loopEnd t l ia).1.loop1 ∧
      (loopEnd t' l ia).1.loop2 = (loopEnd t l ia).1.loop2 := by
  have hl : t'.loop l = t.loop l := by cases l <;> simp [Thread.loop, h0, h1, h2]
  unfold loopEnd
  rw [hl]
  simp only
  by_cases c : ((t.loop l).active && (t.loop l).stop == ia) = true
  · by_cases d : (if (t.loop l).lc = 0 then (0 : BitVec 32) else (t.loop l).lc - 1) = 0
    · simp only [c, d, if_true]
      cases l <;> simp [Thread.setLoop, h0, h1, h2, hp]
    · simp only [c, d, if_true, if_false]
      cases l <;> simp [Thread.setLoop, h0, h1, h2, hp]
  · rw [if_neg c, if_neg c]
    exact ⟨rfl, hp, h0, h1, h2⟩

theorem seqFlow_congr (t t' : Thread) (ia next : Word) (h0 : t'.loop0 = t.loop0) (h1 : t'.loop1 = t.loop1)
    (h2 : t'.loop2 = t.loop2) (hp : t'.pc = t.pc) :
    (seqFlow t' ia next).pc = (seqFlow t ia next).pc ∧ (seqFlow t' ia next).loop0 = (seqFlow t ia next).loop0 ∧
      (seqFlow t' ia next).loop1 = (seqFlow t ia next).loop1 ∧ (seqFlow t' ia next).loop2 = (seqFlow t ia next).loop2 := by
  unfold seqFlow
  have a := loopEnd_congr t t' .l2 ia h0 h1 h2 hp
  rcases e : loopEnd t .l2 ia with ⟨x, b⟩
  rcases e' : loopEnd t' .l2 ia with ⟨x', b'⟩
  simp only [e, e'] at a
  obtain ⟨rfl, ap, a0, a1, a2⟩ := a
  cases b'
  · have a := loopEnd_congr x x' .l1 ia a0 a1 a2 ap
    rcases f : loopEnd x .l1 ia with ⟨y, b⟩
    rcases f' : loopEnd x' .l1 ia with ⟨y', b'⟩
    simp only [f, f'] at a
    obtain ⟨rfl, bp, b0, b1, b2⟩ := a
    cases b'
    · have a := loopEnd_congr y y' .l0 ia b0 b1 b2 bp
      rcases k : loopEnd y .l0 ia with ⟨z, b⟩
      rcases k' : loopEnd y' .l0 ia with ⟨z', b'⟩
      simp only [k, k'] at a
      obtain ⟨rfl, cp, c0, c1, c2⟩ := a
      cases b' <;> simp [f, f', k, k', cp, c0, c1, c2]
    · simp [f, f', bp, b0, b1, b2]
  · simp [ap, a0, a1, a2]

theorem seqThread_congr (t t' : Thread) (ia : Word) (last : Bool) (h0 : t'.loop0 = t.loop0) (h1 : t'.loop1 = t.loop1)
    (h2 : t'.loop2 = t.loop2) (hp : t'.pc = t.pc) :
    (seqThread t' ia last).pc = (seqThread t ia last).pc ∧ (seqThread t' ia last).loop0 = (seqThread t ia last).loop0 ∧
      (seqThread t' ia last).loop1 = (seqThread t ia last).loop1 ∧ (seqThread t' ia last).loop2 = (seqThread t ia last).loop2 :=
  seqFlow_congr t t' ia _ h0 h1 h2 hp

/-! ### Entering a meaning and ending a turn -/

/-- An access to a core without erroneous words is made. -/
theorem reading_clean {s : State} {t : Thread} (u : Issue) (runs : List (Nat × Nat)) (o : Out) (h : (s.core t.core).errors = []) :
    reading u s t runs o = o := by
  have hn : (runs.find? fun r => (wordMet (s.core t.core).errors r.1 r.2).isSome) = none := by simp [wordMet, h]
  simp only [reading, hn]

theorem readingTile_clean {s : State} {t : Thread} (u : Issue) (p : Nat) (o : Out) (h : (s.core t.core).errors = []) :
    readingTile u s t p o = o := by
  simp [readingTile, h, tileMet]

/-- In an open turn whose instruction issues, its meaning is entered. -/
theorem perform_issues {i : Instr} {s : State} {u : Issue} {t : Thread} (k : Issue → Thread → Out) (h : s.issue = some u)
    (hr : u.rep = none) (ht : s.thread? u.tid = some t) (hc : decodeCheck i t u.head = none) (hh : hazard i t = false) :
    perform i s k = k u t := by
  simp [perform, h, ht, hc, blocked, hr, hh]

theorem completeSeq_here {s : State} {tid : Tid} {t : Thread} (ia : Word) (last : Bool) (ht : s.thread? tid = some t)
    (hf : flowTo s tid t.core (seqThread t ia last).pc = .here) :
    completeSeq s tid ia last = s.setThread tid (seqThread t ia last) := by
  have hc : (seqThread t ia last).core = t.core := by rw [seqThread_frame]
  simp [completeSeq, ht, settleFlow, hc, hf]

@[simp] theorem closeTurn_issue (s : State) (u : Issue) : (closeTurn s u).issue = none := by
  unfold closeTurn
  simp only
  split
  · rfl
  · split <;> rfl

/-- Closing a turn changes the latch, and the issuing thread's quantumDue mark, only. -/
theorem closeTurn_frame (s : State) (u : Issue) :
    closeTurn s u = { s with issue := none } ∨
      ∃ t, s.thread? u.tid = some t ∧
        closeTurn s u = { s with issue := none, threads := tabPut s.threads u.tid.toNat { t with io := { t.io with quantumDue := true } } } := by
  unfold closeTurn
  simp only
  split
  · exact .inl rfl
  · rename_i t ht
    split
    · exact .inr ⟨t, ht, rfl⟩
    · exact .inl rfl

/-- The issuing thread after its turn is closed. -/
theorem closeTurn_thread {s : State} {u : Issue} {t : Thread} (h : s.thread? u.tid = some t) :
    ∃ q, (closeTurn s u).thread? u.tid = some { t with io := { t.io with quantumDue := q } } := by
  rcases closeTurn_frame s u with e | ⟨t', ht, e⟩
  · refine ⟨t.io.quantumDue, ?_⟩
    rw [e]
    exact h
  · refine ⟨true, ?_⟩
    rw [h] at ht
    cases ht
    rw [e]
    simp [State.thread?]

theorem closeTurn_thread_ne (s : State) (u : Issue) {tid : Tid} (h : tid ≠ u.tid) : (closeTurn s u).thread? tid = s.thread? tid := by
  rcases closeTurn_frame s u with e | ⟨t', _, e⟩ <;> rw [e]
  · rfl
  · simp [State.thread?, tabGet_put_ne _ _ (tid_toNat_ne h)]

@[simp] theorem closeTurn_cfg (s : State) (u : Issue) : (closeTurn s u).cfg = s.cfg := by
  rcases closeTurn_frame s u with e | ⟨_, _, e⟩ <;> rw [e]

@[simp] theorem closeTurn_cycle (s : State) (u : Issue) : (closeTurn s u).cycle = s.cycle := by
  rcases closeTurn_frame s u with e | ⟨_, _, e⟩ <;> rw [e]

@[simp] theorem closeTurn_agenda (s : State) (u : Issue) : (closeTurn s u).agenda = s.agenda := by
  rcases closeTurn_frame s u with e | ⟨_, _, e⟩ <;> rw [e]

@[simp] theorem closeTurn_focus (s : State) (u : Issue) : (closeTurn s u).focus = s.focus := by
  rcases closeTurn_frame s u with e | ⟨_, _, e⟩ <;> rw [e]

@[simp] theorem closeTurn_fresh (s : State) (u : Issue) : (closeTurn s u).fresh = s.fresh := by
  rcases closeTurn_frame s u with e | ⟨_, _, e⟩ <;> rw [e]

@[simp] theorem closeTurn_cores (s : State) (u : Issue) : (closeTurn s u).cores = s.cores := by
  rcases closeTurn_frame s u with e | ⟨_, _, e⟩ <;> rw [e]

@[simp] theorem closeTurn_dies (s : State) (u : Issue) : (closeTurn s u).dies = s.dies := by
  rcases closeTurn_frame s u with e | ⟨_, _, e⟩ <;> rw [e]

@[simp] theorem closeTurn_launches (s : State) (u : Issue) : (closeTurn s u).launches = s.launches := by
  rcases closeTurn_frame s u with e | ⟨_, _, e⟩ <;> rw [e]

@[simp] theorem closeTurn_podBars (s : State) (u : Issue) : (closeTurn s u).podBars = s.podBars := by
  rcases closeTurn_frame s u with e | ⟨_, _, e⟩ <;> rw [e]

@[simp] theorem closeTurn_podPeers (s : State) (u : Issue) : (closeTurn s u).podPeers = s.podPeers := by
  rcases closeTurn_frame s u with e | ⟨_, _, e⟩ <;> rw [e]

@[simp] theorem closeTurn_net (s : State) (u : Issue) : (closeTurn s u).net = s.net := by
  rcases closeTurn_frame s u with e | ⟨_, _, e⟩ <;> rw [e]

@[simp] theorem closeTurn_spool (s : State) (u : Issue) : (closeTurn s u).spool = s.spool := by
  rcases closeTurn_frame s u with e | ⟨_, _, e⟩ <;> rw [e]

@[simp] theorem closeTurn_links (s : State) (u : Issue) : (closeTurn s u).links = s.links := by
  rcases closeTurn_frame s u with e | ⟨_, _, e⟩ <;> rw [e]

@[simp] theorem closeTurn_host (s : State) (u : Issue) : (closeTurn s u).host = s.host := by
  rcases closeTurn_frame s u with e | ⟨_, _, e⟩ <;> rw [e]

/-- An instruction that completes with sequential flow on its core, its thread replaced by t: the state after its turn. -/
theorem finishThread_here {s : State} {u : Issue} {t : Thread} (hr : u.rep = none)
    (hf : flowTo s u.tid t.core (seqThread t u.ia (headLast u.head)).pc = .here) :
    finishThread u s t = .next (closeTurn ((s.setThread u.tid t).setThread u.tid (seqThread t u.ia (headLast u.head))) u) := by
  simp only [finishThread, finishSeq, hr]
  rw [completeSeq_here (s := s.setThread u.tid t) (t := t) _ _ (by simp) hf]

/-- A thread that waits in another park differs in its status, or, evicted, in the park that is kept for it, and in nothing else. -/
theorem repark_frame (t : Thread) (p : Park) : ∃ st io, t.repark p = { t with status := st, io := io } := by
  unfold Thread.repark
  split <;> exact ⟨_, _, rfl⟩

/-- What comes for a thread that waits in no park of an eviction is not kept, and what is kept changes nothing but its record beside the context. -/
theorem keepEnd_frame (s : State) (tid : Tid) (t : Thread) (e : KeptEnd) :
    keepEnd s tid t e = s ∨ ∃ io, keepEnd s tid t e = s.setThread tid { t with io := io } := by
  unfold keepEnd
  split
  · exact .inr ⟨_, rfl⟩
  · exact .inl rfl

end Sys2Proof.Machine
end

