-- ==== Sys2Proof/Safety.lean ====
section
/-! DEFINITION. What a safe run is: every step is answered with a next state, from a state whose memories are canonical and whose
threads stand within their windows. -/

namespace Sys2Proof

/-- The machine goes on. -/
def Safe (o : Host.Outcome Machine.State Machine.Fault Machine.Refusal) : Prop := ∃ s, o = .next s

/-- Every byte memory of a core is in canonical form. -/
def coreMemoryWf (c : Machine.Core) : Bool :=
  c.lstore.wf && c.mx.operand.wf && c.mx.incoming.wf && c.mx.tiles.all fun e => e.2.bytes.wf

/-- Every byte memory of a die is in canonical form. -/
def dieMemoryWf (d : Machine.Die) : Bool :=
  d.dram.wf && d.lpddr.wf && d.slices.all fun e => e.2.lines.all fun l => l.data.wf

/-- Every byte memory of a state is in canonical form. -/
def memoryWf (s : Machine.State) : Bool :=
  (s.cores.all fun e => coreMemoryWf e.2) && (s.dies.all fun e => dieMemoryWf e.2) && s.host.memory.wf

/-- The reset state's memories are canonical. -/
def resetMemoryWf : Prop := memoryWf Machine.State.reset = true

end Sys2Proof
end

