-- ==== Sys2Proof/Tests/Slice0.lean ====
section
/-! SUPPORT. Tests: ill-formed terms each check of WellFormed refuses, words written out from the encoding tables and the chapters'
examples, the spec's worked examples, and for every statement states and operands that meet its hypotheses together. -/

namespace Sys2Proof.Tests

open Sys2Proof.Machine Sys2Proof.Claims

/-! ### WellFormed -/

/-- One ill-formed term for each check of Instr.wellFormed. -/
def illFormed : List Instr :=
  [ .shifti 1 2 32 .sll true, .shifti 1 2 64 .sra false, .bfx 1 2 32 32 false, .bfi 1 2 3 63 1, .fexp2 1 2 .f64, .flog2 1 2 .f64,
    .frcp 1 2 .f64, .frsq 1 2 .f64, .fcvt 1 2 .f32 .rne .i8 false, .fcvt 1 2 .f32x2 .rne .f32 false, .fcvt 1 2 .bf16x4 .rne .f32 true,
    .icvt 1 2 .f64 .rne .i16 true true, .icvt 1 2 .f32x2 .rne .i64 true true, .icvt 1 2 .bf16x4 .rne .i32 true true,
    .fclass 1 2 .f32x2, .fdot 1 2 3 4 .f64 .rne, .fdot 1 2 3 4 .f32 .rne ] ++
  [ .ld 1 2 3 { size := .b8, sx := true, ord := .relaxed, shift := 0, na := false, disp := 0 },
    .st 1 2 3 { size := .b4, sx := true, ord := .relaxed, shift := 0, na := false, disp := 0 },
    .atom 1 2 3 4 true .relaxed 0 .faddF32 0, .atom 1 2 3 4 false .relaxed 0 .faddF64 0,
    .spawn 1 2 65 { pa := 0, pb := 1 } { head := 0, delta := 0, win := 0, prio := 0, place := .own },
    .spawn 1 2 1 { pa := 0, pb := 1 } { head := 0, delta := 0, win := 0, prio := 5, place := .own }, .barc 1 0 .core ] ++
  [ .mma 0 1 2 3 { fmt := .bf16, k := 0, m := 0, n := 0, ow := true, b32 := false, stride := 64 },
    .mma 0 1 2 0 { fmt := .f64, k := 0, m := 0, n := 8, ow := true, b32 := false, stride := 64 },
    .mma 0 1 2 0 { fmt := .e4m3, k := 0, m := 0, n := 0, ow := true, b32 := true, stride := 64 },
    .mma 0 1 2 0 { fmt := .bf16, k := 0, m := 0, n := 0, ow := true, b32 := false, stride := 68 },
    .tscl 0 1 2 3 .row false, .tscl 0 1 2 3 .col false, .tscl 0 0 2 3 .both false, .tact 0 1 0 .relu,
    .tcvt { pa := 0, pb := 1 } 1 0 0 .f64 false 0, .tcvt { pa := 0, pb := 1 } 1 0 0 .i8 false 0,
    .tcvt { pa := 0, pb := 1 } 1 0 2 .bf16 false 0, .tcvt { pa := 0, pb := 1 } 1 0 0 .e4m3 true 0,
    .tcvt { pa := 0, pb := 1 } 1 0 0 .e4m3 false 4, .topk 0 1 2 { k := 0, g := 3, lim := 1, new := true },
    .topk 0 1 2 { k := 0, g := 0, lim := 1, new := true }, .topk 0 1 2 { k := 0, g := 2, lim := 17, new := true }, .tring .inc 1 ] ++
  [ .ratom 1 2 3 4 .faddF32 .relaxed false, .lgrant 1 2 3 5, .circ 1 2 3 48 false, .ringJoin 1 5, .issueSelect 2048, .sliceRequest 8 0 0,
    .sliceRequest 0 256 0, .thermalTrip 8, .circuitDown 48, .rampEnd 256, .launch 64, .qctl 64 0 ]

theorem test_ill_formed_terms_are_refused : (illFormed.all fun i => !i.wellFormed) = true := by decide

/-- A well-formed neighbour of many of those terms. -/
def wellFormedNeighbours : List Instr :=
  [ .shifti 1 2 31 .sll true, .shifti 1 2 63 .sra false, .bfx 1 2 32 31 false, .bfi 1 2 3 0 63, .fexp2 1 2 .f16x4,
    .fcvt 1 2 .bf16x4 .rne .nb8 false, .icvt 1 2 .f64 .rne .i32 true true, .fclass 1 2 .f32, .fdot 1 2 3 4 .f32x2 .rne,
    .atom 1 2 3 4 true .relaxed 0 .faddF64 0, .barc 1 1 .core,
    .mma 0 1 2 3 { fmt := .nb8, k := 0, m := 0, n := 15, ow := true, b32 := true, stride := 64 }, .tscl 0 1 0 3 .row false,
    .topk 0 1 2 { k := 0, g := 16, lim := 16, new := true }, .lgrant 1 2 3 4, .circ 1 2 3 47 false, .ringJoin 1 4, .issueSelect 2047 ]

theorem test_well_formed_neighbours_are_admitted : (wellFormedNeighbours.all fun i => i.wellFormed) = true := by decide

/-! ### Words written out from the encoding tables (spec/04 R65 to R72) -/

theorem test_decode_call : decodeInstr 0x02 0x0200_FFFF_FFE0 = some (.call 1 { delta := 0x7FFFFFF, head := 0 }) := by decide
theorem test_decode_gsel : decodeInstr 0x0A 0x012E = some (.gsel 4 5 6) := by decide
theorem test_decode_fence : decodeInstr 0x0D 0x2200 = some (.fence .die .full) := by decide
theorem test_decode_sys_path : decodeInstr 0x0E 0x0010_2804 = some (.sysPath 4 5) := by decide
theorem test_decode_addi : decodeInstr 0x12 0x52A0_0000_0001 = some (.addi 41 40 .w64 1) := by decide
theorem test_decode_div : decodeInstr 0x14 0x0610_2804 = some (.div 3 4 5 true .w64) := by decide
theorem test_decode_logi : decodeInstr 0x17 0x0C18_FFFF_FFF8 = some (.logi 6 6 .and 0xFFFFFFF8) := by decide
theorem test_decode_cmp : decodeInstr 0x20 0x120C_2012 = some (.cmp { pa := 1, pb := 1 } 3 4 .lt .and false) := by decide
theorem test_decode_cmpi : decodeInstr 0x21 0x220C_0000_0000_0003 = some (.cmpi { pa := 1, pb := 2 } 3 .ge .set 0) := by decide
theorem test_decode_fcmp : decodeInstr 0x22 0x1008_1811 = some (.fcmp { pa := 0, pb := 1 } 2 3 .f32 .lt .set false) := by decide
theorem test_decode_pset : decodeInstr 0x23 0x0103 = some (.pset 1 3) := by decide
theorem test_decode_plog : decodeInstr 0x25 0x0400_0000_1E49 = some (.plog 2 1 1 1 0x0F) := by decide
theorem test_decode_fmul : decodeInstr 0x32 0x1830_4002 = some (.fmul 12 12 8 .bf16x4 .rne) := by decide
theorem test_decode_fcvt : decodeInstr 0x3B 0x0A18_0182 = some (.fcvt 5 6 .bf16x4 .rne .nb8 false) := by decide
theorem test_decode_ld : decodeInstr 0x40 0x1804_3800_0000_0063 =
    some (.ld 12 1 7 { size := .b8, sx := false, ord := .relaxed, shift := 3, na := false, disp := 0 }) := by decide
theorem test_decode_ld_signed_acquire : decodeInstr 0x40 0x0A18_3800_0000_404E =
    some (.ld 5 6 7 { size := .b4, sx := true, ord := .acq, shift := 2, na := false, disp := 0x40 }) := by decide
theorem test_decode_st : decodeInstr 0x41 0x0004_38C0_0000_0063 =
    some (.st 1 7 12 { size := .b8, sx := false, ord := .relaxed, shift := 3, na := false, disp := 0 }) := by decide
theorem test_decode_fem : decodeInstr 0x45 0x002C_0000 = some (.fem 11 false 0) := by decide
theorem test_decode_atom : decodeInstr 0x46 0x0610_0050_0001_020B = some (.atom 3 4 0 5 true .acq 0 .add 16) := by decide
theorem test_decode_spawn : decodeInstr 0x50 0x1230_12C5_1800_0040 =
    some (.spawn 9 12 2 { pa := 4, pb := 5 } { head := 0, delta := 2, win := 3, prio := 2, place := .quad }) := by decide
theorem test_decode_ship_seg : decodeInstr 0x54 0x0010_2801 = some (.shipSeg 4 5) := by decide
theorem test_decode_mma : decodeInstr 0x60 0x0030_6800_0808_0002 =
    some (.mma 0 12 13 0 { fmt := .bf16, k := 0, m := 0, n := 0, ow := true, b32 := false, stride := 64 }) := by decide
theorem test_decode_topk : decodeInstr 0x67 0x0A0C_2000_0000_2111 =
    some (.topk 5 3 4 { k := 1, g := 2, lim := 1, new := true }) := by decide
theorem test_decode_plnx : decodeInstr 0x6B 0x002C_0000_0000_0000 = some (.plnx 11 0) := by decide
theorem test_decode_copy : decodeInstr 0x70 0x2854_B170_0000_0001 = some (.copy 20 21 22 23 true) := by decide
theorem test_decode_copyr : decodeInstr 0x71 0x2854_B170_0000_0028 = some (.copyr 20 21 22 23 .f32 false 5) := by decide
theorem test_decode_ratom : decodeInstr 0x72 0x2828_0800_0000_0002 = some (.ratom 20 10 1 0 .add .relaxed false) := by decide
theorem test_decode_lstat : decodeInstr 0x75 0x1618_0000 = some (.lstat 11 6 false) := by decide
theorem test_decode_strk : decodeInstr 0x78 0x0000_00A0_0806 = some (.strk 6 0 1 40) := by decide

/-- A reserved bit, a reserved code and an opcode without a row are refused. -/
theorem test_reserved_encodings_are_refused :
    decodeInstr 0x20 0x920C_2012 = none ∧ decodeInstr 0x20 0x120C_2032 = none ∧ decodeInstr 0x25 0x1400_0000_1E49 = none ∧
    decodeInstr 0x0F 0 = none ∧ decodeInstr 0x7F 0 = none := by decide

/-! ### Small states -/

/-- A full window over the whole L-store. -/
def win : ProtWindow := { base := 0, size := 0x80000, r := true, w := true }

/-- A core of launch 1 whose L-store is open. -/
def core0 : Core := { Core.reset with launch := 1, windows := [win] }

/-- An IA of the own die. -/
def ia0 : Word := 0x8000_0000_0000_1000

/-- A privileged thread in seat 0 of core 0, with a vector and its registers given. -/
def thr (regs : Tab Word) : Thread :=
  { placedThread 0 0 ia0 with regs := regs, sp := { (placedThread 0 0 0).sp with tvb := 0x8000_0000_0000_4000 } }

/-- The turn of that thread: a head with guard 0xFF and L = 1. -/
def uu : Issue := { core := 0, tid := placedTid, ia := ia0, head := 0x80FF, tail := 0, instr := .nop, rep := none }

/-- That turn in a part with that thread only, on the core given. -/
def stt (t : Thread) (c : Core := core0) : State :=
  { State.reset with issue := some uu, threads := [(placedTid.toNat, t)], launches := [(1, placedLaunch)], cores := [(0, c)] }

/-- The hypotheses of a statement about an instruction that goes on: a turn in which it issues and flow stays. -/
abbrev Ready (i : Instr) (s : State) (t : Thread) : Prop :=
  (s.issue = some uu ∧ uu.rep = none ∧ s.thread? uu.tid = some t) ∧ Issues i uu t ∧ Stays s uu t

/-- Ready is what the statements ask. -/
theorem ready_is_a_turn {i s t} (h : Ready i s t) : Turn s uu t ∧ Issues i uu t ∧ Stays s uu t := ⟨⟨h.1.1, h.1.2.1, h.1.2.2⟩, h.2⟩

/-- A launch in travelling mode whose one segment core 0 pins. -/
def travelLaunch : Launch :=
  { placedLaunch with
    desc := { placedLaunch.desc with travelling := true }
    segments := [{ id := 3, base := 0x8000_0000_0000_0000, len := 0x10000, reps := [0, 1] }], cores := [0, 1, 2] }

/-- The turn of a thread in travelling mode. -/
def stv (t : Thread) : State :=
  { stt t { core0 with iss := { core0.iss with segment := some 3, mapCache := [3] } } with launches := [(1, travelLaunch)] }

/-! ### Hypotheses met: instructions that no operand stops -/

/-- Registers at their limits: 0, 1, the largest and the most negative number, and a word of mixed lanes. -/
def edge : Tab Word := [(1, 1), (2, BitVec.allOnes 64), (3, BitVec.intMin 64), (4, 0x0001_8000_7FFF_FF80), (127, 5)]

theorem witness_IntegerArithmeticWritesItsResult :
    ∀ i ∈ [Instr.add 1 2 3 .w64, .sub 0 0 0 .n32, .addi 127 127 .s32 0x80000000, .madd 1 1 1 1 .w64, .mul 3 3 2 .hs, .mul 3 3 2 .hn,
           .mul 1 2 3 (.lo .s32), .div 5 3 2 true .w64, .div 5 3 0 true .s32, .div 5 3 0 false .n32, .rem 3 3 2 true .w64, .rem 6 1 0 false .w64],
      Ready i (stt (thr edge)) (thr edge) ∧ Ready i (stv (thr edge)) (thr edge) := by decide +kernel

theorem witness_LogicShiftsMovesAndBitfieldsWriteTheirResult :
    (∀ i ∈ [Instr.logic 1 2 3 .andn, .logi 1 2 .xor 0xFFFFFFFF, .shift 3 3 2 .sra false, .shift 3 3 2 .rol true, .shifti 3 3 63 .sra false,
            .li 4 .hi 7, .li 4 .sx 0x80000000, .li 4 .n 0x80000000, .mnx 1 2 3 .minN, .lea 1 2 3 3 0x200000000, .bits 1 0 .clz, .bits 1 3 .ctz,
            .sel 1 2 3 4, .bfx 1 2 63 0 true, .bfx 1 2 0 63 false, .bfi 1 2 3 63 0], Ready i (stt (thr edge)) (thr edge)) ∧
    (3 : Word) ≠ 0 ∧ (63 : BitVec 6).toNat + (0 : BitVec 6).toNat + 1 ≤ 64 ∧ (0 : BitVec 6).toNat + (63 : BitVec 6).toNat + 1 ≤ 64 := by
  decide +kernel

theorem witness_PackedInstructionsWriteEveryLane :
    ∀ i ∈ [Instr.vadd 1 4 4 .i16x4 .wrap, .vadd 1 4 4 .i8x8 .ss, .vsub 1 4 4 .i32x2 .sn, .vmul 1 4 4 .i16x4 .hs, .vmnx 1 4 4 .i8x8 .minS,
           .vshf 1 4 4 .i16x4 .perm, .vshf 1 4 4 .i16x4 .sra, .vred 0 4 .i8x8 .sum, .vcmp 1 4 4 .i32x2 .len],
      Ready i (stt (thr edge)) (thr edge) := by decide +kernel

theorem witness_PredicateInstructionsAndComparesWriteTheirPredicates :
    (∀ i ∈ [Instr.cmp { pa := 1, pb := 1 } 1 2 .lt .set false, .cmp { pa := 7, pb := 0 } 1 2 .ltn .and true,
            .cmpi { pa := 1, pb := 2 } 3 .any .or 0x80000000, .pset 1 3, .pmovGp 4 0xFF, .plog 2 1 1 1 0x0F, .pmovPg 9],
      Ready i (stt (thr edge)) (thr edge)) ∧
    ((0x0400_0002_0000#48).extractLsb' 17 24 ≠ 0 ∧ (0x1000_0000_0000#48).extractLsb' 44 4 ≠ 0) ∧ (0x8000_0000#32).getLsbD 31 = true ∧
    (0x8000_0000_0000_0000#64).getLsbD 63 = true ∧ (0x30#32).extractLsb' 4 2 = 3 ∧ (0x1800_0000_0000#64).extractLsb' 43 2 = 3 ∧
    (0xC0#32).extractLsb' 6 2 = 3 := by decide +kernel

/-- f32 values 1, -0, a signalling NaN and an infinity, with NV enabled or not. -/
def floats (en : Bool) : Thread :=
  let t := thr [(1, 0x3F800000), (2, 0x80000000), (3, 0x7F800001), (4, 0x7F800000), (5, 0x3FF0000000000000)]
  if en then { t with sp := { t.sp with fstat := 0x2000 } } else t

theorem witness_FloatArithmeticRoundsExactResultsOnce :
    (∀ i ∈ [Instr.fadd 1 1 2 .f32 .rne, .fsub 6 5 5 .f64 .dyn, .fmul 6 4 2 .f32 .rtz, .fdiv 6 1 2 .f32 .rdn, .fma 6 1 1 2 .f32 .rup true false,
            .fsqrt 6 1 .f32 .rmm, .fdot 6 1 1 2 .bf16x4 .rne], ∀ en ∈ [false, true], Ready i (stt (floats en)) (floats en)) ∧
    flagTrap (floats true) 0x10 = true ∧ flagTrap (floats true) 0x01 = false ∧ flagTrap (floats false) 0x1F = false ∧
    (ftLanes .f32 (modeOf (floats true) .rne) fun i => mulF (ftValue .f32 ((floats true).g 4) i) (ftValue .f32 ((floats true).g 2) i)).2 = 0x10 := by
  decide +kernel

theorem witness_FloatSelectionConversionClassAndComparesComplete :
    (∀ i ∈ [Instr.fmnx 6 1 3 .f32 .min, .fexp2 6 1 .f32, .flog2 6 1 .f32x2, .frcp 6 1 .bf16x4, .frsq 6 1 .f16x4, .fcvt 6 5 .f64 .rne .f32 false,
            .fcvt 6 1 .f64 .rne .f32 true, .icvt 6 1 .f32 .rtz .i32 true true, .fsgn 6 1 2 .f32 .xor, .fclass 6 3 .f32,
            .fcmp { pa := 0, pb := 1 } 1 3 .f32 .lt .set true, .fcmp { pa := 1, pb := 1 } 1 2 .f32 .eq .or false],
      ∀ en ∈ [false, true], Ready i (stt (floats en)) (floats en)) ∧
    fcmpValue .f32 ((floats true).g 3) = .nan true ∧ flagTrap (floats true) 0x10 = true ∧ flagTrap (floats false) 0x10 = false := by
  decide +kernel

theorem witness_FloatInvalidCasesAndRoundingModes :
    (1 : Nat) ≠ 0 ∧ (FVal.num true 3 5).isNan = false ∧ 0 < (1 : Nat) ∧ 5 % 2 ^ 1 ≠ 0 ∧ 4 % 2 ^ 1 = 0 ∧ 2 * (5 % 2 ^ 2) < 2 ^ 2 ∧
    2 ^ 2 < 2 * (7 % 2 ^ 2) ∧ 2 * (6 % 2 ^ 2) = 2 ^ 2 := by decide +kernel

theorem witness_EncodingADecodedValueGivesItsCode :
    (0xFF80 < 2 ^ Fmt.bits .bf16 ∧ (decodeF .bf16 0xFF80).isNan = false) ∧ (1 < 2 ^ Fmt.bits .f64 ∧ (decodeF .f64 1).isNan = false) ∧
    (0 < 2 ^ Fmt.bits .f16 ∧ (decodeF .f16 0).isNan = false) := by decide +kernel

/-! ### Hypotheses met: flow, loops, traps and special registers -/

/-- A thread that has a code address in g1, an odd one in g2, one of another die in g3, 0 in g4 and 3 in g5. -/
def jumper : Thread := thr [(1, 0x8000_0000_0000_2000), (2, 0x8000_0000_0000_2001), (3, 0x8001_0000_0000_2000), (5, 3)]

/-- The same in user mode. -/
def user : Thread := { jumper with privileged := false }

theorem witness_TransfersGoToTheirTargetOrTrap :
    (∀ i ∈ [Instr.nop, .gsel 4 5 6, .br { delta := 1, head := 31 }, .call 1 { delta := 0x7FFFFFF, head := 0 }, .jr 1, .jalr 1 1, .jr 2, .jalr 4 3,
            .jalr 0 1], Ready i (stt jumper) jumper) ∧
    (targetTrap (stt jumper) uu.tid 0 ia0 { delta := 1, head := 31 } = none ∧
      flowTo (stt jumper) uu.tid 0 (targetOf ia0 { delta := 1, head := 31 }) = .here) ∧
    (registerTrap (stt jumper) uu.tid 0 (jumper.g 1) = none ∧ flowTo (stv jumper) uu.tid 0 (jumper.g 1) = .here) ∧
    registerTrap (stt jumper) uu.tid 0 (jumper.g 2) = some 0x01 ∧ registerTrap (stt jumper) uu.tid 0 (jumper.g 3) = some 0x07 ∧
    ((jumper.g 2).getLsbD 0 = true ∧ (jumper.g 4).getLsbD 63 = false) ∧ travelling (stt jumper) uu.tid = false ∧
    (jumper.g 3).toNat / 2 ^ 48 % 8 ≠ 0 ∧
    ((((0x40 : Nat) / 64 * 64 : Nat) : Int) + 64 * (0x7FFFFFE : BitVec 27).toInt + 2 * (0 : BitVec 5).toNat < 0) ∧
    (2 ^ 48 ≤ (((0xFFFFFFFFFFC0 : Nat) / 64 * 64 : Nat) : Int) + 64 * (1 : BitVec 27).toInt + 2 * (0 : BitVec 5).toNat) ∧
    targetTrap (stt jumper) uu.tid 0 0x8000_0000_0000_0040 { delta := 0x7FFFFFE, head := 0 } = some 0x01 := by decide +kernel

/-- A thread with all three levels ending at the turn's IA, counts 1, 1 and 2. -/
def looper : Thread :=
  { jumper with
    loop2 := { active := true, start := 0x8000_0000_0000_0F00, stop := ia0, lc := 1 }
    loop1 := { active := true, start := 0x8000_0000_0000_0F00, stop := ia0, lc := 1 }
    loop0 := { active := true, start := 0x8000_0000_0000_0F00, stop := ia0, lc := 2 } }

/-- A core that holds a line at 0x1040 whose first head is the last of one instruction. -/
def coded : Core :=
  { core0 with iss := { core0.iss with istore := [{ base := 0x8000_0000_0000_1040, bytes := [0xFF, 0x80] ++ List.replicate 62 0 }] } }

theorem witness_LoopsStartCountAndReturn :
    (looper.loop2.active = true ∧ looper.loop2.stop = ia0 ∧ looper.loop2.lc.toNat ≤ 1 ∧ looper.loop0.active = true ∧ 2 ≤ looper.loop0.lc.toNat) ∧
    (∀ t ∈ [jumper, looper], ∀ i ∈ [Instr.loop 5 .l2 { delta := 1, head := 0 }, .loop 4 .l0 { delta := 1, head := 0 }, .loop 4 .l1 { delta := 0, head := 0 }],
      Ready i (stt t coded) t) ∧
    targetOut ia0 { delta := 1, head := 0 } = false ∧ (targetOf ia0 { delta := 0, head := 0 }).toNat < (nextOf uu).toNat ∧
    (nextOf uu).toNat ≤ (targetOf ia0 { delta := 1, head := 0 }).toNat ∧ (jumper.g 5).setWidth 32 ≠ (0 : BitVec 32) ∧
    (jumper.g 4).setWidth 32 = (0 : BitVec 32) ∧ fetchHead coded (targetOf ia0 { delta := 1, head := 0 }) = .head (.found 0x80FF 0) ∧
    flowTo (stt jumper coded) uu.tid 0 (targetOf ia0 { delta := 1, head := 0 }) = .here := by decide +kernel

theorem witness_TrapEntrySavesAndVectorsOrKills :
    ((stt jumper).thread? uu.tid = some jumper ∧ Vectored (stt jumper) uu jumper 0x09) ∧
    (let t := { jumper with entries := 6 }; Vectored (stt t) uu t 0x14 ∧ (stt t).thread? uu.tid = some t) ∧
    (let t := { jumper with sp := Specials.reset }; (stt t).thread? uu.tid = some t ∧ t.sp.tvb.getLsbD 63 = false) ∧
    (let t := { jumper with entries := 7 }; (stt t).thread? uu.tid = some t ∧ t.sp.tvb.getLsbD 63 = true ∧ 7 ≤ t.entries) := by decide +kernel

/-- A thread in a handler it may return from. -/
def handling (tepc : Word) : Thread :=
  { jumper with handler := true, entries := 1, sp := { jumper.sp with tepc := tepc, tgsel := 0x1FF5A } }

theorem witness_TrapAndEretEnterAndRestore :
    (∀ i ∈ [Instr.trap 0xFFFF, .trap 0], Ready i (stt jumper) jumper) ∧ Vectored (stt jumper) uu jumper 0x09 ∧ Vectored (stt jumper) uu jumper 0x0F ∧
    (Ready .eret (stt (handling ia0)) (handling ia0) ∧ registerTrap (stt (handling ia0)) uu.tid 0 ia0 = none ∧
      flowTo (stt (handling ia0)) uu.tid 0 ia0 = .here) ∧
    (Ready .eret (stt (handling 1)) (handling 1) ∧ registerTrap (stt (handling 1)) uu.tid 0 1 = some 0x01) ∧
    ((stt user).issue = some uu ∧ (stt user).thread? uu.tid = some user ∧ user.privileged = false) := by decide +kernel

theorem witness_SpecialRegistersReadWriteAndCheck :
    (∀ i ∈ [Instr.mfs 1 0x010, .mts 5 0x012, .mfs 1 0x0FF, .mfs 1 0x100, .mts 5 0x100, .mts 5 0x000, .mts 2 0x010, .mts 5 0x010],
      Ready i (stt jumper) jumper ∧ Ready i (stt user) user) ∧
    (specialRead (stt user) uu.tid user 0x010).isSome = true ∧ specialRead (stt user) uu.tid user 0x0FF = none ∧
    (mtsTrap (stt user) uu.tid user 0x010 (user.g 5) = none ∧ Stays (stt user) uu (specialWrite user 0x010 (user.g 5))) ∧
    (mtsTrap (stt jumper) uu.tid jumper 0x010 0x1FF = none ∧ (0x010 : BitVec 11).toNat ≠ 0x01B) ∧
    0x100 ≤ (0x100 : BitVec 11).toNat ∧ user.privileged = false ∧ jumper.privileged = true ∧ specialWritable 0x000 = false ∧
    0x200 ≤ (user.g 2).toNat := by decide +kernel

/-! ### Hypotheses met: memory instructions and strokes -/

/-- A thread with the last word of L-store in g1, 8 in g2, the own die's word 0x2000 in g3, another die in g4, the host in g5, another package
in g6, an odd address in g7 and L-store word 0x100 in g8. -/
def mover : Thread :=
  thr [(1, 0x7FFF8), (2, 8), (3, 0x8000_0000_0000_2000), (4, 0x8001_0000_0000_2000), (5, 0x2000_0000_0000_0000), (6, 0x8008_0000_0000_2000), (7, 1),
       (8, 0x100), (9, 0x80000)]

/-- A load and store field with an order. -/
def mx (size : Size) (ord : Ord := .relaxed) (disp : BitVec 28 := 0) : Mx := { size := size, sx := false, ord := ord, shift := 0, na := false, disp := disp }

/-- The same without a size. -/
def mxe : MxFe := { shift := 0, na := false, disp := 0 }

theorem witness_AddressChecksInOrderTrap :
    (checkAccess (stt mover) uu.tid mover (mover.g 7) 8 8 true false = .trap 0x05 1 ∧ (mover.g 5).toNat / 2 ^ 61 = 1 ∧ (mover.g 5).toNat % 8 = 0) ∧
    ((mover.g 9).toNat < 2 ^ 63 ∧ (stt mover).cfg.lcap < (mover.g 9).toNat + 8 ∧ (mover.g 1).toNat + 8 ≤ (stt mover).cfg.lcap) ∧
    (2 ^ 63 ≤ (mover.g 6).toNat ∧ (mover.g 6).toNat / 2 ^ 51 % 2 ^ 12 ≠ 0 ∧ (mover.g 3).toNat / 2 ^ 48 % 8 = 0 ∧ (mover.g 4).toNat / 2 ^ 48 % 8 ≠ 0) ∧
    (∀ r ∈ [4, 5, 6, 7, 9], ∀ i ∈ [Instr.ld 10 r 0 (mx .b8), .st r 0 10 (mx .b8), .ldf 10 r 0 mxe, .stf r 0 10 true mxe],
      Ready i (stt mover) mover) ∧
    (∀ r ∈ [(4, 7), (5, 7), (6, 7), (7, 5), (9, 6)],
      checkAccess (stt mover) uu.tid mover (mover.g (BitVec.ofNat 7 r.1) + (mover.g 0 <<< 0) + (0 : BitVec 28).signExtend 64) 8 8 true false =
        .trap r.2 (mover.g (BitVec.ofNat 7 r.1))) ∧
    (Ready (.ldm 10 7 0 .relaxed 0) (stt mover) mover ∧ (mover.g 7 + (0 : BitVec 28).signExtend 64).toNat % 8 ≠ 0) ∧
    (Ready (.ldm 10 8 15 .relaxed 8) (stt mover) mover ∧ 128 < (mover.g 8 + (8 : BitVec 28).signExtend 64).toNat % 128 + 8 * (15 + 1)) := by
  and_intros <;> decide +kernel

theorem witness_LocalLoadsAndStoresMoveTheirBytesOnly :
    (∀ r ∈ [(1, 0x7FFF8), (8, 0x100)], ∀ i ∈ [Instr.ld 10 (BitVec.ofNat 7 r.1) 0 (mx .b8), .ld 0 (BitVec.ofNat 7 r.1) 0 (mx .b8 .sc),
        .st (BitVec.ofNat 7 r.1) 0 2 (mx .b8)],
      Ready i (stt mover) mover ∧ Ready i (stv mover) mover ∧ OrderFree (stt mover) uu mover .sc ∧
        checkAccess (stt mover) uu.tid mover (mover.g (BitVec.ofNat 7 r.1) + (mover.g 0 <<< 0) + (0 : BitVec 28).signExtend 64) 8 8 true false =
          .lstore r.2 ∧
        checkAccess (stt mover) uu.tid mover (mover.g (BitVec.ofNat 7 r.1) + (mover.g 0 <<< 0) + (0 : BitVec 28).signExtend 64) 8 8 false true =
          .lstore r.2) ∧
    (∀ i ∈ [Instr.ldm 112 8 15 .relaxed 0, .stm 8 112 15 .acq 0], Ready i (stt mover) mover) ∧
    (let ea := mover.g 8 + (0 : BitVec 28).signExtend 64; ea.toNat % 8 = 0 ∧ ea.toNat % 128 + 8 * (15 + 1) ≤ 128) ∧
    checkAccess (stt mover) uu.tid mover (mover.g 8 + (0 : BitVec 28).signExtend 64) 128 8 true false = .lstore 0x100 ∧
    checkAccess (stt mover) uu.tid mover (mover.g 8 + (0 : BitVec 28).signExtend 64) 128 8 false true = .lstore 0x100 ∧
    Sound (stt mover) mover.core 0x100 128 ∧ Sound (stt mover) mover.core 0x7FFF8 8 := by and_intros <;> decide +kernel

theorem witness_LocalAtomicsReadModifyWrite :
    ∀ e ∈ [true, false], Ready (.atom 10 1 0 2 e .acq 0 .cas 0) (stt mover) mover ∧ OrderFree (stt mover) uu mover .acq ∧
      checkAccess (stt mover) uu.tid mover (mover.g 1 + (mover.g 0 <<< 0) + (0 : BitVec 24).signExtend 64) (if e then 8 else 4) (if e then 8 else 4)
        true true = .lstore 0x7FFF8 ∧ Sound (stt mover) mover.core 0x7FFF8 (if e then 8 else 4) := by decide +kernel

/-- Core 0 with word 0x100 empty. -/
def emptied : Core := { core0 with lempty := setAdd [] 0x20 }

theorem witness_FullEmptyInstructionsWaitAndAreServed :
    (∀ c ∈ [core0, emptied], ∀ i ∈ [Instr.ldf 10 8 0 mxe, .lde 10 8 0 mxe, .stf 8 0 10 true mxe, .stf 8 0 10 false mxe, .fem 8 true 3, .fem 8 false 1023],
      Ready i (stt mover c) mover ∧ loadsDone (stt mover c) uu.tid mover = true ∧ storesDone (stt mover c) uu.tid mover = true ∧ c.waiters = []) ∧
    setHas core0.lempty (0x100 / 8) = false ∧ setHas emptied.lempty (0x100 / 8) = true ∧
    checkAccess (stt mover) uu.tid mover (mover.g 8 + (mover.g 0 <<< 0) + (0 : BitVec 28).signExtend 64) 8 8 true true = .lstore 0x100 ∧
    checkAccess (stt mover) uu.tid mover (mover.g 8) (8 * (1023 + 1)) 8 false true = .lstore 0x100 ∧
    Sound (stt mover) mover.core 0x100 8 ∧ Sound (stt mover emptied) mover.core 0x100 8 ∧
    (let q : Waiter := { word := 0x20, tid := placedTid, want := .lde 10 }; q.word = 0x20 ∧ q.want = .lde 10) := by and_intros <;> decide +kernel

theorem witness_TileMovesCopySixteenRows :
    ∀ i ∈ [Instr.tld 63 8 0 0, .tst 63 8 0 0, .tld 0 8 2 0], Ready i (stt mover) mover ∧
      tileMoveTrap (stt mover) mover (mover.g 8 + (0 : BitVec 28).signExtend 64) 64 false = none ∧
      tileMoveTrap (stt mover) mover (mover.g 8 + (0 : BitVec 28).signExtend 64) (mover.g 2) true = none ∧
      (∀ k < 16, Sound (stt mover) mover.core (mover.g 8 + (0 : BitVec 28).signExtend 64 + BitVec.ofNat 64 k * 64).toNat 64) ∧
      tileBusy core0 (physTile mover 63) = false := by decide +kernel

/-- A request of core 0 for the line at 0x2000. -/
def rq (kind : ReqKind) : Req :=
  { id := 0, core := 0, tid := placedTid, ea := 0x8000_0000_0000_2000, kind := kind, na := false, rep := none, last := true, ordered := false, acq := false }

/-- Core 0 with 32 stores in its store queue. -/
def queued : Core := { core0 with port := { core0.port with unacked := List.replicate 32 (rq (.st [0] false)) } }

theorem witness_GlobalAccessesGoThroughThePort :
    (∀ i ∈ [Instr.ld 10 3 0 (mx .b8), .ld 10 3 0 (mx .b1 .sc), .ldm 10 3 15 .acq 0, .atom 10 3 0 2 true .sc 0 .add 0, .lde 10 3 0 mxe, .st 3 0 2 (mx .b8)],
      Ready i (stt mover) mover ∧ OrderFree (stt mover) uu mover .sc) ∧
    checkAccess (stt mover) uu.tid mover (mover.g 3 + (mover.g 0 <<< 0) + (0 : BitVec 28).signExtend 64) 8 8 true true = .global ∧
    checkAccess (stt mover) uu.tid mover (mover.g 3 + (0 : BitVec 28).signExtend 64) (8 * (15 + 1)) 8 true false = .global ∧
    ((mover.g 3 + (0 : BitVec 28).signExtend 64).toNat % 8 = 0 ∧ (mover.g 3 + (0 : BitVec 28).signExtend 64).toNat % 128 + 8 * (15 + 1) ≤ 128) ∧
    storeQueue core0 < 32 ∧ 32 ≤ storeQueue queued ∧ Ready (.st 3 0 2 (mx .b8)) (stt mover queued) mover ∧ (10 : Reg) ≠ 0 := by and_intros <;> decide +kernel

theorem witness_LineProtectionAndTranslationInstructionsComplete :
    (∀ r ∈ [3, 4, 8], ∀ i ∈ [Instr.linePref r, .lineZero r, .lineFlush r, .lineDrop r, .lineIinv r, .mprot 7 8 8 true false, .xlatProbe 10 r, .xlatInvall 10 0,
      .xlatInv 10 r], Ready i (stt mover) mover) ∧
    (mover.g 8).toNat < 2 ^ 61 ∧ linePlace (stt mover) mover (mover.g 3) = .own ∧ linePlace (stt mover) mover (mover.g 8) = .lstore ∧
    lstoreOk (stt mover) 0 (mover.g 8 &&& ~~~(127 : Word)).toNat 128 false true = true ∧ linePlace (stt mover) mover (mover.g 4) = .other ∧
    storeQueue core0 < 32 ∧ (mover.g 8).toNat % 64 = 0 ∧ (mover.g 8).toNat + (mover.g 8).toNat ≤ (stt mover).cfg.lcap ∧
    onOwnDie (stt mover) mover (mover.g 3) = true := by and_intros <;> decide +kernel

/-- A body of one add, as captured, and a stroke at its first or its suppressed repetition. -/
def body (guard : Bool) : BodyInstr := { head := 0x90FF, tail := 0x1424_1800, guard := guard }
def stroke (guard : Bool) : Stroke :=
  { id := 0, n1 := 6, len1 := 0, stride := 1, floor := 40, body := [body guard], preds := mover.preds, fstat := mover.sp.fstat, j := 0, i := 0,
    loads := [], resend := [], stores := [], barrierReq := none, acquire := false, trap := none, stopped := false }

/-- A word load of a stroke that was answered with a fault. -/
def faulted : Req :=
  { id := 1, core := 0, tid := placedTid, ea := 0x8000_0000_0000_4000, kind := .ld 20 .b8 false, na := false, rep := some (0, 0), last := false,
    ordered := false, acq := false }
def resending : Stroke := { stroke true with resend := [faulted] }
def stroking (guard : Bool) : Thread := { mover with stroke := some (stroke guard) }

/-- The line that holds the body alone. -/
def bodyLine : CodeLine := { base := 0x8000_0000_0000_1040, bytes := [0xFF, 0x90] ++ List.replicate 58 0 ++ [0x00, 0x18, 0x24, 0x14] }

/-- Core 0 with the body of a stroke in the line after the turn's. -/
def bodied : Core := { core0 with iss := { core0.iss with istore := [bodyLine] } }

theorem witness_StrokesAreCapturedAndRepeatInOrder :
    (Ready (.strk 6 0 1 40) (stt mover bodied) mover ∧ mover.stroke = none ∧
      (∃ b next, capture (stt mover bodied) uu.tid mover 1 (nextOf uu) [] = .body b next ∧
        windowTest mover 6 1 40 (b.map (·.2)) = none ∧ flowTo (stt mover bodied) uu.tid 0 (seqFlow mover uu.ia next).pc = .here)) ∧
    (Ready (.strk 6 0 1 40) (stt (stroking true)) (stroking true) ∧ (stroking true).stroke ≠ none) ∧
    (∀ g ∈ [true, false], (stt (stroking g)).thread? placedTid = some (stroking g) ∧
      sequencerOn (stt (stroking g)) placedTid (stroking g) (stroke g) = true ∧ (stroke g).j ≤ (stroke g).len1.toNat ∧ (stroke g).trap = none ∧
      (strokeInstr (stroke g) 0 0).isSome = g ∧ (stroke g).body[0]? = some (body g) ∧ (stroke g).resend = []) ∧
    (let t := { mover with stroke := some resending }
     (stt t).thread? placedTid = some t ∧ sequencerOn (stt t) placedTid t resending = true ∧ resending.resend = faulted :: [] ∧
       resending.barrierReq = none ∧ resending.acquire = false ∧ ∀ l ∈ resending.loads, lineOf (eaOffset l.req.ea) ≠ lineOf (eaOffset faulted.ea)) ∧
    (let u := { uu with rep := some (0, 0) }
     let s := { stt (stroking true) with issue := some u }
     s.issue = some u ∧ u.rep = some (0, 0) ∧ s.thread? u.tid = some (stroking true).strokeView ∧ decodeCheck (.add 10 9 3 .w64) (stroking true).strokeView u.head = none ∧
       ∀ r ∈ [9, 3, 10], setHas (stroking true).pending r = false) := by
  refine ⟨⟨by decide +kernel, rfl, ?_⟩, by decide +kernel, by decide +kernel, by decide +kernel, by decide +kernel⟩
  exact ⟨[(body true, .add 10 9 3 .w64)], 0x8000_0000_0000_1080, by decide +kernel, by decide +kernel, by decide +kernel⟩

theorem witness_StrokeTrapsEnterAtTheBoundary :
    let t := { mover with stroke := some { stroke true with trap := some (0x0B, 1) } }
    (stt t).thread? placedTid = some t ∧ t.stroke = some { stroke true with trap := some (0x0B, 1) } ∧
      { stroke true with trap := some (0x0B, 1) }.reissues = [] ∧ t.isSeated = true ∧ t.io.dying = false ∧
      Vectored (stt t) uu t 0x0B ∧ (0x05 : Nat) ≠ 0x0B := by and_intros <;> decide +kernel

/-! ### Hypotheses met: issue, seats, threads, launches -/

/-- Core 0 with a nop under a given guard in the line of the turn's IA. -/
def nops (guard : Byte) : Core :=
  { core0 with iss := { core0.iss with istore := [{ base := ia0, bytes := [guard, 0x80] ++ List.replicate 62 0 }] } }

/-- A part between turns: no turn is open, and a core cycle has passed. -/
def sti (t : Thread) (c : Core) : State := { stt t c with issue := none, dies := [(0, { Die.reset with clock := 1 })] }

/-- A second thread of launch 1, and its tid. -/
def tid2 : Tid := 0x01000001
def second (st : Status) : Thread := { thr [] with status := st, ctx := some 1 }
def two (t : Thread) (st : Status) (c : Core := core0) : State := { stt t c with threads := [(placedTid.toNat, t), (tid2.toNat, second st)] }

theorem witness_IssueSelectRunsTheGuardedInstruction :
    (∀ g ∈ [0xFF, 0x00], (sti mover (nops g)).issue = none ∧ ((sti mover (nops g)).die 0).power < 3 ∧
      ((sti mover (nops g)).core 0).iss.lastTurn ≠ some ((sti mover (nops g)).coreClock 0) ∧
      selectSeat (sti mover (nops g)) 0 ((sti mover (nops g)).coreClock 0) 16 1 = some (0, placedTid, mover) ∧
      (sti mover (nops g)).thread? placedTid = some mover ∧ flowTo (sti mover (nops g)) placedTid 0 mover.pc = .here ∧
      fetchHead (nops g) mover.pc = .head (.found (0x80#8 ++ g) 0) ∧ privilegedOp (headOp (0x80#8 ++ g)) = false ∧
      decodeInstr (headOp (0x80#8 ++ g)) 0 = some .nop ∧ decodeCheck .nop mover (0x80#8 ++ g) = none ∧
      guardTrue mover (0x80#8 ++ g) = (g == 0xFF) ∧ mover.core = 0 ∧ mover.io.skipFail = none ∧
      elsewhere (sti mover (nops g)) 0 mover.pc = false ∧
      flowTo (sti mover (nops g)) placedTid 0 (seqThread mover mover.pc true).pc = .here) ∧
    capture (stt mover bodied) placedTid mover 1 (nextOf uu) [] = .body [(body true, .add 10 9 3 .w64)] 0x8000_0000_0000_1080 ∧
    ((stroke false).body[0]? = some (body false) ∧ (body false).guard = false) := by
  and_intros <;> decide +kernel

/-- A thread of launch 1 in a given status, alone in the part. -/
def alone (st : Status) (f : Thread → Thread := id) : Thread := f { mover with status := st }

theorem witness_SeatsParkWakeKillExitAndStep :
    (∀ i ∈ [Instr.exit, .step 7, .yield, .park 0, .park 2, .park 11, .wake 12, .kill 12, .kill 13],
      ∀ t ∈ [thr [(2, 8), (12, 0x01000001), (13, 0x01000000)]], Ready i (stt t) t ∧ Ready i (two t .ready) t ∧
        threadDie (stt t) ((t.g 12).setWidth 32) 0 = 0 ∧ (t.g 13).setWidth 32 = uu.tid ∧ (t.g 12).setWidth 32 ≠ uu.tid ∧ t.g 2 ≠ 0 ∧ t.g 11 = 0) ∧
    (let s := { two mover .ready with
                cores := [(0, { core0 with iss := { core0.iss with queue0 := [tid2] } })], dies := [(0, { Die.reset with clock := 1 })] }
     freeSeat s 0 = some 1 ∧ queueHead s 0 = some tid2 ∧ s.thread? tid2 = some (second .ready) ∧ (s.die 0).power < 3 ∧ classWaits s 0 0 = true ∧
       mover.isSeated = true ∧ mover.io.storeFault = false) ∧
    classWaits (stt mover) 0 mover.prio = false ∧
    (let t := { mover with io := { mover.io with quantumDue := true } }
     (stt t).thread? placedTid = some t ∧ t.status = .seated 0 0 ∧ t.io.quantumDue = true ∧ t.handler = false ∧ t.io.storeFault = false) ∧
    (let t := alone (.parked (.timed (some 0) true))
     MayGoOn (stt t) placedTid t true ∧ (0 : Nat) ≤ (stt t).coreClock 0 ∧ launchLive (stt t) placedTid = true ∧ t.ctx.isSome = true) ∧
    (∀ p ∈ [true, false], let n : Signal := { src := 0, at_ := 0, tid := placedTid, priv := p, launch := 1, after := [] }
     firstSignal (stt mover) [n] 0 n = true ∧ stillOpen (stt mover) n.after = false ∧ (n.priv = true ∨ tidLaunch n.tid = n.launch)) ∧
    (let n : Signal := { src := 0, at_ := 0, tid := placedTid, priv := false, launch := 2, after := [] }; n.priv = false ∧ tidLaunch n.tid ≠ n.launch) ∧
    (∀ st ∈ [Status.ready, .pooled, .parked .exit], (stt (alone st)).thread? placedTid = some (alone st)) ∧
    mayRetire (stt (alone (.parked .exit))) placedTid (alone (.parked .exit)) = true := by
  and_intros <;> decide +kernel

/-- A spawn operand: a small child on the issuing core. -/
def spx : SpawnX := { head := 0, delta := 1, win := 0, prio := 1, place := .own }

/-- A thread of small windows, so that a child fits beside it. -/
def small (regs : Tab Word) : Thread := { thr regs with wsize := 64, tcount := 8 }

/-- A launch that has numbered as many threads as it may. -/
def usedUp : Launch := { placedLaunch with next := 2 ^ 24 }

theorem witness_SpawnCreatesItsChildAndContextsAreManaged :
    (let t := small [(2, 5)]
     let c := childOf (stt t) uu.tid t spx 0 (targetOf ia0 (spawnTarget spx)) (t.g 2)
     Ready (.spawn 3 2 0 { pa := 1, pb := 1 } spx) (stt t) t ∧ targetOut ia0 (spawnTarget spx) = false ∧ indicesUsed (stt t) 1 = false ∧
       travelling (stt t) uu.tid = false ∧ childCore (stt t) 1 spx.place c = some 0 ∧ roomFor (stt t) 0 0 c.wsize c.tcount = true ∧
       (createThread (stt t) 1 c).2 = some (0x01000001, false) ∧ ((createThread (stt t) 1 c).1.thread? uu.tid).isSome = true ∧
       roomFor (stt t) c.core (makeTid 1 1) c.wsize c.tcount = true) ∧
    (let t := small [(2, 5)]
     let s := { stt t with launches := [(1, usedUp)] }
     Ready (.spawn 3 2 0 { pa := 1, pb := 1 } spx) s t ∧ indicesUsed s 1 = true) ∧
    (let t := alone (.parked (.reply (.done true))) fun t => { t with wsize := 64, tcount := 8 }
     let n : SpawnNote := { parent := placedTid, d := 3, pair := { pa := 1, pb := 1 }, place := .die, last := true,
                            state := childOf (stt t) uu.tid t spx 0 ia0 5 }
     let s := stt t
     launchLive s n.parent = true ∧ childCore s 1 n.place n.state = some 0 ∧ (createThread s 1 { n.state with core := 0 }).2.isSome = true ∧
       ((createThread s 1 { n.state with core := 0 }).1.thread? n.parent).isSome = true) ∧
    (∀ i ∈ [Instr.ctxQuery 3 2, .ctxEvict 3 2, .ctxReseat 3 2, .ctxQuery 3 4, .ctxEvict 3 12, .ctxReseat 3 12],
      ∀ t ∈ [small [(2, 63), (4, 64), (12, 0x01000001)]], Ready i (two t .ready) t ∧ (two t .ready).thread? ((t.g 2).setWidth 32) = none ∧
        (t.g 12).toNat < 2 ^ 32 ∧ (t.g 12).setWidth 32 ≠ uu.tid) ∧
    (let t := small []
     let x := { small [] with status := .pooled, ctx := none, io := { ThreadIO.reset with record := some 0 } }
     let s := { two t .pooled with threads := [(placedTid.toNat, t), (tid2.toNat, x)] }
     s.thread? tid2 = some x ∧ x.ctx = none ∧ x.status = .pooled ∧ roomFor s 0 tid2 x.wsize x.tcount = true ∧
       ((takeContext s tid2).thread? uu.tid).isSome = true) ∧
    (let t := small []
     let x := { small [] with ctx := none, status := .pooled }
     let s := { stt t with threads := [(placedTid.toNat, t), (tid2.toNat, x)], launches := [(1, { placedLaunch with pool := [tid2] })] }
     contextWaiter s 0 = some tid2 ∧ freeContexts s 0 ≠ [] ∧ s.thread? tid2 = some x ∧ roomFor s 0 tid2 x.wsize x.tcount = true) := by
  and_intros <;> decide +kernel

theorem witness_LaunchCompleteEndsTheLaunch :
    let s := { stt mover with threads := [], issue := none }
    s.launch? 1 = some placedLaunch ∧ placedLaunch.phase = .live ∧ s.threadsOf 1 = [] ∧ (∀ e ∈ s.cores, ∀ c ∈ e.2.engine, c.launch ≠ 1) ∧
      (∀ n ∈ s.net.spawns, tidLaunch n.parent ≠ 1) ∧ 0 ∈ placedLaunch.cores ∧ (s.core 0).launch = 1 := by
  and_intros <;> decide +kernel

theorem witness_StepReleaseReadiesEveryThread :
    let s := two (alone (.parked (.step 7 true))) (.parked (.step 7 false))
    s.launch? 1 = some placedLaunch ∧ placedLaunch.phase = .live ∧ s.threadsOf 1 ≠ [] ∧ ((s.threadsOf 1).map (·.1)).Nodup ∧
      (∀ e ∈ s.threadsOf 1, s.thread? e.1 = some e.2) ∧
      (∀ e ∈ s.threadsOf 1, (∃ last, e.2.status = .parked (.step 7 last) ∧
        flowTo s e.1 e.2.core (seqThread e.2 e.2.pc last).pc = .here) ∧ e.2.io.dying = false ∧ e.2.io.storeFault = false) ∧
      (∀ e ∈ s.cores, ∀ c ∈ e.2.engine, c.launch ≠ 1) ∧ launchQuiet s 1 = true ∧
      ((List.range 8).filter fun d => [0].contains d) = placedLaunch.dies := by
  and_intros <;> decide +kernel

theorem witness_LaunchesCompleteAndStepsRelease :
    (let s := { stt mover with threads := [], issue := none }
     s.launch? 1 = some placedLaunch ∧ placedLaunch.phase = .live ∧ s.threadsOf 1 = [] ∧ launchEngines s 1 = false ∧
       (s.net.spawns.any fun n => tidLaunch n.parent == 1) = false) ∧
    (∀ ids ∈ [((7 : Nat), (7 : Nat)), (7, 8)],
      let s := two (alone (.parked (.step (BitVec.ofNat 16 ids.1) true))) (.parked (.step (BitVec.ofNat 16 ids.2) true))
      s.launch? 1 = some placedLaunch ∧ stepIds (s.threadsOf 1) = some [ids.1, ids.2] ∧ launchEngines s 1 = false ∧ launchQuiet s 1 = true ∧
        ((List.range 8).filter fun d => [0].contains d) = placedLaunch.dies) := by
  and_intros <;> decide +kernel

/-! ### Hypotheses met: travelling threads, messages, barriers, the launch manager -/

/-- A travelling thread: core 1 in g1, its segment's id in g2, a place in the segment in g3, one outside it in g4, an L-store range in g8 and g9. -/
def traveller : Thread :=
  thr [(1, 1), (2, 3), (3, 0x8000_0000_0000_2000), (4, 0x8000_0000_0002_0000), (5, 9), (8, 0x100), (9, 16384), (10, 16392), (11, 0x8000_0000_0000_2001)]

/-- The launch's one segment. -/
def seg : Segment := { id := 3, base := 0x8000_0000_0000_0000, len := 0x10000, reps := [0, 1] }

/-- A travelling part whose core 0 has no map entry in its cache. -/
def unmapped (t : Thread) : State := { stv t with cores := [(0, { core0 with iss := { core0.iss with segment := some 3 } })] }

theorem witness_ShipCargoAndSegqComplete :
    (∀ i ∈ [Instr.shipCore 1 3, .shipSeg 2 3, .shipSeg 5 3, .shipSeg 2 4, .shipSeg 2 11, .cargo 8 9, .cargo 8 10, .cargo 8 0, .segq 12 0 .ver, .segq 12 2 .seg,
        .segq 12 3 .ia], Ready i (stv traveller) traveller ∧ Ready i (unmapped traveller) traveller ∧ Ready i (stt traveller) traveller) ∧
    ((stv traveller).launch? 1 = some travelLaunch ∧ travelLaunch.desc.travelling = true ∧ placedLaunch.desc.travelling = false) ∧
    ((traveller.g 3).getLsbD 0 = false ∧ (traveller.g 3).getLsbD 63 = true ∧ (traveller.g 1).toNat = 0 * 2048 + 1 ∧ setHas travelLaunch.cores 1 = true) ∧
    (travelLaunch.segments.find? (fun y => y.reps.contains 1) = some seg ∧ travelLaunch.segments.find? (fun y => y.id == (traveller.g 2).toNat) = some seg ∧
      travelLaunch.segments.find? (fun y => y.id == (traveller.g 5).toNat) = none ∧ segmentOf travelLaunch (traveller.g 3) = some seg) ∧
    (seg.base.toNat ≤ (traveller.g 3).toNat ∧ (traveller.g 3).toNat < seg.base.toNat + seg.len ∧ seg.base.toNat + seg.len ≤ (traveller.g 4).toNat) ∧
    (((stv traveller).core 0).iss.mapCache.contains 3 = true ∧ ((unmapped traveller).core 0).iss.mapCache.contains 3 = false) ∧
    ((traveller.g 11).getLsbD 0 = true ∧ travelling (stv traveller) uu.tid = true ∧ (traveller.g 9).toNat ≤ 16384 ∧ 16384 < (traveller.g 10).toNat) ∧
    checkLocal (stv traveller) traveller (traveller.g 8) 16384 8 true false = none := by
  and_intros <;> decide +kernel

/-- A travelling part between turns whose one thread has a given status. -/
def travelAlone (st : Status) : State := stv { traveller with status := st }

/-- A gondola of the placed thread for core 1. -/
def gondola (cargo : List Byte) : GondolaNote :=
  { held := { core := 0, ctx := some 0, wbase := 0, wsize := 128, tbase := 0, tcount := 64, record := none, landing := some 7 }
    tid := placedTid, dest := 1, slot := 7, cargo := cargo, source := 0, ver := 0, skip := none, pc := ia0, arrived := true, step := none }

/-- A gondola of a step's release, with nothing but its thread's own. -/
def stepLoad : StepLoad := { tiles := [], posted := [], overflow := [] }
def stepGondola : GondolaNote := { gondola [] with step := some stepLoad }

theorem witness_DeparturesGrantsAndLandings :
    (let t := { traveller with status := .parked (.reply (.done true)) }
     let n : MapNote := { tid := placedTid, seg := some 3, cont := .answer 12 5 true }
     n.seg = some 3 ∧ n.cont = .answer 12 5 true ∧ MayGoOn (stv t) placedTid t true ∧ t.status = .parked (.reply (.done true))) ∧
    ((stv traveller).thread? placedTid = some traveller ∧ (stv traveller).launch? 1 = some travelLaunch ∧
      travelLaunch.segments.find? (fun x => some 3 == some x.id) = some seg) ∧
    (∀ dest ∈ [0, 1], let t := { traveller with status := .parked (.departure dest ia0 0 none) }
      (stv t).thread? placedTid = some t ∧ mayDepart (stv t) placedTid t = true ∧ dest / 256 = t.core / 256) ∧
    (freeSlotOf (stv traveller) 1 = some 0 ∧ ((stv traveller).core 1).iss.slotRequests = []) ∧
    (let t := { traveller with status := .parked (.departure 1 ia0 0 none), pending := setAdd [] 5 }
     (stv t).thread? placedTid = some t ∧ mayDepart (stv t) placedTid t = false) ∧
    (let t := { traveller with status := .blocked 1 ia0 0 none, ctx := none }
     let s := { stv t with cores := (stv t).cores ++ [(1, { core0 with iss := { core0.iss with slotRequests := [placedTid] } })] }
     (s.core 1).iss.slotRequests = placedTid :: [] ∧ freeSlotOf s 1 = some 0 ∧ s.thread? placedTid = some t ∧ launchLive s placedTid = true ∧
       t.status = .blocked 1 ia0 0 none ∧ t.core ≠ 1 ∧ 1 / 256 = t.core / 256) ∧
    (∀ c ∈ [[], [(1 : Byte), 2, 3, 4, 5, 6, 7, 8]],
      let t := { traveller with status := .inFlight 1 ia0 0 none }
      (gondola c).arrived = true ∧ (gondola c).step = none ∧ (stv t).thread? (gondola c).tid = some t ∧ t.io.dying = false ∧ (gondola c).cargo.length ≤ 16384 ∧ (gondola c).slot < 8 ∧
        ((stv t).core (gondola c).dest).waiters = [] ∧ (gondola c).skip = none ∧ (gondola c).held.landing = some 7 ∧
        (((stv t).core (gondola c).held.core).msg.overflow.filter fun o => o.dst == placedTid) = []) ∧
    (let t := { mover with status := .inFlight 0 ia0 0 none, ctx := none, wsize := 64, tcount := 8 }
     let s := { stt t with net := { Net.reset with gondolas := [{ stepGondola with dest := 0 }] } }
     s.net.gondolas[0]? = some { stepGondola with dest := 0 } ∧ stepGondola.arrived = true ∧ stepGondola.step = some stepLoad ∧
       s.thread? stepGondola.tid = some t ∧ t.io.dying = false ∧ (landOnDie s { stepGondola with dest := 0 } t stepLoad).isSome = true) := by
  and_intros <;> decide +kernel

/-- A sender: the second thread's tid in g1, a buffer in g8, 16 and 1,024 bytes, a length out of range and one that is no multiple of 8. -/
def sender : Thread := thr [(1, 0x01000001), (2, 16), (3, 1024), (4, 1032), (5, 12), (8, 0x100), (9, 0x01000005)]

/-- A send, a posted receive, an overflow entry and a message on its way. -/
def entry (dst : Tid) : SendEntry :=
  { tid := placedTid, dst := dst, reg := 10, buf := 0x100, len := 16, tag := 5, order := 0, after := [], refusals := 14, retryAt := 0, inFlight := false }
def posted : Posted := { tid := placedTid, reg := 10, src := none, tag := some 5, buf := 0x100, cap := 8 }
def over5 (place : Nat) : Overflow := { place := place, order := 0, dst := placedTid, src := tid2, tag := 5, len := 16 }
def onItsWay (forwarded : Bool) : MsgNote :=
  { srcCore := 0, dstCore := 0, src := tid2, dst := placedTid, tag := 5, data := List.replicate 16 7, order := 0, forwarded := forwarded,
    via := none }

/-- Core 0 with a given message side. -/
def messaging (m : CoreMsg) : Core := { core0 with msg := m }

/-- A part whose core 0 has one send to be tried again. -/
def retrying (dst : Tid) : State := two sender .ready (messaging { core0.msg with sends := [entry dst] })

theorem witness_MessagesAreSentMatchedAndRefused :
    (∀ n ∈ [2, 3, 4, 5], ∀ i ∈ [Instr.send 10 1 8 n 5, .recv 10 1 8 n 5 false false, .recv 10 1 8 n 5 true true, .probe 10 1 2 false false, .probe 10 1 2 true true],
      Ready i (two sender .ready) sender) ∧
    (let s := two sender .ready
     bufferTrap s sender (sender.g 8) (sender.g 3) true false = none ∧ bufferTrap s sender (sender.g 8) (sender.g 2) false true = none ∧
       (s.core 0).msg.sends.length < 8 ∧ storesOpen s uu.tid sender = [] ∧ aheadOf s uu.tid ((sender.g 1).setWidth 32) s.net.nextReq = false ∧
       Sound s sender.core (sender.g 8).toNat (sender.g 2).toNat ∧ (∀ y ∈ (s.core 0).msg.sends, y.order < s.net.nextReq) ∧
       s.thread? ((sender.g 1).setWidth 32) = some (second .ready) ∧ tidLaunch ((sender.g 1).setWidth 32) = tidLaunch uu.tid ∧
       (second .ready).io.dying = false ∧ (second .ready).core / 256 = sender.core / 256 ∧ s.thread? ((sender.g 9).setWidth 32) = none ∧
       1024 < (sender.g 4).toNat ∧ (sender.g 5).toNat % 8 ≠ 0 ∧ refusedMark s uu.tid sender = none ∧ (s.core 0).msg.posted.length < 64 ∧
       overflowMatch s uu.tid sender none none = none) ∧
    (let s := stt sender (messaging { core0.msg with sends := List.replicate 8 (entry tid2) }); 8 ≤ (s.core 0).msg.sends.length) ∧
    (let s := stt sender (messaging { core0.msg with overflow := [over5 0] })
     overflowMatch s uu.tid sender (some ((sender.g 1).setWidth 32)) (some 5) = some (over5 0) ∧ (s.core 0).waiters = []) ∧
    ((retrying tid2).core 0).msg.sends[0]? = some (entry tid2) ∧ (entry tid2).retryAt ≤ (retrying tid2).coreClock 0 ∧
    stillOpen (retrying tid2) (entry tid2).after = false ∧ aheadOf (retrying tid2) placedTid tid2 0 = false ∧ (retrying tid2).thread? placedTid = some sender ∧
    ((retrying 0x01000005).core 0).msg.sends[0]? = some (entry 0x01000005) ∧ (entry 0x01000005).retryAt ≤ (retrying 0x01000005).coreClock 0 ∧
    stillOpen (retrying 0x01000005) (entry 0x01000005).after = false ∧ aheadOf (retrying 0x01000005) placedTid 0x01000005 0 = false ∧ (retrying 0x01000005).thread? placedTid = some sender ∧
    ((retrying tid2).thread? tid2 = some (second .ready) ∧ (retrying 0x01000005).thread? 0x01000005 = none ∧ (entry tid2).inFlight = false) ∧
    (∀ y ∈ [entry tid2], y.order = (entry tid2).order → y = entry tid2) ∧
    (let s := { two sender .ready (messaging { core0.msg with posted := [posted] }) with net := { Net.reset with messages := [onItsWay true] } }
     s.net.messages[0]? = some (onItsWay true) ∧ s.thread? placedTid = some sender ∧ earlierElsewhere s 0 (onItsWay true) = false ∧
       preempted s placedTid = false ∧ (s.core 0).waiters = [] ∧
       (s.core 0).msg.posted.find? (fun p => p.tid == placedTid && accepts p.src p.tag tid2 5) = some posted) ∧
    (let s := { two sender .ready with net := { Net.reset with messages := [onItsWay false] } }
     (s.core 0).msg.posted.find? (fun p => p.tid == placedTid && accepts p.src p.tag tid2 5) = none ∧ s.launch? (tidLaunch placedTid) = some placedLaunch ∧
       (s.core 0).msg.overflow.length < 16 ∧ (List.range 16).find? (fun i => !(s.core 0).msg.overflow.any fun o => o.place == i) = some 0) ∧
    (let s := { two sender .ready (messaging { core0.msg with sends := [entry tid2], overflow := (List.range 16).map over5 }) with
                net := { Net.reset with messages := [onItsWay false] } }
     (s.core 0).msg.overflow.length = 16 ∧ (onItsWay false).forwarded = false ∧
       (s.core 0).msg.sends.find? (fun x => x.order == (onItsWay false).order) = some (entry tid2) ∧ (entry tid2).refusals < 15 ∧
       earlierElsewhere s 0 (onItsWay false) = false) := by
  and_intros <;> decide +kernel

/-- A thread at barriers: number 3 in g1, 16 in g2, a past generation in g3; core 0 with barrier 3 one short of its count of 2, or one arrived. -/
def waiting : Thread := thr [(1, 3), (2, 16), (3, 9)]
def barred (a : Nat) : Core := { core0 with bars := [(3, { m := 2, a := a, n := 0 })] }

/-- A barrier arrival at the die's unit. -/
def arrival : BarrierNote :=
  { id := 0, after := [], marks := some 0, tid := placedTid, sc := .die, n := 3, unit := 4096, d := 10, count := none, tval := 0, last := true, from_ := 0,
    arrived := false }

theorem witness_BarriersCountAndFencesWait :
    (∀ sc ∈ [Scope.core, .quad, .die, .pkg, .pod], ∀ r ∈ [1, 2], ∀ i ∈ [Instr.barr 10 r sc, .barw r 3 sc, .barw r 0 sc, .barc r 2 sc],
      Ready i (stt waiting (barred 0)) waiting ∧ Ready i (stt waiting (barred 1)) waiting) ∧
    ((waiting.g 1).toNat < 16 ∧ 16 ≤ (waiting.g 2).toNat ∧ (tabGetD (barred 0).bars 3 Bar.reset).a + 1 ≠ (tabGetD (barred 0).bars 3 Bar.reset).m ∧
      (tabGetD (barred 1).bars 3 Bar.reset).a + 1 = (tabGetD (barred 1).bars 3 Bar.reset).m ∧ (tabGetD (barred 0).bars 3 Bar.reset).a = 0 ∧
      (stt waiting).threads = [(uu.tid.toNat, waiting)] ∧ waiting.isSeated = true ∧ loadsDone (stt waiting) uu.tid waiting = true) ∧
    ((getBar (stt waiting (barred 0)) .core (barUnit (stt waiting) 1 0 .core) 3).n = (waiting.g 0).setWidth 32 ∧
      (getBar (stt waiting (barred 0)) .core (barUnit (stt waiting) 1 0 .core) 3).n ≠ (waiting.g 3).setWidth 32) ∧
    (stillOpen (stt waiting) arrival.after = false ∧ arrival.arrived = false ∧ arrival.marks = some 0 ∧ arrival.sc = .die ∧ arrival.count = none ∧
      (stt waiting).launch? (arrival.unit / 4096) = some placedLaunch ∧ arrival.from_ / 8 = (stt waiting).cfg.package) ∧
    (let t := alone (.parked (.barrier .die 3 0 true))
     (stt t).threads = [(placedTid.toNat, t)] ∧ (0 : BitVec 32) ≠ 1 ∧ barUnit (stt t) (tidLaunch placedTid) t.core .die = 4096 ∧
       launchLive (stt t) placedTid = true ∧ MayGoOn (stt t) placedTid t true ∧ t.ctx.isSome = true) ∧
    (let t := alone (.parked (.reply (.done true))); MayGoOn (stt t) placedTid t true ∧ t.status = .parked (.reply (.done true))) ∧
    (∀ i ∈ [Instr.fence .core .acq, .fence .die .full, .fence .quad .rel, .fence .core .engine, .fence .pod .acq], Ready i (stt waiting) waiting ∧
       storesDone (stt waiting) uu.tid waiting = true ∧ earlierLoads (stt waiting) uu.tid waiting = true ∧ earlierStores (stt waiting) uu.tid waiting = true) ∧
    ((([arrival] : List BarrierNote).take 0).any fun a => sameWay a arrival) = false ∧
    (let s := stt waiting { core0 with port := { core0.port with loads := [(0, placedTid)] } }
     Ready (.fence .die .acq) s waiting ∧ loadsDone s uu.tid waiting = false ∧ earlierLoads s uu.tid waiting = false) ∧
    (let c : EngCmd :=
       { id := 0, tid := placedTid, launch := 1, kind := .copy, reg := 10, object := none, dst := 0, src := 0, len := 8, operand := 0, phase := .waiting
         moved := [], status := 0, old := 0, sentAt := 0, cut := false, uncorr := false, faulted := false, entry := none, asked := [], after := [], buf := [], dies := []
         host := none }
     let s := { stt waiting { core0 with engine := [c] } with net := { Net.reset with nextReq := 1 } }
     Ready (.fence .core .engine) s waiting ∧ enginesOpen s uu.tid s.net.nextReq = true) := by
  and_intros <;> decide +kernel

/-- Bytes of a plan of rank 0 alone with mask 1, and of a valid path entry, at 0x100. -/
def managed : Thread := thr [(1, 0x100), (2, 7), (3, 256), (4, 3), (5, 2), (6, 9)]

/-- Core 0 with those bytes of a plan: member count 1 in [11:0] less one, mask 1 in [27:20], and the rank 0. -/
def planned : Core := { core0 with lstore := Memory.write [] 0x100 (natLE (2 ^ 20) 8) }

theorem witness_ManagerOperationsComplete :
    (Ready (.sysRplan 1) (stt managed planned) managed ∧ (stt managed planned).launch? 1 = some placedLaunch ∧
      (let w : Word := BitVec.ofNat 64 (lstoreValue (stt managed planned) 0 0x100 8)
       w.toNat % 2 ^ 12 + 1 = 1 ∧ w.toNat / 2 ^ 12 % 2 ^ 8 = 0 ∧ w.toNat / 2 ^ 28 = 0 ∧ w.toNat / 2 ^ 20 % 2 ^ 8 ≠ 0) ∧
      ((List.range 1).map fun k => lstoreValue (stt managed planned) 0 (0x108 + 2 * k) 2) = [(stt managed planned).cfg.package] ∧
      Sound (stt managed planned) managed.core (managed.g 1).toNat 16 ∧ Sound (stt managed) managed.core (managed.g 1).toNat 40 ∧
      checkLocal (stt managed planned) managed (managed.g 1) 8 8 true false = none ∧
      checkLocal (stt managed planned) managed (managed.g 1 + 8) 8 8 true false = none) ∧
    (Ready .sysMapver (stv managed) managed ∧ travelLaunch.mapChanges = []) ∧
    (∀ i ∈ [Instr.sysRepadd 4 5, .sysRepdel 4 0], Ready i (stv managed) managed) ∧
    (travelLaunch.segments.find? (fun y => y.id == (managed.g 4).toNat) = some seg ∧ launchCore (stv managed) travelLaunch (managed.g 5) = some 2 ∧
      (recordedReps travelLaunch seg).length < 4 ∧ isSpare (stv managed) travelLaunch 2 = true ∧ isSpare (stv managed) travelLaunch 0 = false ∧
      launchCore (stv managed) travelLaunch (managed.g 0) = some 0 ∧ (recordedReps travelLaunch seg).contains 0 = true ∧
      2 ≤ (recordedReps travelLaunch seg).length ∧ (recordedReps travelLaunch { seg with id := 4, reps := [0] }).length ≤ 1) ∧
    (∀ i ∈ [Instr.sysPath 1 2, .sysPath 1 3], Ready i (stt managed) managed) ∧
    (checkLocal (stt managed) managed (managed.g 1) 40 8 true false = none ∧ (managed.g 2).toNat ≤ 255 ∧ 255 < (managed.g 3).toNat ∧
      ((stt managed).path 7).grant = 0 ∧ ((stt managed).path 7).trans = none ∧
      ((readEntry (((stt managed).core 0).lstore.bytes 0x100 40)).valid = true →
        entryOk (stt managed) 7 (leWord ((((stt managed).core 0).lstore.bytes 0x100 40).take 8)) (readEntry (((stt managed).core 0).lstore.bytes 0x100 40)) = true)) := by
  and_intros <;> decide +kernel

/-! ### Hypotheses met: matrix engine, epilogue unit, plans -/

/-- An A operand in g1, a B operand in g2, 64 in g3, an odd address in g4, core 3 in g5. -/
def matrixer : Thread := thr [(1, 0x1000), (2, 0x2000), (3, 64), (4, 1), (5, 3), (6, 0x40000)]

/-- A small i8 product: one chunk, one element. -/
def mmx : MmaX := { fmt := .i8, k := 0, m := 0, n := 0, ow := true, b32 := false, stride := 64 }

/-- An operation in the matrix queue. -/
def mmop (started : Bool) (chunks : Nat) : MmaOp :=
  { tid := placedTid, tile := 0, a := 0x1000, b := some 0x2000, c := none, x := mmx, started := started, begun := 0, chunks := chunks, flags := 0 }

/-- Core 0 with a given matrix side. -/
def mat (m : CoreMatrix) : Core := { core0 with mx := m }

theorem witness_MatrixEngineLatchesAndRings :
    (∀ i ∈ [Instr.mma 0 1 2 0 mmx, .mma 63 4 2 0 mmx, .tstat 10 63 true, .tring .inc 0, .tring .add 3, .mmrLoad 6, .mmrPass, .mmrTake, .ringJoin 0 0, .ringDissolve 0],
      Ready i (stt matrixer) matrixer ∧ Ready i (stt matrixer (mat { core0.mx with ring := some (0, 2), incomingFull := true })) matrixer) ∧
    (mmaTrap (stt matrixer) matrixer (matrixer.g 1) (matrixer.g 2) (matrixer.g 0) false false mmx = none ∧
      (mmaTrap (stt matrixer) matrixer (matrixer.g 4) (matrixer.g 2) (matrixer.g 0) false false mmx).isSome = true ∧
      ((stt matrixer).core 0).mx.queue.length < 4 ∧ 4 ≤ (mat { core0.mx with queue := List.replicate 4 (mmop false 0) }).mx.queue.length) ∧
    ((mmop false 0).started = false ∧ (mmop true 0).started = true ∧ (mmop true 0).chunks = 0 ∧ (mmop true 0).x.n.toNat + 1 ≤ kindCols (accKind .i8) ∧
      (∀ o ∈ [mmop false 0, mmop true 0], let s := stt matrixer (mat { core0.mx with queue := [o] })
        coreClocked s 0 = true ∧ preemptBegan s 0 = none ∧ mayComplete s 0 o = true ∧
          matrixMet s 0 (if o.x.ow then [] else [o.tile]) (mmaRuns o) = none) ∧
      Sound (stt matrixer) matrixer.core (matrixer.g 6).toNat 16384 ∧ (mmop true 0).x.fmt = .i8 ∧ (mmop true 0).c = none ∧ (mmop true 0).b = some 0x2000) ∧
    (let t := alone (.parked (.matrix (.done true)))
     MayGoOn (stt t (mat { core0.mx with queue := [mmop true 0] })) placedTid t true ∧ t.status = .parked (.matrix (.done true))) ∧
    (tileBusy core0 63 = false ∧ checkLocal (stt matrixer) matrixer (matrixer.g 6) 16384 64 true false = none ∧ latchRead core0 = false ∧
      latchRead (mat { core0.mx with queue := [{ mmop true 0 with b := none }] }) = true) ∧
    ((mat { core0.mx with ring := some (0, 2) }).mx.passing = [] ∧ (mat { core0.mx with ring := some (0, 2) }).mx.transit = none ∧
      ((stt matrixer).core 1).mx.incomingFull = false ∧ (mat { core0.mx with incomingFull := true }).mx.incomingFull = true ∧ core0.mx.takes = [] ∧
      core0.mx.ring = none ∧ (0 : Nat) ≠ 1) ∧
    ((matrixer.g 0).toNat % 2 ^ 0 = 0 ∧ (matrixer.g 0).toNat + 2 ^ 0 ≤ 256 ∧ setHas placedLaunch.cores 0 = true ∧ (matrixer.g 0).toNat < 256 ∧
      ringHeld core0 = false ∧ ringHeld (mat { core0.mx with passing := [placedTid] }) = true) := by
  and_intros <;> decide +kernel

/-- A thread parked for the epilogue unit. -/
def parkedThread : Thread := { matrixer with status := .parked (.matrix (.done true)) }

/-- An operation of the unit of that thread, on tile 0 and L-store 0x1000. -/
def op (i : Instr) : EpOp := { tid := placedTid, instr := i, head := 0x80FF, va := 0x1000, vb := 0, vc := 0x2000, tile := 0, tile2 := 16, tiles := [0] }

/-- A part whose epilogue unit holds that operation, with tile 0 of a kind, and a tree or a plan. -/
def unit (i : Instr) (kind : BitVec 2) (plan : PlanState := PlanState.reset) : State :=
  let tile : Tile := { Tile.reset with st := { Tile.reset.st with kind := kind } }
  { stt parkedThread (mat { core0.mx with epilogue := [op i], tiles := [(0, tile)], topk := { header := some 0x0001, rows := [] }, plan := plan }) with
    issue := none }

/-- The operation stands at the head of its core's unit. -/
theorem at_unit (i : Instr) (kind : BitVec 2) (plan : PlanState)
    (hs : matrixMet (unit i kind plan) 0 (op i).tilesRead (EpOp.runsRead ((unit i kind plan).core 0) (op i)) = none)
    (h : MayGoOn (unit i kind plan) placedTid parkedThread true) : AtUnit (unit i kind plan) 0 (op i) [] parkedThread true :=
  ⟨rfl, rfl, rfl, hs, h, rfl⟩

/-- A field of topk without groups, and one that goes on with a tree. -/
def tkx : TopkX := { k := 1, g := 0, lim := 0, new := true }

theorem witness_EpilogueOperationsQueueAndComplete :
    (∀ i ∈ [Instr.tzero 0, .tscl 0 1 0 0 .row false, .tact 0 0 0 .relu, .tcvt { pa := 0, pb := 1 } 1 0 0 .bf16 false 0, .tred 1 0 false .sum, .topk 0 1 2 tkx,
        .tkrd 10 1 15 true], Ready i (stt matrixer) matrixer ∧ MayGoOn (unit i 0) placedTid parkedThread true ∧ MayGoOn (unit i 2) placedTid parkedThread true) ∧
    tileBusy core0 0 = false ∧ parkedThread.io.dying = false ∧
    (((unit (.tact 0 0 0 .relu) 0).core 0).tile 0).st.kind = 0 ∧ (((unit (.tscl 0 1 0 0 .row false) 1).core 0).tile 0).st.kind ≠ 0 ∧
    (((unit (.tred 1 0 false .sum) 2).core 0).tile 0).st.kind = 2 ∧
    ((op .nop).va.toNat % 8 = 0 ∧ checkLocal (unit .nop 0) parkedThread (op .nop).va 64 1 true false = none ∧
      checkLocal (unit .nop 0) parkedThread (op .nop).va 64 1 false true = none ∧ (op .nop).va.toNat + 512 < 2 ^ 63 ∧
      (∀ i ∈ List.range 16, checkLocal (unit .nop 0) parkedThread ((op .nop).va + BitVec.ofNat 64 (i * 32)) 32 1 false true = none)) ∧
    (tkx.new = true ∧ tkx.g = 0 ∧ (op .nop).va.toNat % 2 ^ 16 + 15 ≤ 0xFFFE) ∧
    (((unit .nop 0).core 0).mx.topk.header = some 0x0001 ∧
      checkLocal (unit .nop 0) parkedThread (op .nop).va (8 + 8 * (((0x0001 : BitVec 13).extractLsb' 0 3).toNat + 1)) 1 false true = none) ∧
    (((0x0001 : BitVec 13).extractLsb' 3 5).toNat = 0 ∧ (∀ c ∈ [({ score := 0x3F800000, index := 1 } : Cand)], (val32 c.score.toNat).isNan = false)) := by
  and_intros <;> decide +kernel

/-- A plan of one entry bound to tile 0, and an infeasible one. -/
def plan1 (infeasible : Bool) : PlanState :=
  { PlanState.reset with tile := some 0, m := 1, n := 1, a := [0], b := [0], u := [0], v := [0], infeasible := infeasible }

theorem witness_PlansBindBalanceAndRead :
    (∀ i ∈ [Instr.plan 48 1 2 2 63 63, .bal 10 3 0 { pa := 1, pb := 2 } 0, .plnx 1 48, .plnd 10 16 0],
      Ready i (stt matrixer) matrixer ∧ MayGoOn (unit i 0 (plan1 false)) placedTid parkedThread true ∧ MayGoOn (unit i 0 (plan1 true)) placedTid parkedThread true) ∧
    (∀ k ∈ List.range 16, tileBusy core0 (physTile matrixer 48 + k) = false ∧ tileBusy core0 (physTile matrixer 16 + k) = false) ∧
    ((op .nop).va.toNat % 4 = 0 ∧ (op .nop).vb.toNat % 4 = 0 ∧ (op .nop).vc.toNat % 4 = 0 ∧
      checkLocal (unit .nop 0) parkedThread (op .nop).va (4 * ((63 : BitVec 6).toNat + 1) * ((63 : BitVec 6).toNat + 1)) 1 true false = none ∧
      checkLocal (unit .nop 0) parkedThread (op .nop).vb (4 * ((63 : BitVec 6).toNat + 1)) 1 true false = none ∧
      checkLocal (unit .nop 0) parkedThread (op .nop).vc (4 * ((63 : BitVec 6).toNat + 1)) 1 true false = none) ∧
    (balTrap (unit .nop 0 (plan1 true)) 0 (op .nop) 0 = none ∧ (plan1 true).infeasible = true ∧ (plan1 true).tile = some (op .nop).tile) ∧
    (balTrap (unit .nop 0 (plan1 false)) 0 (op .nop) 0 = none ∧ (op .nop).va ≠ 0 ∧ (plan1 false).infeasible = false ∧ (plan1 false).inProgress = false ∧
      launchLive (unit .nop 0 (plan1 false)) placedTid = true) ∧
    (planKinds ((unit .nop 0 (plan1 false)).core 0) [0] = none ∧ planKinds ((unit .nop 0 (plan1 false)).core 0) [0, 16] = none ∧
      checkLocal (unit .nop 0 (plan1 false)) parkedThread (op .nop).va (4 * 1 * 1) 1 false true = none ∧ (plan1 false).m = 1 ∧ (plan1 false).n = 1 ∧
      (planX ((unit .nop 0 (plan1 false)).core 0) (plan1 false) 0 0).1 ≠ 0xFF800000) ∧
    (parkedThread.io.dying = false ∧ ((unit .nop 0).core 0).mx.plan.tile ≠ some (op .nop).tile) := by
  and_intros <;> decide +kernel

/-! ### Hypotheses met: engines, flows, slices -/

/-- Operands of engine commands: L-store 0x1000 and 0x2000, 64 bytes, a misaligned place, another core's L-store, a large length, path 3, host memory. -/
def engineer : Thread :=
  thr [(1, 0x1000), (2, 0x2000), (3, 64), (4, 1), (5, 0x8000_0000_0000_2000), (6, 2 ^ 36 + 8), (7, 3), (8, 0x2000_0000_0000_0000)]

/-- An engine command of that thread. -/
def cmd (phase : EngPhase) (object : Option Word := none) : EngCmd :=
  { id := 1, tid := placedTid, launch := 1, kind := .copy, reg := 10, object := object, dst := 0x1000, src := 0x2000, len := 64, operand := 0, phase := phase
    moved := [], status := 0, old := 0, sentAt := 0, cut := false, uncorr := false, faulted := false, entry := none, asked := [], after := [], buf := []
    dies := [], host := none }

/-- A launch with a plan, and a part where it owns path 3. -/
def planLaunch1 : Launch := { placedLaunch with rplan := some (1, [0]) }
def owning : State :=
  { stt engineer with
    launches := [(1, planLaunch1)]
    spool := { State.reset.spool with paths := [(3, { Path.reset with entry := { PathEntry.reset with valid := true, owner := 1 } })] } }

theorem witness_EngineInstructionsEnterTheirCommand :
    (∀ i ∈ [Instr.copy 10 1 2 3 false, .copy 2 1 2 3 true, .copy 10 4 2 3 false, .copy 10 1 4 3 false, .copy 10 5 5 6 false, .copyr 10 1 2 3 .bf16 false 5,
        .ratom 10 1 3 0 .add .relaxed false, .ratom 0 1 3 0 .add .relaxed true, .ratom 10 4 3 0 .add .relaxed false, .ratom 10 8 3 0 .add .sc true,
        .gath 10 1 2 1 false .b1 false 0, .gath 10 1 2 1 true .b8 false 7, .mcast 10 7 2 5 false 63, .mcast 10 7 2 5 false 0],
      Ready i owning engineer) ∧
    ((engineer.g 1).toNat % 8 = 0 ∧ (engineer.g 3).toNat % 8 = 0 ∧ (engineer.g 4).toNat % 8 ≠ 0 ∧ (engineer.g 4).toNat % 4 ≠ 0 ∧
      EngOk owning engineer (engineer.g 1) 64 true ∧ EngOk owning engineer (engineer.g 1) 128 true ∧ EngOk owning engineer (engineer.g 2) 64 false ∧
      ObjectOk owning engineer 10 false ∧ ObjectOk owning engineer 2 true ∧ (engineer.g 3).toNat ≤ 2 ^ 36 ∧ 2 ^ 36 < (engineer.g 6).toNat ∧
      eaLocal (engineer.g 5) = false ∧ queueUse owning 0 < 8) ∧
    (let s := { owning with cores := [(0, { core0 with engine := List.replicate 8 (cmd .waiting) })] }; 8 ≤ queueUse s 0) ∧
    (owning.launch? 1 = some planLaunch1 ∧ planLaunch1.rplan.isSome = true ∧ 8 ≤ (engineer.g 3).toNat ∧ (engineer.g 3).toNat ≤ 2 ^ 26 ∧
      eaHost (engineer.g 1) = false ∧ eaHost (engineer.g 8) = true) ∧
    (placeOf owning 0 (engineer.g 1) ≠ none ∧ placeOf owning 0 (engineer.g 2) ≠ none ∧ (engineer.g 1).toNat % 4 = 0 ∧ eaLocal (engineer.g 1) = true ∧
      EngOk owning engineer (engineer.g 1) (4 * ((7 : BitVec 16).toNat + 1)) false) ∧
    (((63 : BitVec 20).toNat + 1) % 8 = 0 ∧ eaLocal (engineer.g 2) = true ∧ lstoreOk owning 0 (engineer.g 2).toNat 64 true false = true ∧
      (engineer.g 7).toNat ≤ 255 ∧ ownsPath owning 1 (engineer.g 7).toNat = true ∧ eaGlobal (engineer.g 5) = true ∧ ((0 : BitVec 20).toNat + 1) % 8 ≠ 0) := by
  and_intros <;> decide +kernel

/-- A part whose core 0 has one engine command. -/
def eng (c : EngCmd) : State := stt engineer { core0 with engine := [c] }

/-- A remote atomic at its home, and one of another package's word. -/
def rat : RatomNote :=
  { src := 0, home := 0, tid := placedTid, seq := 4, sc := false, ea := 0x4000_0000_0000_1000, op := .add, four := false, operand := 1, expected := 0, old := 7,
    status := 0, faulted := false }
def ratcmd (phase : EngPhase) (dst : Word) : EngCmd := { cmd phase with kind := .ratom .add .relaxed false 0, len := 4, dst := dst, sentAt := 0 }

/-- A contribution of a plan of the ranks given. -/
def con (ranks : List Nat) : Contribution :=
  { job := false, group := 1, die := 0, core := 0, cmd := 1, tid := placedTid, op := .f32, dst := 0x4000_0000_0000_1000, len := 8, mask := 1, ranks := ranks, dies := 1,
    data := List.replicate 8 0, tag := 5 }

theorem witness_EngineCommandsMoveAndComplete :
    ((eng (cmd .waiting)).core 0).engine[0]? = some (cmd .waiting) ∧ (cmd .waiting).phase = .waiting ∧
    ((((eng (cmd .waiting)).core 0).engine.take 0).any fun x => x.phase == .waiting && mayRun (eng (cmd .waiting)) x) = false ∧
    runningOn (eng (cmd .waiting)) 0 < 32 ∧ mayRun (eng (cmd .waiting)) (cmd .waiting) = true ∧ (cmd .waiting).len ≠ 0 ∧
    (∀ e ∈ [0, 7], 8 * e + 8 ≤ (cmd .moving).len ∧ setHas (cmd .moving).moved e = false ∧ (cmd .moving).moved.length + 1 < (cmd .moving).len / 8 ∧
      (cmd .moving).dst.toNat + (cmd .moving).len ≤ 2 ^ 19 ∧ (cmd .moving).src.toNat + (cmd .moving).len ≤ 2 ^ 19 ∧ (cmd .moving).status < 0x40 ∧
      setHas (cmd .moving).asked (2 * e + 1) = false ∧ engineClocked (eng (cmd .moving)) 0 = true ∧
      mayRun (eng (cmd .moving)) (cmd .moving) = true ∧ (cmd .moving).host = none ∧ (cmd .moving).uncorr = false) ∧
    ((cmd .moving).src.toNat % 8 = 0 ∧ Sound (eng (cmd .moving)) 0 0x2000 64 ∧ Sound (stt engineer) 0 0x1000 8 ∧ rat.status ≠ 0x41 ∧
      engineClocked (eng (cmd .waiting)) 0 = true ∧ engineClocked (eng (cmd .finished)) 0 = true) ∧
    (mayRun (eng (cmd .finished)) (cmd .finished) = true ∧ (cmd .finished).object = none ∧ (eng (cmd .finished)).thread? placedTid = some engineer ∧
      engineer.io.dying = false ∧ (cmd .finished).moved.length < 2 ^ 32 ∧ (cmd .finished (some 0x3000)).object = some 0x3000 ∧ eaLocal 0x3000 = true) ∧
    (let o : ObjNote := { launch := 1, core := 0, local_ := true, obj := 0x3000, status := 255, cmd := none, via := none }
     let c (v : Word) (full : Bool) : Core :=
       { core0 with lstore := Memory.write [] 0x3000 (wordLE v 8), lempty := if full then [] else setAdd [] 0x600 }
     o.cmd = none ∧ eaLocal o.obj = true ∧ setHas (c 1 false).lempty (0x3000 / 8) = true ∧ lstoreValue (stt engineer (c 1 false)) 0 0x3000 8 % 2 ^ 32 ≠ 0 ∧
       o.status < 256 ∧ setHas (c 1 true).lempty (0x3000 / 8) = false) ∧
    (rat.home / 8 = 0 ∧ rat.src / 2048 = 0 ∧ (([] : List RatomNote).any (sameWord rat)) = false ∧
      (((stt engineer).die (rat.home % 8)).dedup.find? fun e => e.src == rat.src && e.seq == rat.seq) = none ∧
      placeOf (stt engineer) 0 rat.ea = some (.lstore 0 0x1000) ∧ mayUse (stt engineer) (.launch (tidLaunch rat.tid)) 0 0x1000 8 true true = true) ∧
    (let d := { Die.reset with dedup := [{ src := 0, seq := 4, old := 7, status := 0 }] }
     (d.dedup.find? fun e => e.src == rat.src && e.seq == rat.seq) = some { src := 0, seq := 4, old := 7, status := 0 }) ∧
    (let c := ratcmd (.answers 1) 0x4000_0000_0000_1000
     c.phase = .answers 1 ∧ c.len = rat.seq ∧ c.kind = .ratom .add .relaxed false 0 ∧ mayRun (eng c) c = true ∧ c.reg ≠ 0 ∧ rat.status < 0x40) ∧
    (let c := ratcmd (.answers 1) 0x8008_0000_0000_2000
     let s := { eng { c with cut := true } with cycle := 20000000 }
     placeOf s 0 c.dst = some (.far 8) ∧ mayRun s c = true ∧ { c with cut := true }.cut = true ∧ c.sentAt + 2000 * s.host.atomTimeout ≤ s.cycle.toNat) ∧
    (roundComplete ([] ++ [con [0]]) = true ∧ roundComplete ([] ++ [{ con [0] with mask := 3, dies := 3 }]) = false ∧
      ((((stt engineer).die (podDieOf (con [0]).dst % 8)).contributions.filter fun x => !roundHeld (stt engineer) x).map (·.key)).eraseDups.length < 64) ∧
    (roundHeld (stt engineer) (con [0]) = false ∧ roundHeld { stt engineer with launches := [(1, { placedLaunch with phase := .preempted 0 })] } (con [0]) = true ∧
      (∀ x ∈ [con [0]], x.data ≠ [])) ∧
    (roundAgrees [con [0]] = true ∧ (con [0]).die / 8 = 0 ∧ placeOf (stt engineer) 0 (con [0]).dst = some (.lstore 0 0x1000) ∧
      mayUse (stt engineer) (.launch 1) 0 0x1000 8 true true = true ∧ roundAgrees [con [0], { con [0] with len := 16 }] = false) := by
  and_intros <;> decide +kernel

/-- An item of a wake from die 0 to itself. -/
def wakeItem (seq : BitVec 16) : Item := { src := 0, dst := 0, cls := 2, seq := seq, body := .wake placedTid true 1 }
def mark (delivered : Bool) : MarkNote :=
  { id := 0, src := 0, dst := 0, cls := 2, who := some placedTid, cmd := none, bar := none, ackWanted := true, delivered := delivered, status := 0 }

theorem witness_FlowsDeliverInOrder :
    (let s := stt mover
     (s.die 0).reorder = [] ∧ markerHolds s 0 0 2 = false ∧ (s.flow 0 0 2).expect = (wakeItem 0).seq ∧ (wakeItem 0).cls < 4 ∧
       (s.flow 0 0 2).expect ≠ (wakeItem 0x7FFF).seq ∧ ((wakeItem 0x7FFF).seq - (s.flow 0 0 2).expect).toNat < 2 ^ 15 ∧
       2 ^ 15 ≤ ((wakeItem 0x8000).seq - (s.flow 0 0 2).expect).toNat) ∧
    (let s := { stt mover with dies := [(0, { Die.reset with outgoing := [wakeItem 0] })] }
     (s.die 0).stuck = [] ∧ (s.die 0).outgoing.find? (fun y => mayAdmit s y) = some (wakeItem 0) ∧ (wakeItem 0).dst / 8 = s.cfg.package) ∧
    ((mark true).delivered = true ∧ (mark true).ackWanted = true ∧ (mark false).delivered = false ∧ (mark true).src / 8 = 0 ∧
      ((stt mover).die 0).reorder = [] ∧ flowPending (stt mover) 0 0 2 = false ∧
      flowPending { stt mover with net := { Net.reset with wakes := [{ src := 2048, at_ := 0, tid := placedTid, priv := true, launch := 1, after := [] }] } }
        0 0 2 = true ∧
      setHas ((stt mover).flow 0 0 2).bad (mark true).id = false) ∧
    (let t := alone (.parked (.fence false true none 1 (.done true)))
     (stt t).thread? placedTid = some t ∧ t.status = .parked (.fence false true none 1 (.done true)) ∧ (mark true).who = some placedTid) ∧
    (let m := { mark true with who := none, cmd := some (0, 1) }
     m.who = none ∧ m.cmd = some (0, (cmd (.answers 1)).id) ∧ (cmd (.answers 1)).phase = .answers 1 ∧ (cmd (.answers 1)).status = 0) := by
  and_intros <;> decide +kernel

/-- The translation of the page at 0x2000, its line, and the slice it belongs to. -/
def xl (r w : Bool) : Xlat := { vbase := 0, pbase := 0x100000, big := false, r := r, w := w, lpddr := false }
def ln : Line := { l := 0x40, pa := 0x102000, lpddr := false, data := [], empty := [], dirty := false, zero := false }
def home : Nat := homeSlice 0x40

/-- A part with that slice given. -/
def sliced (sl : Slice) : State := { stt mover with dies := [(0, { Die.reset with slices := [(home, sl)] })] }

/-- A request alone in its home's ingress queue. -/
theorem alone_at (kind : ReqKind) (tlb : List Xlat) (lines : List Line) :
    AloneAt (sliced { Slice.reset with ingress := [rq kind], tlb := tlb, lines := lines }) 0 home (rq kind) := by
  refine ⟨?_, rfl, rfl, rfl, rfl⟩
  show home = homeSlice (lineOf (eaOffset 0x8000_0000_0000_2000))
  decide +kernel

/-- The page table of die 0: a root at 0x1000 and one page of 2 MiB at 0, read and write; and the words of a device queue's first slot. -/
def table (words : List Word) : Memory :=
  Memory.write (Memory.write (Memory.write (Memory.write (Memory.write [] 0 (natLE 0x1000 8)) 0x1000 (natLE 0x2001 8)) 0x2000 (natLE 0x3001 8))
    0x3000 (natLE 0xF 8)) 0x10000 (words.flatMap fun w => wordLE w 8)

/-- A part whose die 0 has that table, and whose queue 0 waits with one command. -/
def commanded (words : List Word) : State :=
  let q : HostQueue := { HostQueue.reset with base := 0x10000, log2 := 6, enabled := true, tail := 1 }
  { stt mover with
    dies := [(0, { Die.reset with dram := table words })]
    host := { HostIf.reset with queues := [(0, q)], status := 3 } }
def mapped : State := commanded []

/-- A thread that waits for a load of g10. -/
def loading : Thread := alone (.parked (.reply (.done true))) fun t => { t with pending := setAdd [] 10 }

theorem witness_SlicesServeRequestsAndTheirNotesArrive :
    (let sl := { Slice.reset with tlb := [xl true true], lines := [ln] }
     Slice.reset.tlb? (eaOffset (rq .fetch).ea) = none ∧ sl.tlb? (eaOffset (rq .fetch).ea) = some (xl true true) ∧
       (xl false false).grants (.ld 10 .b8 false) = false ∧ (xl true true).r = true ∧ (xl true true).w = true ∧
       sl.line? (lineOf (eaOffset (rq .fetch).ea)) = some ln ∧ Slice.reset.line? (lineOf (eaOffset (rq .fetch).ea)) = none ∧
       Slice.reset.victim (lineOf (eaOffset (rq .fetch).ea)) true = (true, none) ∧ (rq .fetch).na = false ∧ ln.zero = false ∧
       home = homeSlice (lineOf (eaOffset (rq .fetch).ea)) ∧ requestMet (stt mover) 0 (rq (.ld 10 .b8 false)) ln = false) ∧
    (let sl := { Slice.reset with coming := [rq .fetch] }
     sl.coming = rq .fetch :: [] ∧ sl.ingress = [] ∧ sl.walks = [] ∧ sl.mshrs = [] ∧ sl.tlb? (eaOffset (rq .fetch).ea) = none) ∧
    (faultRoom { sliced Slice.reset with host := { HostIf.reset with faultBase := 0x2000_0000_0000_0000 } } 0 home = true ∧
      walk (sliced Slice.reset) 0 (eaOffset (rq .fetch).ea) = none) ∧
    (let m : Mshr := { l := 0x40, pa := 0x102000, lpddr := false, reqs := [rq (.ld 10 .b8 false)] }
     m.l = lineOf (eaOffset (rq (.ld 10 .b8 false)).ea) ∧ (rq (.ld 10 .b8 false)).ordered = false ∧ Slice.reset.stage = []) ∧
    (let n (note : Note) : NoteAt := { slice := home, core := 0, note := note }
     let s := { stt loading with net := { Net.reset with notes := [n (.ack (rq (.st [0] false))), n (.performed 0 placedTid)] } }
     Earliest s 0 (n (.ack (rq (.st [0] false)))) 0 ∧ s.thread? placedTid = some loading ∧ loading.stroke = none ∧ MayGoOn s placedTid loading true ∧
       (rq (.ld 10 .b8 false)).rep = none ∧ (rq (.ld 10 .b8 false)).acq = false ∧ (10 : Nat) ≠ 0) ∧
    (let t := alone (.parked (.emptyWord (.done true)))
     (stt t).thread? placedTid = some t ∧ t.io.dying = false ∧ t.io.storeFault = false ∧ t.sp.tvb.getLsbD 63 = true ∧ t.entries < 7 ∧
       flowTo (stt t) placedTid t.core (t.sp.tvb + 0x200) = .here) ∧
    (let t := alone (.parked (.reply .again))
     (stt t).thread? placedTid = some t ∧ t.io.storeFault = false ∧ ((stt t).core 0).iss.segment = none) ∧
    (faultSpace (stt mover) 0 = false ∧ faultSpace { stt mover with host := { HostIf.reset with faultBase := 0x2000_0000_0000_0000 } } 0 = true) ∧
    ((walk mapped 0 0x1FFFFF).isSome = true ∧ walk mapped 0 0x200000 = none ∧ (dieRead mapped 0 0x20000 64).2 = some (List.replicate 64 0)) ∧
    ((codeLine? (nops 0xFF) ia0).isSome = true) := by
  and_intros <;> decide +kernel

/-! ### Hypotheses met: light -/

/-- A path of fibre 0 with 4 colours from colour 0, insertion loss 2, owned by launch 1, to package 1. -/
def entry0 : PathEntry := { fibre := 0, first := 0, count := 4, L := 2, owner := 1, valid := true, peers := 1 :: List.replicate 15 0xFFFF }
def path0 : Path := { Path.reset with entry := entry0 }

/-- A part with path 6, the requests and the fibre given. -/
def lit (p : Path) (rs : List SpoolReq := []) (f : Fibre := Fibre.reset) : State :=
  let t := { (thr [(1, 6), (2, 200), (3, 256), (4, 255), (5, 4096), (6, 7)]) with status := Status.seated 0 0 }
  { stt t with spool := { State.reset.spool with paths := [(6, p)], fibres := [(0, f)], requests := rs } }
def grantor : Thread := { (thr [(1, 6), (2, 200), (3, 256), (4, 255), (5, 4096), (6, 7)]) with status := .seated 0 0 }

/-- An lgrant of path 6 by launch 1, or of another launch. -/
def ask (g : Nat) (fan : Nat := 0) (launch : Nat := 1) (pid : Nat := 6) : SpoolReq := .lgrant placedTid 10 pid g fan false launch true

/-- A path that carries light of order 1, a change at a step, and a path with one. -/
def up0 : Path := { path0 with grant := 200, order := 1, state := .up }
def change (gOld gNew mNew m1 : Nat) (step : TransStep) : Transition :=
  { gOld := gOld, gNew := gNew, mNew := mNew, m1 := m1, fNew := 0, accepted := 0, step := step, interrupted := false }
def changing (gOld gNew mNew m1 : Nat) (step : TransStep) : State := lit { up0 with trans := some (change gOld gNew mNew m1 step), state := .settling }

theorem witness_LgrantAndLstatComplete :
    (∀ i ∈ [Instr.lgrant 10 1 2 4, .lgrant 10 4 2 0, .lgrant 10 3 2 0, .lstat 10 1 false, .lstat 10 4 false, .lstat 10 6 true, .lstat 10 5 true, .lstat 10 3 false],
      Ready i (lit path0) grantor ∧ Ready i (lit up0) grantor) ∧
    ((grantor.g 1).toNat ≤ 255 ∧ (grantor.g 4).toNat ≤ 255 ∧ 255 < (grantor.g 3).toNat ∧ 4095 < (grantor.g 5).toNat) ∧
    (∀ p ∈ [path0, up0], ((lit p).path 6).state ≠ .settling ∧ ((lit p).path 6).entry.valid = true ∧ ((lit p).path 6).trans = none) ∧
    (((lit path0).path 255).entry.valid = false ∧ ((lit path0).path 255).state ≠ .settling ∧
      (∀ e ∈ (lit path0).spool.paths, e.2.entry.valid = true → e.2.entry.peers.contains (grantor.g 6).toNat = false)) := by
  and_intros <;> decide +kernel

theorem witness_RequestsAreDecidedByTheFirstCheckThatFails :
    (((lit path0).fibre 0).tAdd = [0, 0, 0, 0] ∧ ((lit path0).fibre 0).slots = [] ∧ ((lit path0).fibre 0).lMeas = []) ∧
    Asked (lit path0 [ask 200]) placedTid 10 6 200 0 false 1 true [] ∧ (lit path0).spool.restarting = false ∧
    ((lit path0).path 7).entry.valid = false ∧ ((lit path0).path 6).entry.owner ≠ 2 ∧ ((256 : Nat) < 257 ∧ (256 : Nat) ≤ 256) ∧
    ((changing 0 200 1 1 .stepA).path 6).trans.isSome = true ∧ castOpen (lit path0) 6 = false ∧
    (∀ m ∈ [1, 2, 3, 4], 9 < gReq (lit path0) path0 m 0) ∧ gReq (lit path0) path0 1 0 = 10 ∧
    (gReq (lit path0) path0 4 0 ≤ 256 ∧ ((lit path0 [] { Fibre.reset with budget := 1000 }).fibre 0).budget <
      path0.entry.count * 256 + committedTotal (lit path0 [] { Fibre.reset with budget := 1000 }) 0 6) ∧
    (Dark ((lit path0).path 6) ∧ gReq (lit path0) path0 1 0 ≤ 21 ∧ (∀ k ∈ [2, 3, 4], 21 < gReq (lit path0) path0 k 0) ∧
      path0.entry.count * 21 + committedTotal (lit path0) 0 6 ≤ ((lit path0).fibre 0).budget ∧ lightFree (lit path0) 6 path0 21 = true ∧
      (∀ e ∈ onFibre (lit path0) 0, e.1 ≠ 6 → e.2.trans.isNone = true)) ∧
    (lit path0).spool.requests = [] := by
  and_intros <;> decide +kernel

theorem witness_GrantChangesRunTheirSteps :
    (let s := changing 200 220 1 1 .stepA
     let s1 := s.modPath 6 fun p => { p.from 0 with order := 1, fan := 0 }
     AtStep s 6 (change 200 220 1 1 .stepA) .stepA ∧ boundaryOf s (s.path 6) = some 0 ∧ raiseHeld s1 6 (s1.path 6) 220 = false) ∧
    (let s := { changing 200 220 1 1 .stepA with cycle := 1 }
     let s := { s with spool := { s.spool with fibres := [(0, { Fibre.reset with up := true, peer := 1, reached := setAdd [] 1 })] } }
     boundaryOf (s.modPath 6 fun p => { p with state := .up, nextFlit := 7 }) ((s.modPath 6 fun p => { p with state := .up, nextFlit := 7 }).path 6) = none) ∧
    (let s := { changing 200 256 1 1 .stepA with
                spool := { (changing 200 256 1 1 .stepA).spool with fibres := [(0, { Fibre.reset with budget := 900 })] } }
     let s1 := s.modPath 6 fun p => { p.from 0 with order := 1, fan := 0 }
     AtStep s 6 (change 200 256 1 1 .stepA) .stepA ∧ boundaryOf s (s.path 6) = some 0 ∧ raiseHeld s1 6 (s1.path 6) 256 = true) ∧
    AtStep (changing 200 100 1 1 .stepA) 6 (change 200 100 1 1 .stepA) .stepA ∧ AtStep (changing 200 200 2 1 .stepA) 6 (change 200 200 2 1 .stepA) .stepA ∧
    (AtStep (changing 200 220 1 1 .waiting) 6 (change 200 220 1 1 .waiting) .waiting ∧
      (6, (changing 200 220 1 1 .waiting).path 6) ∈ onFibre (changing 200 220 1 1 .waiting) 0 ∧
      raiseHeld (changing 200 220 1 1 .waiting) 6 ((changing 200 220 1 1 .waiting).path 6) 220 = false ∧
      (let s := { changing 200 256 1 1 .waiting with
                  spool := { (changing 200 256 1 1 .waiting).spool with fibres := [(0, { Fibre.reset with budget := 900 })] } }
       raiseHeld s 6 (s.path 6) 256 = true)) ∧
    (∀ ends ∈ [0, 1], AtStep (changing 0 200 2 1 (.ramp ends)) 6 (change 0 200 2 1 (.ramp ends)) (.ramp ends) ∧
      ((changing 0 200 2 1 (.ramp ends)).path 6).order < 2) ∧ (changing 0 200 2 1 (.ramp 1)).cycle.toNat < 1 ∧ (0 : Nat) ≤ (changing 0 200 2 1 (.ramp 0)).cycle.toNat ∧
    (let s := lit { up0 with grant := 0, order := 0, trans := some (change 200 0 0 0 (.ramp 0)) }
     AtStep s 6 (change 200 0 0 0 (.ramp 0)) (.ramp 0) ∧ (0 : Nat) ≤ (s.path 6).order ∧ (s.path 6).grant = 0) ∧
    (let s := { changing 0 200 2 1 (.stepC 0) with links := { State.reset.links with peers := [(1, { Peer.reset with session := true })] } }
     AtStep s 6 (change 0 200 2 1 (.stepC 0)) (.stepC 0) ∧ (s.path 6).grant ≠ 0 ∧ (s.path 6).state = .settling ∧
       boundaryOf s (s.path 6) = some 0 ∧ 2 ≤ max 1 (bestOrder s (s.path 6) (s.path 6).fan (s.path 6).grant) ∧
       (∀ q ∈ reachedPeers s (s.path 6), (s.peer q).session = true)) ∧
    ({ lit path0 with spool := { (lit path0).spool with restarting := true } }).spool.restarting = true := by
  and_intros <;> decide +kernel

theorem witness_ColoursAgeingAndWatchdogKeepLinksRunning :
    ((168 : Nat) ≤ (lit up0).host.ber ∧ (lit up0).host.ber < 169 ∧ colourPath (lit up0) 0 3 = some 6 ∧ ((lit up0).path 6).order ≠ 0 ∧
      colourWorks ((lit up0).fibre 0) 3 = true) ∧
    (let s := lit path0 [] { Fibre.reset with training := [(63, 1)] }
     tabGet (s.fibre 0).training 63 = some 1 ∧ s.spool.restarting = false ∧ colourPath s 0 63 = none ∧ tabGetD (s.fibre 0).failures 63 0 + 1 < 3) ∧
    (let s := lit path0 [] { Fibre.reset with training := [(63, 1)], failures := [(63, 2)] }
     tabGet (s.fibre 0).training 63 = some 1 ∧ 3 ≤ tabGetD (s.fibre 0).failures 63 0 + 1) ∧
    tabGet ((lit path0).fibre 0).training 63 ≠ some 1 ∧ boundaryOf (lit up0) ((lit up0).path 6) ≠ none ∧
    (((lit path0).fibre 0).sources.getLsbD 15 = true ∧ (15 : Nat) < 16 ∧
      ((lit path0 [] { Fibre.reset with sources := 0x7FFF }).fibre 0).sources.getLsbD 15 = false ∧
      setHas ((lit path0 [] { Fibre.reset with sources := 0x7FFF }).fibre 0).dead 63 = false) ∧
    ((1 : Nat) < ((lit path0).fibre 0).m0min ∧ ((lit path0).fibre 0).m0max < 5 ∧ ((lit path0).fibre 0).m0min ≤ 4 ∧ 4 ≤ ((lit path0).fibre 0).m0max ∧
      4 ≠ ((lit path0).fibre 0).m0 ∧ onFibre (lit up0) 0 = [(6, up0)] ∧ up0.trans = none) ∧
    ((lit path0).spool.restarting = false ∧
      (let s := { changing 0 200 2 1 (.ramp 8000) with spool := { (changing 0 200 2 1 (.ramp 8000)).spool with restarting := true } }
       s.spool.restarting = true ∧ (s.path 6).trans = some (change 0 200 2 1 (.ramp 8000)))) := by
  and_intros <;> decide +kernel

/-- A colour that has trained long enough, whatever time that takes; and a count of leaves that allows an exchange. -/
theorem witness_retraining_ends_and_leaves_suffice :
    (let s := { lit path0 [] { Fibre.reset with training := [(63, 1)] } with cycle := 0x1_0000_0000 }
     tabGet (s.fibre 0).training 63 = some 1 ∧ 1 + (Config.retrainTicks 0 63).toNat ≤ s.cycle.toNat + 1 ∧ s.spool.restarting = false ∧
       colourPath s 0 63 = none) ∧
    (let s := { stt mover with links := { State.reset.links with allow := [7] } }
     s.links.allow.contains 7 = true ∧ s.links.used + Config.exchangeLeaves.toNat ≤ 2 ^ 20) := by
  refine ⟨⟨by decide +kernel, ?_, by decide +kernel, by decide +kernel⟩, by decide +kernel, ?_⟩
  · have h := (Config.retrainTicks 0 63).isLt
    show 1 + (Config.retrainTicks 0 63).toNat ≤ (0x1_0000_0000 : Word).toNat + 1
    have e : (0x1_0000_0000 : Word).toNat = 2 ^ 32 := by decide
    omega
  · have h := Config.exchangeLeaves.isLt
    show 0 + Config.exchangeLeaves.toNat ≤ 2 ^ 20
    omega

/-! ### Hypotheses met: flits, the Bridle, peers, circuits -/

/-- A part whose path 6 is up on a standing circuit to package 1, with a session, a stream and a route. -/
def linked (st : Stream := Stream.reset) (k : Nat := 0) (peer : Peer := { Peer.reset with session := true }) (f : Fibre := Fibre.reset) : State :=
  { lit { up0 with streams := [(k, st)] } [] { f with up := true, peer := 1, reached := setAdd [] 1, confirmed := setAdd [] 1 } with
    links := { State.reset.links with peers := [(1, peer)], routes := [(1, [1])] } }

/-- A flit to be sent, and one as received. -/
def flit (first : Bool) : FlitRec :=
  { cmd := none, seq := 0, kind := 1, cls := 0, first := first, die := 0, len := 1, place := 0, payload := List.replicate 64 0, under := none,
    unacked := [1] }
def sealed (first : Bool) : FlitRec := { flit first with under := some (1, 0, 0) }

theorem at_boundary {s pid b} (h : flitsFlow s (s.path pid) = true ∧ boundaryOf s (s.path pid) = some b ∧ (s.path pid).leaving = []) :
    AtBoundary s pid b := ⟨h.1, h.2.1, h.2.2⟩

theorem sends {s pid k b} (h : AtBoundary s pid b) (hk : sendingStream s (s.path pid) = some k)
    (hn : dueStream s (s.path pid) (·.nakDue) = none) : Sends s pid k b := { h with stream := hk, noNak := hn }

theorem hears_of {s pid peer} (h : flitsFlow s (s.path pid) = true ∧ hears s (s.path pid) peer = true) : Hears s pid peer := ⟨h.1, h.2⟩
def got (kind : Nat) (seq : BitVec 16) (len : Nat) : FlitIn :=
  { kind := kind, cls := 2, first := true, die := 0, seq := seq, len := len, payload := List.replicate 64 0 }

theorem witness_FlitsAreSentInOrderAndKeptUntilAcknowledged :
    (0 < (stripeSet (linked) up0).length ∧ 0 < up0.order ∧ up0.order ≤ 4 ∧ (0 : Nat) < 1) ∧
    ((lit path0).path 6).leaving = [] ∧ (flitsFlow (lit path0) ((lit path0).path 6) = false) ∧
    (∀ f ∈ [flit false, sealed false], let s := linked { Stream.reset with queue := [f] }
     (flitsFlow s (s.path 6) = true ∧ boundaryOf s (s.path 6) = some 0 ∧ (s.path 6).leaving = []) ∧ sendingStream s (s.path 6) = some 0 ∧
       dueStream s (s.path 6) (·.nakDue) = none ∧ ((s.path 6).stream 0).resendFrom = none ∧ ((s.path 6).stream 0).queue = [f] ∧
       ((s.path 6).stream 0).replay.length < 1024 ∧ (∀ q ∈ receivers s (s.path 6) 0, (s.peer q).txCount < 2 ^ 48) ∧ receivers s (s.path 6) 0 = [1]) ∧
    ((sealed false).under.isSome = true ∧ (flit false).under = none ∧ (flit false).len = 1 ∧ (flit false).place = 0 ∧ (flit false).payload.length = 64) ∧
    (let s := linked { Stream.reset with resendFrom := some 0, replay := [sealed true], next := 1 }
     (flitsFlow s (s.path 6) = true ∧ boundaryOf s (s.path 6) = some 0 ∧ (s.path 6).leaving = []) ∧ sendingStream s (s.path 6) = some 0 ∧
       dueStream s (s.path 6) (·.nakDue) = none ∧ ((s.path 6).stream 0).resendFrom = some 0 ∧
       findIx (fun (x : FlitRec) => x.seq == 0) ((s.path 6).stream 0).replay = some 0 ∧ ((s.path 6).stream 0).replay[0]? = some (sealed true) ∧
       ackStream s (s.path 6) 1 = 0) ∧
    (let s := linked
     (flitsFlow s (s.path 6) = true ∧ boundaryOf s (s.path 6) = some 0 ∧ (s.path 6).leaving = []) ∧ sendingStream s (s.path 6) = some 0 ∧
       dueStream s (s.path 6) (·.nakDue) = none ∧ dueStream s (s.path 6) (·.ackDue) = none ∧ ((s.path 6).stream 0).queue = []) ∧
    (let s := linked { Stream.reset with nakDue := true } 2
     (flitsFlow s (s.path 6) = true ∧ boundaryOf s (s.path 6) = some 0 ∧ (s.path 6).leaving = []) ∧
       dueStream s (s.path 6) (·.nakDue) = some 2) ∧
    (let s := linked { Stream.reset with ackDue := true } 2
     let s := { s with spool := { s.spool with
       paths := [(6, { s.path 6 with entry := { entry0 with peers := 1 :: 2 :: List.replicate 14 0xFFFF }, fan := 1 })]
       fibres := [(0, { s.fibre 0 with reached := setAdd (setAdd [] 1) 2 })] } }
     (flitsFlow s (s.path 6) = true ∧ boundaryOf s (s.path 6) = some 0 ∧ (s.path 6).leaving = []) ∧ sendingStream s (s.path 6) = none ∧
       dueStream s (s.path 6) (·.nakDue) = none ∧ dueStream s (s.path 6) (·.ackDue) = some 2) ∧
    (let s := linked { Stream.reset with replay := [flit true], next := 1 }
     ((s.path 6).stream 0).queue = [] ∧ ((s.fibre (s.path 6).entry.fibre).slots = [] ∧ (∀ r ∈ ((s.path 6).stream 0).replay, r.unacked = [1]) ∧
       seqUpTo 0 (((s.path 6).stream 0).next - 1) = true ∧ seqUpTo 1 (((s.path 6).stream 0).next - 1) = false ∧ ackStream s (s.path 6) 1 = 0 ∧
       flit true ∈ ((s.path 6).stream 0).replay ∧ (flit true).seq = 0)) := by
  and_intros <;> decide +kernel

theorem witness_FlitsAreReceivedInOrderAndItemsServed :
    ((got 1 0xFFFF 0xFFFF).kind < 16 ∧ (got 1 0xFFFF 0xFFFF).cls < 8 ∧ (got 1 0xFFFF 0xFFFF).len < 65536 ∧ (got 1 0xFFFF 0xFFFF).payload.length = 64) ∧
    (flitsFlow linked (linked.path 6) = true ∧ hears linked (linked.path 6) 1 = true) ∧ hears linked (linked.path 6) 2 = false ∧
    readFlit (List.replicate 80 0xFF) = none ∧
    (∀ k ∈ [0, 1, 2], readFlit (flitBytes (got k 0 1)) = some (got k 0 1)) ∧
    ((got 1 5 1).seq ≠ ((linked.path 6).stream 2).expect ∧ (got 1 0 1).seq = ((linked.path 6).stream 2).expect ∧ (1 : Nat) < (got 1 0 2).len ∧ (got 1 0 1).len ≤ 1) ∧
    (let w : WholeItem := { cls := 2, die := 0, bytes := List.replicate 48 0 }
     let st := { Stream.reset with whole := [w] }
     let s := { linked with spool := { (linked).spool with paths := [(6, { up0 with streams := [(2, st)] })] } }
     s.spool.paths = [(6, { up0 with streams := [(2, st)] })] ∧ itemMatches (wakeItem 0) w = true ∧ (wakeItem 0).dst / 8 = s.cfg.package ∧ (wakeItem 0).cls < 4 ∧
       queueFull s 4096 (wakeItem 0).body = false ∧ queueFull s 1 (wakeItem 0).body = false) ∧
    (let q : QueuedItem := { item := wakeItem 0, dest := 4096, since := 0 }
     let s := { linked with links := { (linked).links with queues := [q] } }
     (s.die 0).stuck = [] ∧ (s.die 0).outgoing = [] ∧ s.links.queues = [q] ∧ q.dest = 4096 + 0 ∧ q.item.dst / 8 = s.cfg.package ∧
       q.item.cls < 4 ∧ hasCredit s q.item.src q.item.dst q.item.cls = true) ∧
    (∀ e ∈ (lit path0).spool.paths, ∀ x ∈ e.2.streams, x.2.whole = []) ∧
    (let q : QueuedItem := { item := { wakeItem 0 with dst := 8 }, dest := 1, since := 0 }
     let s := { linked with links := { (linked).links with queues := [q] } }
     nextQueue s 6 = some (1, 0, 0) ∧ s.links.queues[0]? = some q ∧ reachStream s (s.path 6) 1 = some 0) := by
  and_intros <;> decide +kernel

theorem witness_PeersAreAttestedConfirmedAndKeyed :
    (((stt mover).peer 1).attesting = false ∧ ((linked Stream.reset 0 { Peer.reset with attesting := true }).peer 1).attesting = true ∧
      circuitTo (linked Stream.reset 0 { Peer.reset with attesting := true }) 1 = true) ∧
    ((linked.peer 1).session = true ∧ (linked.peer 1).txCount < 2 ^ 48 ∧
      2 ^ 48 ≤ ((linked Stream.reset 0 { Peer.reset with session := true, txCount := 2 ^ 48, rxCount := 2 ^ 48 }).peer 1).txCount) ∧
    (((stt mover).fibre 0).up = false ∧ setHas ((lit up0).fibre 0).confirmed 1 = false) ∧
    (let s := lit up0 [] { Fibre.reset with up := true, peer := 1, slots := [{ peer := 1, port := 0, dur := 4000, guard := 0 }] }
     (s.fibre 0).up = true ∧ setHas (s.fibre 0).confirmed 1 = false ∧ setHas (s.fibre 0).confirmed 2 = false ∧ (6, up0) ∈ onFibre s 0 ∧ 0 < up0.grant ∧ (s.fibre 0).slots ≠ [] ∧ 2 ≠ (s.fibre 0).peer ∧
       1 = (s.fibre 0).peer ∧ (s.fibre 0).faces 1 = true) := by
  and_intros <;> decide +kernel

/-- Two slots, and a fibre that runs them. -/
def slot1 : SlotEntry := { peer := 1, port := 0, dur := 4000, guard := 0 }
def slotted (up confirmed : Bool) (w : WindowState) : Fibre :=
  { Fibre.reset with up := up, peer := 1, slots := [slot1, { slot1 with peer := 2, guard := 3999 }], confirmed := if confirmed then setAdd [] 1 else [], window := w }

/-- A part at a cycle whose fibre 5, which no path lies on, runs slots. -/
def slotsAt (cycle : Word) (f : Fibre) : State := { lit up0 with spool := { (lit up0).spool with fibres := [(5, f)] }, cycle := cycle }

theorem witness_CircuitsWindowsAndSlotTables :
    (((lit up0).fibre 5).slots = [] ∧ ((lit up0).fibre 5).committed = none ∧ ((lit up0).fibre 5).up = false ∧ onFibre (lit up0) 5 = [] ∧ (1 : Nat) ≤ 15 ∧ 4095 < 4096) ∧
    (let p := { up0 with state := .down }
     ((lit p).fibre 0).up = false ∧ onFibre (lit p) 0 = [(6, p)] ∧ (lit p).path 6 = p ∧ p.grant ≠ 0 ∧ p.state = .down ∧ stripeSet (lit p) p ≠ []) ∧
    (let s := slotsAt 0 (slotted false false .closed)
     (s.fibre 5).committed = none ∧ (s.fibre 5).slots ≠ [] ∧
       (s.fibre 5).slots[((s.fibre 5).slotIx + 1) % (s.fibre 5).slots.length]? = some { slot1 with peer := 2, guard := 3999 } ∧ (s.fibre 5).up = false ∧
       onFibre s 5 = []) ∧
    (InSlot (slotsAt 0 (slotted true false .closed)) 5 slot1 ∧ (slotsAt 0 (slotted true false .closed)).cycle.toNat < 0 + slot1.dur) ∧
    (onFibre (lit up0 [] { Fibre.reset with up := true, peer := 1 }) 0 = [(6, up0)] ∧ (lit up0 [] { Fibre.reset with up := true, peer := 1 }).path 6 = up0) ∧
    (InSlot (slotsAt 3000 (slotted true true .closed)) 5 slot1 ∧ setHas (slotted true true .closed).confirmed (slotted true true .closed).peer = true ∧
      (∀ e ∈ onFibre (slotsAt 3000 (slotted true true .closed)) 5, e.2.state ≠ .training) ∧
      0 + (if slot1.guard = 0 then 3000 else slot1.guard) ≤ (slotsAt 3000 (slotted true true .closed)).cycle.toNat ∧
      (slotsAt 3999 (slotted true true .closed)).cycle.toNat < 0 + slot1.dur ∧
      (slotsAt 2999 (slotted true true .closed)).cycle.toNat < 0 + (if slot1.guard = 0 then 3000 else slot1.guard)) ∧
    (InSlot (slotsAt 4000 (slotted true true .opened)) 5 slot1 ∧ (slotted true true .opened).window ≠ .tail ∧
      (slotted true true .opened).upTick + slot1.dur ≤ (slotsAt 4000 (slotted true true .opened)).cycle.toNat) ∧
    (∀ i ∈ [Instr.circ 10 11 8 0 true, .circ 10 11 9 47 false, .circ 10 7 8 0 true, .circ 10 12 8 0 true],
      ∀ t ∈ [thr [(7, 1), (8, 64), (9, 65), (11, 0x100), (12, 0x7FFF8)]], Ready i (stt t) t ∧ 64 < (t.g 9).toNat ∧ (t.g 8).toNat ≤ 64 ∧ (t.g 7).toNat % 8 ≠ 0 ∧
        (t.g 11).toNat % 8 = 0 ∧ firstUnreadable (stt t) t.core (t.g 11) (16 * (t.g 8).toNat) = none ∧ Sound (stt t) t.core (t.g 11).toNat (16 * (t.g 8).toNat) ∧
        (firstUnreadable (stt t) t.core (t.g 12) (16 * (t.g 8).toNat)).isSome = true) ∧
    (∀ bad ∈ [true, false], (lit path0 [.circ placedTid 10 5 true [slot1] bad true]).spool.requests[0]? = some (.circ placedTid 10 5 true [slot1] bad true)) ∧
    (lit path0).links.retopo = none := by
  and_intros <;> decide +kernel

/-! ### Hypotheses met: the host's side -/

/-- The words of the command that a queue takes, if it takes one of an op and a kind. -/
def taken (s : State) (op kind : Nat) : Option (List Word) :=
  match takeCommand s 0 op kind with
  | .command _ _ w => some w
  | _ => none

/-- A command taken is a command the statements speak of. -/
theorem taken_commands {s op kind w} (h : taken s op kind = some w) : ∃ s1 ix, Commands s 0 op kind s1 ix w := by
  unfold taken at h
  split at h
  · rename_i s1 ix w' e
    exact ⟨s1, ix, by rw [← Option.some.inj h]; exact e⟩
  · cases h

/-- The state beside a command taken. -/
def after (s : State) (op kind : Nat) : State :=
  match takeCommand s 0 op kind with
  | .command s1 _ _ => s1
  | _ => s

/-- Eight words of a command: op and kind, no result yet, and its operands. -/
def words (op kind : Nat) (rest : List Word) : List Word := [BitVec.ofNat 64 (op + kind * 256), 0] ++ rest ++ List.replicate (6 - rest.length) 0

theorem witness_HostCommandsRegistersAndWindowsAct :
    (let s := commanded (words 4 0 [0x8000_0000_0010_0000, 0x8000_0000_0011_0000, 64])
     (s.queue 0).enabled = true ∧ ((s.queue 0).started - (s.queue 0).head).toNat < ((s.queue 0).tail - (s.queue 0).head).toNat ∧ s.host.status / 2 % 2 = 1 ∧
       (slotWords s 0 0).2 = some (words 4 0 [0x8000_0000_0010_0000, 0x8000_0000_0011_0000, 64]) ∧ commandKinds 4 = some 0 ∧ commandWaits 4 = false ∧
       taken s 4 0 = some (words 4 0 [0x8000_0000_0010_0000, 0x8000_0000_0011_0000, 64]) ∧
       (placeOf (after s 4 0) 0 0x8000_0000_0010_0000).isSome = true ∧ eaLocal 0x8000_0000_0010_0000 = false ∧ (64 : Nat) ≤ 2 ^ 36) ∧
    (taken (commanded (words 4 0 [1, 8, 64])) 4 0).isSome = true ∧ (taken (commanded (words 4 0 [8, 0x8000_0000_0011_0000, 64])) 4 0).isSome = true ∧
    eaLocal 8 = true ∧
    (let s := commanded (words 6 2 []); (slotWords s 0 0).2 = some (words 6 2 []) ∧ commandKinds 6 = some 1 ∧ (1 : Nat) < 2 ∧
      (match takeCommand s 0 6 2 with | .refused _ => true | _ => false) = true) ∧
    ((commanded []).queue 0).done = [] ∧ ((64 : BitVec 32) - ((commanded []).queue 0).head).toNat ≤ 2 ^ ((commanded []).queue 0).log2 ∧
    2 ^ ((commanded []).queue 0).log2 < ((65 : BitVec 32) - ((commanded []).queue 0).head).toNat ∧
    (((stt mover).queue 63).busy = false ∧ ((stt mover).queue 63).base % 64 = 0 ∧ ((stt mover).queue 63).base + 64 * 2 ^ 16 ≤ 2 ^ 48 ∧
      ((commanded []).queue 0).busy = true ∧ ((stt mover).queue 63).enabled = false) ∧
    ((5 : Word).toNat % 32 < 6 ∧ 16 < (17 : Word).toNat % 32 ∧ 512 ≤ (512 : Word).toNat) ∧
    (rangeMapped (commanded []) 0 0x1FFFFE 8 true = false ∧ rangeMapped (commanded []) 0 0x20000 8 true = true) := by
  and_intros <;> decide +kernel

/-- A descriptor's bytes: its first three words and the limit of its save area. -/
def desc (w0 w1 w2 limit : Nat) : List Byte :=
  natLE w0 8 ++ natLE w1 8 ++ natLE w2 8 ++ List.replicate 16 0 ++ natLE limit 8 ++ List.replicate 208 0

/-- One thread of window 8 on four cores of one die; and two dies, where only those of a busy part are left. -/
def goodDesc (limit : Nat) : List Byte := desc 0x40 (1 + 8 * 2 ^ 24) (1 + 1 * 2 ^ 4 + 4 * 2 ^ 16) limit

/-- A launch that is stopping, or stopped, without a thread left running. -/
def phased (p : Phase) : Launch := { placedLaunch with phase := p, cores := [], dies := [] }

/-- Whether a launch is placed, with its id, or the reason it is refused with. -/
def placed : Except Nat LaunchPlan → Bool × Nat
  | .ok p => (true, p.lid)
  | .error r => (false, r)

theorem witness_LaunchesStartStopAndResume :
    (taken (commanded (words 1 0 [0x2000_0000_0000_0001])) 1 0).isSome = true ∧ (0x2000_0000_0000_0001 : Word).toNat % 64 ≠ 0 ∧
    ((taken (commanded (words 1 0 [0x2000_0000_0000_0000])) 1 0).isSome = true ∧
      (partRead (after (commanded (words 1 0 [0x2000_0000_0000_0000])) 1 0) 0x2000_0000_0000_0000 256).2.isSome = true) ∧
    placed (planLaunch (stt mover) (List.replicate 256 0)).2 = (false, 1) ∧ placed (planLaunch State.reset (goodDesc 2048)).2 = (true, 1) ∧
    (descReserved (List.replicate 256 0xFF) = false ∧ descLimits (stt mover) (readDesc (List.replicate 256 0)) = false) ∧
    (descReserved (goodDesc 2047) = true ∧ descLimits State.reset (readDesc (goodDesc 2047)) = true ∧
      (readDesc (goodDesc 2047)).spillLimit < (readDesc (goodDesc 2047)).threads * (if (readDesc (goodDesc 2047)).travelling then 18432 else 2048)) ∧
    (let busy := { State.reset with cores := (List.range 8).map fun d => (256 * d, core0) }
     descLimits busy (readDesc (goodDesc 2048)) = true ∧
       (readDesc (goodDesc 2048)).threads * (if (readDesc (goodDesc 2048)).travelling then 18432 else 2048) ≤ (readDesc (goodDesc 2048)).spillLimit ∧
       ((List.range 8).filter (dieFree busy (readDesc (goodDesc 2048)))).length < (readDesc (goodDesc 2048)).dmin) ∧
    (taken (commanded (words 2 0 [1])) 2 0 = some (words 2 0 [1]) ∧ taken (commanded (words 2 0 [9])) 2 0 = some (words 2 0 [9]) ∧
      taken (commanded (words 3 0 [9])) 3 0 = some (words 3 0 [9]) ∧ taken (commanded (words 10 0 [9])) 10 0 = some (words 10 0 [9]) ∧
      taken (commanded (words 10 0 [1, 4096])) 10 0 = some (words 10 0 [1, 4096])) ∧
    (let s := after (commanded (words 2 0 [1])) 2 0
     s.launch? 9 = none ∧ s.launch? 1 = some placedLaunch ∧ placedLaunch.phase = .live ∧ s.threadsOf 1 ≠ [] ∧
       lowestSlots (usedRecords s 1) (contextHolders s 1).length = [0] ∧ (0 + 1) * recordSize placedLaunch ≤ placedLaunch.desc.spillLimit ∧
       ¬ (0 + 1) * recordSize placedLaunch ≤ 2047) ∧
    (let s := { stt mover with launches := [(1, placedLaunch), (2, phased (.preempting 0 0 0 []))], threads := [], issue := none }
     let s0 := withdrawWaits s 2
     s.launch? 2 = some (phased (.preempting 0 0 0 [])) ∧ launchStopped s0 2 (phased (.preempting 0 0 0 [])) = true ∧
       ((phased (.preempting 0 0 0 [])).cores.foldl (fun s g => saveErrors (stopMatrix s g) (phased (.preempting 0 0 0 [])) g) s0 = s0) ∧
       (saveRecords ((contextHolders s0 2).foldl (fun s e => s.setThread e.1 (stoppedThread e.2)) s0) 2 (phased (.preempting 0 0 0 [])) 0).isSome = true) ∧
    (let busy := { stt mover with launches := [(1, { placedLaunch with phase := .preempting 0 0 0 [] })] }
     managerBusy busy (List.range 8) = true ∧ managerBusy (stt mover) (List.range 8) = false ∧
       (let held := { commanded (words 2 0 [1]) with launches := [(1, { placedLaunch with phase := .preempting 0 0 0 [] })] }
        commandHeld held 0 2 true = true) ∧
       (let held := { commanded (words 3 0 [1]) with launches := [(1, { placedLaunch with phase := .preempting 0 0 0 [] })] }
        commandHeld held 0 3 true = true) ∧
       (let held := { commanded (words 10 0 [1]) with launches := [(1, { placedLaunch with phase := .preempting 0 0 0 [] })] }
        commandHeld held 0 10 false = true) ∧
       commandHeld (commanded (words 2 0 [1])) 0 2 true = false ∧ commandHeld (commanded (words 3 0 [9])) 0 3 true = false ∧
       commandHeld (commanded (words 10 0 [1, 4096])) 0 10 false = false) ∧
    (let s := { stt { mover with pending := setAdd [] 5 } with launches := [(1, { placedLaunch with phase := .preempting 0 0 0 [] })] }
     launchStopped (withdrawWaits s 1) 1 { placedLaunch with phase := .preempting 0 0 0 [] } = false) ∧
    (let s := { stt mover with launches := [(2, phased (.preempted 0))] }
     (phased (.preempted 0)).phase = .preempted 0 ∧ coresFree s (phased (.preempted 0)) = true ∧
       (resumeLaunch s 2 (phased (.preempted 0)) 0).isSome = true ∧ coresFree s { placedLaunch with phase := .preempted 0 } = false) ∧
    ((words 10 0 [1, 2047]).getD 3 0).toNat < placedLaunch.desc.spillLimit ∧ placedLaunch.desc.spillLimit ≤ ((words 10 0 [1, 4096]).getD 3 0).toNat ∧
    (∀ e ∈ (after (commanded (words 10 0 [1, 4096])) 10 0).threadsOf 1, e.2.status = .seated 0 0) := by
  and_intros <;> decide +kernel

/-- A part whose event area of 4 records lies in host memory. -/
def area (held : List EventRec) (dropped prod : Nat) : State :=
  { stt mover with host := { HostIf.reset with evBase := 0x2000_0000_0000_1000, evSize := 4, evHeld := held, dropped := dropped, evProd := prod } }

theorem witness_BringUpEventsErrorsAndTrips :
    ((commanded []).host.status % 2 = 1 ∧ State.reset.host.status % 2 = 0) ∧
    (let s := area [] 0 3
     s.host.evHeld = [] ∧ s.host.dropped = 0 ∧ s.host.evProd - s.host.evCons < s.host.evSize ∧
       eaHost (s.host.evBase + BitVec.ofNat 64 (64 * (s.host.evProd % s.host.evSize))) = true) ∧
    ((area [] 0 4).host.evSize ≤ (area [] 0 4).host.evProd - (area [] 0 4).host.evCons ∧ (area [] 0 4).host.evHeld.length < 256 ∧ eventSpace (area [] 0 4) = false) ∧
    256 ≤ (area (List.replicate 256 (recordOf (stt mover) 1 0 0 0 [])) 0 4).host.evHeld.length ∧
    (let r := recordOf (stt mover) 1 0 0 0 []; eventSpace (area [r] 0 0) = true ∧ (area [r] 0 0).host.evHeld = [r] ∧ (area [r] 0 0).host.dropped = 0) ∧
    (eventSpace (area [] 1 0) = true ∧ (area [] 1 0).host.dropped = 0 + 1 ∧ (area [] 1 0).host.evHeld = []) ∧
    (((stt mover).die 7).power < 3 ∧ 3 ≤ ({ stt mover with dies := [(7, { Die.reset with power := 3 })] }.die 7).power) ∧
    (((stt mover).die 7).corrected % 1024 ≠ 1023 ∧ ({ stt mover with dies := [(7, { Die.reset with corrected := 1023 })] }.die 7).corrected % 1024 = 1023) ∧
    (stt mover).thread? placedTid = some mover ∧ ((eng (cmd .moving)).core 0).engine[0]? = some (cmd .moving) ∧ (cmd .moving).phase = .moving ∧
    (∀ x ∈ ((eng (cmd .moving)).core 0).engine, x.id = (cmd .moving).id → x = cmd .moving) := by
  and_intros <;> decide +kernel

theorem witness_PolicyIdentityAndResetCommandsAct :
    (∀ x ∈ [(6, 0, [(1 : Word), 3]), (6, 0, [1, 2]), (6, 1, [4096]), (6, 1, [4095]), (6, 1, [196607]), (7, 0, [0, 6144, 0xF242]), (7, 0, [47, 6145, 0xF242]),
        (8, 0, [0x2000_0000_0000_0000, 2]), (8, 1, [4095]), (8, 2, [1]), (8, 3, []), (8, 4, []), (9, 0, []),
        (9, 1, [0, 0, 0, 0, 10000, 168]), (9, 1, [64, 0, 0, 0, 10000, 168]), (9, 2, [0x2000_0000_0000_0000, 64])],
      taken (commanded (words x.1 x.2.1 x.2.2)) x.1 x.2.1 = some (words x.1 x.2.1 x.2.2)) ∧
    (dieHeld (commanded []) 0 = true ∧ dieHeld (commanded []) 7 = false ∧ managerBusy (commanded []) [0] = false) ∧
    (((List.range 48).map fun f => (State.reset.fibre f).budget).sum ≤ 196608 ∧ 196607 < ((List.range 48).map fun f => (State.reset.fibre f).budget).sum) ∧
    (accountedTotal (commanded []) 0 none ≤ 6144 ∧ budgetSum (commanded []) (fun x => if x = 0 then some 4096 else none) ≤ (commanded []).host.laserCap ∧
      boundsExclude (commanded []) 0 2 4 15 = false ∧ boundsExclude (commanded []) 0 3 4 15 = true) ∧
    ((partRead (after (commanded (words 8 0 [0x2000_0000_0000_0000, 2])) 8 0) 0x2000_0000_0000_0000 (32 * 2)).2.isSome = true ∧
      (partRead (after (commanded (words 9 2 [0x2000_0000_0000_0000, 64])) 9 2) 0x2000_0000_0000_0000 64).2.isSome = true) ∧
    ((∃ e ∈ linked.links.peers, e.2.session = true) ∧ (∀ e ∈ (commanded []).links.peers, e.2.session = false)) ∧
    ((1, placedLaunch) ∈ (commanded []).launches ∧ placedLaunch.isLive = true ∧ (64 : Word) ≠ (commanded []).host.evBase) := by
  and_intros <;> decide +kernel

/-- A topology change of the route to package 1 over path 6. -/
def retopo1 (drained : Bool) : Retopo :=
  { q := 0, slot := 0, peers := setAdd [] 1, paths := setAdd [] 6, routes := [(1, [1])], fibres := [], start := 0, limit := 1000, drained := drained }
def retopoing (drained : Bool) (st : Stream) : State := { linked st with links := { (linked st).links with retopo := some (retopo1 drained) } }

theorem witness_TopologyChangesDrainAndResume :
    ({ commanded [] with spool := { State.reset.spool with restarting := true } }.spool.restarting = true ∧ (retopoing false Stream.reset).links.retopo ≠ none) ∧
    (taken (commanded (words 5 0 [0x2000_0000_0000_0000, 0, 0x2000_0000_0001_0000, 1000])) 5 0 =
        some (words 5 0 [0x2000_0000_0000_0000, 0, 0x2000_0000_0001_0000, 1000]) ∧
      (commanded []).spool.restarting = false ∧ (commanded []).links.retopo = none ∧ (readRetopo (commanded []) 0 0 (words 5 0 [0x2000_0000_0000_0000, 0, 0x2000_0000_0001_0000, 1000])).2.isSome = true) ∧
    (taken (commanded (words 5 0 [0x2000_0000_0000_0000, 0x0001_0000_0000_0000])) 5 0).isSome = true ∧ 2 ^ 48 ≤ (0x0001_0000_0000_0000 : Word).toNat ∧
    ((retopo1 false).drained = false ∧ pathDrained ((retopoing false { Stream.reset with queue := [flit true] }).path 6) = false ∧
      pathDrained ((retopoing false Stream.reset).path 6) = true ∧ atomsOut (retopoing false Stream.reset) (retopo1 false) = [] ∧
      litPathsTo (retopoing false Stream.reset) (retopo1 false).peers = [6] ∧
      (let s := { retopoing false Stream.reset with net := { Net.reset with ratoms := [{ rat with home := 8 }] } }
       atomsOut s (retopo1 false) ≠ [] ∧ s.cycle.toNat < (retopo1 false).start + 2000 * (retopo1 false).limit)) ∧
    (tabGetD (retopo1 false).routes 1 [] ≠ [] ∧ (∀ h ∈ tabGetD (retopo1 false).routes 1 [], hopUp { retopoing false Stream.reset with spool := State.reset.spool } h = false)) ∧
    ((retopo1 true).drained = true ∧ (∀ p ∈ (retopo1 true).peers, ∃ h ∈ tabGetD (retopo1 true).routes p [], hopUp (retopoing true Stream.reset) h = true)) := by
  and_intros <;> decide +kernel

/-! ### Hypotheses met: encoding and the machine as a whole -/

theorem witness_EncodedInstructionsDecodeToThemselves :
    ∀ i ∈ [Instr.nop, .mma 0 12 13 0 { fmt := .bf16, k := 255, m := 15, n := 15, ow := true, b32 := false, stride := 0x7FF8 }, .barc 127 0xFFFFFF .pod],
      i.wellFormed = true ∧ i.isEvent = false := by decide +kernel

theorem witness_WordsThatDecodeAreTheEncodedOnes :
    (tailLen 0x12 = some 6 ∧ (0x52A0_0000_0001 : Word).toNat < 2 ^ (8 * 6) ∧ (decodeInstr 0x12 0x52A0_0000_0001).isSome = true) ∧
    (tailLen 0x00 = some 0 ∧ (0 : Word).toNat < 2 ^ (8 * 0) ∧ decodeInstr 0x00 0 = some .nop) := by decide +kernel

/-- A part in which the next step takes a turn. -/
def next (guard : Byte) : State := { stt mover (nops guard) with issue := none }

/-- Whether an outcome is a next state, and whether it has opened a turn. -/
def opened : Host.Outcome State Fault Refusal → Option Bool
  | .next t => some t.issue.isSome
  | _ => none

/-- A part whose agenda holds an event, or an instruction. -/
def agenda (i : Instr) : State := { stt mover with agenda := [{ tick := 0, ev := i }], issue := none }

theorem witness_AStepRunsTheDecodedInstruction :
    (let s0 := { advance (next 0xFF) 1 with issue := none }
     (next 0xFF).agenda = [] ∧ (s0.die 0).power < 3 ∧ (s0.core 0).iss.lastTurn ≠ some (s0.coreClock 0) ∧
       selectSeat s0 0 (s0.coreClock 0) 16 1 = some (0, placedTid, mover) ∧ s0.thread? placedTid = some mover ∧ flowTo s0 placedTid 0 mover.pc = .here ∧
       fetchHead (s0.core 0) mover.pc = .head (.found 0x80FF 0) ∧ privilegedOp (headOp 0x80FF) = false ∧ decodeInstr (headOp 0x80FF) 0 = some .nop ∧
       decodeCheck .nop mover 0x80FF = none ∧ guardTrue mover 0x80FF = true ∧ mover.io.skipFail = none ∧ elsewhere s0 0 mover.pc = false) ∧
    ((agenda .eventAreaSpace).agenda = [{ tick := 0, ev := .eventAreaSpace }] ∧ Instr.isEvent .eventAreaSpace = true ∧
      opened (exec .eventAreaSpace { advanceTo { agenda .eventAreaSpace with agenda := [] } 0 with issue := none }) = some false) ∧
    opened (exec (.issueSelect 0) { advanceTo { next 0xFF with agenda := [] } 1 with issue := none }) = some true ∧
    Instr.isEvent .nop = false := by
  and_intros <;> decide +kernel

theorem witness_EveryStepKeepsLStoresCanonical :
    (∀ e ∈ (next 0xFF).cores, Memory.wf e.2.lstore = true) ∧ opened (step (next 0xFF)) = some false := by
  and_intros <;> decide +kernel

/-! ### Hypotheses met: the clauses of the second review -/

/-- Values that mts refuses: fstat's rounding mode 5, its QTRAP bit, 65, a tvb with a low bit, 512, a reserved bit of fstat. -/
def rejected : Thread := thr [(1, 0x140), (2, 0x4000), (3, 65), (4, 0x8000_0000_0000_4020), (5, 0x200), (6, 0x8000)]

theorem witness_special_registers_refuse :
    (∀ i ∈ [Instr.mfs 10 0x1FF, .mfs 10 0x0FF, .mts 1 0x1FF, .mts 1 0x012, .mts 2 0x012, .mts 3 0x019, .mts 4 0x100, .mts 5 0x010, .mts 6 0x012],
      Ready i (stt rejected) rejected) ∧
    rejected.privileged = true ∧ specialRead (stt rejected) uu.tid rejected 0x1FF = none ∧ specialWritable 0x1FF = false ∧
    mtsTrap (stt rejected) uu.tid rejected 0x1FF 0 = some (0x01, 0x1FF) ∧ mtsTrap (stt rejected) uu.tid rejected 0x012 (rejected.g 1) = some (0x01, 0x140) ∧
    mtsTrap (stt rejected) uu.tid rejected 0x012 (rejected.g 2) = some (0x04, 0x4000) ∧ mtsTrap (stt rejected) uu.tid rejected 0x019 (rejected.g 3) = some (0x01, 65) ∧
    mtsTrap (stt rejected) uu.tid rejected 0x100 (rejected.g 4) = some (0x01, 0x8000_0000_0000_4020) ∧
    mtsTrap (stt rejected) uu.tid rejected 0x010 (rejected.g 5) = some (0x01, 0x200) ∧ mtsTrap (stt rejected) uu.tid rejected 0x012 (rejected.g 6) = some (0x01, 0x8000) ∧
    ((rejected.g 2).toNat < 0x8000 ∧ (rejected.g 2).toNat / 2 ^ 6 % 8 ≤ 4 ∧ (stt rejected).launch? (tidLaunch uu.tid) = some placedLaunch ∧
      placedLaunch.desc.qtrap = false) := by
  and_intros <;> decide +kernel

/-- The last word of a die's address space in g10. -/
def edger : Thread := { mover with regs := tabPut mover.regs 10 0x8000_FFFF_FFFF_FFF8 }

theorem witness_address_checks_of_the_other_forms :
    (∀ r ∈ [(4, 7), (5, 7), (6, 7), (7, 5), (9, 6)], let a := BitVec.ofNat 7 r.1
      (∀ i ∈ [Instr.lde 10 a 0 mxe, .atom 10 a 0 2 true .relaxed 0 .add 0, .ldm 10 a 0 .relaxed 0, .stm a 10 0 .relaxed 0, .fem a true 0], Ready i (stt mover) mover) ∧
      checkAccess (stt mover) uu.tid mover (mover.g a + (mover.g 0 <<< 0) + (0 : BitVec 28).signExtend 64) 8 8 true true = .trap r.2 (mover.g a) ∧
      checkAccess (stt mover) uu.tid mover (mover.g a + (mover.g 0 <<< 0) + (0 : BitVec 24).signExtend 64) 8 8 true true = .trap r.2 (mover.g a) ∧
      checkAccess (stt mover) uu.tid mover (mover.g a) 8 8 false true = .trap r.2 (mover.g a)) ∧
    (∀ r ∈ [(4, 7), (5, 7), (6, 7), (9, 6)], let a := BitVec.ofNat 7 r.1
      (mover.g a + (0 : BitVec 28).signExtend 64).toNat % 8 = 0 ∧ (mover.g a + (0 : BitVec 28).signExtend 64).toNat % 128 + 8 * (0 + 1) ≤ 128 ∧
      checkAccess (stt mover) uu.tid mover (mover.g a + (0 : BitVec 28).signExtend 64) 8 8 true false = .trap r.2 (mover.g a) ∧
      checkAccess (stt mover) uu.tid mover (mover.g a + (0 : BitVec 28).signExtend 64) 8 8 false true = .trap r.2 (mover.g a)) ∧
    (checkAccess (stt mover) uu.tid mover (mover.g 1 + (mover.g 7 <<< 0) + (0 : BitVec 24).signExtend 64) 4 4 true true = .trap 5 0x7FFF9 ∧
      Ready (.atom 10 1 7 2 false .relaxed 0 .add 0) (stt mover) mover) ∧
    (Ready (.stm 7 10 0 .relaxed 0) (stt mover) mover ∧ (mover.g 7 + (0 : BitVec 28).signExtend 64).toNat % 8 ≠ 0) ∧
    (Ready (.fem 10 true 1023) (stt edger) edger ∧ checkAccess (stt edger) uu.tid edger (edger.g 10) (8 * (1023 + 1)) 8 false true = .global ∧
      2 ^ 48 < eaOffset (edger.g 10) + 8 * (1023 + 1)) := by
  and_intros <;> decide +kernel

theorem witness_loads_errors_waiters_and_busy_tiles :
    (let s := stt mover { core0 with errors := setAdd [] 0x20 }
     Ready (.ld 10 8 0 (mx .b4)) s mover ∧ OrderFree s uu mover .relaxed ∧
       checkAccess s uu.tid mover (mover.g 8 + (mover.g 0 <<< 0) + (0 : BitVec 28).signExtend 64) 4 4 true false = .lstore 0x100 ∧
       (wordMet (s.core mover.core).errors 0x100 4).isSome = true) ∧
    (let f : Waiter := { word := 0x20, tid := placedTid, want := .ldf 10 }
     let e : Waiter := { word := 0x20, tid := tid2, want := .lde 10 }
     let w : Waiter := { word := 0x20, tid := tid2, want := .stfwe 5 }
     (∀ x ∈ [f, { f with tid := tid2 }], x.word = 0x20 ∧ x.want = .ldf 10) ∧ (∀ x ∈ [e, { e with tid := placedTid }], x.word = 0x20 ∧ x.want = .lde 10) ∧
       (∀ x ∈ [w, { w with tid := placedTid }], x.word = 0x20 ∧ x.want = .stfwe 5) ∧ setHas core0.lempty 0x20 = false ∧ setHas emptied.lempty 0x20 = true ∧
       (∀ x ∈ [f], x.word ≠ 0x21)) ∧
    (∀ i ∈ [Instr.tld 63 8 0 0, .tst 63 8 0 0],
      let o : MmaOp := { tid := placedTid, tile := physTile mover 63, a := 0x1000, b := none, c := none, started := false, begun := 0, chunks := 0, flags := 0
                         x := { fmt := .i8, k := 0, m := 0, n := 0, ow := true, b32 := false, stride := 64 } }
      let s := stt mover { core0 with mx := { core0.mx with queue := [o] } }
      Ready i s mover ∧ tileBusy (s.core mover.core) (physTile mover 63) = true ∧
        tileMoveTrap s mover (mover.g 8 + (0 : BitVec 28).signExtend 64) 64 false = none ∧
        tileMoveTrap s mover (mover.g 8 + (0 : BitVec 28).signExtend 64) 64 true = none) := by
  and_intros <;> decide +kernel

/-- The numbers 1 and 2 of the formats are finite, and their sum, product and quotient in range. -/
theorem witness_finite_sums :
    FiniteCode .f64 0x3FF0_0000_0000_0000 ∧ FiniteCode .f64 0x4000_0000_0000_0000 ∧ FiniteCode .f32 0x3F80_0000 ∧ FiniteCode .f32 0x4000_0000 ∧
    FiniteCode .bf16 0x3F80 ∧ FiniteCode .f16 0x3C00 ∧ InRange .f64 (ratOf (decodeF .f64 0x3FF0_0000_0000_0000) + ratOf (decodeF .f64 0x4000_0000_0000_0000)) ∧
    InRange .f32 (ratOf (decodeF .f32 0x3F80_0000) + ratOf (decodeF .f32 0x4000_0000)) ∧
    InRange .f32 (ratOf (decodeF .f32 0x3F80_0000) * ratOf (decodeF .f32 0x4000_0000)) ∧
    InRange .f32 (ratOf (decodeF .f32 0x3F80_0000) / ratOf (decodeF .f32 0x4000_0000)) ∧ ratOf (decodeF .f32 0x4000_0000) ≠ 0 := by
  have fin : ∀ (f : Fmt) (c : Nat), (match decodeF f c with | .num .. => true | _ => false) = true → c < 2 ^ f.bits → FiniteCode f c := by
    intro f c h hc
    refine ⟨hc, ?_⟩
    revert h
    cases decodeF f c <;> simp
  unfold InRange
  exact ⟨fin _ _ (by decide +kernel) (by decide +kernel), fin _ _ (by decide +kernel) (by decide +kernel), fin _ _ (by decide +kernel) (by decide +kernel),
    fin _ _ (by decide +kernel) (by decide +kernel), fin _ _ (by decide +kernel) (by decide +kernel), fin _ _ (by decide +kernel) (by decide +kernel),
    by decide +kernel, by decide +kernel, by decide +kernel, by decide +kernel, by decide +kernel⟩

/-- A parked parent and the child it waits for, of a launch that may number no thread more. -/
def parent : Thread := alone (.parked (.reply (.done true))) fun t => { t with wsize := 64, tcount := 8, pending := setAdd [] 3 }
def childNote (s : State) : SpawnNote :=
  { parent := placedTid, d := 3, pair := { pa := 1, pb := 1 }, place := .die, last := true, state := childOf s uu.tid parent spx 0 ia0 5 }

theorem witness_spawns_wait_and_evictions_answer :
    (let t := thr [(2, 5)]
     let c := childOf (stt t) uu.tid t spx 1 (targetOf ia0 (spawnTarget spx)) (t.g 2)
     Ready (.spawn 3 2 1 { pa := 1, pb := 1 } spx) (stt t) t ∧ targetOut ia0 (spawnTarget spx) = false ∧ indicesUsed (stt t) 1 = false ∧
       childCore (stt t) 1 spx.place c = some 0 ∧ roomFor (stt t) 0 0 c.wsize c.tcount = false) ∧
    (let x := { spx with delta := -0x41 }
     Ready (.spawn 3 2 0 { pa := 1, pb := 1 } x) (stt (small [(2, 5)])) (small [(2, 5)]) ∧ targetOut ia0 (spawnTarget x) = true) ∧
    (∀ l ∈ [placedLaunch, usedUp], let s := { stt parent with launches := [(1, l)] }
     let s0 := gapServed s placedTid.toNat
     launchLive s placedTid = true ∧ isEvicted s placedTid = false ∧ childCore s 1 .die (childNote s).state = some 0 ∧
       childGap s 1 { (childNote s).state with core := 0 } = none ∧ ((createThread s0 1 { (childNote s).state with core := 0 }).1.thread? placedTid).isSome = true ∧
       (createThread s0 1 { (childNote s).state with core := 0 }).2.isSome = (l.next != 2 ^ 24)) ∧
    (let t := small [(12, 0x01000001)]
     Ready (.ctxEvict 3 12) (two t .ready) t ∧ (two t .ready).thread? ((t.g 12).setWidth 32) = some (second .ready) ∧
       (second .ready).core = t.core ∧ (second .ready).ctx.isSome = true ∧ evictBarred (two t .ready) ((t.g 12).setWidth 32) (second .ready) = false ∧
       (second .ready).io.dying = false ∧ freeRecord { two t .ready with launches := [(1, { placedLaunch with desc := { placedLaunch.desc with spillLimit := 0 } })] } 1 = none ∧
       Ready (.ctxEvict 3 12) { two t .ready with launches := [(1, { placedLaunch with desc := { placedLaunch.desc with spillLimit := 0 } })] } t) ∧
    (let t := small [(12, 0x01000001)]
     let x := { second .ready with ctx := none }
     let y := { second .ready with handler := true }
     let s (x : Thread) := { stt t with threads := [(placedTid.toNat, t), (tid2.toNat, x)] }
     Ready (.ctxEvict 3 12) (s x) t ∧ (s x).thread? tid2 = some x ∧ x.ctx = none ∧ Ready (.ctxEvict 3 12) (s y) t ∧ evictBarred (s y) tid2 y = true) ∧
    (let x := { small [] with ctx := none, status := .pooled }
     let s := { stt (small []) with threads := [(placedTid.toNat, small []), (tid2.toNat, x)], launches := [(1, { placedLaunch with pool := [tid2] })] }
     contextWaiter s 0 = some tid2 ∧ recordGap s tid2 x 2048 = none) := by
  and_intros <;> decide +kernel

theorem witness_notes_keep_their_order :
    (let s := { two sender .ready with net := { Net.reset with messages := [onItsWay false, onItsWay false] } }
     messageBehind s 0 (onItsWay false) = false ∧ s.net.messages[1]? = some (onItsWay false) ∧ messageBehind s 1 (onItsWay false) = true) ∧
    (let g : UnitNote := .gen placedTid .die 10 7
     let s := { stt waiting with net := { Net.reset with units := [g, g] } }
     s.net.units[0]? = some g ∧ firstNote s 0 g = true ∧ s.net.units[1]? = some g ∧ firstNote s 1 g = false ∧ s.thread? placedTid = some waiting) ∧
    (∀ ok ∈ [true, false], let n : UnitNote := .sys placedTid ok 5 true
     let t := alone (.parked (.reply (.done true)))
     let s := { stt t with net := { Net.reset with units := [n] } }
     s.net.units[0]? = some n ∧ firstNote s 0 n = true ∧ MayGoOn s placedTid t true) ∧
    (let t := alone (.parked (.barrier .die 3 0 true))
     let s := { stt t with net := { Net.reset with gens := [(.die, 4096, 3, 1)] } }
     s.net.gens[0]? = some (.die, 4096, 3, 1) ∧ ((s.net.gens.take 0).any fun g => g.1 == Scope.die && g.2.1 == 4096) = false) ∧
    (let b : BodyInstr := { head := 0x90FF, tail := 0x0004_38C0_0000_0063, guard := true }
     let k : Stroke := { stroke true with body := [{ b with head := 0xC1FF }] }
     let t := { waiting with stroke := some k }
     Ready (.fence .core .engine) (stt t) t ∧ strokeLeft t false true = true ∧ strokeLeft waiting false true = false) ∧
    (Ready .sysMapver (stv managed) managed ∧ changesGap (stv managed) travelLaunch = none) := by
  and_intros <;> decide +kernel

theorem witness_ring_units_and_answers :
    (∀ i ∈ [Instr.ringJoin 0 1, .ringDissolve 0, .ringDissolveSized 0 4], Ready i (stt matrixer) matrixer) ∧
    (let a : UnitNote := .ringAsk placedTid 0 false 0 0 true
     let s := { stt matrixer with net := { Net.reset with units := [a] } }
     s.net.units[0]? = some a ∧ firstNote s 0 a = true ∧ s.launch? 1 = some placedLaunch ∧ (0 : Nat) % 2 ^ 0 = 0 ∧ 0 + 2 ^ 0 ≤ 256 ∧
       (∀ i < 1, setHas placedLaunch.cores (0 * 256 + 0 + i) = true ∧ (s.core (0 * 256 + 0 + i)).mx.ring = none) ∧
       ¬ ((1 : Word).toNat % 2 ^ 3 = 0)) ∧
    (∀ held ∈ [true, false], let a : UnitNote := .ringAsk placedTid 0 true 0 0 true
     let s := { stt matrixer (mat { core0.mx with ring := some (0, 1), passing := if held then [placedTid] else [] }) with net := { Net.reset with units := [a] } }
     s.net.units[0]? = some a ∧ firstNote s 0 a = true ∧ (s.core (0 * 256 + 0)).mx.ring = some (0, 1) ∧
       (∀ i < 1, ringHeld (s.core (0 * 256 + 0 + i)) = held)) ∧
    (∀ ok ∈ [true, false], let a : UnitNote := .ring placedTid 0 ok 0 true
     let t := alone (.parked (.reply (.done true)))
     let s := { stt t with net := { Net.reset with units := [a] } }
     s.net.units[0]? = some a ∧ firstNote s 0 a = true ∧ MayGoOn s placedTid t true ∧ t.status = .parked (.reply (.done true))) := by
  and_intros <;> decide +kernel

/-- A part whose epilogue unit holds an operation of a thread, tile 0 having the bytes given. -/
def holding (t : Thread) (o : EpOp) (bytes : Memory) (plan : PlanState := PlanState.reset) : State :=
  { stt t (mat { core0.mx with epilogue := [o], tiles := [(0, { Tile.reset with bytes := bytes })], plan := plan }) with issue := none }

theorem holds_unit {t o bytes plan} (hs : matrixMet (holding t o bytes plan) 0 o.tilesRead (EpOp.runsRead ((holding t o bytes plan).core 0) o) = none)
    (hw : waitsTile (holding t o bytes plan) 0 o = false)
    (hg : MayGoOn (holding t o bytes plan) o.tid t true) (ht : t.status = .parked (.matrix (.done true))) : AtUnit (holding t o bytes plan) 0 o [] t true :=
  ⟨rfl, rfl, hw, hs, hg, ht⟩

/-- Clamp bounds in order and out of it; a thread that converts with qmax 2, with and without QTRAP; a tile whose first element is 1. -/
def clamping (lo hi : Word) : EpOp := { op (.tact 0 0 0 .clamp) with va := lo, vb := hi }
def converting (qtrap : Bool) : Thread :=
  { parkedThread with sp := { parkedThread.sp with qmax := 2, fstat := if qtrap then 0x4000 else 0 } }
def oneTile : Memory := Memory.write [] 0 (natLE 0x3F800000 4)
def conversion : EpOp := op (.tcvt { pa := 0, pb := 1 } 1 0 2 .e4m3 false 0)

theorem witness_activations_conversions_and_clamps :
    (∀ o ∈ [op (.tact 0 0 0 .gelu), op (.tact 0 0 0 .silu), clamping 0 0x3F800000, clamping 0x3F800000 0, clamping 0x7FC00000 0, conversion],
      ∀ q ∈ [true, false], let s := holding (converting q) o oneTile
      (matrixMet s 0 o.tilesRead (EpOp.runsRead (s.core 0) o) = none ∧ waitsTile s 0 o = false ∧ MayGoOn s o.tid (converting q) true ∧
        (converting q).status = .parked (.matrix (.done true)) ∧ ((s.core 0).tile o.tile).st.kind = 0)) ∧
    ((val32 0).isNan = false ∧ (val32 0x3F800000).isNan = false ∧ cmpF (val32 0) (val32 0x3F800000) ≠ some .gt ∧ cmpF (val32 0x3F800000) (val32 0) = some .gt ∧
      (val32 0x7FC00000).isNan = true) ∧
    (let o := conversion
     let s := holding (converting true) o oneTile
     o.va.toNat % 8 = 0 ∧ o.vc.toNat % 8 = 0 ∧ o.va.toNat + 256 < 2 ^ 63 ∧
       (∀ i < 16, checkLocal s (converting true) (o.va + BitVec.ofNat 64 (i * 16)) 16 1 false true = none) ∧
       checkLocal s (converting true) o.vc (256 / 16) 1 true true = none ∧ o.va.toNat + 256 ≤ o.vc.toNat ∧ lstoreValue s 0 o.vc.toNat 1 < 0xFE ∧
       (converting true).sp.qmax ≠ 0 ∧ (converting true).sp.fstat.getLsbD 14 = true ∧ (converting false).sp.fstat.getLsbD 14 = false ∧
       ((s.core 0).tile o.tile).code 0 0 0 = 0x3F800000) := by
  and_intros <;> decide +kernel

/-- At scale 0 the element 1 is too large for e4m3, so block 0 is to be rescaled. -/
theorem witness_a_block_is_rescaled : TooLarge .e4m3 0 (val32 0x3F800000) := by unfold TooLarge; decide +kernel

theorem witness_bal_ends :
    (∀ n ∈ [0, 1, 2], ∀ p ∈ [plan1 false, { plan1 false with inProgress := true, h := true }],
      let o := { op (.bal 10 3 0 { pa := 1, pb := 2 } 0) with va := BitVec.ofNat 64 n }
      let s := holding parkedThread o [] p
      matrixMet s 0 o.tilesRead (EpOp.runsRead (s.core 0) o) = none ∧ waitsTile s 0 o = false ∧ MayGoOn s o.tid parkedThread true ∧
        balTrap s 0 o 0 = none ∧ (s.core 0).mx.plan = p ∧ p.infeasible = false ∧ launchLive s o.tid = true ∧ parkedThread.io.dying = false) ∧
    (let p : PlanState := { plan1 false with inProgress := true, h := true, a := [0x3F800000], b := [0x3F800000] }
     let o := { op (.bal 10 3 0 { pa := 1, pb := 2 } 0) with va := 2 }
     let s := holding parkedThread o (Memory.write [] 0 (natLE 0xFF800000 4)) p
     balTrap s 0 o 0 = none ∧ (errWithin (s.core 0) (balHalf (s.core 0) p false).1 (o.vb.toNat % 2 ^ 32)).1 = false ∧ p.s + 1 ≠ o.va.toNat) := by
  and_intros <;> decide +kernel

theorem witness_completions_hold_back :
    (((eng (cmd .finished)).core 0).engine.length = 1 ∧ flitsLeft (eng (cmd .finished)) (cmd .finished).id = false) ∧
    (let s := { eng (cmd .finished) with spool := { State.reset.spool with paths :=
       [(6, { up0 with streams := [(0, { Stream.reset with queue := [{ flit true with cmd := some 1 }] })] })] } }
     flitsLeft s (cmd .finished).id = true ∧ mayRun s (cmd .finished) = true ∧ engineClocked s 0 = true) ∧
    (((stt engineer).die (podDieOf (con [0]).dst % 8)).power ≤ 2 ∧
      ({ stt engineer with dies := [(0, { Die.reset with power := 3 })] }.die (podDieOf (con [0]).dst % 8)).power = 3) := by
  and_intros <;> decide +kernel

theorem witness_orders_fall_and_windows_count :
    (let s := (changing 200 220 2 1 .waiting).modPath 6 fun p => { p with order := 2, drop := some 1 }
     s.spool.restarting = false ∧ (s.path 6).trans = some (change 200 220 2 1 .waiting) ∧ (s.path 6).drop = some 1 ∧ boundaryOf s (s.path 6) = some 0) ∧
    (let s := changing 200 220 1 1 .stepA
     let s1 := if (1 : Nat) = (s.path 6).order then s else orderChanged s (s.path 6)
     let s2 := s1.modPath 6 fun p => { p.from 0 with order := 1, fan := 0, drop := none }
     raiseHeld s2 6 (s2.path 6) 220 = false) ∧
    (let s := { changing 0 200 2 1 (.stepC 0) with links := { State.reset.links with peers := [(1, { Peer.reset with session := true })] } }
     (∀ q ∈ facedPeers s (s.path 6), (s.peer q).session = true)) ∧
    (∀ n ∈ [0, 2 ^ 24], let s := lit up0 [] { Fibre.reset with windows := [(3, (n, 0))] }
     colourPath s 0 3 = some 6 ∧ (s.path 6).entry.fibre = 0 ∧ tabGet (s.fibre 0).windows 3 = some (n, 0) ∧ (s.path 6).order ≠ 0 ∧
       colourWorks (s.fibre 0) 3 = true ∧ boundaryOf s (s.path 6) ≠ none ∧ s.cycle.toNat = 0) ∧
    (setHas (lit path0).cfg.fusedSources 15 = false ∧ setHas { (lit path0).cfg with fusedSources := setAdd [] 15 }.fusedSources 15 = true) ∧
    (∀ step ∈ [TransStep.stepA, .waiting], let p := { up0 with trans := some (change 200 220 2 1 step), state := .settling }
     onFibre (lit p) 0 = [(6, p)] ∧ (lit p).path 6 = p ∧ p.trans = some (change 200 220 2 1 step) ∧ p.drop = none ∧ p.drop.getD p.order = 1) := by
  and_intros <;> decide +kernel

/-- A slotted fibre of path 6 that was lit, or dark, at its circuit-up. -/
def slottedAt (litUp : Bool) : Fibre := { slotted true false .closed with litUp := litUp }

theorem witness_idle_paths_circuits_and_confirmations :
    (let s := linked
     let s := s.modPath 6 fun p => { p with state := .attesting }
     (s.path 6).leaving = [] ∧ flitsLit s (s.path 6) = true ∧ flitsFlow s (s.path 6) = false ∧ boundaryOf s (s.path 6) = some 0) ∧
    flitsLit (lit path0) ((lit path0).path 6) = false ∧ hears linked (linked.path 6) 1 = true ∧ hears linked (linked.path 6) 2 = false ∧
    (let s := { lit up0 with links := { State.reset.links with peers := [(9, { Peer.reset with session := true })] } }
     (s.peer 9).session = true ∧ (s.peer 8).session = false ∧ (s.peer 8).failed = false ∧ (s.fibre 5).slots = [] ∧ onFibre s 5 = []) ∧
    (∀ f ∈ [slottedAt true, slottedAt false], let s := lit up0 [] f
     (s.fibre 0).up = true ∧ setHas (s.fibre 0).confirmed 1 = false ∧ (6, up0) ∈ onFibre s 0 ∧ 0 < up0.grant ∧ (s.fibre 0).slots ≠ []) ∧
    (let s := { lit up0 [] (slottedAt true) with links := { State.reset.links with peers := [(1, { Peer.reset with session := true })] } }
     (s.fibre 0).litUp = true ∧ (s.fibre 0).faces 1 = true ∧ (s.peer 1).session = true) ∧
    (let s := (linked Stream.reset 0 { Peer.reset with attesting := true })
     (s.fibre 0).attests 1 = true ∧ circuitTo s 1 = true ∧ { s with links := { s.links with used := 2 ^ 20 } }.links.used = 2 ^ 20) ∧
    (let q : QueuedItem := { item := { wakeItem 0 with dst := 8 }, dest := 1, since := 0 }
     let s := { linked with links := { (linked).links with queues := [q] } }
     nextQueue s 6 = some (1, 0, 0) ∧ takingStream s 6 q = some 0) := by
  and_intros <;> decide +kernel

/-- The whole exchange's leaves suffice where none is used yet. -/
theorem witness_leaves_suffice :
    (let s := { stt mover with links := { State.reset.links with allow := [7] } }
     (true && decide (s.links.used + wholeLeaves ≤ 2 ^ 20) && s.links.allow.contains 7) = true) := by
  have h := Config.exchangeLeaves.isLt
  have : (0 + wholeLeaves ≤ 2 ^ 20) := by unfold wholeLeaves; omega
  have c : ({ stt mover with links := { State.reset.links with allow := [7] } } : State).links.allow.contains 7 = true := by decide
  simp only [c, Bool.true_and, Bool.and_true, decide_eq_true_eq]
  exact this

theorem witness_host_reads_launches_and_tests :
    ((8 : Nat) ≠ 4 ∧ (0x1018 : Nat) < 0x2000 ∧ (0x1010 : Nat) < 0x1018 ∧ (0x20 : Nat) % 8 = 0 ∧ 0x18 < 0x20 % 0x40) ∧
    (let s := State.reset
     let d := readDesc (goodDesc 2048)
     let p : LaunchPlan := { desc := d, lid := 1, dies := [0], cores := [0, 1, 2, 3], segments := [], ver := 0 }
     let placed := startLaunch (gapServed s (2 ^ 32 + 0)) p
     launchGap s p = none ∧ pooledGap placed p.lid = none) ∧
    (phased (.preempted 0)).segments.findSome? (segmentGap (stt mover)) = none ∧
    (let found : SelfTest := { cores := [1], slices := [2], sources := [3], srams := [0, 1], drams := [] }
     State.reset.host.status % 2 = 0 ∧ (∀ k ∈ found.cores, k / 256 ≠ 2) ∧ (∀ k ∈ found.slices, k / 256 ≠ 2) ∧ found.srams.getD 2 0 = 0 ∧ found.drams.getD 2 0 = 0) ∧
    eaHostOk ((area [] 0 3).host.evBase + BitVec.ofNat 64 (64 * ((area [] 0 3).host.evProd % (area [] 0 3).host.evSize))) = true := by
  and_intros <;> decide +kernel

/-! ### The spec's worked examples -/

/-- Register d after one instruction of a thread with the registers given. -/
def result (i : Instr) (regs : Tab Word) (d : Nat := 5) : Option Word :=
  match exec i (stt (thr regs)) with
  | .next s => (s.thread? placedTid).map (·.reg d)
  | _ => none

/-- spec/05 Example 5-2. -/
theorem test_division_edges :
    result (.div 5 1 2 true .w64) [(1, 7), (2, -2)] = some 0xFFFF_FFFF_FFFF_FFFD ∧ result (.rem 5 1 2 true .w64) [(1, 7), (2, -2)] = some 1 ∧
    result (.rem 5 1 2 true .w64) [(1, -7), (2, 2)] = some 0xFFFF_FFFF_FFFF_FFFF ∧ result (.div 5 1 0 false .w64) [(1, 5)] = some 0xFFFF_FFFF_FFFF_FFFF ∧
    result (.rem 5 1 0 false .w64) [(1, 5)] = some 5 ∧ result (.div 5 1 2 true .w64) [(1, 0x8000_0000_0000_0000), (2, -1)] = some 0x8000_0000_0000_0000 ∧
    result (.rem 5 1 2 true .w64) [(1, 0x8000_0000_0000_0000), (2, -1)] = some 0 ∧
    result (.div 5 1 2 true .s32) [(1, 0x1_8000_0000), (2, 0xFFFF_FFFF)] = some 0xFFFF_FFFF_8000_0000 ∧
    result (.div 5 1 2 false .n32) [(1, 0x1_0000_0009), (2, 3)] = some 3 := by and_intros <;> decide +kernel

/-- spec/06 R104's examples: 100 + 100 in signed bytes, and 3 - 5 in natural halfwords. -/
theorem test_packed_saturation :
    result (.vadd 5 1 1 .i8x8 .ss) [(1, 0x6464_6464_6464_6464)] = some 0x7F7F_7F7F_7F7F_7F7F ∧
    result (.vsub 5 1 2 .i16x4 .sn) [(1, 0x0003_0003_0003_0003), (2, 0x0005_0005_0005_0005)] = some 0 := by and_intros <;> decide +kernel

/-- spec/06 Example 6-2, spec/03 Example 3-1. -/
theorem test_bf16_into_nb8 :
    result (.fcvt 5 6 .bf16x4 .rne .nb8 false) [(6, 0x3DCD_C69C_42C8_3F80)] = some 0x0000_0000_1181_1F60 ∧
    (fcvtValue .bf16x4 .rne .nb8 false 0x3DCD_C69C_42C8_3F80).2 = 0x21 := by and_intros <;> decide +kernel

theorem test_nb8_encodings :
    encodeF .nb8 .rne (.num false 100 0) = (0x1F, 0x01) ∧ encodeF .nb8 .rne (.num false 6144 0) = (0x07, 0x01) ∧
    encodeF .nb8 .rne (.num true 20000 0) = (0x81, 0x21) ∧ encodeF .nb8 .rne (.num false 3 (-16)) = (0x02, 0x03) ∧
    encodeF .nb8 .rne (.num false 1 (-16)) = (0x00, 0x03) := by decide +kernel

/-- spec/06 R117's example: -2.75 to a 32-bit integer; spec/06 R120's: four products of 0.5 and 1.0. -/
theorem test_icvt_and_fdot :
    icvtValue .f32 .rtz .i32 true true 0xC030_0000 = (0xFFFF_FFFF_FFFF_FFFE, 0x01) ∧
    fdotValue .bf16x4 .rne 0x3F00_3F00_3F00_3F00 0x3F00_3F00_3F00_3F00 0x3F80_0000 = (0x4000_0000, 0) := by decide +kernel

/-- spec/17 R264's table at L = 2 and M0 = 2. -/
theorem test_required_grants :
    [gReq (lit path0) path0 1 0, gReq (lit path0) path0 2 0, gReq (lit path0) path0 3 0, gReq (lit path0) path0 4 0] = [10, 22, 46, 94] ∧
    [gReq (lit path0) path0 1 2, gReq (lit path0) path0 2 2, gReq (lit path0) path0 3 2, gReq (lit path0) path0 4 2] = [56, 104, 200, 392] := by decide +kernel

/-- The register an lgrant of path 6 has written once it is decided. -/
def granted (g fan : Nat) : Option Word :=
  match exec (.lgrantDecision 0) { lit path0 [ask g fan] with threads := [(placedTid.toNat, { grantor with status := .parked (.reply (.done true)) })] } with
  | .next s => (s.thread? placedTid).map (·.reg 10)
  | _ => none

/-- spec/24's first answer: 4 colours of loss 2 at 200 LU and fan-out 4, of 4,096 LU. -/
theorem test_lgrant_answer : granted 200 2 = some 0x0000_0CE0_00C8_2300 := by decide +kernel

/-- A failed check of a flit's 80 bytes is repaired up to 4 wrong bytes of a codeword (spec/17 R274), and refused past them. -/
theorem test_flit_repair :
    readFlit ((flitBytes (got 1 7 1)).set 20 0xA5) = some (got 1 7 1) ∧
    readFlit (((((flitBytes (got 1 7 1)).set 0 0xA5).set 1 0xA5).set 2 0xA5).set 79 0xA5) = some (got 1 7 1) := by and_intros <;> decide +kernel

/-- One step of the machine runs the instruction placed for it: addi g41, g40, 1 (spec/05). -/
theorem test_a_placed_word_runs :
    (match step (State.reset.withFetchWord 64 0x92FF_52A0_0000_0001) with
     | .next s => (s.thread? placedTid).map (·.reg 41)
     | _ => none) = some 1 := by decide +kernel

/-- Reset (spec/02 R35, spec/20 R314). -/
theorem test_reset_memories_are_canonical : (State.reset.cores.all fun e => e.2.lstore.wf) = true ∧ State.reset.host.memory.wf = true := by decide

end Sys2Proof.Tests
end

section
/-! SUPPORT. The canonical form of the L-stores (log entry 1) is kept by every operation of the model. Each operation that makes a state has
one lemma under its own name, `h.f` for `f` applied to a state with `h`, so that a proof reads as the operation's own chain of calls. The
L-store itself is written by `setCore` and `modCore` alone: every other lemma rests on those two, or on the cores being left alone. -/

namespace Sys2Proof.Claims

open Sys2Proof.Machine

/-- The state an outcome goes on with, if it does, has canonical L-stores. -/
def NextCanonical : Out → Prop
  | .next s => LStoresCanonical s
  | _ => True

/-- The state that is there, if one is, has canonical L-stores. -/
def SomeCanonical : Option State → Prop
  | some s => LStoresCanonical s
  | none => True

theorem NextCanonical.next {s : State} (h : LStoresCanonical s) : NextCanonical (.next s) := h

theorem NextCanonical.fault {x : Fault} : NextCanonical (.fault x) := trivial

theorem NextCanonical.refused {x : Refusal} : NextCanonical (.refused x) := trivial

theorem NextCanonical.of_next {o : Out} {s : State} (h : NextCanonical o) (e : o = .next s) : LStoresCanonical s := by
  subst e
  exact h

theorem NextCanonical.ite {c : Prop} {_ : Decidable c} {a b : Out} (ha : NextCanonical a) (hb : NextCanonical b) :
    NextCanonical (if c then a else b) := by
  split
  · exact ha
  · exact hb

/-- The state an engine access leaves has canonical L-stores. -/
def LandedCanonical : Landed → Prop
  | .done s _ => LStoresCanonical s
  | .fault s _ _ => LStoresCanonical s
  | .refused => True

theorem LandedCanonical.done {s : State} {bs : List Byte} (h : LStoresCanonical s) : LandedCanonical (.done s bs) := h

theorem LandedCanonical.fault {s : State} {d off : Nat} (h : LStoresCanonical s) : LandedCanonical (.fault s d off) := h

theorem LandedCanonical.refused : LandedCanonical .refused := trivial

theorem LandedCanonical.of_done {x : Landed} {s : State} {bs : List Byte} (h : LandedCanonical x) (e : x = .done s bs) : LStoresCanonical s := by
  subst e
  exact h

theorem LandedCanonical.of_fault {x : Landed} {s : State} {d off : Nat} (h : LandedCanonical x) (e : x = .fault s d off) :
    LStoresCanonical s := by
  subst e
  exact h

theorem LandedCanonical.ite {c : Prop} {_ : Decidable c} {a b : Landed} (ha : LandedCanonical a) (hb : LandedCanonical b) :
    LandedCanonical (if c then a else b) := by
  split
  · exact ha
  · exact hb

/-- The state a command is taken, or refused, in has canonical L-stores. -/
def TakenCanonical : Taken → Prop
  | .nothing => True
  | .refused s => LStoresCanonical s
  | .command s _ _ => LStoresCanonical s

theorem TakenCanonical.nothing : TakenCanonical .nothing := trivial

theorem TakenCanonical.refused {s : State} (h : LStoresCanonical s) : TakenCanonical (.refused s) := h

theorem TakenCanonical.command {s : State} {ix : BitVec 32} {w : List Word} (h : LStoresCanonical s) : TakenCanonical (.command s ix w) := h

theorem TakenCanonical.of_refused {x : Taken} {s : State} (h : TakenCanonical x) (e : x = .refused s) : LStoresCanonical s := by
  subst e
  exact h

theorem TakenCanonical.of_command {x : Taken} {s : State} {ix : BitVec 32} {w : List Word} (h : TakenCanonical x) (e : x = .command s ix w) :
    LStoresCanonical s := by
  subst e
  exact h

theorem TakenCanonical.ite {c : Prop} {_ : Decidable c} {a b : Taken} (ha : TakenCanonical a) (hb : TakenCanonical b) :
    TakenCanonical (if c then a else b) := by
  split
  · exact ha
  · exact hb

/-- The state the epilogue unit's turn leaves has canonical L-stores. -/
def EpCanonical : EpResult → Prop
  | .done s => LStoresCanonical s
  | .more s => LStoresCanonical s
  | .trap _ _ => True

theorem EpCanonical.done {s : State} (h : LStoresCanonical s) : EpCanonical (.done s) := h

theorem EpCanonical.more {s : State} (h : LStoresCanonical s) : EpCanonical (.more s) := h

theorem EpCanonical.trap {cause : Nat} {v : Word} : EpCanonical (.trap cause v) := trivial

theorem EpCanonical.of_done {x : EpResult} {s : State} (h : EpCanonical x) (e : x = .done s) : LStoresCanonical s := by
  subst e
  exact h

theorem EpCanonical.of_more {x : EpResult} {s : State} (h : EpCanonical x) (e : x = .more s) : LStoresCanonical s := by
  subst e
  exact h

theorem EpCanonical.ite {c : Prop} {_ : Decidable c} {a b : EpResult} (ha : EpCanonical a) (hb : EpCanonical b) :
    EpCanonical (if c then a else b) := by
  split
  · exact ha
  · exact hb

theorem SomeCanonical.some {s : State} (h : LStoresCanonical s) : SomeCanonical (some s) := h

theorem SomeCanonical.none : SomeCanonical none := trivial

theorem SomeCanonical.of_some {o : Option State} {s : State} (h : SomeCanonical o) (e : o = .some s) : LStoresCanonical s := by
  subst e
  exact h

theorem SomeCanonical.ite {c : Prop} {_ : Decidable c} {a b : Option State} (ha : SomeCanonical a) (hb : SomeCanonical b) :
    SomeCanonical (if c then a else b) := by
  split
  · exact ha
  · exact hb

theorem SomeCanonical.map {α : Type} {o : Option α} {f : α → State} (hf : ∀ a, LStoresCanonical (f a)) : SomeCanonical (o.map f) := by
  cases o with
  | none => exact .none
  | some a => exact .some (hf a)

theorem SomeCanonical.map_state {o : Option State} {f : State → State} (h : SomeCanonical o)
    (hf : ∀ s, LStoresCanonical s → LStoresCanonical (f s)) : SomeCanonical (o.map f) := by
  cases o with
  | none => exact .none
  | some s => exact .some (hf s h)

theorem SomeCanonical.bind {o : Option State} {f : State → Option State} (h : SomeCanonical o)
    (hf : ∀ s, LStoresCanonical s → SomeCanonical (f s)) : SomeCanonical (o.bind f) := by
  cases o with
  | none => exact .none
  | some s => exact hf s h

theorem SomeCanonical.foldlM {α : Type} {f : State → α → Option State} {l : List α} {s : State} (h : LStoresCanonical s)
    (hf : ∀ s a, LStoresCanonical s → SomeCanonical (f s a)) : SomeCanonical (l.foldlM f s) := by
  induction l generalizing s with
  | nil => exact .some h
  | cons a l ih => exact .bind (hf s a h) fun _ => ih

theorem SomeCanonical.getD {o : Option State} {s : State} (ho : SomeCanonical o) (h : LStoresCanonical s) : LStoresCanonical (o.getD s) := by
  cases o with
  | none => exact h
  | some s => exact ho

namespace LStoresCanonical

variable {s : State}

/-! ### Cores -/

theorem of_cores {s' : State} (h : LStoresCanonical s) (e : s'.cores = s.cores) : LStoresCanonical s' := by
  unfold LStoresCanonical
  rw [e]
  exact h

theorem of_eq {α : Type} {p : State × α} {s' : State} {x : α} (h : LStoresCanonical p.1) (e : p = (s', x)) : LStoresCanonical s' := by
  subst e
  exact h

theorem ite {c : Prop} {_ : Decidable c} {a b : State} (ha : LStoresCanonical a) (hb : LStoresCanonical b) :
    LStoresCanonical (if c then a else b) := by
  split
  · exact ha
  · exact hb

theorem ite_fst {α : Type} {c : Prop} {_ : Decidable c} {a b : State × α} (ha : LStoresCanonical a.1) (hb : LStoresCanonical b.1) :
    LStoresCanonical (if c then a else b).1 := by
  split
  · exact ha
  · exact hb

/-- A fold whose accumulator has a state: every turn keeps that state's L-stores canonical. -/
theorem foldl_proj {α β : Type} {π : β → State} {f : β → α → β} {l : List α} {b : β} (h : LStoresCanonical (π b))
    (hf : ∀ b a, LStoresCanonical (π b) → LStoresCanonical (π (f b a))) : LStoresCanonical (π (l.foldl f b)) := by
  induction l generalizing b with
  | nil => exact h
  | cons a l ih => exact ih (hf b a h)

theorem foldl {α : Type} {f : State → α → State} {l : List α} (h : LStoresCanonical s)
    (hf : ∀ s a, LStoresCanonical s → LStoresCanonical (f s a)) : LStoresCanonical (l.foldl f s) := foldl_proj (π := id) h hf

theorem iff_all : LStoresCanonical s ↔ s.cores.all (fun e => Memory.wf e.2.lstore) = true := by
  simp [LStoresCanonical]

theorem mem_of_tabGet {α : Type} {t : Tab α} {k : Nat} {v : α} (e : tabGet t k = some v) : (k, v) ∈ t := by
  induction t with
  | nil => cases e
  | cons x t ih =>
    unfold tabGet at e
    split at e
    case isTrue hk =>
      cases e
      exact hk ▸ List.mem_cons_self
    case isFalse => exact List.mem_cons_of_mem _ (ih e)

/-- The L-store of a core, listed or at reset. -/
theorem core (h : LStoresCanonical s) (g : Nat) : Memory.wf (s.core g).lstore = true := by
  unfold State.core tabGetD
  cases e : tabGet s.cores g with
  | none => rfl
  | some c => exact h _ (mem_of_tabGet e)

theorem setCore {g : Nat} {c : Core} (h : LStoresCanonical s) (hc : Memory.wf c.lstore = true) : LStoresCanonical (s.setCore g c) :=
  iff_all.mpr (all_put _ _ _ _ (iff_all.mp h) hc)

theorem modCore {g : Nat} {f : Core → Core} (h : LStoresCanonical s) (hf : ∀ c, (f c).lstore = c.lstore) :
    LStoresCanonical (s.modCore g f) := h.setCore (by rw [hf]; exact h.core g)

theorem modCore_of_wf {g : Nat} {f : Core → Core} (h : LStoresCanonical s) (hf : ∀ c, Memory.wf c.lstore = true → Memory.wf (f c).lstore = true) :
    LStoresCanonical (s.modCore g f) := h.setCore (hf _ (h.core g))

theorem map_cores {s' : State} {f : Nat × Core → Nat × Core} (h : LStoresCanonical s) (e : s'.cores = s.cores.map f)
    (hf : ∀ x, (f x).2.lstore = x.2.lstore) : LStoresCanonical s' := by
  intro x hx
  rw [e] at hx
  obtain ⟨y, hy, rfl⟩ := List.mem_map.mp hx
  rw [hf]
  exact h y hy

/-! ### What leaves the L-store of a core alone -/

@[simp] theorem ite_lstore (p : Prop) [Decidable p] (c c' : Core) : (if p then c else c').lstore = if p then c.lstore else c'.lstore :=
  apply_ite Core.lstore p c c'

@[simp] theorem freeSlot_lstore (c : Core) (k w : Nat) : (c.freeSlot k w).lstore = c.lstore := rfl
@[simp] theorem setWordFull_lstore (c : Core) (w : Nat) (full : Bool) : (c.setWordFull w full).lstore = c.lstore := rfl
@[simp] theorem tileWritten_lstore (c : Core) (tile : Nat) : (Machine.tileWritten c tile).lstore = c.lstore := rfl
@[simp] theorem setTile_lstore (c : Core) (p : Nat) (x : Tile) : (c.setTile p x).lstore = c.lstore := rfl
@[simp] theorem putCode_lstore (c : Core) (l : CodeLine) : (putCode c l).lstore = c.lstore := rfl
@[simp] theorem settleSeats_lstore (s : State) (g : Nat) (c : Core) : (settleSeats s g c).lstore = c.lstore := rfl

@[simp] theorem useLine_lstore (c : Core) (ia : Word) : (useLine c ia).lstore = c.lstore := by
  unfold useLine
  split <;> rfl

@[simp] theorem settleCore_lstore (s : State) (g : Nat) (c : Core) : (settleCore s g c).lstore = c.lstore := by
  unfold settleCore
  dsimp only
  split <;> rfl

@[simp] theorem foldl_lstore {α : Type} {f : Core → α → Core} (hf : ∀ c a, (f c a).lstore = c.lstore) (l : List α) (c : Core) :
    (l.foldl f c).lstore = c.lstore := by
  induction l generalizing c with
  | nil => rfl
  | cons a l ih => exact (ih (f c a)).trans (hf c a)

/-! ### What leaves the cores alone -/

theorem setThread {tid : Tid} {t : Thread} (h : LStoresCanonical s) : LStoresCanonical (s.setThread tid t) := h
theorem dropThread {tid : Tid} (h : LStoresCanonical s) : LStoresCanonical (s.dropThread tid) := h
theorem setDie {d : Nat} {x : Die} (h : LStoresCanonical s) : LStoresCanonical (s.setDie d x) := h
theorem modDie {d : Nat} {f : Die → Die} (h : LStoresCanonical s) : LStoresCanonical (s.modDie d f) := h
theorem setSlice {d k : Nat} {x : Slice} (h : LStoresCanonical s) : LStoresCanonical (s.setSlice d k x) := h
theorem modSlice {d k : Nat} {f : Slice → Slice} (h : LStoresCanonical s) : LStoresCanonical (s.modSlice d k f) := h
theorem setLaunch {l : Nat} {x : Launch} (h : LStoresCanonical s) : LStoresCanonical (s.setLaunch l x) := h
theorem modNet {f : Net → Net} (h : LStoresCanonical s) : LStoresCanonical (s.modNet f) := h
theorem modHost {f : HostIf → HostIf} (h : LStoresCanonical s) : LStoresCanonical (s.modHost f) := h
theorem modPath {p : Nat} {f : Path → Path} (h : LStoresCanonical s) : LStoresCanonical (s.modPath p f) := h
theorem modFibre {p : Nat} {f : Fibre → Fibre} (h : LStoresCanonical s) : LStoresCanonical (s.modFibre p f) := h
theorem modPeer {p : Nat} {f : Peer → Peer} (h : LStoresCanonical s) : LStoresCanonical (s.modPeer p f) := h
theorem takeFree (h : LStoresCanonical s) : LStoresCanonical s.takeFree := h
theorem takeReq (h : LStoresCanonical s) : LStoresCanonical s.takeReq := h
theorem with_issue {x : Option Issue} (h : LStoresCanonical s) : LStoresCanonical { s with issue := x } := h
theorem with_threads {x : Tab Thread} (h : LStoresCanonical s) : LStoresCanonical { s with threads := x } := h
theorem with_dies {x : Tab Die} (h : LStoresCanonical s) : LStoresCanonical { s with dies := x } := h
theorem with_spool {x : Spool} (h : LStoresCanonical s) : LStoresCanonical { s with spool := x } := h
theorem with_links {x : Links} (h : LStoresCanonical s) : LStoresCanonical { s with links := x } := h
theorem with_agenda {x : List Move} (h : LStoresCanonical s) : LStoresCanonical { s with agenda := x } := h
theorem with_launches {x : Tab Launch} (h : LStoresCanonical s) : LStoresCanonical { s with launches := x } := h
theorem modThread {tid : Tid} {f : Thread → Thread} (h : LStoresCanonical s) : LStoresCanonical (s.modThread tid f) := h.of_cores (by simp)
theorem modLaunch {l : Nat} {f : Launch → Launch} (h : LStoresCanonical s) : LStoresCanonical (s.modLaunch l f) := h.of_cores (by simp)
theorem closeTurn {u : Issue} (h : LStoresCanonical s) : LStoresCanonical (Machine.closeTurn s u) := h.of_cores (by simp)
theorem partRead {ea : Word} {n : Nat} (h : LStoresCanonical s) : LStoresCanonical (Machine.partRead s ea n).1 :=
  h.of_cores (onlyMemory_partRead s ea n).cores
theorem partWrite {ea : Word} {bs : List Byte} (h : LStoresCanonical s) : LStoresCanonical (Machine.partWrite s ea bs).1 :=
  h.of_cores (onlyMemory_partWrite s ea bs).cores
theorem dieRead {d off n : Nat} (h : LStoresCanonical s) : LStoresCanonical (Machine.dieRead s d off n).1 :=
  h.of_cores (onlyMemory_dieRead s d off n).cores
theorem dieWrite {d off : Nat} {bs : List Byte} {fill : Bool} (h : LStoresCanonical s) : LStoresCanonical (Machine.dieWrite s d off bs fill).1 :=
  h.of_cores (onlyMemory_dieWrite s d off bs fill).cores
theorem sendNote {k g : Nat} {n : Note} (h : LStoresCanonical s) : LStoresCanonical (Machine.sendNote s k g n) := h
theorem storeLine {d : Nat} {ln : Line} {ws : List Nat} (h : LStoresCanonical s) : LStoresCanonical (Machine.storeLine s d ln ws) :=
  h.of_cores (onlyMemory_storeLine s d ln ws).cores
theorem performStaged {d : Nat} {x : Staged} (h : LStoresCanonical s) : LStoresCanonical (Machine.performStaged s d x) :=
  h.of_cores (onlyMemory_performStaged s d x).cores
theorem flushStage {d l : Nat} (h : LStoresCanonical s) : LStoresCanonical (Machine.flushStage s d l) :=
  h.of_cores (onlyMemory_flushStage s d l).cores
theorem sendServed {d k : Nat} {r : Req} {bs : List Byte} (h : LStoresCanonical s) : LStoresCanonical (Machine.sendServed s d k r bs) :=
  h.of_cores (onlyMemory_sendServed s d k r bs).cores
theorem dieWritten {d off n : Nat} (h : LStoresCanonical s) : LStoresCanonical (Machine.dieWritten s d off n) :=
  h.of_cores (onlyMemory_dieWritten s d off n).cores
theorem writePiece {d off : Nat} {x : Xlat} {bs : List Byte} {fill : Bool} (h : LStoresCanonical s) :
    LStoresCanonical (Machine.writePiece s d off x bs fill) := h.of_cores (onlyMemory_writePiece s d off x bs fill).cores
theorem emit {type die core : Nat} {tid : Tid} {detail : List Word} (h : LStoresCanonical s) :
    LStoresCanonical (Machine.emit s type die core tid detail) := h.of_cores (onlyEvent_emit s type die core tid detail).cores

/-! ### Die-global memory behind the slices -/

theorem putServed {d : Nat} {ln : Line} {words : List Nat} (h : LStoresCanonical s) : LStoresCanonical (Machine.putServed s d ln words) :=
  h.setSlice.foldl (fun _ _ h => h.sendServed)

theorem zeroLines {d off n : Nat} (h : LStoresCanonical s) : LStoresCanonical (Machine.zeroLines s d off n) :=
  h.foldl (fun _ _ h => h.modSlice)

theorem dropCode {d off n : Nat} (h : LStoresCanonical s) : LStoresCanonical (Machine.dropCode s d off n) :=
  h.map_cores rfl fun x => by split <;> rfl

/-! ### The operations every meaning is written over -/

theorem storeEvent {r : EventRec} (h : LStoresCanonical s) : LStoresCanonical (Machine.storeEvent s r) := h.partWrite.modHost

theorem emitThread {type : Nat} {tid : Tid} {t : Thread} {detail : List Word} (h : LStoresCanonical s) :
    LStoresCanonical (Machine.emitThread s type tid t detail) := h.emit

theorem joinQueue {tid : Tid} {t : Thread} (h : LStoresCanonical s) : LStoresCanonical (Machine.joinQueue s tid t) :=
  (h.modCore (by simp)).setThread

theorem leaveQueues {g : Nat} {tid : Tid} (h : LStoresCanonical s) : LStoresCanonical (Machine.leaveQueues s g tid) := h.modCore (by simp)

theorem makeReady {tid : Tid} (h : LStoresCanonical s) : LStoresCanonical (Machine.makeReady s tid) := by
  unfold Machine.makeReady
  split
  · exact h
  · exact .ite h h.setThread.joinQueue

theorem parkThread {tid : Tid} {p : Park} (h : LStoresCanonical s) : LStoresCanonical (Machine.parkThread s tid p) := h.modThread

theorem shipTo {tid : Tid} {t : Thread} {l : Launch} {g : Segment} {target : Word} {skip : SkipMark} (h : LStoresCanonical s) :
    LStoresCanonical (Machine.shipTo s tid t l g target skip) := .ite h h

theorem leaveLists {tid : Tid} {t : Thread} (h : LStoresCanonical s) : LStoresCanonical (Machine.leaveLists s tid t) :=
  .modNet (((h.leaveQueues.modCore (by simp)).modDie.modCore (by simp)).map_cores rfl fun _ => rfl)

theorem withdraw {tid : Tid} {t : Thread} (h : LStoresCanonical s) : LStoresCanonical (Machine.withdraw s tid t) :=
  h.leaveLists.modCore (by simp)

theorem freeSlot {g k : Nat} (h : LStoresCanonical s) : LStoresCanonical (Machine.freeSlot s g k) := h.modCore (by simp)

theorem freeThreadSlot {tid : Tid} {t : Thread} {k : Nat} (h : LStoresCanonical s) :
    LStoresCanonical (Machine.freeThreadSlot s tid t k) := by
  unfold Machine.freeThreadSlot
  split
  · exact h.modLaunch
  · exact h.freeSlot

theorem dropTiles {g base n : Nat} (h : LStoresCanonical s) : LStoresCanonical (Machine.dropTiles s g base n) := h.modCore (by simp)

theorem retireThread {tid : Tid} (h : LStoresCanonical s) : LStoresCanonical (Machine.retireThread s tid) := by
  unfold Machine.retireThread
  split
  · exact h
  · refine .dropThread (.modLaunch ?_)
    split
    · exact .freeThreadSlot (.ite h.dropTiles h)
    · exact .ite h.dropTiles h

theorem killThread_dying {tid : Tid} {t : Thread} (h : LStoresCanonical s) : LStoresCanonical (killThread.dying s tid t) :=
  h.withdraw.setThread

/-- A thread that still owes replies waits dying; any other is retired. -/
theorem killThread {tid : Tid} (h : LStoresCanonical s) : LStoresCanonical (Machine.killThread s tid) := by
  unfold Machine.killThread
  split
  · exact h
  · split
    · exact h.setThread
    · exact .ite h.killThread_dying h.withdraw.retireThread
    · exact .ite h.killThread_dying h.withdraw.retireThread
    · exact .ite h.killThread_dying h.withdraw.retireThread
    · exact .ite h.withdraw.retireThread h.killThread_dying

theorem dying {tid : Tid} {t : Thread} (h : LStoresCanonical s) : LStoresCanonical (Machine.killThread.dying s tid t) :=
  h.withdraw.setThread

theorem trapFuel {fuel : Nat} {tid : Tid} {ia : Word} {cause : Nat} {value : Word} (h : LStoresCanonical s) :
    LStoresCanonical (Machine.trapFuel fuel s tid ia cause value) := by
  induction fuel generalizing s cause value with
  | zero => exact h
  | succ fuel ih =>
    unfold Machine.trapFuel
    split
    · exact h
    · refine .ite h.emitThread.killThread (.ite h.emitThread.killThread ?_)
      dsimp only
      split
      · exact h.setThread
      · exact h.setThread.shipTo
      · exact ih h.setThread

theorem trapEntry {tid : Tid} {ia : Word} {cause : Nat} {value : Word} (h : LStoresCanonical s) :
    LStoresCanonical (Machine.trapEntry s tid ia cause value) := h.trapFuel

theorem registerError {tid : Tid} {reg : Nat} (h : LStoresCanonical s) : LStoresCanonical (Machine.registerError s tid reg) := by
  unfold Machine.registerError
  split
  · exact h
  · exact h.emitThread.killThread

theorem settleFlow {tid : Tid} {ia : Word} {t : Thread} (h : LStoresCanonical s) : LStoresCanonical (Machine.settleFlow s tid ia t) := by
  unfold Machine.settleFlow
  split
  · exact h
  · exact h.shipTo
  · exact h.setThread.trapEntry

theorem completeSeq {tid : Tid} {ia : Word} {last : Bool} (h : LStoresCanonical s) :
    LStoresCanonical (Machine.completeSeq s tid ia last) := by
  unfold Machine.completeSeq
  split
  · exact h
  · exact h.settleFlow

theorem keepEnd {tid : Tid} {t : Thread} {e : KeptEnd} (h : LStoresCanonical s) : LStoresCanonical (Machine.keepEnd s tid t e) := by
  unfold Machine.keepEnd
  split <;> exact h

theorem trapWaiting {tid : Tid} {cause : Nat} {value : Word} (h : LStoresCanonical s) :
    LStoresCanonical (Machine.trapWaiting s tid cause value) := by
  unfold Machine.trapWaiting
  split
  · exact h
  · refine .ite h (.ite h.keepEnd ?_)
    dsimp only
    split
    · exact .ite h.trapEntry.makeReady h.trapEntry
    · exact h.trapEntry

theorem resumeThread {tid : Tid} {r : Resume} (h : LStoresCanonical s) : LStoresCanonical (Machine.resumeThread s tid r) := by
  unfold Machine.resumeThread
  split
  · exact h
  · refine .ite h (.ite h.keepEnd ?_)
    split
    · exact h.makeReady
    · dsimp only
      split
      · exact .ite h.completeSeq.makeReady h.completeSeq
      · exact h.completeSeq

theorem finishWaiter {q : Waiter} {v : Word} (h : LStoresCanonical s) : LStoresCanonical (Machine.finishWaiter s q v) := by
  unfold Machine.finishWaiter
  split
  · exact h
  · dsimp only
    split
    · exact h.setThread.resumeThread
    · exact h.setThread.resumeThread
    · exact h

theorem uncorrEvent {die core : Nat} {tid : Tid} {what : Word} (h : LStoresCanonical s) :
    LStoresCanonical (Machine.uncorrEvent s die core tid what) := h.emit.takeFree

theorem uncorrThread {tid : Tid} {what : Word} (h : LStoresCanonical s) : LStoresCanonical (Machine.uncorrThread s tid what) := by
  unfold Machine.uncorrThread
  split
  · exact h
  · exact h.uncorrEvent.killThread

/-- Each waiter served is finished, but the one whose word is found uncorrectable. -/
theorem finishWaiters {w : Nat} {met : Bool} {out : List (Waiter × Word)} (h : LStoresCanonical s) :
    LStoresCanonical (Machine.finishWaiters s w met out) := by
  induction out generalizing s met with
  | nil => exact h
  | cons x out ih =>
    unfold Machine.finishWaiters
    split
    · exact ih h.finishWaiter
    all_goals exact ih (.ite h.uncorrThread h.finishWaiter)

theorem orderServed {g : Nat} {served : List Tid} (h : LStoresCanonical s) : LStoresCanonical (Machine.orderServed s g served) :=
  h.modCore (by simp)

/-- A pass over a wait list writes the L-store by stf alone. -/
theorem lservePass_wf {w : Nat} {ws : List Waiter} {c : Core} (h : Memory.wf c.lstore = true) :
    Memory.wf (Machine.lservePass c w ws).1.lstore = true := by
  induction ws generalizing c with
  | nil => exact h
  | cons q qs ih =>
    unfold Machine.lservePass
    split
    · exact ih h
    · split
      · split <;> exact ih h
      · split <;> exact ih h
      · split
        · exact ih h
        · exact ih (Memory.write_wf _ _ _ h)

theorem lserveAll_wf {w fuel : Nat} {ws : List Waiter} {c : Core} (h : Memory.wf c.lstore = true) :
    Memory.wf (Machine.lserveAll fuel c w ws).1.lstore = true := by
  induction fuel generalizing c ws with
  | zero => exact h
  | succ fuel ih =>
    unfold Machine.lserveAll
    dsimp only
    split
    · exact ih (lservePass_wf h)
    · exact lservePass_wf h

/-- Serving a wait list writes the words its stf waiters bring. -/
theorem lserve {g w : Nat} (h : LStoresCanonical s) : LStoresCanonical (Machine.lserve s g w) := by
  unfold Machine.lserve
  have hc := lserveAll_wf (w := w) (fuel := (s.core g).waiters.length + 1) (ws := (s.core g).waiters) (h.core g)
  exact .ite (.finishWaiters (h.setCore hc)) (.orderServed (.finishWaiters (h.setCore hc)))

theorem lserveWaiting {g : Nat} (h : LStoresCanonical s) : LStoresCanonical (Machine.lserveWaiting s g) := h.foldl (fun _ _ h => h.lserve)

theorem lwrite {g off : Nat} {bytes : List Byte} (h : LStoresCanonical s) : LStoresCanonical (Machine.lwrite s g off bytes) :=
  h.modCore_of_wf fun _ hc => Memory.write_wf _ _ _ hc

theorem lwriteFull {g off : Nat} {bytes : List Byte} (h : LStoresCanonical s) : LStoresCanonical (Machine.lwriteFull s g off bytes) :=
  (h.lwrite.modCore (foldl_lstore (fun c w => setWordFull_lstore c w true) _)).foldl fun _ _ h => h.lserve

/-! ### A turn of a thread, and the memory port -/

theorem advance {n : Nat} (h : LStoresCanonical s) : LStoresCanonical (Machine.advance s n) := h

theorem advanceTo {tick : Nat} (h : LStoresCanonical s) : LStoresCanonical (Machine.advanceTo s tick) := .ite h.advance h

theorem modStroke {tid : Tid} {f : Stroke → Stroke} (h : LStoresCanonical s) : LStoresCanonical (Machine.modStroke s tid f) := h.modThread

theorem endRepetition {tid : Tid} (h : LStoresCanonical s) : LStoresCanonical (Machine.endRepetition s tid) := h.with_issue.modThread

theorem finishSeq {u : Issue} (h : LStoresCanonical s) : NextCanonical (Machine.finishSeq u s) := by
  unfold Machine.finishSeq
  split
  · exact .next h.completeSeq.closeTurn
  · exact .next h.endRepetition.modStroke

theorem finishTrap {u : Issue} {cause : Nat} {value : Word} (h : LStoresCanonical s) :
    NextCanonical (Machine.finishTrap u s cause value) := by
  unfold Machine.finishTrap
  split
  · exact .next h.trapEntry.closeTurn
  · exact .next h.endRepetition.modStroke

theorem finishPark {u : Issue} {p : Park} (h : LStoresCanonical s) : NextCanonical (Machine.finishPark u s p) := by
  unfold Machine.finishPark
  split
  · exact .next h.parkThread.closeTurn
  · exact .next h.endRepetition

theorem finishRetry {u : Issue} (h : LStoresCanonical s) : NextCanonical (Machine.finishRetry u s) := by
  unfold Machine.finishRetry
  split
  · exact .next h.closeTurn
  · exact .next h.endRepetition

theorem finishJump {u : Issue} {t : Thread} (h : LStoresCanonical s) : NextCanonical (Machine.finishJump u s t) :=
  .next h.settleFlow.closeTurn

theorem finishReg {u : Issue} {t : Thread} {d : Reg} {v : Word} (h : LStoresCanonical s) : NextCanonical (Machine.finishReg u s t d v) :=
  h.setThread.finishSeq

theorem finishThread {u : Issue} {t : Thread} (h : LStoresCanonical s) : NextCanonical (Machine.finishThread u s t) := h.setThread.finishSeq

theorem finishKilled {u : Issue} (h : LStoresCanonical s) : NextCanonical (Machine.finishKilled u s) := by
  unfold Machine.finishKilled
  split
  · exact .next h.closeTurn
  · exact .next h.endRepetition

theorem reading {u : Issue} {t : Thread} {runs : List (Nat × Nat)} {o : Out} (h : LStoresCanonical s) (ho : NextCanonical o) :
    NextCanonical (Machine.reading u s t runs o) := by
  unfold Machine.reading
  split
  · exact h.uncorrThread.finishKilled
  · exact ho

theorem readingTile {u : Issue} {t : Thread} {p : Nat} {o : Out} (h : LStoresCanonical s) (ho : NextCanonical o) :
    NextCanonical (Machine.readingTile u s t p o) := .ite h.uncorrThread.finishKilled ho

/-- An instruction enters its meaning from the state it was issued in. -/
theorem perform {i : Instr} {k : Issue → Thread → Out} (h : LStoresCanonical s) (hk : ∀ u t, NextCanonical (k u t)) :
    NextCanonical (Machine.perform i s k) := by
  unfold Machine.perform
  split
  · exact .fault
  · split
    · exact .fault
    · split
      · exact h.finishTrap
      · exact .ite h.finishPark (hk _ _)

/-- A request leaves the port for its home slice; no L-store is touched. -/
theorem pumpFuel {fuel g : Nat} (h : LStoresCanonical s) : LStoresCanonical (Machine.pumpFuel fuel s g) := by
  induction fuel generalizing s with
  | zero => exact h
  | succ fuel ih =>
    unfold Machine.pumpFuel
    dsimp only
    split
    · exact h
    · exact .ite (ih (h.modCore (by simp)).modSlice) h

theorem pump {g : Nat} (h : LStoresCanonical s) : LStoresCanonical (Machine.pump s g) := h.pumpFuel

theorem portAdd {r : Req} (h : LStoresCanonical s) : LStoresCanonical (Machine.portAdd s r) := (h.takeReq.modCore (by simp)).pump

theorem countTurn {g now seat : Nat} {tid : Tid} {t : Thread} (h : LStoresCanonical s) :
    LStoresCanonical (Machine.countTurn s g now seat tid t) := (h.modCore (by simp)).setThread

theorem fetchMiss {g : Nat} {tid : Tid} {ia : Word} (h : LStoresCanonical s) : LStoresCanonical (Machine.fetchMiss s g tid ia) :=
  h.portAdd.parkThread

theorem endTurn {g : Nat} {tid : Tid} {ia : Word} (h : LStoresCanonical s) : NextCanonical (Machine.endTurn s g tid ia) := .next h.closeTurn

theorem takeTurn {g : Nat} {tid : Tid} {t : Thread} (h : LStoresCanonical s) : NextCanonical (Machine.takeTurn s g tid t) := by
  have hu (k : Nat) (ia : Word) : LStoresCanonical (s.modCore k fun c => useLine c ia) := h.modCore (by simp)
  unfold Machine.takeTurn
  dsimp only
  split
  · exact h.setThread.trapEntry.endTurn
  · split
    · exact h.shipTo.endTurn
    · exact h.trapEntry.endTurn
    · refine .ite h.trapEntry.endTurn ?_
      split
      · exact h.fetchMiss.endTurn
      · split
        · exact (hu _ _).trapEntry.endTurn
        · exact (hu _ _).trapEntry.endTurn
        · refine .ite (hu _ _).trapEntry.endTurn ?_
          split
          · exact (hu _ _).trapEntry.endTurn
          · split
            · exact (hu _ _).trapEntry.endTurn
            · exact .ite (.next (hu _ _).with_issue) (hu _ _).completeSeq.endTurn

theorem execIssueSelect {g : Nat} (h : LStoresCanonical s) : NextCanonical (Machine.execIssueSelect g s) := by
  unfold Machine.execIssueSelect
  refine .ite (.next h) ?_
  split
  · exact .next h
  · exact h.countTurn.takeTurn

/-! ### Float flags -/

theorem finishFloat {u : Issue} {t : Thread} {d : Reg} {r : Word × Flags} (h : LStoresCanonical s) :
    NextCanonical (Machine.finishFloat u s t d r) := .ite h.finishTrap h.finishReg

theorem performFloat {i : Instr} {d : Reg} {f : Thread → Word × Flags} (h : LStoresCanonical s) :
    NextCanonical (Machine.performFloat i d s f) := h.perform (fun _ _ => h.finishFloat)

/-! ### Integer instructions -/

theorem performReg {i : Instr} {d : Reg} {v : Thread → Word} (h : LStoresCanonical s) : NextCanonical (Machine.performReg i d s v) :=
  h.perform (fun _ _ => h.finishReg)

theorem execAdd {d a b : Reg} {w : Width} (h : LStoresCanonical s) : NextCanonical (Machine.execAdd d a b w s) := h.performReg

theorem execSub {d a b : Reg} {w : Width} (h : LStoresCanonical s) : NextCanonical (Machine.execSub d a b w s) := h.performReg

theorem execAddi {d a : Reg} {w : Width} {imm : BitVec 32} (h : LStoresCanonical s) : NextCanonical (Machine.execAddi d a w imm s) :=
  h.performReg

theorem execMul {d a b : Reg} {k : MulKind} (h : LStoresCanonical s) : NextCanonical (Machine.execMul d a b k s) := h.performReg

theorem execDiv {d a b : Reg} {signed : Bool} {w : Width} (h : LStoresCanonical s) : NextCanonical (Machine.execDiv d a b signed w s) :=
  h.performReg

theorem execRem {d a b : Reg} {signed : Bool} {w : Width} (h : LStoresCanonical s) : NextCanonical (Machine.execRem d a b signed w s) :=
  h.performReg

theorem execLogic {d a b : Reg} {op : LogicOp} (h : LStoresCanonical s) : NextCanonical (Machine.execLogic d a b op s) := h.performReg

theorem execLogi {d a : Reg} {op : LogiOp} {imm : BitVec 32} (h : LStoresCanonical s) : NextCanonical (Machine.execLogi d a op imm s) :=
  h.performReg

theorem execShift {d a b : Reg} {op : ShiftOp} {w32 : Bool} (h : LStoresCanonical s) : NextCanonical (Machine.execShift d a b op w32 s) :=
  h.performReg

theorem execShifti {d a : Reg} {amt : BitVec 7} {op : ShiftOp} {w32 : Bool} (h : LStoresCanonical s) :
    NextCanonical (Machine.execShifti d a amt op w32 s) := h.performReg

theorem execLi {d : Reg} {k : LiKind} {imm : BitVec 32} (h : LStoresCanonical s) : NextCanonical (Machine.execLi d k imm s) := h.performReg

theorem execMnx {d a b : Reg} {op : MinMax} (h : LStoresCanonical s) : NextCanonical (Machine.execMnx d a b op s) := h.performReg

theorem execLea {d a b : Reg} {sh : BitVec 2} {disp : BitVec 34} (h : LStoresCanonical s) :
    NextCanonical (Machine.execLea d a b sh disp s) := h.performReg

theorem execBits {d a : Reg} {op : BitsOp} (h : LStoresCanonical s) : NextCanonical (Machine.execBits d a op s) := h.performReg

theorem execSel {d a b c : Reg} (h : LStoresCanonical s) : NextCanonical (Machine.execSel d a b c s) := h.performReg

theorem execMadd {d a b c : Reg} {w : Width} (h : LStoresCanonical s) : NextCanonical (Machine.execMadd d a b c w s) := h.performReg

/-! ### Memory, full/empty and atomic instructions -/

theorem shipHome {u : Issue} {t : Thread} {ea pc : Word} (h : LStoresCanonical s) : NextCanonical (Machine.shipHome u s t ea pc) := by
  unfold Machine.shipHome
  split
  · exact .ite h.finishTrap (.ite (.next h.setThread.parkThread.closeTurn) (.next h.modNet.parkThread.closeTurn))
  · exact h.finishTrap

theorem finishShipHome {u : Issue} {t : Thread} {ea : Word} (h : LStoresCanonical s) : NextCanonical (Machine.finishShipHome u s t ea) := by
  unfold Machine.finishShipHome
  split
  · exact h.shipHome
  · exact .ite h.endRepetition.leaveQueues.shipHome (.next h.endRepetition)
  · exact h.finishRetry

theorem parkRelease {u : Issue} (h : LStoresCanonical s) : NextCanonical (Machine.parkRelease u s) := h.finishPark

theorem finishAccess {u : Issue} {t : Thread} {d : Reg} {v : Word} {acquire : Bool} (h : LStoresCanonical s) :
    NextCanonical (Machine.finishAccess u s t d v acquire) := by
  unfold Machine.finishAccess
  refine .ite ?_ h.finishReg
  split
  · exact h.setThread.finishPark
  · exact h.finishReg

theorem sendLoad {u : Issue} {t : Thread} {kind : ReqKind} {ea : Word} {dests : List Nat} {ord : Ord} {na stay : Bool}
    (h : LStoresCanonical s) :
    NextCanonical (Machine.sendLoad u s t kind ea dests ord na stay) := by
  unfold Machine.sendLoad
  dsimp only
  split
  · exact .ite (.ite h.setThread.portAdd.finishSeq h.setThread.portAdd.finishPark) h.setThread.portAdd.finishPark
  · exact h.setThread.portAdd.modStroke.finishSeq

theorem sendStore {u : Issue} {t : Thread} {kind : ReqKind} {ea : Word} {ord : Ord} {na : Bool} (h : LStoresCanonical s) :
    NextCanonical (Machine.sendStore u s t kind ea ord na) := by
  unfold Machine.sendStore
  refine .ite h.finishRetry ?_
  dsimp only
  split
  · exact .ite h.portAdd.finishPark h.portAdd.finishSeq
  · exact h.portAdd.modStroke.finishSeq

theorem execLd {d a b : Reg} {x : Mx} (h : LStoresCanonical s) : NextCanonical (Machine.execLd d a b x s) := by
  unfold Machine.execLd
  refine h.perform (fun _ _ => ?_)
  dsimp only
  split
  · exact h.finishTrap
  · exact h.finishShipHome
  · exact .ite h.finishRetry (.ite h.parkRelease (h.reading h.finishAccess))
  · exact .ite h.finishRetry (.ite h.parkRelease h.sendLoad)

theorem execSt {a b c : Reg} {x : Mx} (h : LStoresCanonical s) : NextCanonical (Machine.execSt a b c x s) := by
  unfold Machine.execSt
  refine h.perform (fun _ _ => ?_)
  dsimp only
  split
  · exact h.finishTrap
  · exact h.finishShipHome
  · exact .ite h.finishRetry (.ite h.parkRelease (h.reading h.lwrite.finishSeq))
  · exact .ite h.finishRetry (.ite h.parkRelease h.sendStore)

theorem execLdm {d a : Reg} {count1 : BitVec 4} {ord : Ord} {disp : BitVec 28} (h : LStoresCanonical s) :
    NextCanonical (Machine.execLdm d a count1 ord disp s) := by
  unfold Machine.execLdm
  refine h.perform (fun _ _ => .ite h.finishTrap ?_)
  split
  · exact h.finishTrap
  · exact h.finishShipHome
  · exact .ite h.parkRelease (h.reading h.finishAccess)
  · exact .ite h.parkRelease h.sendLoad

theorem execStm {a c : Reg} {count1 : BitVec 4} {ord : Ord} {disp : BitVec 28} (h : LStoresCanonical s) :
    NextCanonical (Machine.execStm a c count1 ord disp s) := by
  unfold Machine.execStm
  refine h.perform (fun _ _ => .ite h.finishTrap ?_)
  split
  · exact h.finishTrap
  · exact h.finishShipHome
  · exact .ite h.parkRelease h.lwrite.finishSeq
  · exact .ite h.parkRelease h.sendStore

theorem joinWaiters {g : Nat} {w : Waiter} (h : LStoresCanonical s) : LStoresCanonical (Machine.joinWaiters s g w) := h.modCore (by simp)

theorem execLdf {d a b : Reg} {x : MxFe} (h : LStoresCanonical s) : NextCanonical (Machine.execLdf d a b x s) := by
  unfold Machine.execLdf
  refine h.perform (fun _ _ => ?_)
  dsimp only
  split
  · exact h.finishTrap
  · exact h.finishShipHome
  · exact .ite (h.reading h.finishAccess) h.joinWaiters.finishPark
  · exact h.sendLoad

theorem execLde {d a b : Reg} {x : MxFe} (h : LStoresCanonical s) : NextCanonical (Machine.execLde d a b x s) := by
  unfold Machine.execLde
  refine h.perform (fun _ _ => ?_)
  dsimp only
  split
  · exact h.finishTrap
  · exact h.finishShipHome
  · exact .ite h.parkRelease (.ite (h.reading (h.modCore (by simp)).lserve.finishAccess) h.joinWaiters.finishPark)
  · exact .ite h.parkRelease h.sendLoad

theorem execStf {a b c : Reg} {we : Bool} {x : MxFe} (h : LStoresCanonical s) : NextCanonical (Machine.execStf a b c we x s) := by
  unfold Machine.execStf
  refine h.perform (fun _ _ => ?_)
  dsimp only
  split
  · exact h.finishTrap
  · exact h.finishShipHome
  · exact .ite h.parkRelease (.ite h.joinWaiters.finishPark h.lwriteFull.finishSeq)
  · exact .ite h.parkRelease h.sendLoad

theorem femWords {g w n : Nat} {full : Bool} (h : LStoresCanonical s) : LStoresCanonical (Machine.femWords s g w full n) := by
  induction n generalizing s w with
  | zero => exact h
  | succ n ih => exact ih (.ite h (h.modCore (by simp)).lserve)

theorem execFem {a : Reg} {full : Bool} {count1 : BitVec 10} (h : LStoresCanonical s) :
    NextCanonical (Machine.execFem a full count1 s) := by
  unfold Machine.execFem
  refine h.perform (fun _ _ => ?_)
  dsimp only
  split
  · exact h.finishTrap
  · exact h.finishShipHome
  · exact .ite h.parkRelease h.femWords.finishSeq
  · exact .ite h.finishTrap (.ite h.parkRelease h.sendLoad)

theorem execAtom {d a b c : Reg} {eight : Bool} {ord : Ord} {shift : BitVec 2} {ao : AtomOp} {disp : BitVec 24} (h : LStoresCanonical s) :
    NextCanonical (Machine.execAtom d a b c eight ord shift ao disp s) := by
  unfold Machine.execAtom
  refine h.perform (fun _ _ => ?_)
  dsimp only
  split
  · exact h.finishTrap
  · exact h.finishShipHome
  · exact .ite h.parkRelease (h.reading h.lwrite.finishAccess)
  · exact .ite h.parkRelease h.sendLoad

theorem execTld {x : TileRef} {a b : Reg} {disp : BitVec 28} (h : LStoresCanonical s) : NextCanonical (Machine.execTld x a b disp s) := by
  unfold Machine.execTld
  refine h.perform (fun _ _ => ?_)
  dsimp only
  split
  · exact h.finishTrap
  · exact .ite h.finishPark (h.reading (h.modCore (by simp)).finishSeq)

theorem execTst {x : TileRef} {a b : Reg} {disp : BitVec 28} (h : LStoresCanonical s) : NextCanonical (Machine.execTst x a b disp s) := by
  unfold Machine.execTst
  refine h.perform (fun _ _ => ?_)
  dsimp only
  split
  · exact h.finishTrap
  · exact .ite h.finishPark (h.readingTile (h.foldl (fun _ _ h => h.lwrite)).finishSeq)

theorem lineParked {i : Instr} {kind : ReqKind} {a : Reg} (h : LStoresCanonical s) : NextCanonical (Machine.lineParked i kind a s) := by
  unfold Machine.lineParked
  refine h.perform (fun _ _ => ?_)
  split
  · exact h.finishSeq
  · exact h.finishTrap
  · exact h.sendLoad

theorem execLinePref {a : Reg} (h : LStoresCanonical s) : NextCanonical (Machine.execLinePref a s) := by
  unfold Machine.execLinePref
  refine h.perform (fun _ _ => ?_)
  split
  · exact h.portAdd.finishSeq
  · exact h.finishSeq

theorem execLineZero {a : Reg} (h : LStoresCanonical s) : NextCanonical (Machine.execLineZero a s) := by
  unfold Machine.execLineZero
  refine h.perform (fun _ _ => ?_)
  dsimp only
  split
  · exact .ite h.lwriteFull.finishSeq h.finishTrap
  · exact h.finishTrap
  · exact h.sendStore

theorem execLineFlush {a : Reg} (h : LStoresCanonical s) : NextCanonical (Machine.execLineFlush a s) := h.lineParked

theorem execLineDrop {a : Reg} (h : LStoresCanonical s) : NextCanonical (Machine.execLineDrop a s) := h.lineParked

theorem execLineIinv {a : Reg} (h : LStoresCanonical s) : NextCanonical (Machine.execLineIinv a s) := by
  unfold Machine.execLineIinv
  refine h.perform (fun _ _ => ?_)
  dsimp only
  split
  · exact h.finishSeq
  · exact h.finishTrap
  · exact h.dropCode.sendNote.finishPark

theorem execMprot {win : BitVec 3} {a b : Reg} {r w : Bool} (h : LStoresCanonical s) : NextCanonical (Machine.execMprot win a b r w s) :=
  h.perform (fun _ _ => .ite h.finishTrap (h.modCore (by simp)).finishSeq)

theorem execXlatProbe {d a : Reg} (h : LStoresCanonical s) : NextCanonical (Machine.execXlatProbe d a s) :=
  h.perform (fun _ _ => h.finishReg)

theorem xlatRemove {i : Instr} {d : Reg} {keep : Thread → Xlat → Bool} (h : LStoresCanonical s) :
    NextCanonical (Machine.xlatRemove i d keep s) := h.perform (fun _ _ => h.modDie.setThread.sendNote.finishPark)

theorem execXlatInv {d a : Reg} (h : LStoresCanonical s) : NextCanonical (Machine.execXlatInv d a s) := h.xlatRemove

theorem execXlatInvall {d a : Reg} (h : LStoresCanonical s) : NextCanonical (Machine.execXlatInvall d a s) := h.xlatRemove

/-! ### Cache slices and the reply channel -/

theorem queueWrite {ea : Word} {bytes : List Byte} (h : LStoresCanonical s) : LStoresCanonical (Machine.queueWrite s ea bytes) :=
  .ite h.dieWrite h.partWrite

theorem modEngine {g : Nat} {f : List EngCmd → List EngCmd} (h : LStoresCanonical s) : LStoresCanonical (Machine.modEngine s g f) :=
  .ite (h.modCore (by simp)) h

theorem modCommand {g id : Nat} {f : EngCmd → EngCmd} (h : LStoresCanonical s) : LStoresCanonical (Machine.modCommand s g id f) :=
  h.modEngine

theorem putFault {d : Nat} {e : FaultEntry} (h : LStoresCanonical s) : LStoresCanonical (Machine.putFault s d e) := by
  unfold Machine.putFault
  refine .modDie ?_
  split
  · exact h.queueWrite.queueWrite.modCommand
  · exact h.queueWrite.queueWrite

theorem reportFault {d k : Nat} {e : FaultEntry} (h : LStoresCanonical s) : LStoresCanonical (Machine.reportFault s d k e) :=
  .ite h.putFault h

theorem faultRequest {d k : Nat} {r : Req} {present : Bool} (h : LStoresCanonical s) :
    LStoresCanonical (Machine.faultRequest s d k r present) := by
  unfold Machine.faultRequest
  split
  · exact h
  · exact h.sendNote

/-- Every kind of request acts on the home line, and answers with a note. -/
theorem performReq {d : Nat} {r : Req} {pa : Nat} {lpddr : Bool} (h : LStoresCanonical s) :
    LStoresCanonical (Machine.performReq s d r pa lpddr) := by
  unfold Machine.performReq
  extract_lets l k note off w s1 held ln s2 s3 gone wait
  have h1 : LStoresCanonical s1 := .ite h.flushStage h
  clear_value held s1 ln
  have h2 : LStoresCanonical s2 := by
    unfold s2
    cases r.kind with
    | st => exact h1.dieWritten
    | stf => exact .ite h1 h1.dieWritten
    | zero => exact h1.dieWritten
    | _ => exact h1
  have h3 : LStoresCanonical s3 := .ite h2.modSlice h2
  have hw : LStoresCanonical (wait s3) := .ite h3.sendNote h3.modSlice.modThread
  refine .ite h1.uncorrThread.sendNote ?_
  split
  case h_5 => exact h3.storeLine.sendNote
  case h_6 => exact .ite h3.sendNote hw
  case h_7 => exact .ite h3.storeLine.sendNote hw
  case h_8 => exact .ite hw h3.storeLine.sendNote
  case h_9 => exact .ite (.sendNote (.ite h3 h3.storeLine)) (.modSlice (.ite h3 h3.storeLine))
  case h_10 => exact h3.storeLine.sendNote
  case h_11 => exact h3.putServed.sendNote
  case h_12 => exact .sendNote (.ite h3.modDie.modSlice h3)
  all_goals exact h3

theorem stageStore {d k : Nat} {r : Req} {bytes : List Byte} {pa : Nat} {lpddr : Bool} {after : Nat} (h : LStoresCanonical s) :
    LStoresCanonical (Machine.stageStore s d k r bytes pa lpddr after) := h.modSlice.sendNote

theorem startFill {d k l pa : Nat} {lpddr : Bool} {reqs : List Req} (h : LStoresCanonical s) :
    SomeCanonical (Machine.startFill s d k l pa lpddr reqs) := by
  unfold Machine.startFill
  refine .ite .none ?_
  split
  · exact .none
  · exact .some h

theorem takeRequest {d k : Nat} {r : Req} {x : Xlat} (h : LStoresCanonical s) : SomeCanonical (Machine.takeRequest s d k r x) := by
  unfold Machine.takeRequest
  dsimp only
  split
  · split
    · exact .ite .none (.some h.stageStore)
    · exact .none
    · exact .none
    · exact .ite .none (.some h)
  · split
    · split
      case h_1 => exact .ite .none (.some h.stageStore)
      all_goals exact .ite .none (.some h.performReq)
    · split
      · exact .ite .none (.ite (.some h.stageStore) (.map_state h.startFill (fun _ h => h.stageStore)))
      · exact .ite .none (.some h.performReq)
      · exact .ite .none (.some h.performReq)
      · exact .map (fun _ => h.setDie.performReq)
      · exact .ite (.some h.performReq) h.startFill

theorem takeIngress {die sl k : Nat} (h : LStoresCanonical s) : LStoresCanonical (Machine.takeIngress die sl k s) := by
  unfold Machine.takeIngress
  dsimp only
  split
  · exact h
  · refine .ite h ?_
    split
    · exact .ite h h
    · refine .ite ?_ (.ite h.modSlice.sendNote (SomeCanonical.getD h.modSlice.takeRequest h))
      split
      · exact h
      · exact .ite h.modSlice.faultRequest h

theorem execSliceRequest {die sl k : Nat} (h : LStoresCanonical s) : NextCanonical (Machine.execSliceRequest die sl k s) := by
  unfold Machine.execSliceRequest
  refine .ite (.next h.takeIngress) ?_
  split
  · exact .next h
  · exact .ite (.next h) (.next h.modSlice.takeIngress)

theorem execWalkComplete {die sl k : Nat} (h : LStoresCanonical s) : NextCanonical (Machine.execWalkComplete die sl k s) := by
  unfold Machine.execWalkComplete
  split
  · exact .next h
  · dsimp only
    split
    · exact .next h
    · split
      · exact .next h
      · exact .next (.ite h.modSlice.faultRequest h)

theorem flushBefore {d k l i : Nat} (h : LStoresCanonical s) : SomeCanonical (Machine.flushBefore s d k l i) :=
  .ite (.some (h.foldl (fun _ _ h => h.performStaged))) .none

/-- Requests of a fill are performed in order, each after the staged stores before it. -/
theorem performList {d k l pa : Nat} {lpddr : Bool} {i : Nat} {rs : List Req} (h : LStoresCanonical s) :
    LStoresCanonical (Machine.performList d k l pa lpddr s i rs).1 := by
  induction rs generalizing s i with
  | nil => exact h
  | cons r rs ih =>
    unfold Machine.performList
    split
    · exact h
    · have hs : LStoresCanonical _ := h.flushBefore.of_some ‹_›
      exact .ite_fst hs (ih hs.modSlice.performReq.modSlice)

theorem execFillLands {die sl line : Nat} (h : LStoresCanonical s) : NextCanonical (Machine.execFillLands die sl line s) := by
  unfold Machine.execFillLands
  split
  · exact .next h
  · exact .ite (.next (.flushStage (.modSlice (.performList (.ite h h))))) (.next (.modSlice (.performList (.ite h h))))

theorem execStagedStorePerform {die sl k : Nat} (h : LStoresCanonical s) : NextCanonical (Machine.execStagedStorePerform die sl k s) := by
  unfold Machine.execStagedStorePerform
  dsimp only
  split
  · exact .next h
  · refine .ite (.next h) ?_
    split
    · refine .ite ?_ (.next h.performStaged)
      split
      · exact .next h.setDie.performStaged
      · exact .next h
    · exact .next h.performStaged

theorem takeNote {k : Nat} {n : NoteAt} {rest : State} (h : LStoresCanonical s) (e : Machine.takeNote s k = some (n, rest)) :
    LStoresCanonical rest := by
  unfold Machine.takeNote at e
  split at e
  · cases e
  · split at e
    · cases e
    · cases e
      exact h

theorem strokePerformed {tid : Tid} {id : Nat} (h : LStoresCanonical s) : LStoresCanonical (Machine.strokePerformed s tid id) := h.modStroke

theorem execStoreAck {k : Nat} (h : LStoresCanonical s) : NextCanonical (Machine.execStoreAck k s) := by
  unfold Machine.execStoreAck
  split
  · split
    · refine .next (.pump ?_)
      split
      · exact (h.takeNote ‹_›).modCore (by simp)
      · exact ((h.takeNote ‹_›).modCore (by simp)).strokePerformed
    · exact .next h
  · exact .next h

theorem execPerformedNotice {k : Nat} (h : LStoresCanonical s) : NextCanonical (Machine.execPerformedNotice k s) := by
  unfold Machine.execPerformedNotice
  split
  · dsimp only
    split
    · exact .next ((h.takeNote ‹_›).modCore (by simp)).strokePerformed
    · exact .next ((h.takeNote ‹_›).modCore (by simp)).strokePerformed.uncorrThread
    · exact .next h
  · exact .next h

theorem answered {r : Req} (h : LStoresCanonical s) : LStoresCanonical (Machine.answered s r) := (h.modCore (by simp)).pump

theorem resumeReply {r : Req} (h : LStoresCanonical s) : LStoresCanonical (Machine.resumeReply s r) := by
  unfold Machine.resumeReply
  split
  · exact h
  · split
    case h_4 => exact h
    all_goals exact .ite h.modThread h.resumeThread

theorem strokeAnswered {r : Req} (h : LStoresCanonical s) : LStoresCanonical (Machine.strokeAnswered s r) := h.modStroke

theorem landNote {r : Req} {data : List Byte} {flags : Nat} (h : LStoresCanonical s) :
    LStoresCanonical (Machine.landNote s r data flags) := by
  unfold Machine.landNote
  refine .ite h.answered.uncorrThread ?_
  split
  · exact h.answered
  · refine .ite h.answered.setThread ?_
    split
    · exact h.answered.setThread.strokeAnswered
    · exact .ite h.answered.setThread h.answered.setThread.resumeReply

theorem trapReply {r : Req} {ea : Word} (h : LStoresCanonical s) : LStoresCanonical (Machine.trapReply s r ea) := by
  unfold Machine.trapReply
  dsimp only
  split
  · exact h.answered
  · exact .ite h.answered h.answered.setThread.trapWaiting

theorem execLoadReply {k : Nat} (h : LStoresCanonical s) : NextCanonical (Machine.execLoadReply k s) := by
  unfold Machine.execLoadReply
  split
  · split
    · split
      · exact .next h
      · exact .next (h.takeNote ‹_›).landNote
    · exact .next (h.takeNote ‹_›).trapReply
    · exact .ite (.next (h.takeNote ‹_›).modThread.resumeThread) (.next h)
    · exact .next h
  · exact .next h

theorem execFetchLineLands {k : Nat} (h : LStoresCanonical s) : NextCanonical (Machine.execFetchLineLands k s) := by
  unfold Machine.execFetchLineLands
  split
  · split
    · split
      · refine .next ?_
        split
        · split
          · exact ((h.takeNote ‹_›).answered.modCore (by simp)).makeReady
          · exact (h.takeNote ‹_›).answered.modCore (by simp)
        · exact (h.takeNote ‹_›).answered.modCore (by simp)
      · exact .next h
    · exact .next h
  · exact .next h

theorem faultThread {tid : Tid} (h : LStoresCanonical s) : LStoresCanonical (Machine.faultThread s tid) := by
  unfold Machine.faultThread
  split
  · exact h
  · exact h.leaveQueues.setThread

theorem faultPosted {r : Req} (h : LStoresCanonical s) : LStoresCanonical (Machine.faultPosted s r) := by
  unfold Machine.faultPosted
  dsimp only
  split
  · exact h.modCore (by simp)
  · split
    · exact (h.modCore (by simp)).setThread.faultThread
    · exact (h.modCore (by simp)).setThread.faultThread
    · exact (h.modCore (by simp)).setThread

theorem faultParked {r : Req} (h : LStoresCanonical s) : LStoresCanonical (Machine.faultParked s r) := by
  unfold Machine.faultParked
  dsimp only
  split
  · exact h.answered
  · exact .ite h.answered.setThread (.ite h.answered.setThread h.answered.setThread.faultThread)

theorem faultRepetition {r : Req} (h : LStoresCanonical s) : LStoresCanonical (Machine.faultRepetition s r) := by
  unfold Machine.faultRepetition
  dsimp only
  split
  · exact h.answered
  · exact h.answered.setThread.modStroke

theorem execFaultReply {k : Nat} (h : LStoresCanonical s) : NextCanonical (Machine.execFaultReply k s) := by
  unfold Machine.execFaultReply
  split
  · split
    · exact .next (.ite (h.takeNote ‹_›).reportFault.faultRepetition (.ite (h.takeNote ‹_›).reportFault.faultPosted
        (h.takeNote ‹_›).reportFault.faultParked))
    · exact .next h
  · exact .next h

theorem execFaultQueueSpace {die sl : Nat} (h : LStoresCanonical s) : NextCanonical (Machine.execFaultQueueSpace die sl s) := by
  unfold Machine.execFaultQueueSpace
  split
  · exact .next h
  · exact .ite (.next h.modSlice.putFault) (.next h)

theorem execIstoreParityError {g : Nat} {ia : Word} (h : LStoresCanonical s) : NextCanonical (Machine.execIstoreParityError g ia s) := by
  unfold Machine.execIstoreParityError
  dsimp only
  split
  · exact .next h
  · split <;> exact .next (h.dieRead.modCore (by simp))

/-! ### What crosses dies -/

theorem writeAt {who : Issuer} {checked : Bool} {p : HomePlace} {ea : Word} {bytes : List Byte} (h : LStoresCanonical s) :
    LandedCanonical (Machine.writeAt s who checked p ea bytes) := by
  unfold Machine.writeAt
  split
  · exact .ite (.done h.lwriteFull) .refused
  · split
    · exact .fault h
    · exact .done h.dieWrite
  · exact .done h.partWrite
  · exact .refused

theorem readAt {who : Issuer} {checked : Bool} {p : HomePlace} {ea : Word} {n : Nat} (h : LStoresCanonical s) :
    LandedCanonical (Machine.readAt s who checked p ea n) := by
  unfold Machine.readAt
  split
  · exact .ite (.done h) .refused
  · split
    · exact .fault h
    · split
      · exact .done (h.dieRead.of_eq ‹_›)
      · exact .fault (h.dieRead.of_eq ‹_›)
  · exact .done h
  · exact .refused

theorem reportEngine {tid : Tid} {core d off : Nat} {w : Bool} {cmd : Option (Nat × Nat)} {item : Bool} (h : LStoresCanonical s) :
    LStoresCanonical (Machine.reportEngine s tid core d off w cmd item).1 := by
  unfold Machine.reportEngine
  dsimp only
  split
  · exact h.reportFault
  · exact h

theorem reportGap {who : Nat} {tid : Tid} {core : Nat} {w : Bool} {gap : Nat × Nat} (h : LStoresCanonical s) :
    LStoresCanonical (Machine.reportGap s who tid core w gap) := by
  unfold Machine.reportGap
  refine .ite h ?_
  split
  · exact (h.reportEngine.of_eq ‹_›).modNet
  · exact h.reportEngine.of_eq ‹_›

theorem gapServed {who : Nat} (h : LStoresCanonical s) : LStoresCanonical (Machine.gapServed s who) := h

theorem modFlow {src dst cls : Nat} {x : Machine.Flow → Machine.Flow} (h : LStoresCanonical s) :
    LStoresCanonical (s.modFlow src dst cls x) := h

theorem launchItem {x : Item} (h : LStoresCanonical s) : LStoresCanonical (Machine.launchItem s x) := h.modFlow.modNet

theorem queueItem {x : Item} (h : LStoresCanonical s) : LStoresCanonical (Machine.queueItem s x) := h

theorem admitItem {x : Item} (h : LStoresCanonical s) : LStoresCanonical (Machine.admitItem s x) :=
  .ite (.ite h h.queueItem) (.ite h.launchItem h.modFlow.queueItem)

theorem sendItem {src dst cls : Nat} {body : ItemBody} (h : LStoresCanonical s) : LStoresCanonical (Machine.sendItem s src dst cls body) :=
  .ite h.modFlow.admitItem h.modFlow.modDie

theorem sendReply {src dst : Nat} {body : ItemBody} (h : LStoresCanonical s) : LStoresCanonical (Machine.sendReply s src dst body) :=
  .ite h.admitItem h

theorem sendFromThread {tid : Tid} {src dst cls : Nat} {body : ItemBody} (h : LStoresCanonical s) :
    LStoresCanonical (Machine.sendFromThread s tid src dst cls body) := h.sendItem.modThread

theorem sendMarker {src dst cls : Nat} {ack : Bool} {who : Option Tid} {cmd : Option (Nat × Nat)} {bar : Option Nat} {id : Nat}
    (h : LStoresCanonical s) :
    LStoresCanonical (Machine.sendMarker s src dst cls ack who cmd bar id) := h.modNet.sendItem

theorem commandAnswered {cmd : Nat × Nat} {status : Nat} (h : LStoresCanonical s) :
    LStoresCanonical (Machine.commandAnswered s cmd status) := h.modCommand

theorem markerAnswered {m : MarkNote} {status : Nat} (h : LStoresCanonical s) : LStoresCanonical (Machine.markerAnswered s m status) := by
  unfold Machine.markerAnswered
  extract_lets s1 s2 s3
  have h1 : LStoresCanonical s1 := by
    unfold s1
    split
    · exact h.modThread
    · exact h
  have h2 : LStoresCanonical s2 := by
    unfold s2
    split
    · exact h1.modThread
    · exact h1
  have h3 : LStoresCanonical s3 := by
    unfold s3
    split
    · exact h2.modNet
    · exact h2
  split
  · exact h3.commandAnswered
  · exact h3

theorem performItem {x : Item} (h : LStoresCanonical s) : LStoresCanonical (Machine.performItem s x).1 := by
  unfold Machine.performItem
  split
  · split
    · split
      · exact h.writeAt.of_done ‹_›
      · exact h.writeAt.of_fault ‹_›
      · exact h.modFlow
    · exact h.modFlow
  · split
    · split
      · exact (h.readAt.of_done ‹_›).sendReply
      · exact h.readAt.of_fault ‹_›
      · exact h.sendReply
    · exact h.sendReply
  · exact h

theorem reportItem {x : Item} (h : LStoresCanonical s) : LStoresCanonical (Machine.reportItem s x).1 := by
  unfold Machine.reportItem
  dsimp only
  split
  · split
    · split
      · exact h.reportEngine
      · exact h
    · exact h
  · split
    · split
      · exact h.reportEngine
      · exact h
    · exact h
  · exact h

theorem modStuck {d : Nat} {x : Item} {x' : Stuck → Stuck} (h : LStoresCanonical s) : LStoresCanonical (Machine.modStuck s d x x') := h

theorem tellItem {d : Nat} {x : Item} (h : LStoresCanonical s) : LStoresCanonical (Machine.tellItem s d x) := by
  unfold Machine.tellItem
  dsimp only
  split
  · exact h.modStuck
  · exact h.reportItem.modStuck

theorem deliverPart {x : Item} (h : LStoresCanonical s) : LStoresCanonical (Machine.deliverPart s x) := by
  unfold Machine.deliverPart
  refine .ite h ?_
  split
  · exact h.performItem.of_eq ‹_›
  · exact (h.performItem.of_eq ‹_›).modDie.tellItem

theorem takeBad {x : Item} {cmd status : Nat} (h : LStoresCanonical s) : LStoresCanonical (Machine.takeBad s x cmd status).1 := by
  unfold Machine.takeBad
  split
  · exact h.modFlow
  · exact h

theorem notePod {unit n : Nat} {value : BitVec 32} {epoch : Nat} (h : LStoresCanonical s) :
    LStoresCanonical (Machine.notePod s unit n value epoch) := .ite h h

/-- An item acts on memory by its parts, or changes flows and engine commands. -/
theorem deliverBody {x : Item} (h : LStoresCanonical s) : LStoresCanonical (Machine.deliverBody s x) := by
  unfold Machine.deliverBody
  split
  case h_1 => exact h.foldl (fun _ _ h => h.deliverPart)
  case h_2 => exact h.foldl (fun _ _ h => h.deliverPart)
  case h_3 => exact .ite h h
  case h_4 =>
    refine .modNet ?_
    split
    · exact h.takeBad
    · exact h
  case h_5 => exact h.modCommand
  case h_8 => split <;> exact h
  case h_14 => split <;> exact h.modCommand
  case h_15 =>
    split
    · exact h.modNet.markerAnswered
    · exact h
  case h_17 => exact h.notePod.modNet
  case h_18 => exact .modNet (.ite h.notePod h)
  case h_19 => exact h.notePod
  case h_20 => exact h.modFlow
  all_goals exact h

theorem deliverItem {x : Item} (h : LStoresCanonical s) : LStoresCanonical (Machine.deliverItem s x) :=
  .deliverBody (.ite h.modFlow h.modFlow.sendReply)

theorem drainFlow {fuel src dst cls : Nat} (h : LStoresCanonical s) : LStoresCanonical (Machine.drainFlow fuel s src dst cls) := by
  induction fuel generalizing s with
  | zero => exact h
  | succ fuel ih =>
    unfold Machine.drainFlow
    refine .ite h ?_
    dsimp only
    split
    · exact ih h.modDie.deliverItem
    · exact h

theorem drain {src dst cls : Nat} (h : LStoresCanonical s) : LStoresCanonical (Machine.drain s src dst cls) := h.drainFlow

theorem discardItem {x : Item} (h : LStoresCanonical s) : LStoresCanonical (Machine.discardItem s x) := h.modFlow

theorem execFlowItemArrival {k : Nat} (h : LStoresCanonical s) : NextCanonical (Machine.execFlowItemArrival k s) := by
  unfold Machine.execFlowItemArrival
  split
  · exact .next h
  · exact .ite (.next h.modNet.deliverBody) (.ite (.next h.modNet.discardItem) (.ite (.next h.modNet.discardItem) (.next
      h.modNet.modDie.drain)))

theorem retryPart {d : Nat} {x : Item} (h : LStoresCanonical s) : LStoresCanonical (Machine.retryPart s d x) := by
  unfold Machine.retryPart
  dsimp only
  split
  · exact h
  · refine .ite h ?_
    split
    · exact (h.performItem.of_eq ‹_›).modDie
    · exact .ite (h.performItem.of_eq ‹_›).tellItem (.ite (h.performItem.of_eq ‹_›).modStuck.tellItem (h.performItem.of_eq ‹_›))

theorem retryStuck {d : Nat} {p : Item → Bool} (h : LStoresCanonical s) : LStoresCanonical (Machine.retryStuck s d p) :=
  h.foldl (fun _ _ h => h.retryPart)

theorem execCreditGrant {die : Nat} (h : LStoresCanonical s) : NextCanonical (Machine.execCreditGrant die s) := by
  unfold Machine.execCreditGrant
  dsimp only
  split
  · exact .next h.retryStuck.modDie.admitItem
  · split
    · exact .next h.retryStuck
    · split
      · exact .next h.retryStuck.with_links.admitItem
      · exact .next h.retryStuck

theorem execMarkerComplete {k : Nat} (h : LStoresCanonical s) : NextCanonical (Machine.execMarkerComplete k s) := by
  unfold Machine.execMarkerComplete
  split
  · exact .next h
  · exact .ite (.next h) (.ite (.next h.retryStuck) (.next (.drain (.ite h.retryStuck.modNet (.ite h.retryStuck.modNet.modFlow.modNet
      h.retryStuck.modNet.modFlow.sendReply)))))

theorem execMarkerAck {k : Nat} (h : LStoresCanonical s) : NextCanonical (Machine.execMarkerAck k s) := by
  unfold Machine.execMarkerAck
  split
  · exact .next h
  · exact .next h.modNet.markerAnswered

theorem sendFenceMarkers {tid : Tid} {t : Thread} {sc : Scope} {bar : Option Nat} (h : LStoresCanonical s) :
    LStoresCanonical (Machine.sendFenceMarkers s tid t sc bar).1 := h.foldl (fun _ _ h => h.sendMarker.takeReq.sendMarker.takeReq)

theorem execFence {sc : Scope} {kind : FenceKind} (h : LStoresCanonical s) : NextCanonical (Machine.execFence sc kind s) := by
  refine h.perform fun u t => .ite h.finishPark (.ite h.finishPark (.ite h.finishPark ?_))
  extract_lets r engines
  split
  have hs := (ite_fst h.sendFenceMarkers h).of_eq ‹_›
  exact .ite hs.finishSeq hs.finishPark

theorem execBarrierObjectArrival {k : Nat} (h : LStoresCanonical s) : NextCanonical (Machine.execBarrierObjectArrival k s) := by
  unfold Machine.execBarrierObjectArrival
  split
  · exact .next h
  · extract_lets s1 s2 who
    have h2 : LStoresCanonical s2 := by
      unfold s2
      split
      · exact h.modNet.modEngine
      · exact h.modNet
    clear_value s2
    split
    · extract_lets c v status count s3 st s4
      have h3 : LStoresCanonical s3 := .ite h2.lwrite h2
      have h4 : LStoresCanonical s4 := h2.lwrite
      clear_value s3 s4 status count
      split
      · exact .next h2
      · split
        · exact .next h3.emit
        · split
          · exact .next (h4.modCore (by simp)).lserve
          · exact .next h4
    · exact .next h2

/-! ### Contexts, save records and wakes -/

theorem writeRecord {tid : Tid} {t : Thread} {k : Nat} (h : LStoresCanonical s) : LStoresCanonical (Machine.writeRecord s tid t k).1 := by
  unfold Machine.writeRecord
  split
  · exact h.partWrite
  · exact h

theorem loadRecord {tid : Tid} {t : Thread} (h : LStoresCanonical s) : LStoresCanonical (Machine.loadRecord s tid t).1 := by
  unfold Machine.loadRecord
  split
  · split <;> exact h.partRead.of_eq ‹_›
  · exact h

theorem comeBack {tid : Tid} {t : Thread} (h : LStoresCanonical s) : LStoresCanonical (Machine.comeBack s tid t).1 := by
  unfold Machine.comeBack
  split
  · exact h
  · exact h.loadRecord

theorem placeTiles {g old new n : Nat} {kept : Bool} (h : LStoresCanonical s) : LStoresCanonical (Machine.placeTiles s g old new n kept) :=
  h.modCore (by simp)

theorem comeOn {tid : Tid} {t : Thread} (h : LStoresCanonical s) : LStoresCanonical (Machine.comeOn s tid t) := by
  unfold Machine.comeOn
  split
  · exact h.setThread.joinQueue
  · dsimp only
    split
    · exact h
    · exact h.setThread.resumeThread
    · exact h.setThread.trapWaiting

theorem takeContext {tid : Tid} (h : LStoresCanonical s) : LStoresCanonical (Machine.takeContext s tid) := by
  unfold Machine.takeContext
  split
  · exact h
  · dsimp only
    split
    · refine .comeOn (.modLaunch ?_)
      split
      · split
        · exact h.comeBack.placeTiles.freeSlot
        · exact h.comeBack.placeTiles
      · exact h.comeBack.placeTiles
    · exact h.comeBack

theorem lendContext {tid : Tid} (h : LStoresCanonical s) : LStoresCanonical (Machine.lendContext s tid) := by
  unfold Machine.lendContext
  split
  · split
    · exact (h.writeRecord.of_eq ‹_›).setThread
    · exact h
  · exact h

theorem execContextGrant {g : Nat} (h : LStoresCanonical s) : NextCanonical (Machine.execContextGrant g s) := by
  unfold Machine.execContextGrant
  split
  · exact .next h
  · extract_lets s1
    have h1 : LStoresCanonical s1 := by
      refine .ite ?_ h
      split
      · exact h.lendContext
      · exact h
    split
    · refine .ite (.next h1) ?_
      split
      · exact .next h1.reportGap
      · exact .next h1.gapServed.takeContext
    · exact .next h1

theorem resendStores {tid : Tid} {t : Thread} (h : LStoresCanonical s) : LStoresCanonical (Machine.resendStores s tid t) :=
  (h.modCore (by simp)).modThread.pump

theorem serveFaults {tid : Tid} {t : Thread} (h : LStoresCanonical s) : LStoresCanonical (Machine.serveFaults s tid t) :=
  h.modStroke.resendStores

theorem wakeFaulted {tid : Tid} {t : Thread} (h : LStoresCanonical s) : LStoresCanonical (Machine.wakeFaulted s tid t) := by
  unfold Machine.wakeFaulted
  dsimp only
  split
  · exact h.serveFaults.makeReady
  · exact h.serveFaults.modThread

theorem wakeThread {tid : Tid} {priv : Bool} {launch : Nat} (h : LStoresCanonical s) :
    LStoresCanonical (Machine.wakeThread s tid priv launch) := by
  unfold Machine.wakeThread
  split
  · exact h
  · refine .ite h (.ite (.ite h.wakeFaulted h) ?_)
    dsimp only
    split
    · exact .ite (.resumeThread (.ite h.serveFaults h)) (.ite h.serveFaults h)
    · exact .ite h.serveFaults h

theorem execCtxQuery {d a : Reg} (h : LStoresCanonical s) : NextCanonical (Machine.execCtxQuery d a s) := h.perform (fun _ _ => h.finishReg)

theorem evictThread {tid : Tid} {t : Thread} {k : Nat} (h : LStoresCanonical s) : LStoresCanonical (Machine.evictThread s tid t k) :=
  .modLaunch (.setThread (.ite (h.leaveLists.modCore (by simp)).modNet (h.leaveLists.modCore (by simp))))

theorem execCtxEvict {d a : Reg} (h : LStoresCanonical s) : NextCanonical (Machine.execCtxEvict d a s) := by
  refine h.perform fun u t => ?_
  extract_lets tid answer s1
  have ha (s : State) (code : Nat) (h : LStoresCanonical s) : NextCanonical (answer s code) := by
    unfold answer
    split
    · exact h.finishReg
    · exact h.finishSeq
  split
  · exact ha _ _ h
  · refine .ite (ha _ _ h) (.ite (ha _ _ h) (.ite (ha _ _ h) ?_))
    split
    · exact ha _ _ h
    · refine .ite ?_ ?_
      · have h1 : LStoresCanonical s1 := h.setThread.completeSeq
        split
        · split
          · exact .next (h1.writeRecord.of_eq ‹_›).evictThread.closeTurn
          · exact ha _ _ h
        · exact .next h1.closeTurn
      · split
        · exact ha _ _ (h.writeRecord.of_eq ‹_›).evictThread
        · exact ha _ _ h

theorem execCtxReseat {d a : Reg} (h : LStoresCanonical s) : NextCanonical (Machine.execCtxReseat d a s) := by
  refine h.perform fun u t => ?_
  extract_lets tid answer
  have ha (s : State) (code : Nat) (h : LStoresCanonical s) : NextCanonical (answer s code) := by
    unfold answer
    split
    · exact h.finishReg
    · exact h.finishSeq
  split
  · exact ha _ _ h
  · exact .ite (ha _ _ h) (.ite (ha _ _ h) (ha _ _ (.takeContext (.ite h.serveFaults h))))

/-! ### Control and system instructions -/

theorem transfer {u : Issue} {t : Thread} {link : Reg} {trap : Option Nat} {target : Word} (h : LStoresCanonical s) :
    NextCanonical (Machine.transfer u s t link trap target) := by
  unfold Machine.transfer
  split
  · exact h.finishTrap
  · exact h.finishJump

theorem execNop (h : LStoresCanonical s) : NextCanonical (Machine.execNop s) := h.perform (fun _ _ => h.finishSeq)

theorem execBr {x : Target} (h : LStoresCanonical s) : NextCanonical (Machine.execBr x s) := h.perform (fun _ _ => h.transfer)

theorem execCall {d : Reg} {x : Target} (h : LStoresCanonical s) : NextCanonical (Machine.execCall d x s) :=
  h.perform (fun _ _ => h.transfer)

theorem execJr {a : Reg} (h : LStoresCanonical s) : NextCanonical (Machine.execJr a s) := h.perform (fun _ _ => h.transfer)

theorem execJalr {d a : Reg} (h : LStoresCanonical s) : NextCanonical (Machine.execJalr d a s) := h.perform (fun _ _ => h.transfer)

theorem skipBody {u : Issue} {t : Thread} {level : Level} {e : Word} (h : LStoresCanonical s) :
    NextCanonical (Machine.skipBody u s t level e) := by
  unfold Machine.skipBody
  dsimp only
  split
  · exact h.finishTrap
  · exact .next h.shipTo.closeTurn
  · split
    · exact .next h.fetchMiss.closeTurn
    · split
      · exact (h.modCore (by simp)).finishJump
      · exact (h.modCore (by simp)).finishTrap

theorem execLoop {d : Reg} {level : Level} {x : Target} (h : LStoresCanonical s) : NextCanonical (Machine.execLoop d level x s) :=
  h.perform (fun _ _ => .ite h.finishTrap (.ite h.finishTrap (.ite h.skipBody h.finishThread)))

theorem execTrap {imm : BitVec 16} (h : LStoresCanonical s) : NextCanonical (Machine.execTrap imm s) :=
  h.perform (fun _ _ => .ite h.finishTrap (.next h.trapEntry.closeTurn))

theorem execEret (h : LStoresCanonical s) : NextCanonical (Machine.execEret s) := by
  unfold Machine.execEret
  refine h.perform (fun _ _ => ?_)
  split
  · exact h.finishTrap
  · exact .ite (.next h.settleFlow.with_issue) h.finishJump

theorem execMfs {d : Reg} {n : BitVec 11} (h : LStoresCanonical s) : NextCanonical (Machine.execMfs d n s) := by
  unfold Machine.execMfs
  refine h.perform (fun _ _ => .ite h.finishTrap ?_)
  split
  · exact h.finishTrap
  · exact h.finishReg

theorem execMts {a : Reg} {n : BitVec 11} (h : LStoresCanonical s) : NextCanonical (Machine.execMts a n s) := by
  unfold Machine.execMts
  refine h.perform (fun _ _ => .ite h.finishTrap ?_)
  split
  · exact h.finishTrap
  · exact h.finishThread

theorem execGsel {a b c : BitVec 3} (h : LStoresCanonical s) : NextCanonical (Machine.execGsel a b c s) :=
  h.perform (fun _ _ => h.finishThread)

theorem withdrawReceives {tid : Tid} {t : Thread} (h : LStoresCanonical s) : LStoresCanonical (Machine.withdrawReceives s tid t) :=
  (h.modCore (by simp)).setThread

theorem execExit (h : LStoresCanonical s) : NextCanonical (Machine.execExit s) := h.perform (fun _ _ => h.withdrawReceives.finishPark)

theorem execStep {id : BitVec 16} (h : LStoresCanonical s) : NextCanonical (Machine.execStep id s) := h.perform (fun _ _ => h.finishPark)

/-! ### Creating, seating and stopping threads -/

theorem createThread {lid : Nat} {c : Thread} (h : LStoresCanonical s) : LStoresCanonical (Machine.createThread s lid c).1 := by
  unfold Machine.createThread
  split
  · exact h
  · dsimp only
    split
    · exact h
    · split
      · exact h.setThread.modLaunch.takeContext
      · split
        · exact h
        · split
          · exact (h.writeRecord.of_eq ‹_›).setThread.modLaunch
          · exact h

theorem execSpawn {d a : Reg} {tiles : BitVec 7} {p : Pair} {x : SpawnX} (h : LStoresCanonical s) :
    NextCanonical (Machine.execSpawn d a tiles p x s) := by
  unfold Machine.execSpawn
  refine h.perform (fun _ _ => .ite h.finishTrap (.ite h.finishThread (.ite h.finishTrap ?_)))
  split
  · exact .ite h.finishTrap h.finishThread
  · refine .ite ?_ h.setThread.modNet.finishPark
    split
    · split
      · exact (h.createThread.of_eq ‹_›).finishThread
      · exact (h.createThread.of_eq ‹_›).finishSeq

theorem execSpawnReply {k : Nat} (h : LStoresCanonical s) : NextCanonical (Machine.execSpawnReply k s) := by
  unfold Machine.execSpawnReply
  split
  · exact .next h
  · refine .ite (.next h) (.ite (.next h.reportGap) ?_)
    dsimp only
    split
    · refine .next ?_
      split
      · exact h.gapServed.modNet.createThread
      · exact h.gapServed.modNet
    · refine .next (.resumeThread (.setThread ?_))
      split
      · exact h.gapServed.modNet.createThread
      · exact h.gapServed.modNet

theorem execSeatAssign {g : Nat} (h : LStoresCanonical s) : NextCanonical (Machine.execSeatAssign g s) := by
  unfold Machine.execSeatAssign
  refine .ite (.next h) ?_
  split
  · exact .next h.leaveQueues.modThread
  · exact .next h

theorem leaveSeat {tid : Tid} (h : LStoresCanonical s) : LStoresCanonical (Machine.leaveSeat s tid) := by
  unfold Machine.leaveSeat
  split
  · exact .ite h.makeReady h
  · exact h

theorem execQuantumEnd {tid : Tid} (h : LStoresCanonical s) : NextCanonical (Machine.execQuantumEnd tid s) := by
  unfold Machine.execQuantumEnd
  split
  · exact .next h
  · exact .ite (.next h.setThread.leaveSeat) (.next h)

theorem execYield (h : LStoresCanonical s) : NextCanonical (Machine.execYield s) :=
  h.perform (fun _ _ => .ite (.next h.completeSeq.leaveSeat.closeTurn) h.finishSeq)

theorem execPark {a : Reg} (h : LStoresCanonical s) : NextCanonical (Machine.execPark a s) :=
  h.perform (fun _ _ => .ite h.finishPark (.ite h.finishSeq h.finishPark))

theorem execParkTimeout {tid : Tid} (h : LStoresCanonical s) : NextCanonical (Machine.execParkTimeout tid s) := by
  unfold Machine.execParkTimeout
  split
  · exact .next h
  · split
    · exact .ite (.next h.resumeThread) (.next h)
    · exact .next h

theorem execWake {a : Reg} (h : LStoresCanonical s) : NextCanonical (Machine.execWake a s) :=
  h.perform (fun _ _ => .ite h.modNet.finishSeq h.sendFromThread.finishSeq)

theorem execKill {a : Reg} (h : LStoresCanonical s) : NextCanonical (Machine.execKill a s) :=
  h.perform (fun _ _ => .ite h.withdrawReceives.finishPark (.ite h.modNet.finishSeq h.sendFromThread.finishSeq))

theorem execWakeDelivery {k : Nat} (h : LStoresCanonical s) : NextCanonical (Machine.execWakeDelivery k s) := by
  unfold Machine.execWakeDelivery
  split
  · exact .next h
  · exact .ite (.next h) (.next h.modNet.wakeThread)

theorem execKillDelivery {k : Nat} (h : LStoresCanonical s) : NextCanonical (Machine.execKillDelivery k s) := by
  unfold Machine.execKillDelivery
  split
  · exact .next h
  · exact .ite (.next h) (.ite (.next h.modNet.killThread) (.next h))

theorem execExitRetire {tid : Tid} (h : LStoresCanonical s) : NextCanonical (Machine.execExitRetire tid s) := by
  unfold Machine.execExitRetire
  split
  · exact .next h
  · split
    · exact .ite (.next h.retireThread) (.next h)
    · exact .next h

/-! ### Barriers -/

theorem setBar {sc : Scope} {unit n : Nat} {b : Bar} (h : LStoresCanonical s) : LStoresCanonical (Machine.setBar s sc unit n b) := by
  unfold Machine.setBar
  split
  case h_1 => exact h.modCore (by simp)
  case h_5 => exact h
  all_goals exact h.modLaunch

theorem wakeBarrier {sc : Scope} {unit n : Nat} (h : LStoresCanonical s) : LStoresCanonical (Machine.wakeBarrier s sc unit n) := by
  unfold Machine.wakeBarrier
  refine h.foldl (fun _ _ h => ?_)
  split
  · exact h.resumeThread
  · exact h

theorem sendBarrier {u : Issue} {t : Thread} {sc : Scope} {n d : Nat} {count : Option Nat} {tval : Word} (h : LStoresCanonical s) :
    LStoresCanonical (Machine.sendBarrier u s t sc n d count tval) := h

theorem execBarr {d a : Reg} {sc : Scope} (h : LStoresCanonical s) : NextCanonical (Machine.execBarr d a sc s) :=
  h.perform (fun _ _ => .ite h.finishTrap (.ite (finishSeq (.ite h.setThread.setBar.wakeBarrier h.setThread.setBar))
      h.setThread.sendBarrier.finishSeq))

theorem execBarw {a b : Reg} {sc : Scope} (h : LStoresCanonical s) : NextCanonical (Machine.execBarw a b sc s) :=
  h.perform (fun _ _ => .ite h.finishTrap (.ite h.finishPark h.finishSeq))

theorem execBarc {a : Reg} {count : BitVec 24} {sc : Scope} (h : LStoresCanonical s) : NextCanonical (Machine.execBarc a count sc s) :=
  h.perform (fun _ _ => .ite h.finishTrap (.ite (.ite h.finishTrap h.setBar.wakeBarrier.finishSeq) h.sendBarrier.finishPark))

theorem announce {sc : Scope} {unit n : Nat} {value : BitVec 32} (h : LStoresCanonical s) :
    LStoresCanonical (Machine.announce s sc unit n value) := .ite (h.modNet.foldl (fun _ _ h => h.sendReply)) h

theorem returnGeneration {b : BarrierNote} {value : BitVec 32} (h : LStoresCanonical s) :
    LStoresCanonical (Machine.returnGeneration s b value) := .ite h h.sendReply

theorem answerBarc {b : BarrierNote} {ok : Bool} (h : LStoresCanonical s) : LStoresCanonical (Machine.answerBarc s b ok) :=
  .ite h h.sendReply

theorem atUnit {b : BarrierNote} (h : LStoresCanonical s) : LStoresCanonical (Machine.atUnit s b) := by
  unfold Machine.atUnit
  dsimp only
  split
  · exact .ite h.setBar.returnGeneration.announce h.setBar.returnGeneration
  · exact .ite h.answerBarc h.setBar.announce.answerBarc

theorem toUnit {b : BarrierNote} (h : LStoresCanonical s) : LStoresCanonical (Machine.toUnit s b) := h.sendFromThread

theorem performBarrier {b : BarrierNote} (h : LStoresCanonical s) : LStoresCanonical (Machine.performBarrier s b) := .atUnit (.ite h h)

theorem execBarrierUnitArrival {k : Nat} (h : LStoresCanonical s) : NextCanonical (Machine.execBarrierUnitArrival k s) := by
  unfold Machine.execBarrierUnitArrival
  split
  · exact .next h
  · refine .ite (.next h) (.ite (.next h.modNet.performBarrier) ?_)
    split
    · exact .ite (.next h) (.next h.sendFenceMarkers.modNet)
    · exact .next h
    · exact .next h
    · exact .next (.ite h.modNet.toUnit h.modNet.performBarrier)

theorem execBarrierGeneration {k : Nat} (h : LStoresCanonical s) : NextCanonical (Machine.execBarrierGeneration k s) := by
  unfold Machine.execBarrierGeneration
  split
  · exact .next h
  · exact .ite (.next h) (.next h.modNet.wakeBarrier)

/-! ### The host's device queues -/

theorem modQueue {q : Nat} {f : HostQueue → HostQueue} (h : LStoresCanonical s) : LStoresCanonical (s.modQueue q f) := h

theorem slotWords {q : Nat} {ix : BitVec 32} (h : LStoresCanonical s) : LStoresCanonical (Machine.slotWords s q ix).1 := by
  unfold Machine.slotWords
  split <;> exact h.dieRead.of_eq ‹_›

theorem hostComplete {q : Nat} {ix : BitVec 32} {status reason result : Nat} (h : LStoresCanonical s) :
    LStoresCanonical (Machine.hostComplete s q ix status reason result) := by
  unfold Machine.hostComplete
  exact h.dieWrite.modQueue

theorem takeCommand {q op kind : Nat} (h : LStoresCanonical s) : TakenCanonical (Machine.takeCommand s q op kind) := by
  unfold Machine.takeCommand
  refine .ite .nothing ?_
  split
  · exact .nothing
  · exact .ite (.refused (h.slotWords.of_eq ‹_›).modQueue.hostComplete) (.ite .nothing (.command (h.slotWords.of_eq ‹_›).modQueue))

theorem withCommand {q op kind : Nat} {f : State → BitVec 32 → List Word → State} (h : LStoresCanonical s)
    (hf : ∀ s ix w, LStoresCanonical s → LStoresCanonical (f s ix w)) : NextCanonical (Machine.withCommand s q op kind f) := by
  unfold Machine.withCommand
  split
  · exact .next h
  · exact .next (h.takeCommand.of_refused ‹_›)
  · exact .next (hf _ _ _ (h.takeCommand.of_command ‹_›))

/-! ### Engine commands -/

theorem queueCommand {u : Issue} {t : Thread} {pend : List Nat} {c : EngCmd} (h : LStoresCanonical s) :
    NextCanonical (Machine.queueCommand u s t pend c) := .ite h.finishPark (h.setThread.takeReq.modCore (by simp)).finishSeq

theorem execCopy {d a b c : Reg} {bo : Bool} (h : LStoresCanonical s) : NextCanonical (Machine.execCopy d a b c bo s) := by
  unfold Machine.execCopy
  refine h.perform (fun _ _ => ?_)
  split
  · dsimp only
    split
    · exact h.finishTrap
    · exact h.queueCommand

theorem execCopyr {d a b c : Reg} {op : CopyrOp} {bo : Bool} {tag : BitVec 16} (h : LStoresCanonical s) :
    NextCanonical (Machine.execCopyr d a b c op bo tag s) := by
  unfold Machine.execCopyr
  refine h.perform (fun _ _ => ?_)
  split
  · dsimp only
    split
    · exact h.finishTrap
    · exact h.queueCommand

theorem execRatom {d a b c : Reg} {ao : AtomOp} {ord : Ord} {four : Bool} (h : LStoresCanonical s) :
    NextCanonical (Machine.execRatom d a b c ao ord four s) := by
  unfold Machine.execRatom
  refine h.perform (fun _ _ => .ite h.finishTrap (.ite h.finishTrap ?_))
  split
  · exact h.finishTrap
  · exact h.queueCommand

theorem execGath {d a b c : Reg} {scat : Bool} {size : Size} {bo : Bool} {count1 : BitVec 16} (h : LStoresCanonical s) :
    NextCanonical (Machine.execGath d a b c scat size bo count1 s) := by
  unfold Machine.execGath
  refine h.perform (fun _ _ => ?_)
  split
  · dsimp only
    split
    · exact h.finishTrap
    · exact h.queueCommand

theorem execMcast {d a b c : Reg} {bo : Bool} {len1 : BitVec 20} (h : LStoresCanonical s) :
    NextCanonical (Machine.execMcast d a b c bo len1 s) := by
  unfold Machine.execMcast
  refine h.perform (fun _ _ => ?_)
  split
  · dsimp only
    split
    · exact h.finishTrap
    · exact h.queueCommand

theorem sendRun {m : Moving} {g : Nat} (h : LStoresCanonical m.s) : LStoresCanonical (Machine.sendRun m g).s := by
  unfold Machine.sendRun
  split
  · exact h
  · exact h.sendItem

theorem addRun {m : Moving} {g die : Nat} {ea : Word} {bs : List Byte} (h : LStoresCanonical m.s) :
    LStoresCanonical (Machine.addRun m g die ea bs).s := by
  unfold Machine.addRun
  split
  · split
    · exact h
    · exact h.sendRun
  · exact h

theorem putElem {m : Moving} {g e : Nat} {bs : List Byte} (h : LStoresCanonical m.s) : LStoresCanonical (Machine.putElem m g e bs).s := by
  unfold Machine.putElem
  dsimp only
  split
  · exact h
  · split
    · exact h
    · split
      · split
        · split
          · split
            · exact h.addRun
            · exact h
          · split
            · exact h
            · exact h.addRun
          · exact h.addRun
        · split
          · exact h.writeAt.of_done ‹_›
          · exact h.writeAt.of_fault ‹_›
          · exact h
      · split
        · exact h.writeAt.of_done ‹_›
        · exact h.writeAt.of_fault ‹_›
        · exact h

theorem engineMet {g : Nat} {tid : Tid} {ea : Word} (h : LStoresCanonical s) : LStoresCanonical (Machine.engineMet s g tid ea) :=
  h.uncorrEvent

theorem moveElem_here {m : Moving} {g e r : Nat} {ea : Word} {part : List Byte → List Byte} {p : HomePlace} (h : LStoresCanonical m.s) :
    LStoresCanonical (moveElem.here g m e r ea part p).s := by
  unfold moveElem.here
  split
  · exact .putElem (h.readAt.of_done ‹_›)
  · exact h.readAt.of_fault ‹_›
  · exact h

/-- An element that is read here is put at once; one elsewhere is asked for. -/
theorem moveElem {m : Moving} {g e : Nat} (h : LStoresCanonical m.s) : LStoresCanonical (Machine.moveElem g m e).s := by
  unfold Machine.moveElem
  dsimp only
  split
  · exact h
  · split
    · exact h
    · split
      · exact h.putElem
      · split
        · exact h
        · split
          · exact h.engineMet
          · split
            · split
              · exact h.moveElem_here
              · split
                · exact h
                · exact h.sendItem
            · exact h.moveElem_here

theorem concludeCmd {g : Nat} {c : EngCmd} (h : LStoresCanonical s) : LStoresCanonical (Machine.concludeCmd s g c) := by
  unfold Machine.concludeCmd
  dsimp only
  split
  · exact h.modCommand
  · exact .ite h.sendMarker.sendItem.modCommand h.sendMarker.modCommand
  · exact (h.foldl (fun _ _ h => h.sendMarker)).modCommand

theorem castItem {g path die : Nat} {c : EngCmd} {body : Nat → ItemBody} (h : LStoresCanonical s) :
    LStoresCanonical (Machine.castItem s g path die c body) :=
  .ite (h.foldl (fun _ _ h => h.modFlow)).with_links ((h.foldl (fun _ _ h => h.modFlow)).foldl (fun _ _ h => h.modPath))

theorem castArrival {g path : Nat} {c : EngCmd} (h : LStoresCanonical s) : LStoresCanonical (Machine.castArrival s g path c) := h.castItem

theorem concludeCast {g path : Nat} {c : EngCmd} (h : LStoresCanonical s) : LStoresCanonical (Machine.concludeCast s g path c) :=
  .ite h.modCommand (.ite h.castItem.modCommand (.ite h.castItem.castArrival.modCommand h.castItem.modNet.modCommand))

theorem conclude {g : Nat} {c : EngCmd} (h : LStoresCanonical s) : LStoresCanonical (Machine.conclude s g c) := by
  unfold Machine.conclude
  split
  · exact h.concludeCast
  · exact h.concludeCmd

theorem retireCmd {g id : Nat} (h : LStoresCanonical s) : LStoresCanonical (Machine.retireCmd s g id) := h.modEngine

theorem landFlags {c : EngCmd} (h : LStoresCanonical s) : LStoresCanonical (Machine.landFlags s c) := .ite h.modThread h

theorem landToken {c : EngCmd} (h : LStoresCanonical s) : LStoresCanonical (Machine.landToken s c) := by
  unfold Machine.landToken
  split
  · exact h
  · exact .ite h h

theorem endCmd {g : Nat} {c : EngCmd} (h : LStoresCanonical s) : LStoresCanonical (Machine.endCmd s g c) := .ite h.modCommand h.retireCmd

theorem execTokenWrite {g k : Nat} (h : LStoresCanonical s) : NextCanonical (Machine.execTokenWrite g k s) := by
  unfold Machine.execTokenWrite
  split
  · exact .next h
  · refine .ite (.next h) ?_
    split
    · exact .next (.ite h.endCmd.hostComplete h.endCmd.hostComplete)
    · split
      · exact .ite (.next h) (.next h.landToken.retireCmd)
      · exact .next h.landToken.endCmd
      · exact .ite (.next h.modCommand.castArrival) (.next h)
      · dsimp only
        split
        · exact .next h.landFlags.retireCmd
        · exact .ite (.next h.landFlags.modCommand.modNet) (.next h.landFlags.modCommand.sendItem)

theorem execEngineCommandStart {g k : Nat} (h : LStoresCanonical s) : NextCanonical (Machine.execEngineCommandStart g k s) := by
  unfold Machine.execEngineCommandStart
  dsimp only
  split
  · exact .next h
  · refine .ite (.next h) ?_
    split
    · exact .next (.ite h.modCommand.concludeCmd h.modCommand)
    · exact .next h.modCommand

theorem sendAtomic {g : Nat} {c : EngCmd} {ao : AtomOp} {ord : Ord} {four : Bool} {expected : Word} (h : LStoresCanonical s) :
    LStoresCanonical (Machine.sendAtomic s g c ao ord four expected) := by
  unfold Machine.sendAtomic
  split
  · exact h
  · exact .ite h (.ite h (.ite h (.ite (h.modCore (by simp)).modCommand.modNet (.sendFromThread (.ite (h.modCore (by simp)).modCommand
      (h.modCore (by simp)).modCommand.modNet)))))

/-- Elements are moved one after another, then the run they made is sent. -/
theorem moveBatch {g : Nat} {c : EngCmd} {batch : List Nat} (h : LStoresCanonical s) :
    LStoresCanonical (Machine.moveBatch s g c batch).s := by
  have hm : LStoresCanonical (batch.foldl (Machine.moveElem g) { s := s, c := c, run := none, stop := none }).s :=
    foldl_proj (π := Moving.s) h fun _ _ h => h.moveElem
  unfold Machine.moveBatch
  dsimp only
  split
  · exact hm
  · exact hm.sendRun

theorem sendContribution {g : Nat} {c : EngCmd} {op : CopyrOp} {tag : BitVec 16} (h : LStoresCanonical s) :
    LStoresCanonical (Machine.sendContribution s g c op tag) := by
  unfold Machine.sendContribution
  split
  · exact .ite h.modCommand (.ite h.modCommand.modNet h.modCommand.sendItem)
  · exact h.modCommand

theorem afterBatch {m : Moving} {g : Nat} (h : LStoresCanonical m.s) : LStoresCanonical (Machine.afterBatch m g) := by
  unfold Machine.afterBatch
  dsimp only
  split
  · exact h.conclude
  · exact h.modCommand
  · exact .ite h.modCommand (.ite h.modCommand.reportEngine.modCommand h.reportEngine.modCommand)
  · refine .ite h.modCommand ?_
    split
    · exact h.sendContribution
    · exact h.concludeCmd

theorem moveCast {g path : Nat} {c : EngCmd} {batch : List Nat} (h : LStoresCanonical s) :
    LStoresCanonical (Machine.moveCast s g c path batch) := by
  unfold Machine.moveCast
  extract_lets read first s' c'
  have hr : LStoresCanonical read.1.s := by
    refine foldl_proj (π := fun acc : Moving × List Byte => acc.1.s) h fun acc e h => ?_
    dsimp only
    split
    · exact h
    · split
      · split
        · exact h.engineMet
        · split
          · exact h.readAt.of_done ‹_›
          · exact h.readAt.of_fault ‹_›
          · exact h
      · exact h
  split
  · exact hr.afterBatch
  · exact .ite hr.castItem.modCommand hr.castItem.concludeCast

theorem chunkMoved {g : Nat} {c : EngCmd} {batch : List Nat} (h : LStoresCanonical s) :
    LStoresCanonical (Machine.chunkMoved s g c batch) := by
  unfold Machine.chunkMoved
  extract_lets m whole dense
  have hm : LStoresCanonical m.s := h.moveBatch
  split
  · refine .afterBatch ?_
    split
    · exact hm.zeroLines
    · exact hm
  · exact hm.afterBatch

theorem declareGone_drop {mine : Stuck → Bool} {stuck : List Stuck} (h : LStoresCanonical s) :
    LStoresCanonical (declareGone.drop s mine stuck) := by
  refine .with_dies (.foldl h fun s y h => ?_)
  split
  · exact h.modFlow
  · exact h.sendReply
  · exact h

theorem declareGone {g : Nat} {c : EngCmd} (h : LStoresCanonical s) : LStoresCanonical (Machine.declareGone s g c) := by
  unfold Machine.declareGone
  dsimp only
  split
  · exact .ite h.conclude h.declareGone_drop
  · exact h
  · exact h
  · exact h.declareGone_drop

theorem drop {mine : Stuck → Bool} {stuck : List Stuck} (h : LStoresCanonical s) :
    LStoresCanonical (Machine.declareGone.drop s mine stuck) := by
  unfold Machine.declareGone.drop
  refine (h.foldl (fun _ _ h => ?_)).with_dies
  split
  · exact h.modFlow
  · exact h.sendReply
  · exact h

theorem execEngineChunk {g k : Nat} {moved : List Nat} (h : LStoresCanonical s) : NextCanonical (Machine.execEngineChunk g k moved s) := by
  unfold Machine.execEngineChunk
  split
  · exact .next h
  · refine .ite (.next h) (.ite (.next h.declareGone) (.ite (.next h) (.ite (.next h.conclude) (.ite (.next h.conclude) (.ite (.next h)
      (.ite (.next h.engineMet.modCommand) ?_))))))
    dsimp only
    split
    · exact .next h.sendAtomic
    · split
      · exact .ite (.next h.moveCast) (.next h)
      · exact .next h.concludeCast
    · exact .ite (.next h.sendContribution) (.ite (.next h.chunkMoved) (.next h))
    · exact .ite (.next h.chunkMoved) (.next h)

theorem respond {r : RatomNote} {old : Word} {status : Nat} (h : LStoresCanonical s) : LStoresCanonical (Machine.respond s r old status) :=
  .ite h h.sendReply

theorem recordAtomic {r : RatomNote} {old : Word} {status : Nat} (h : LStoresCanonical s) :
    LStoresCanonical (Machine.recordAtomic s r old status) := h

theorem execRatomRequest {k : Nat} (h : LStoresCanonical s) : NextCanonical (Machine.execRatomRequest k s) := by
  unfold Machine.execRatomRequest
  split
  · exact .next h
  · refine .ite (.next h) ?_
    dsimp only
    split
    · exact .next h.modNet.respond
    · split
      · refine .ite (.next h.modNet.recordAtomic.respond) (.ite (.next h.modNet.engineMet.recordAtomic.respond) (.ite (.next h) ?_))
        split
        · exact .ite (.next h) (.next h.reportEngine.modNet)
        · split
          · refine .next (.respond (.recordAtomic ?_))
            split
            · exact (h.modNet.readAt.of_done ‹_›).lwrite
            · exact (h.modNet.readAt.of_done ‹_›).dieWrite
            · exact h.modNet.readAt.of_done ‹_›
          · exact .next h.modNet.recordAtomic.respond
      · exact .next h.modNet.recordAtomic.respond

theorem execRatomResponse {k : Nat} (h : LStoresCanonical s) : NextCanonical (Machine.execRatomResponse k s) := by
  unfold Machine.execRatomResponse
  split
  · exact .next h
  · dsimp only
    split
    · exact .ite (.next h.modNet.landToken.retireCmd) (.next h)
    · exact .next h

theorem execAtomicTimeout {g k : Nat} (h : LStoresCanonical s) : NextCanonical (Machine.execAtomicTimeout g k s) := by
  unfold Machine.execAtomicTimeout
  split
  · exact .next h
  · split
    · exact .ite (.next h.modNet.emit.landToken.retireCmd) (.next h)
    · exact .next h

theorem execReductionContribution {k : Nat} (h : LStoresCanonical s) : NextCanonical (Machine.execReductionContribution k s) := by
  unfold Machine.execReductionContribution
  split
  · exact .next h
  · exact .ite (.next h) (.ite (.next h) (.next h))

theorem endRound {cs : List Contribution} {status : Nat} (h : LStoresCanonical s) : LStoresCanonical (Machine.endRound s cs status) :=
  h.foldl (fun _ _ h => .ite h.modCommand h.sendItem)

theorem execReductionRound {k : Nat} (h : LStoresCanonical s) : NextCanonical (Machine.execReductionRound k s) := by
  unfold Machine.execReductionRound
  split
  · exact .next h
  · dsimp only
    split
    · exact .next h
    · refine .ite (.next h) (.ite (.next h.modNet.endRound) (.ite (.next h.modNet.endRound) ?_))
      split
      · exact .next h.modNet.endRound
      · refine .ite (.next h.modNet.endRound) (.ite (.next h.modNet.engineMet.endRound) (.ite (.next h) ?_))
        split
        · split
          · exact .ite (.next h) (.next h.reportEngine.modNet)
          · split
            · exact .next (h.modNet.writeAt.of_done ‹_›).endRound
            · exact .next h
        · exact .ite (.next h) (.next (h.readAt.of_fault ‹_›).reportEngine.modNet)
        · exact .next h.modNet.endRound

/-! ### The matrix engine, latches and rings -/

theorem raiseTile {g p : Nat} {f : Flags} (h : LStoresCanonical s) : LStoresCanonical (Machine.raiseTile s g p f) := h.modCore (by simp)

theorem raiseThread {tid : Tid} {f : Flags} (h : LStoresCanonical s) : LStoresCanonical (Machine.raiseThread s tid f) := h.modThread

theorem recordFlags {g p : Nat} {tid : Tid} {f : Flags} (h : LStoresCanonical s) : LStoresCanonical (Machine.recordFlags s g p tid f) :=
  h.raiseTile.raiseThread

theorem execTstat {d : Reg} {x : TileRef} {clr : Bool} (h : LStoresCanonical s) : NextCanonical (Machine.execTstat d x clr s) :=
  h.perform (fun _ _ => .ite h.finishPark (finishReg (.ite (h.modCore (by simp)) h)))

theorem execTring {op : TringOp} {a : Reg} (h : LStoresCanonical s) : NextCanonical (Machine.execTring op a s) :=
  h.perform (fun _ _ => h.finishThread)

theorem execMma {x : TileRef} {a b c : Reg} {f : MmaX} (h : LStoresCanonical s) : NextCanonical (Machine.execMma x a b c f s) := by
  unfold Machine.execMma
  refine h.perform (fun _ _ => ?_)
  split
  · exact h.finishTrap
  · exact (h.modCore (by simp)).finishPark

theorem runChunks {g : Nat} {o : MmaOp} {n : Nat} (h : LStoresCanonical s) : LStoresCanonical (Machine.runChunks s g o n).1 :=
  (h.modCore (by simp)).raiseTile

theorem execMmaStart {g : Nat} (h : LStoresCanonical s) : NextCanonical (Machine.execMmaStart g s) := by
  unfold Machine.execMmaStart
  split
  · exact .next h
  · exact .ite (.next h) (.next (h.modCore (by simp)))

theorem execMmaComplete {g : Nat} (h : LStoresCanonical s) : NextCanonical (Machine.execMmaComplete g s) := by
  unfold Machine.execMmaComplete
  split
  · exact .next h
  · refine .ite (.next h) ?_
    dsimp only
    split
    · exact .next (h.modCore (by simp)).uncorrThread
    · split
      · exact .next (h.runChunks.modCore (by simp)).raiseThread
      · split
        · exact .next (h.runChunks.modCore (by simp)).raiseThread.resumeThread
        · exact .next (h.runChunks.modCore (by simp)).raiseThread

theorem modMx {g : Nat} {f : CoreMatrix → CoreMatrix} (h : LStoresCanonical s) : LStoresCanonical (s.modMx g f) := h.modCore (by simp)

theorem startPass {g : Nat} {tid : Tid} (h : LStoresCanonical s) : LStoresCanonical (Machine.startPass s g tid) := by
  unfold Machine.startPass
  split
  · exact h.modMx
  · exact h

theorem takeLatch {g : Nat} {tid : Tid} (h : LStoresCanonical s) : LStoresCanonical (Machine.takeLatch s g tid) := h.modMx

theorem execMmrLoad {a : Reg} (h : LStoresCanonical s) : NextCanonical (Machine.execMmrLoad a s) := by
  unfold Machine.execMmrLoad
  refine h.perform (fun _ _ => ?_)
  split
  · exact h.finishTrap
  · exact .ite h.finishPark (h.reading h.modMx.finishPark)

theorem execMmrPass (h : LStoresCanonical s) : NextCanonical (Machine.execMmrPass s) := by
  unfold Machine.execMmrPass
  refine h.perform (fun _ _ => ?_)
  dsimp only
  split
  · exact h.finishTrap
  · exact .ite h.startPass.finishPark h.modMx.finishPark

theorem execMmrTake (h : LStoresCanonical s) : NextCanonical (Machine.execMmrTake s) := by
  unfold Machine.execMmrTake
  refine h.perform (fun _ _ => ?_)
  dsimp only
  split
  · exact h.finishTrap
  · exact .ite h.takeLatch.finishPark h.modMx.finishPark

theorem serveTake {g : Nat} (h : LStoresCanonical s) : LStoresCanonical (Machine.serveTake s g) := by
  unfold Machine.serveTake
  split
  · refine .ite ?_ h
    split
    · split
      · exact h.takeLatch.resumeThread
      · exact h
    · exact h
  · exact h

theorem servePass_ {g : Nat} (h : LStoresCanonical s) : LStoresCanonical (Machine.servePass_ s g) := by
  unfold Machine.servePass_
  split
  · refine .ite ?_ h
    split
    · split
      · exact h.startPass.setThread
      · exact h
    · exact h
  · exact h

theorem execLatchPassArrival {g : Nat} (h : LStoresCanonical s) : NextCanonical (Machine.execLatchPassArrival g s) := by
  unfold Machine.execLatchPassArrival
  split
  · exact .next h
  · refine .ite (.next h) ?_
    dsimp only
    split
    · exact .next h.modMx.modMx
    · split
      · exact .next h.modMx.modMx.resumeThread
      · exact .next h.modMx.modMx

theorem askRing {u : Issue} {t : Thread} {dissolve : Bool} {log2 : BitVec 3} {a : Reg} (h : LStoresCanonical s) :
    NextCanonical (Machine.askRing u s t dissolve log2 a) := h.modNet.finishPark

theorem execRingJoin {a : Reg} {log2 : BitVec 3} (h : LStoresCanonical s) : NextCanonical (Machine.execRingJoin a log2 s) :=
  h.perform (fun _ _ => h.askRing)

theorem execRingDissolve {a : Reg} (h : LStoresCanonical s) : NextCanonical (Machine.execRingDissolve a s) :=
  h.perform (fun _ _ => h.askRing)

theorem execRingDissolveSized {a : Reg} {log2 : BitVec 3} (h : LStoresCanonical s) :
    NextCanonical (Machine.execRingDissolveSized a log2 s) := h.perform (fun _ _ => h.askRing)

theorem joinRing {d log2 base : Nat} (h : LStoresCanonical s) : LStoresCanonical (Machine.joinRing s d log2 base) :=
  h.foldl (fun _ _ h => h.modMx)

theorem leaveRing {g : Nat} (h : LStoresCanonical s) : LStoresCanonical (Machine.leaveRing s g) := h.modMx

theorem ringUnit {tid : Tid} {d : Nat} {dissolve : Bool} {log2 : Nat} {a : Word} (h : LStoresCanonical s) :
    LStoresCanonical (Machine.ringUnit s tid d dissolve log2 a).1 := by
  unfold Machine.ringUnit
  split
  · split
    · exact h.foldl (fun _ _ h => h.leaveRing)
    · exact h
  · split
    · exact h.joinRing
    · exact h

theorem execUnitReply {k : Nat} (h : LStoresCanonical s) : NextCanonical (Machine.execUnitReply k s) := by
  unfold Machine.execUnitReply
  split
  · exact .next h
  · refine .ite (.next h) ?_
    dsimp only
    split
    case h_1 => exact .next h.modNet.ringUnit.modNet
    case h_5 => exact .next h.modNet.modThread
    all_goals exact .next (.ite h.modNet.resumeThread h.modNet.trapWaiting)

/-! ### The epilogue unit -/

theorem unlessTrap {x : Option (Nat × Word)} {k : EpResult} (hk : EpCanonical k) : EpCanonical (Machine.unlessTrap x k) := by
  unfold Machine.unlessTrap
  split
  · exact .trap
  · exact hk

theorem performEpilogue {i : Instr} {a b c : Reg} {tile tile2 : TileRef} {busy : Thread → List Nat} (h : LStoresCanonical s) :
    NextCanonical (Machine.performEpilogue i a b c tile tile2 busy s) := h.perform (fun _ _ => (h.modCore (by simp)).finishPark)

theorem runTzero {g : Nat} {o : EpOp} (h : LStoresCanonical s) : EpCanonical (Machine.runTzero s g o) := .done (h.modCore (by simp))

theorem mapTile {g : Nat} {o : EpOp} {f : Nat → Nat → Nat → Nat × Flags} (h : LStoresCanonical s) :
    LStoresCanonical (Machine.mapTile s g o f) := (h.modCore (by simp)).recordFlags

theorem runTscl {g : Nat} {t : Thread} {o : EpOp} {c : Reg} {mode : TsclMode} {bc : Bool} (h : LStoresCanonical s) :
    EpCanonical (Machine.runTscl s g t o c mode bc) := unlessTrap (.done h.mapTile)

theorem runTact {g : Nat} {o : EpOp} {op : TactOp} (h : LStoresCanonical s) : EpCanonical (Machine.runTact s g o op) :=
  unlessTrap (.done h.mapTile)

theorem runTcvt {g : Nat} {t : Thread} {o : EpOp} {p : Pair} {c : Reg} {f : Fmt} {b32 : Bool} {stride : Nat} (h : LStoresCanonical s) :
    EpCanonical (Machine.runTcvt s g t o p c f b32 stride) :=
  unlessTrap (.done (.modThread (.recordFlags (.modCore (.ite (h.foldl (fun _ _ h => h.lwrite)).lwrite (h.foldl (fun _ _ h => h.lwrite)))
      (by simp)))))

theorem runTred {g : Nat} {t : Thread} {o : EpOp} {cols : Bool} {op : TredOp} (h : LStoresCanonical s) :
    EpCanonical (Machine.runTred s g t o cols op) := unlessTrap (.done h.lwrite.recordFlags)

theorem runTopk {g : Nat} {o : EpOp} {x : TopkX} (h : LStoresCanonical s) : EpCanonical (Machine.runTopk s g o x) :=
  unlessTrap (.done h.modMx.recordFlags)

theorem runTkrd {g : Nat} {t : Thread} {o : EpOp} {d : Reg} {row : Nat} {clr : Bool} (h : LStoresCanonical s) :
    EpCanonical (Machine.runTkrd s g t o d row clr) := by
  unfold Machine.runTkrd
  split
  · exact .trap
  · exact unlessTrap (.done (.modThread (.ite h.lwrite.modMx h.lwrite)))

theorem execTzero {x : TileRef} (h : LStoresCanonical s) : NextCanonical (Machine.execTzero x s) := h.performEpilogue

theorem execTscl {x : TileRef} {a b c : Reg} {mode : TsclMode} {bc : Bool} (h : LStoresCanonical s) :
    NextCanonical (Machine.execTscl x a b c mode bc s) := h.performEpilogue

theorem execTact {x : TileRef} {a b : Reg} {op : TactOp} (h : LStoresCanonical s) : NextCanonical (Machine.execTact x a b op s) :=
  h.performEpilogue

theorem execTcvt {p : Pair} {a : Reg} {x : TileRef} {c : Reg} {fmt : Fmt} {b32 : Bool} {stride : BitVec 16} (h : LStoresCanonical s) :
    NextCanonical (Machine.execTcvt p a x c fmt b32 stride s) := h.performEpilogue

theorem execTred {a : Reg} {x : TileRef} {cols : Bool} {op : TredOp} (h : LStoresCanonical s) :
    NextCanonical (Machine.execTred a x cols op s) := h.performEpilogue

theorem execTopk {x : TileRef} {a b : Reg} {k : TopkX} (h : LStoresCanonical s) : NextCanonical (Machine.execTopk x a b k s) :=
  h.performEpilogue

theorem execTkrd {d a : Reg} {row : BitVec 4} {clr : Bool} (h : LStoresCanonical s) : NextCanonical (Machine.execTkrd d a row clr s) :=
  h.performEpilogue

/-! ### Floating-point instructions -/

theorem execFadd {d a b : Reg} {ft : FT} {rm : RM} (h : LStoresCanonical s) : NextCanonical (Machine.execFadd d a b ft rm s) :=
  h.performFloat

theorem execFsub {d a b : Reg} {ft : FT} {rm : RM} (h : LStoresCanonical s) : NextCanonical (Machine.execFsub d a b ft rm s) :=
  h.performFloat

theorem execFmul {d a b : Reg} {ft : FT} {rm : RM} (h : LStoresCanonical s) : NextCanonical (Machine.execFmul d a b ft rm s) :=
  h.performFloat

theorem execFma {d a b c : Reg} {ft : FT} {rm : RM} {np nc : Bool} (h : LStoresCanonical s) :
    NextCanonical (Machine.execFma d a b c ft rm np nc s) := h.performFloat

theorem execFdiv {d a b : Reg} {ft : FT} {rm : RM} (h : LStoresCanonical s) : NextCanonical (Machine.execFdiv d a b ft rm s) :=
  h.performFloat

theorem execFsqrt {d a : Reg} {ft : FT} {rm : RM} (h : LStoresCanonical s) : NextCanonical (Machine.execFsqrt d a ft rm s) := h.performFloat

theorem execFmnx {d a b : Reg} {ft : FT} {op : FmnxOp} (h : LStoresCanonical s) : NextCanonical (Machine.execFmnx d a b ft op s) :=
  h.performFloat

theorem execFexp2 {d a : Reg} {ft : FT} (h : LStoresCanonical s) : NextCanonical (Machine.execFexp2 d a ft s) := h.performFloat

theorem execFlog2 {d a : Reg} {ft : FT} (h : LStoresCanonical s) : NextCanonical (Machine.execFlog2 d a ft s) := h.performFloat

theorem execFrcp {d a : Reg} {ft : FT} (h : LStoresCanonical s) : NextCanonical (Machine.execFrcp d a ft s) := h.performFloat

theorem execFrsq {d a : Reg} {ft : FT} (h : LStoresCanonical s) : NextCanonical (Machine.execFrsq d a ft s) := h.performFloat

theorem execFcvt {d a : Reg} {ft : FT} {rm : RM} {fmt : Fmt} {from_ : Bool} (h : LStoresCanonical s) :
    NextCanonical (Machine.execFcvt d a ft rm fmt from_ s) := h.performFloat

theorem execIcvt {d a : Reg} {ft : FT} {rm : RM} {iw : IntWidth} {signed toInt : Bool} (h : LStoresCanonical s) :
    NextCanonical (Machine.execIcvt d a ft rm iw signed toInt s) := h.performFloat

theorem execFsgn {d a b : Reg} {ft : FT} {op : FsgnOp} (h : LStoresCanonical s) : NextCanonical (Machine.execFsgn d a b ft op s) :=
  h.performFloat

theorem execFclass {d a : Reg} {ft : FT} (h : LStoresCanonical s) : NextCanonical (Machine.execFclass d a ft s) := h.performFloat

theorem execFdot {d a b c : Reg} {ft : FT} {rm : RM} (h : LStoresCanonical s) : NextCanonical (Machine.execFdot d a b c ft rm s) :=
  h.performFloat

/-! ### Light -/

theorem sendBytes {pid : Nat} {bytes : List Byte} (h : LStoresCanonical s) : LStoresCanonical (Machine.sendBytes s pid bytes) := h

theorem beginExchange {q : Nat} (h : LStoresCanonical s) : LStoresCanonical (Machine.beginExchange s q) := .ite h h

theorem enterLit {pid : Nat} (h : LStoresCanonical s) : LStoresCanonical (Machine.enterLit s pid) :=
  .ite (h.modPath.foldl (fun _ _ h => h.beginExchange)) h

theorem lowerOrder {pid : Nat} (h : LStoresCanonical s) : LStoresCanonical (Machine.lowerOrder s pid) := .ite h (.ite h h.modPath.emit)

theorem endChange {pid : Nat} (h : LStoresCanonical s) : LStoresCanonical (Machine.endChange s pid) :=
  .ite h (.lowerOrder (.ite h.modPath.enterLit h))

theorem afterStepA {pid : Nat} (h : LStoresCanonical s) : LStoresCanonical (Machine.afterStepA s pid) := by
  unfold Machine.afterStepA
  dsimp only
  split
  · exact h
  · exact .ite (.ite h h.endChange) (.ite (.ite h h) h)

theorem beginChange {pid g fan mNew : Nat} (h : LStoresCanonical s) : LStoresCanonical (Machine.beginChange s pid g fan mNew) :=
  .ite h h.modPath.with_spool.afterStepA

theorem beginRelease {pid : Nat} (h : LStoresCanonical s) : LStoresCanonical (Machine.beginRelease s pid) := by
  unfold Machine.beginRelease
  dsimp only
  split
  · exact h.modPath.beginChange
  · exact h

theorem releaseLight {pid fan : Nat} (h : LStoresCanonical s) : LStoresCanonical (Machine.releaseLight s pid fan) := by
  unfold Machine.releaseLight
  dsimp only
  split
  · exact .ite h.modPath.beginChange h
  · exact .ite h h.beginChange

theorem decideGrant {pid g fan : Nat} {priv : Bool} {launch : Nat} (h : LStoresCanonical s) :
    LStoresCanonical (Machine.decideGrant s pid g fan priv launch).1 := by
  refine .ite_fst h (.ite_fst h (.ite_fst h (.ite_fst h.releaseLight (.ite_fst h (.ite_fst h ?_)))))
  exact .ite_fst h (.ite_fst h h.beginChange)

theorem answerParked {tid : Tid} {d : Nat} {v : Word} {last : Bool} (h : LStoresCanonical s) :
    LStoresCanonical (Machine.answerParked s tid d v last) := h.modThread.resumeThread

theorem execLgrant {d a b : Reg} {fan : BitVec 3} (h : LStoresCanonical s) : NextCanonical (Machine.execLgrant d a b fan s) :=
  h.perform (fun _ _ => .ite h.finishTrap h.setThread.with_spool.finishPark)

theorem execLgrantDecision {fibre : Nat} (h : LStoresCanonical s) : NextCanonical (Machine.execLgrantDecision fibre s) := by
  unfold Machine.execLgrantDecision
  dsimp only
  split
  · exact .next h
  · split
    · exact .next h.with_spool.decideGrant.answerParked
    · exact .next h

theorem execWaitingRaiseStart {fibre : Nat} (h : LStoresCanonical s) : NextCanonical (Machine.execWaitingRaiseStart fibre s) := by
  unfold Machine.execWaitingRaiseStart
  dsimp only
  split
  · exact .next h
  · split
    · exact .ite (.next h) (.next h)
    · exact .next h

theorem orderChanged {p : Machine.Path} (h : LStoresCanonical s) : LStoresCanonical (Machine.orderChanged s p) := h

theorem execOrderChangeStepA {path : Nat} (h : LStoresCanonical s) : NextCanonical (Machine.execOrderChangeStepA path s) := by
  unfold Machine.execOrderChangeStepA
  dsimp only
  split
  · refine .ite (.next h) (.ite (.next (.beginRelease (.afterStepA (.modPath (.ite h h.orderChanged))))) ?_)
    split
    · exact .next h.orderChanged.modPath
    · exact .next h
  · exact .next h

theorem execRampEnd {path : Nat} (h : LStoresCanonical s) : NextCanonical (Machine.execRampEnd path s) := by
  unfold Machine.execRampEnd
  dsimp only
  split
  · split
    · exact .ite (.next h) (.ite (.next h) (.next h.endChange.beginRelease))
    · exact .next h
  · exact .next h

theorem execOrderRaiseStepC {path : Nat} (h : LStoresCanonical s) : NextCanonical (Machine.execOrderRaiseStepC path s) := by
  unfold Machine.execOrderRaiseStepC
  dsimp only
  split
  · split
    · exact .ite (.next h) (.next h.orderChanged.modPath.endChange.beginRelease)
    · exact .next h
  · exact .next h

theorem colourState {pid : Nat} (h : LStoresCanonical s) : LStoresCanonical (Machine.colourState s pid) := by
  unfold Machine.colourState
  dsimp only
  split
  case h_1 => exact h
  case h_5 => exact .ite h (.ite h.enterLit h)
  case h_6 => exact .ite h.enterLit h
  case h_7 => exact h
  all_goals exact .ite h h

theorem beginTraining {fibre : Nat} {cs : List Nat} (h : LStoresCanonical s) : LStoresCanonical (Machine.beginTraining s fibre cs) := h

theorem execBerWindowEnd {fibre colour errors : Nat} (h : LStoresCanonical s) :
    NextCanonical (Machine.execBerWindowEnd fibre colour errors s) := by
  unfold Machine.execBerWindowEnd
  split
  · exact .next h
  · refine .ite (.next h) (.ite (.next h) ?_)
    split
    · exact .next h
    · exact .next h.modPath.beginTraining.emit.colourState

theorem execRetrainComplete {fibre colour : Nat} {ok : Bool} (h : LStoresCanonical s) :
    NextCanonical (Machine.execRetrainComplete fibre colour ok s) := by
  unfold Machine.execRetrainComplete
  refine .ite (.next h) ?_
  split
  · exact .next h
  · refine .ite (.next ?_) (.ite (.next h) (.next ?_))
    · dsimp only
      split
      · exact h.modPath.modFibre.colourState
      · exact h
    · dsimp only
      split
      · exact h.modFibre.emit.colourState
      · exact h.modFibre.emit

theorem dropColours {pid : Nat} (h : LStoresCanonical s) : LStoresCanonical (Machine.dropColours s pid) := by
  unfold Machine.dropColours
  refine .ite h ?_
  split
  · exact h
  · exact h.modPath.colourState

theorem execLossOfLight {fibre source : Nat} (h : LStoresCanonical s) : NextCanonical (Machine.execLossOfLight fibre source s) :=
  .ite (.next h) (.next ((h.foldl (fun _ _ h => h.modPath)).modFibre.foldl (fun _ _ h => h.dropColours)).emit)

theorem execLaserModuleReplaced {fibre source : Nat} (h : LStoresCanonical s) :
    NextCanonical (Machine.execLaserModuleReplaced fibre source s) := .ite (.next h) (.next h.modFibre.beginTraining)

theorem execLstat {d a : Reg} {peer : Bool} (h : LStoresCanonical s) : NextCanonical (Machine.execLstat d a peer s) := by
  unfold Machine.execLstat
  refine h.perform (fun _ _ => .ite h.finishTrap ?_)
  split
  · exact h.finishReg
  · exact finishReg (.ite h h)

theorem lowerPath {pid : Nat} (h : LStoresCanonical s) : LStoresCanonical (Machine.lowerPath s pid) := by
  unfold Machine.lowerPath
  dsimp only
  split
  · exact h.lowerOrder
  · exact .ite h (.ite (.ite h.modPath.emit h) (.ite h h.modPath.modPath.emit))

theorem lowerOrders {fibre : Nat} (h : LStoresCanonical s) : LStoresCanonical (Machine.lowerOrders s fibre) :=
  h.foldl (fun _ _ h => h.lowerPath)

theorem writeDiscovery {off : Nat} {bytes : List Byte} (h : LStoresCanonical s) : LStoresCanonical (Machine.writeDiscovery s off bytes) := h

theorem recordAge {fibre kind : Nat} (h : LStoresCanonical s) : LStoresCanonical (Machine.recordAge s fibre kind) :=
  h.modFibre.writeDiscovery

theorem execAgeingScan {fibre : Nat} {change : AgeingChange} (h : LStoresCanonical s) :
    NextCanonical (Machine.execAgeingScan fibre change s) := by
  unfold Machine.execAgeingScan
  refine .ite (.next h) ?_
  split
  · exact .next h
  · exact .ite (.next h.modFibre.recordAge.lowerOrders) (.next h)
  · exact .ite (.next h.modFibre.recordAge.lowerOrders) (.next h)
  · split
    · exact .ite (.next h.modFibre.recordAge.lowerOrders) (.next h)
    · exact .next h
  · exact .ite (.next h.modDie.recordAge) (.next h)

theorem execSpoolWatchdogReset (h : LStoresCanonical s) : NextCanonical (Machine.execSpoolWatchdogReset s) := .ite (.next h) (.next h)

theorem execSpoolRestart (h : LStoresCanonical s) : NextCanonical (Machine.execSpoolRestart s) := .ite (.next h) (.next h.with_spool.emit)

/-! ### Flits, the Bridle, circuits and peers -/

theorem modStream {pid k : Nat} {f : Machine.Stream → Machine.Stream} (h : LStoresCanonical s) :
    LStoresCanonical (Machine.modStream s pid k f) := h

theorem sealAt {pid k i : Nat} {qs : List Nat} (h : LStoresCanonical s) : LStoresCanonical (Machine.sealAt s pid k i qs) := by
  unfold Machine.sealAt
  dsimp only
  split
  · exact .ite h (h.modStream.foldl (fun _ _ h => h.modPeer))
  · exact h

theorem sendFlit {pid k : Nat} {qs : List Nat} (h : LStoresCanonical s) : LStoresCanonical (Machine.sendFlit s pid k qs) := by
  unfold Machine.sendFlit
  dsimp only
  split
  · exact h.sealAt
  · exact h.sealAt.modStream.sendBytes

theorem resendFlit {pid k : Nat} {qs : List Nat} {q : BitVec 16} (h : LStoresCanonical s) :
    LStoresCanonical (Machine.resendFlit s pid k qs q) := by
  unfold Machine.resendFlit
  split
  · exact h.modStream
  · dsimp only
    split
    · exact h.sealAt.modStream.sendBytes
    · exact h.sealAt.modStream

theorem sendIdle {pid : Nat} (h : LStoresCanonical s) : LStoresCanonical (Machine.sendIdle s pid) := by
  unfold Machine.sendIdle
  dsimp only
  split
  · exact h.modStream.sendBytes
  · exact h.sendBytes

theorem sendNext {pid : Nat} (h : LStoresCanonical s) : LStoresCanonical (Machine.sendNext s pid) := by
  unfold Machine.sendNext
  dsimp only
  split
  · exact h.modStream.sendBytes
  · split
    · exact h.sendIdle
    · split
      · exact h.resendFlit
      · exact .ite h.sendFlit h.sendIdle

theorem execFlitTransmit {path : Nat} (h : LStoresCanonical s) : NextCanonical (Machine.execFlitTransmit path s) := by
  unfold Machine.execFlitTransmit
  refine .ite (.next h.dropColours) ?_
  split
  · exact .next h.dropColours
  · exact .next (.ite h.dropColours.modPath.sendNext h.dropColours.modPath.sendBytes)

theorem execAck {path peer : Nat} {seq : BitVec 16} (h : LStoresCanonical s) : NextCanonical (Machine.execAck path peer seq s) :=
  .ite (.next h) (.next h.modStream)

theorem execNak {path peer : Nat} {seq : BitVec 16} (h : LStoresCanonical s) : NextCanonical (Machine.execNak path peer seq s) :=
  .ite (.next h.modStream) (.next h)

theorem unattest {pid : Nat} (h : LStoresCanonical s) : LStoresCanonical (Machine.unattest s pid) := h

theorem endSession {peer : Nat} {again : Bool} (h : LStoresCanonical s) : LStoresCanonical (Machine.endSession s peer again) :=
  h.modPeer.with_spool.foldl (fun _ _ h => h.unattest)

theorem acceptFlit {pid peer : Nat} {f : FlitIn} (h : LStoresCanonical s) : LStoresCanonical (Machine.acceptFlit s pid peer f) :=
  .ite h.modStream (.ite h.modStream.modStream.modPeer h.modStream.modStream.emit.endSession.unattest)

theorem execFlitReceive {path peer : Nat} {raw : List Byte} (h : LStoresCanonical s) :
    NextCanonical (Machine.execFlitReceive path peer raw s) := by
  unfold Machine.execFlitReceive
  refine .ite (.next h) ?_
  split
  · exact .next h.modStream
  · exact .ite (.next h) (.ite (.next h.acceptFlit) (.ite (.next h.modStream) (.ite (.next h) (.next h.modStream))))

theorem execKeyUpdate {peer : Nat} {outgoing : Bool} (h : LStoresCanonical s) : NextCanonical (Machine.execKeyUpdate peer outgoing s) :=
  .ite (.next h) (.ite (.ite (.next h) (.next h)) (.ite (.next h) (.next h)))

theorem useLeaves {n : Nat} (h : LStoresCanonical s) : LStoresCanonical (Machine.useLeaves s n) := .ite h.with_links.emit h

theorem execAttestationExchange {peer digest : Nat} {ok : Bool} (h : LStoresCanonical s) :
    NextCanonical (Machine.execAttestationExchange peer digest ok s) := by
  unfold Machine.execAttestationExchange
  split
  · exact .next h
  · extract_lets done s1 s2 s3 s4
    have h1 : LStoresCanonical s1 := h.useLeaves
    clear_value s1
    split
    · exact .next (.foldl h1.modPeer.with_spool fun _ _ h => .ite h.enterLit h)
    · exact .next (.emit (.foldl h1.modPeer fun _ _ h => .ite h.modPath h))

theorem placeItem {x : Item} (h : LStoresCanonical s) : LStoresCanonical (Machine.placeItem s x) := h

theorem execBridleItemReceive {item : Item} (h : LStoresCanonical s) : NextCanonical (Machine.execBridleItemReceive item s) := by
  unfold Machine.execBridleItemReceive
  dsimp only
  split
  · exact .next h
  · exact .ite (.next h) (.next h.modStream.placeItem)

theorem execBridleOutputServe {path k : Nat} (h : LStoresCanonical s) : NextCanonical (Machine.execBridleOutputServe path k s) := by
  unfold Machine.execBridleOutputServe
  split
  · refine .ite (.next h) ?_
    split
    · exact .next h
    · exact .next h.with_links.modPath.modStream
  · exact .next h

theorem pathUp {fibre pid : Nat} (h : LStoresCanonical s) : LStoresCanonical (Machine.pathUp s fibre pid) := by
  unfold Machine.pathUp
  refine .ite h (.ite (.ite (.ite h h) h.modPath.beginTraining) ?_)
  dsimp only
  split
  · exact h
  · exact h
  · exact h.modPath.enterLit

theorem execCircuitUp {fibre peer loss : Nat} (h : LStoresCanonical s) : NextCanonical (Machine.execCircuitUp fibre peer loss s) :=
  .ite (.next h) (.next (h.modFibre.beginExchange.foldl (fun _ _ h => h.pathUp)).lowerOrders)

theorem execCircuitDown {fibre : Nat} (h : LStoresCanonical s) : NextCanonical (Machine.execCircuitDown fibre s) :=
  .ite (.next h) (.ite (.next h) (.next (h.modFibre.foldl (fun _ _ h => h.modPath))))

theorem execWindowOpen {fibre : Nat} (h : LStoresCanonical s) : NextCanonical (Machine.execWindowOpen fibre s) := by
  unfold Machine.execWindowOpen
  dsimp only
  split
  · exact .ite (.next (.ite (h.foldl (fun _ _ h => .ite h.enterLit h)).modFibre (h.foldl (fun _ _ h => .ite h.enterLit h)))) (.next h)
  · exact .next h

theorem execWindowClose {fibre : Nat} (h : LStoresCanonical s) : NextCanonical (Machine.execWindowClose fibre s) := by
  unfold Machine.execWindowClose
  dsimp only
  split
  · exact .ite (.next h) (.next h)
  · exact .next h

theorem execKeyConfirmation {fibre peer : Nat} {peerLit tagsMatch : Bool} (h : LStoresCanonical s) :
    NextCanonical (Machine.execKeyConfirmation fibre peer peerLit tagsMatch s) :=
  .ite (.next h) (.ite (.next h.modFibre.emit) (.ite (.next h) (.ite (.next h) (.next h.modFibre.endSession.modFibre))))

theorem execKeyTag {fibre peer : Nat} {tag : List Byte} (h : LStoresCanonical s) : NextCanonical (Machine.execKeyTag fibre peer tag s) :=
  h.execKeyConfirmation

theorem execCirc {d a b : Reg} {fibre : BitVec 6} {commit : Bool} (h : LStoresCanonical s) :
    NextCanonical (Machine.execCirc d a b fibre commit s) := by
  unfold Machine.execCirc
  refine h.perform (fun _ _ => .ite h.finishTrap (.ite h.finishTrap ?_))
  split
  · exact h.finishTrap
  · exact h.reading h.setThread.with_spool.finishPark

theorem execSlotTableAnswer {k : Nat} (h : LStoresCanonical s) : NextCanonical (Machine.execSlotTableAnswer k s) := by
  unfold Machine.execSlotTableAnswer
  split
  · exact .next (.answerParked (.ite h h))
  · exact .next h

/-! ### Strokes -/

theorem execStrk {n1 : BitVec 8} {len1 : BitVec 3} {stride floor : BitVec 7} (h : LStoresCanonical s) :
    NextCanonical (Machine.execStrk n1 len1 stride floor s) := by
  unfold Machine.execStrk
  refine h.perform (fun _ _ => .ite h.finishRetry ?_)
  split
  · exact .next h.fetchMiss.closeTurn
  · exact h.finishTrap
  · split
    · exact h.finishTrap
    · exact h.takeReq.finishJump

theorem sendAgain {tid : Tid} {t : Thread} {k : Stroke} {r : Req} {rest : List Req} (h : LStoresCanonical s) :
    LStoresCanonical (Machine.sendAgain s tid t k r rest) := .ite h h.setThread.portAdd

theorem execStrokeRepetition {tid : Tid} (h : LStoresCanonical s) : NextCanonical (Machine.execStrokeRepetition tid s) := by
  unfold Machine.execStrokeRepetition
  split
  · exact .next h
  · split
    · exact .next h
    · refine .ite (.next h) ?_
      split
      · exact .next h.sendAgain
      · refine .ite (.next h) ?_
        split
        · exact .next h
        · exact .next h.modStroke

theorem execStrokeTrap {tid : Tid} (h : LStoresCanonical s) : NextCanonical (Machine.execStrokeTrap tid s) := by
  unfold Machine.execStrokeTrap
  split
  · exact .next h
  · split
    · exact .next h
    · split
      · exact .next h
      · exact .ite (.next (.ite h.modStroke.trapEntry h.modStroke.trapWaiting)) (.next h)

/-! ### Travelling threads -/

theorem shipOn {u : Issue} {t : Thread} {l : Launch} {dest : Nat} {seg : Option Segment} {pc : Word} (h : LStoresCanonical s) :
    NextCanonical (Machine.shipOn u s t l dest seg pc) := by
  unfold Machine.shipOn
  split
  · exact h.finishTrap
  · exact .ite h.finishTrap (.ite (.next h.setThread.closeTurn) h.modNet.finishPark)

theorem execShipCore {a b : Reg} (h : LStoresCanonical s) : NextCanonical (Machine.execShipCore a b s) := by
  unfold Machine.execShipCore
  refine h.perform (fun _ _ => ?_)
  split
  · exact h.finishTrap
  · refine .ite h.finishTrap (.ite h.finishTrap ?_)
    split
    · exact h.finishTrap
    · exact h.shipOn

theorem execShipSeg {a b : Reg} (h : LStoresCanonical s) : NextCanonical (Machine.execShipSeg a b s) := by
  unfold Machine.execShipSeg
  refine h.perform (fun _ _ => ?_)
  split
  · exact h.finishTrap
  · refine .ite h.finishTrap (.ite h.finishTrap ?_)
    split
    · exact h.finishTrap
    · exact h.shipOn

theorem execCargo {a b : Reg} (h : LStoresCanonical s) : NextCanonical (Machine.execCargo a b s) := by
  unfold Machine.execCargo
  refine h.perform (fun _ _ => .ite h.finishTrap (.ite h.finishTrap (.ite h.finishThread ?_)))
  split
  · exact h.finishTrap
  · exact h.finishThread

theorem execSegq {d a : Reg} {op : SegqOp} (h : LStoresCanonical s) : NextCanonical (Machine.execSegq d a op s) := by
  unfold Machine.execSegq
  refine h.perform (fun _ _ => ?_)
  split
  · exact h.finishReg
  · exact .ite h.finishReg (.ite h.finishReg (.ite h.finishReg h.setThread.modNet.finishPark))

theorem cacheEntry {g seg : Nat} (h : LStoresCanonical s) : LStoresCanonical (Machine.cacheEntry s g seg) := h.modCore (by simp)

theorem execMapFetchReply {k : Nat} (h : LStoresCanonical s) : NextCanonical (Machine.execMapFetchReply k s) := by
  unfold Machine.execMapFetchReply
  split
  · exact .next h
  · extract_lets s1
    have h1 : LStoresCanonical s1 := h.modNet
    split
    · exact .next h1
    · extract_lets s2
      have h2 : LStoresCanonical s2 := by
        unfold s2
        split
        · exact h1.cacheEntry
        · exact h1
      split
      · exact .next h2.resumeThread
      · exact .next h2.setThread.resumeThread
      · split
        · exact .next h2
        · split
          · exact .next h2.setThread
          · exact .next h2

theorem sendGondola {tid : Tid} {t : Thread} {cargo : List Byte} {dest slot : Nat} {pc : Word} {ver : BitVec 32} {skip : SkipMark}
    (h : LStoresCanonical s) :
    LStoresCanonical (Machine.sendGondola s tid t cargo dest slot pc ver skip) :=
  .ite (h.modCore (by simp)).setThread.modNet (h.modCore (by simp)).setThread.modNet.sendItem

theorem spillThread {tid : Tid} {t : Thread} {dest : Nat} {pc : Word} {ver : BitVec 32} {skip : SkipMark} (h : LStoresCanonical s) :
    SomeCanonical (Machine.spillThread s tid t dest pc ver skip) := by
  unfold Machine.spillThread
  split
  · dsimp only
    split
    · refine .some (.setThread ?_)
      split
      · exact (h.partWrite.of_eq ‹_›).dropTiles.freeSlot
      · exact (h.partWrite.of_eq ‹_›).dropTiles
    · exact .none
  · exact .none

theorem requestSlot {tid : Tid} {dest : Nat} (h : LStoresCanonical s) : LStoresCanonical (Machine.requestSlot s tid dest) :=
  h.modCore (by simp)

theorem execDeparture {tid : Tid} (h : LStoresCanonical s) : NextCanonical (Machine.execDeparture tid s) := by
  unfold Machine.execDeparture
  split
  · exact .next h
  · split
    · refine .ite (.next h) (.ite (.next h.setThread.makeReady) ?_)
      split
      · exact .next h.sendGondola
      · split
        · exact .next h.reportGap.requestSlot
        · dsimp only
          split
          · exact .next (h.gapServed.spillThread.of_some ‹_›).requestSlot
          · exact .next h.gapServed.setThread.emitThread.requestSlot
    · exact .next h

theorem retrySpill {tid : Tid} {t : Thread} (h : LStoresCanonical s) : LStoresCanonical (Machine.retrySpill s tid t) := by
  unfold Machine.retrySpill
  split
  · split
    · exact h.reportGap.setThread
    · exact SomeCanonical.getD h.spillThread h
  · exact h

theorem execSlotGrant {g : Nat} (h : LStoresCanonical s) : NextCanonical (Machine.execSlotGrant g s) := by
  unfold Machine.execSlotGrant
  split
  · refine .ite (.next h) (.ite (.next h.reportGap) ?_)
    dsimp only
    split
    · exact .next (h.gapServed.modCore (by simp))
    · split
      · exact .ite (.next (h.gapServed.modCore (by simp)).sendGondola) (.next (h.gapServed.modCore (by simp)))
      · exact .next (h.gapServed.modCore (by simp)).sendGondola
      · exact .next (h.gapServed.modCore (by simp)).loadRecord.sendGondola
      · exact .next (h.gapServed.modCore (by simp))
  · exact .next h

theorem landInSlot {n : GondolaNote} {t : Thread} (h : LStoresCanonical s) : LStoresCanonical (Machine.landInSlot s n t) :=
  (h.lwriteFull.lwriteFull.lwriteFull.lwriteFull.modCore (by simp)).setThread.takeReq

theorem landOnDie {n : GondolaNote} {t : Thread} {load : StepLoad} (h : LStoresCanonical s) :
    SomeCanonical (Machine.landOnDie s n t load) := by
  unfold Machine.landOnDie
  dsimp only
  split
  · exact .none
  · split
    · exact .some (h.dropTiles.modCore (by simp)).setThread.makeReady
    · exact .none

theorem execGondolaLanding {k : Nat} (h : LStoresCanonical s) : NextCanonical (Machine.execGondolaLanding k s) := by
  unfold Machine.execGondolaLanding
  split
  · exact .next h
  · split
    · exact .next h
    · split
      · exact .next h
      · extract_lets landed
        have hl : SomeCanonical landed := by
          unfold landed
          split
          · exact .some h.landInSlot
          · exact h.landOnDie
        clear_value landed
        split
        · exact .next h
        · have hs := hl.of_some rfl
          exact .next (.ite hs.modNet.killThread hs.modNet)

theorem passMessage {m : MsgNote} {die : Nat} (h : LStoresCanonical s) : LStoresCanonical (Machine.passMessage s m die) := .ite h h.sendItem

theorem forwardOverflow {tid : Tid} {g dest : Nat} (h : LStoresCanonical s) : LStoresCanonical (Machine.forwardOverflow s tid g dest) :=
  (h.foldl (fun _ _ h => h.passMessage)).modCore (by simp)

theorem passCarried {n : GondolaNote} {t : Thread} (h : LStoresCanonical s) : LStoresCanonical (Machine.passCarried s n t) := by
  unfold Machine.passCarried
  split
  · exact h
  · exact h.foldl (fun _ _ h => h.passMessage)

theorem execLandingAck {k : Nat} (h : LStoresCanonical s) : NextCanonical (Machine.execLandingAck k s) := by
  unfold Machine.execLandingAck
  split
  · exact .next h
  · extract_lets s1 s2 s3
    have h2 : LStoresCanonical s2 := .ite h.modNet.dropTiles h
    have h3 : LStoresCanonical s3 := by
      unfold s3
      split
      · exact h2.freeSlot
      · exact h2
    split
    · exact .next (.ite h3.passCarried h3.passCarried.forwardOverflow)
    · exact .next (h3.modCore (by simp))

/-! ### A launch's shared tables -/

theorem askManager {u : Issue} {ok : Bool} {tval : Word} (h : LStoresCanonical s) : NextCanonical (Machine.askManager u s ok tval) :=
  h.modNet.finishPark

theorem execSysRplan {a : Reg} (h : LStoresCanonical s) : NextCanonical (Machine.execSysRplan a s) := by
  unfold Machine.execSysRplan
  refine h.perform (fun _ _ => ?_)
  dsimp only
  split
  · exact h.finishTrap
  · split
    · exact h.finishTrap
    · exact h.reading (askManager (.ite h.modLaunch h))

theorem segmentLines {n : Nat} {base : Word} (h : LStoresCanonical s) : LStoresCanonical (Machine.segmentLines n s base).1 := by
  induction n generalizing s base with
  | zero => exact h
  | succ n ih => exact ih h.dieRead

theorem pinCore {g : Nat} {x : Segment} (h : LStoresCanonical s) : LStoresCanonical (Machine.pinCore s g x) :=
  h.segmentLines.modCore (by simp)

theorem applyChanges {lid : Nat} {l : Launch} (h : LStoresCanonical s) : LStoresCanonical (Machine.applyChanges s lid l) :=
  h.modLaunch.foldl (fun _ _ h => (h.foldl (fun _ _ h => h.pinCore)).foldl (fun _ _ h => h.modCore (by simp)))

theorem dropMapCaches {l : Launch} (h : LStoresCanonical s) : LStoresCanonical (Machine.dropMapCaches s l) :=
  h.foldl (fun _ _ h => h.modCore (by simp))

theorem execSysMapver (h : LStoresCanonical s) : NextCanonical (Machine.execSysMapver s) := by
  unfold Machine.execSysMapver
  refine h.perform (fun _ _ => ?_)
  split
  · exact h.askManager
  · split
    · exact h.reportGap.finishRetry
    · exact h.gapServed.applyChanges.dropMapCaches.askManager

theorem execSysRepadd {a b : Reg} (h : LStoresCanonical s) : NextCanonical (Machine.execSysRepadd a b s) := by
  unfold Machine.execSysRepadd
  refine h.perform (fun _ _ => ?_)
  dsimp only
  split
  · exact h.askManager
  · split
    · exact .ite h.modLaunch.askManager h.askManager
    · exact h.askManager

theorem execSysRepdel {a b : Reg} (h : LStoresCanonical s) : NextCanonical (Machine.execSysRepdel a b s) := by
  unfold Machine.execSysRepdel
  refine h.perform (fun _ _ => ?_)
  dsimp only
  split
  · exact h.askManager
  · split
    · exact .ite h.modLaunch.askManager h.askManager
    · exact h.askManager

theorem execSysPath {a b : Reg} (h : LStoresCanonical s) : NextCanonical (Machine.execSysPath a b s) := by
  unfold Machine.execSysPath
  refine h.perform (fun _ _ => ?_)
  dsimp only
  split
  · exact h.finishTrap
  · exact h.reading (askManager (.ite h h))

/-! ### Launches -/

theorem readMapDie {ea : Word} {die n : Nat} (h : LStoresCanonical s) : LStoresCanonical (Machine.readMapDie s ea die n).1 := by
  unfold Machine.readMapDie
  split
  · exact h
  · split <;> exact h.partRead.of_eq ‹_›

theorem readMapImage {ea : Word} (h : LStoresCanonical s) : LStoresCanonical (Machine.readMapImage s ea).1 := by
  unfold Machine.readMapImage
  split
  · exact h.partRead.of_eq ‹_›
  · refine foldl_proj (π := Prod.fst) (h.partRead.of_eq ‹_›) fun acc die h => ?_
    split
    · split
      · exact .of_eq (.readMapDie h) ‹_›
      · exact .of_eq (.readMapDie h) ‹_›
    · exact h

theorem planLaunch {bs : List Byte} (h : LStoresCanonical s) : LStoresCanonical (Machine.planLaunch s bs).1 := by
  unfold Machine.planLaunch
  extract_lets d free dies cores
  split
  next s1 map e =>
  have h1 : LStoresCanonical s1 := by
    refine of_eq (ite_fst ?_ h) e
    split <;> exact h.readMapImage.of_eq ‹_›
  dsimp only
  refine .ite_fst h1 (.ite_fst h1 (.ite_fst h1 (.ite_fst h1 ?_)))
  split
  · exact h1
  · refine .ite_fst h1 ?_
    split
    · exact h1
    · exact .ite_fst h1 h1

/-- A core's L-store starts as the launch's data image. -/
theorem giveCore {lid : Nat} {d : Desc} {image : List Byte} {g : Nat} (h : LStoresCanonical s) :
    LStoresCanonical (Machine.giveCore s lid d image g) := h.modCore_of_wf fun _ _ => Memory.write_wf [] 0 image Memory.empty_wf

theorem takeCore {g : Nat} (h : LStoresCanonical s) : LStoresCanonical (Machine.takeCore s g) := h.modCore (by simp)

theorem dataImage {d : Desc} (h : LStoresCanonical s) : LStoresCanonical (Machine.dataImage s d).1 := by
  unfold Machine.dataImage
  split <;> exact h.partRead.of_eq ‹_›

theorem placeInitial {lid i : Nat} (h : LStoresCanonical s) : LStoresCanonical (Machine.placeInitial s lid i) := by
  unfold Machine.placeInitial
  split
  · exact h
  · dsimp only
    split
    · exact h.createThread.of_eq ‹_›
    · exact h.setThread.modLaunch

theorem claimPaths {lid : Nat} {d : Desc} (h : LStoresCanonical s) : LStoresCanonical (Machine.claimPaths s lid d) := h

theorem startLaunch {p : LaunchPlan} (h : LStoresCanonical s) : LStoresCanonical (Machine.startLaunch s p) :=
  ((h.setLaunch.claimPaths.dataImage.foldl (fun _ _ h => h.giveCore)).foldl (fun _ _ h => h.foldl (fun _ _ h => h.pinCore))).foldl (fun _ _
      h => h.placeInitial)

theorem commandWaitsPage {q : Nat} {w : Bool} {gap : Nat × Nat} (h : LStoresCanonical s) :
    LStoresCanonical (Machine.commandWaitsPage s q w gap) := h.reportGap

theorem execLaunch {q : Nat} (h : LStoresCanonical s) : NextCanonical (Machine.execLaunch q s) := by
  have h0 := h
  refine .ite (.next h) (h.withCommand fun s ix w h => .ite h.hostComplete ?_)
  split
  · exact (h.partRead.of_eq ‹_›).hostComplete
  · have hr := h.partRead.of_eq ‹_›
    split
    · exact (hr.planLaunch.of_eq ‹_›).hostComplete
    · have hp := hr.planLaunch.of_eq ‹_›
      split
      · exact h0.commandWaitsPage
      · dsimp only
        split
        · exact h0.commandWaitsPage
        · exact hp.gapServed.startLaunch.hostComplete

theorem releasePaths {lid : Nat} (h : LStoresCanonical s) : LStoresCanonical (Machine.releasePaths s lid) :=
  h.foldl (fun _ _ h => .modPath (.ite h.releaseLight h))

theorem releasePod {lid : Nat} {l : Launch} (h : LStoresCanonical s) : LStoresCanonical (Machine.releasePod s lid l) := .ite h h

theorem releaseLaunch {lid : Nat} {l : Launch} (h : LStoresCanonical s) : LStoresCanonical (Machine.releaseLaunch s lid l) :=
  (h.releasePaths.releasePod.foldl (fun _ _ h => h.takeCore)).with_launches

theorem execLaunchComplete {lid : Nat} (h : LStoresCanonical s) : NextCanonical (Machine.execLaunchComplete lid s) := by
  unfold Machine.execLaunchComplete
  split
  · exact .next h
  · exact .ite (.next h) (.next h.releaseLaunch.emit)

theorem moveThread {lid : Nat} {tid : Tid} {t : Thread} {die : Nat} (h : LStoresCanonical s) :
    LStoresCanonical (Machine.moveThread s lid tid t die) := by
  unfold Machine.moveThread
  extract_lets old dest load s1
  have h1 : LStoresCanonical s1 := by
    unfold s1
    split
    · exact h.completeSeq
    · exact h
  split
  · exact h1
  · exact .ite h1 (h1.dropTiles.modCore (by simp)).setThread.modNet.sendItem

theorem evenOut {fuel lid : Nat} {old dies : List Nat} (h : LStoresCanonical s) :
    LStoresCanonical (Machine.evenOut fuel s lid old dies) := by
  induction fuel generalizing s with
  | zero => exact h
  | succ fuel ih =>
    unfold Machine.evenOut
    split
    · exact h
    · split
      · exact ih h.moveThread
      · exact h

/-- Cores given and taken back start and end with canonical L-stores. -/
theorem changeDies {lid : Nat} {l : Launch} {dies : List Nat} (h : LStoresCanonical s) :
    LStoresCanonical (Machine.changeDies s lid l dies) := by
  unfold Machine.changeDies
  extract_lets cores added gone
  split
  have hg := h.dataImage.of_eq ‹_›
  refine .foldl (.evenOut (.setLaunch (.foldl (.foldl hg fun _ _ h => h.giveCore) fun _ _ h => h.modCore (by simp)))) fun _ _ h => ?_
  exact h.takeCore.modCore_of_wf fun _ _ => rfl

theorem releaseStep {lid : Nat} (h : LStoresCanonical s) : LStoresCanonical (Machine.releaseStep s lid) := by
  unfold Machine.releaseStep
  refine h.foldl (fun _ _ h => ?_)
  split
  · exact h.resumeThread
  · exact h

theorem execStepRelease {lid : Nat} {dies : List Nat} (h : LStoresCanonical s) : NextCanonical (Machine.execStepRelease lid dies s) := by
  unfold Machine.execStepRelease
  split
  · exact .next h
  · split
    · exact .next h
    · exact .next h
    · exact .ite (.next h) (.next (.releaseStep (.ite h.emit (.ite h.changeDies h))))

/-! ### The host's other commands -/

theorem commandDone {q : Nat} {ix : BitVec 32} {result : Nat} (h : LStoresCanonical s) :
    LStoresCanonical (Machine.commandDone s q ix result) := h.hostComplete

theorem commandRefused {q : Nat} {ix : BitVec 32} {reason : Nat} (h : LStoresCanonical s) :
    LStoresCanonical (Machine.commandRefused s q ix reason) := h.hostComplete

theorem execCopyCommand {q : Nat} (h : LStoresCanonical s) : NextCanonical (Machine.execCopyCommand q s) :=
  h.withCommand (fun _ _ _ h => .ite h.commandRefused h)

theorem readRetopo {q : Nat} {ix : BitVec 32} {w : List Word} (h : LStoresCanonical s) :
    LStoresCanonical (Machine.readRetopo s q ix w).1 := by
  unfold Machine.readRetopo
  dsimp only
  split
  · split <;> exact h.partRead.partRead
  · exact h.partRead.partRead

theorem execRetopo {q : Nat} (h : LStoresCanonical s) : NextCanonical (Machine.execRetopo q s) := by
  unfold Machine.execRetopo
  refine .ite (.next h) (h.withCommand (fun _ _ _ h => .ite h.commandRefused ?_))
  split
  · exact (h.readRetopo.of_eq ‹_›).commandRefused
  · exact (h.readRetopo.of_eq ‹_›).with_links.foldl (fun _ _ h => h.modPath)

theorem execDrainLimitExpiry (h : LStoresCanonical s) : NextCanonical (Machine.execDrainLimitExpiry s) := by
  unfold Machine.execDrainLimitExpiry
  split
  · exact .next h
  · exact .ite (.next h) (.next ((h.foldl (fun _ _ h => h.modPath.modFibre)).foldl (fun _ _ h => h.modFibre)).with_links.emit)

theorem execRetopoResume (h : LStoresCanonical s) : NextCanonical (Machine.execRetopoResume s) := by
  unfold Machine.execRetopoResume
  split
  · exact .next h
  · exact .ite (.next h) (.next h.with_links.commandDone)

theorem execPowerState {q : Nat} (h : LStoresCanonical s) : NextCanonical (Machine.execPowerState q s) :=
  .ite (.next h) (h.withCommand (fun _ _ _ h => .ite h.commandRefused (.ite h.commandRefused (h.foldl (fun _ _
      h => h.modDie)).commandDone)))

theorem execPowerLaserCap {q : Nat} (h : LStoresCanonical s) : NextCanonical (Machine.execPowerLaserCap q s) :=
  h.withCommand (fun _ _ _ h => .ite h.commandRefused h.modHost.commandDone)

theorem grantPolicy {q : Nat} {ix : BitVec 32} {w : List Word} {fs : List Nat} (h : LStoresCanonical s) :
    LStoresCanonical (Machine.grantPolicy s q ix w fs) := .ite h.commandRefused (h.foldl (fun _ _ h => h.modFibre)).commandDone

theorem execGrantpol {q : Nat} (h : LStoresCanonical s) : NextCanonical (Machine.execGrantpol q s) := by
  unfold Machine.execGrantpol
  split
  · exact .next (h.takeCommand.of_command ‹_›).grantPolicy
  · exact .next (h.takeCommand.of_refused ‹_›)
  · exact h.withCommand (fun _ _ _ h => h.grantPolicy)

theorem execAttestAllowList {q : Nat} (h : LStoresCanonical s) : NextCanonical (Machine.execAttestAllowList q s) := by
  unfold Machine.execAttestAllowList
  refine h.withCommand (fun _ _ _ h => .ite h.commandRefused ?_)
  split
  · exact (h.partRead.of_eq ‹_›).with_links.commandDone
  · exact (h.partRead.of_eq ‹_›).commandRefused

theorem execAttestStart {q : Nat} (h : LStoresCanonical s) : NextCanonical (Machine.execAttestStart q s) :=
  h.withCommand (fun _ _ _ h => .ite h.commandRefused (h.endSession.modPeer.foldl (fun _ _ h => h.modPath)).commandDone)

theorem execAttestEndSession {q : Nat} (h : LStoresCanonical s) : NextCanonical (Machine.execAttestEndSession q s) :=
  h.withCommand (fun _ _ _ h => .ite h.commandRefused h.endSession.commandDone)

theorem writeLeaves (h : LStoresCanonical s) : LStoresCanonical (Machine.writeLeaves s) := h.writeDiscovery

theorem execAttestLeafCounter {q : Nat} (h : LStoresCanonical s) : NextCanonical (Machine.execAttestLeafCounter q s) :=
  h.withCommand (fun _ _ _ h => h.commandDone.writeLeaves)

theorem execAttestNewIdentity {q : Nat} (h : LStoresCanonical s) : NextCanonical (Machine.execAttestNewIdentity q s) :=
  h.withCommand (fun _ _ _ h => .ite h.commandRefused h.with_links.modHost.commandDone.writeLeaves)

theorem resetPart : LStoresCanonical (Machine.resetPart s) := fun _ he => nomatch he

theorem execResetPackage {q : Nat} (h : LStoresCanonical s) : NextCanonical (Machine.execResetPackage q s) :=
  h.withCommand (fun _ _ _ _ => .resetPart)

theorem execResetConfigure {q : Nat} (h : LStoresCanonical s) : NextCanonical (Machine.execResetConfigure q s) :=
  h.withCommand (fun _ _ _ h => .ite h.commandRefused h.modHost.commandDone)

theorem execResetFirmware {q : Nat} (h : LStoresCanonical s) : NextCanonical (Machine.execResetFirmware q s) := by
  unfold Machine.execResetFirmware
  refine h.withCommand (fun _ _ _ h => ?_)
  split
  · exact .ite (h.partRead.of_eq ‹_›).modHost.commandDone (h.partRead.of_eq ‹_›).commandRefused
  · exact (h.partRead.of_eq ‹_›).commandRefused

/-! ### Messages -/

theorem endSend {g order status : Nat} (h : LStoresCanonical s) : LStoresCanonical (Machine.endSend s g order status) := by
  unfold Machine.endSend
  split
  · exact h
  · exact (h.modCore (by simp)).modThread

theorem trySend {g : Nat} {e : SendEntry} (h : LStoresCanonical s) : LStoresCanonical (Machine.trySend s g e) := by
  unfold Machine.trySend
  refine .ite h ?_
  split
  · exact h.endSend
  · refine .ite h.endSend ?_
    split
    · exact (h.modCore (by simp)).uncorrThread
    · exact .ite (h.modCore (by simp)).passMessage (h.modCore (by simp)).passMessage.modThread

theorem execSend {d a b c : Reg} {tag : BitVec 16} (h : LStoresCanonical s) : NextCanonical (Machine.execSend d a b c tag s) := by
  unfold Machine.execSend
  refine h.perform (fun _ _ => ?_)
  split
  · exact h.finishTrap
  · exact .ite h.finishPark (h.takeReq.setThread.modCore (by simp)).trySend.finishSeq

theorem execSendRetry {g k : Nat} (h : LStoresCanonical s) : NextCanonical (Machine.execSendRetry g k s) := by
  unfold Machine.execSendRetry
  split
  · exact .next h
  · exact .ite (.next h.trySend) (.next h)

theorem clearRefused {tid : Tid} {t : Thread} (h : LStoresCanonical s) : LStoresCanonical (Machine.clearRefused s tid t) :=
  h.modCore (by simp)

theorem deliverInto {g buf cap : Nat} {src : Tid} {tag : BitVec 16} {data : List Byte} (h : LStoresCanonical s) :
    LStoresCanonical (Machine.deliverInto s g buf cap src tag data).1 := h.lwriteFull

theorem execRecv {d a b c : Reg} {tag : BitVec 16} {anyTag anySrc : Bool} (h : LStoresCanonical s) :
    NextCanonical (Machine.execRecv d a b c tag anyTag anySrc s) := by
  unfold Machine.execRecv
  refine h.perform (fun _ _ => ?_)
  split
  · exact h.finishTrap
  · dsimp only
    split
    · exact h.clearRefused.finishTrap
    · split
      · exact (h.deliverInto.modCore (by simp)).finishReg
      · exact (h.deliverInto.modCore (by simp)).finishSeq
    · exact .ite h.finishPark (h.setThread.modCore (by simp)).finishSeq

theorem execProbe {d a b : Reg} {anyTag anySrc : Bool} (h : LStoresCanonical s) :
    NextCanonical (Machine.execProbe d a b anyTag anySrc s) := by
  unfold Machine.execProbe
  refine h.perform (fun _ _ => ?_)
  split
  · exact h.clearRefused.finishTrap
  · exact h.finishReg
  · exact h.finishReg

theorem putOverflow {g : Nat} {m : MsgNote} (h : LStoresCanonical s) : SomeCanonical (Machine.putOverflow s g m) := by
  unfold Machine.putOverflow
  refine .ite .none ?_
  split
  · exact .some (h.lwriteFull.lwriteFull.modCore (by simp))
  · exact .none

theorem messageTaken {m : MsgNote} (h : LStoresCanonical s) : LStoresCanonical (Machine.messageTaken s m) := .ite h h.endSend

theorem refuseMessage {g : Nat} {m : MsgNote} (h : LStoresCanonical s) : LStoresCanonical (Machine.refuseMessage s g m) := by
  unfold Machine.refuseMessage
  split
  · exact h
  · exact .ite (.endSend (.ite h.modLaunch (h.modCore (by simp)))) (h.modCore (by simp))

theorem execMessageArrival {k : Nat} (h : LStoresCanonical s) : NextCanonical (Machine.execMessageArrival k s) := by
  unfold Machine.execMessageArrival
  split
  · exact .next h
  · extract_lets gone
    have hg : LStoresCanonical gone := h.modNet
    refine .ite (.next h) ?_
    split
    · exact .next (.ite hg hg.endSend)
    · refine .ite (.next hg.passMessage) (.ite (.next h) (.ite (.ite (.next h) (.next hg.refuseMessage)) ?_))
      split
      · split
        exact .next (.messageTaken (.modThread (.modCore (hg.deliverInto.of_eq ‹_›) (by simp))))
      · split
        · exact .next (hg.putOverflow.of_some ‹_›).messageTaken
        · exact .ite (.next h) (.next hg.refuseMessage)

/-! ### Bitfield and packed instructions -/

theorem execBfx {d a : Reg} {pos len1 : BitVec 6} {sx : Bool} (h : LStoresCanonical s) :
    NextCanonical (Machine.execBfx d a pos len1 sx s) := h.performReg

theorem execBfi {d a b : Reg} {pos len1 : BitVec 6} (h : LStoresCanonical s) : NextCanonical (Machine.execBfi d a b pos len1 s) :=
  h.performReg

theorem execVadd {d a b : Reg} {vt : LaneType} {mode : SatMode} (h : LStoresCanonical s) :
    NextCanonical (Machine.execVadd d a b vt mode s) := h.performReg

theorem execVsub {d a b : Reg} {vt : LaneType} {mode : SatMode} (h : LStoresCanonical s) :
    NextCanonical (Machine.execVsub d a b vt mode s) := h.performReg

theorem execVmul {d a b : Reg} {vt : LaneType} {half : MulHalf} (h : LStoresCanonical s) :
    NextCanonical (Machine.execVmul d a b vt half s) := h.performReg

theorem execVmnx {d a b : Reg} {vt : LaneType} {op : MinMax} (h : LStoresCanonical s) : NextCanonical (Machine.execVmnx d a b vt op s) :=
  h.performReg

theorem execVshf {d a b : Reg} {vt : LaneType} {op : VshfOp} (h : LStoresCanonical s) : NextCanonical (Machine.execVshf d a b vt op s) :=
  h.performReg

theorem execVred {d a : Reg} {vt : LaneType} {op : VredOp} (h : LStoresCanonical s) : NextCanonical (Machine.execVred d a vt op s) :=
  h.performReg

theorem execVcmp {d a b : Reg} {vt : LaneType} {cond : VCond} (h : LStoresCanonical s) : NextCanonical (Machine.execVcmp d a b vt cond s) :=
  h.performReg

/-! ### Transport plans -/

theorem runPlan {g : Nat} {t : Thread} {o : EpOp} {m1 n1 : Nat} (h : LStoresCanonical s) : EpCanonical (Machine.runPlan s g t o m1 n1) := by
  unfold Machine.runPlan
  extract_lets m n
  refine unlessTrap ?_
  extract_lets
  refine .done (.recordFlags (.modMx (h.modCore fun c => ?_)))
  refine foldl_lstore ?_ _ c
  exact fun _ _ => rfl

theorem balDone {g : Nat} {o : EpOp} {d : Reg} {pair : Pair} {p : PlanState} {conv : Bool} {fl : Flags} (h : LStoresCanonical s) :
    EpCanonical (Machine.balDone s g o d pair p conv fl) := .done h.modMx.raiseTile.raiseThread.modThread

theorem balMore {g : Nat} {o : EpOp} {p : PlanState} {fl : Flags} (h : LStoresCanonical s) : EpCanonical (Machine.balMore s g o p fl) :=
  .more h.modMx.raiseTile

theorem runBal {g : Nat} {o : EpOp} {d : Reg} {pair : Pair} {f : TileRef} (h : LStoresCanonical s) :
    EpCanonical (Machine.runBal s g o d pair f) :=
  unlessTrap (.ite h.balDone (.ite h.balDone (.ite h.balMore (.ite h.balDone (.ite h.balDone h.balMore)))))

theorem runPlnx {g : Nat} {t : Thread} {o : EpOp} {f : TileRef} (h : LStoresCanonical s) : EpCanonical (Machine.runPlnx s g t o f) :=
  unlessTrap (.done h.lwrite.recordFlags)

theorem runPlnd {g : Nat} {o : EpOp} {d : Reg} {f : TileRef} (h : LStoresCanonical s) : EpCanonical (Machine.runPlnd s g o d f) :=
  unlessTrap (.done h.recordFlags.modThread)

theorem runEpilogue {g : Nat} {t : Thread} {o : EpOp} (h : LStoresCanonical s) : EpCanonical (Machine.runEpilogue s g t o) := by
  unfold Machine.runEpilogue
  split
  · exact h.runTzero
  · exact h.runTscl
  · exact h.runTact
  · exact h.runTcvt
  · exact h.runTred
  · exact h.runTopk
  · exact h.runTkrd
  · exact h.runPlan
  · exact h.runBal
  · exact h.runPlnx
  · exact h.runPlnd
  · exact .done h

theorem dropEpilogue {g : Nat} (h : LStoresCanonical s) : LStoresCanonical (Machine.dropEpilogue s g) := h.modMx

theorem endEpilogue {g : Nat} {o : EpOp} (h : LStoresCanonical s) : LStoresCanonical (Machine.endEpilogue s g o) := by
  unfold Machine.endEpilogue
  dsimp only
  split
  · exact h.dropEpilogue
  · split
    · exact h.dropEpilogue.resumeThread
    · exact h.dropEpilogue

theorem quitBal {g : Nat} (h : LStoresCanonical s) : LStoresCanonical (Machine.quitBal s g) := h.modMx.dropEpilogue

theorem restartBal {g : Nat} {o : EpOp} {dying : Bool} (h : LStoresCanonical s) : LStoresCanonical (Machine.restartBal s g o dying) := by
  unfold Machine.restartBal
  refine .ite h.quitBal ?_
  split
  · split
    · exact h.dropEpilogue
    · exact h
  · exact h

theorem execEpilogueComplete {g : Nat} (h : LStoresCanonical s) : NextCanonical (Machine.execEpilogueComplete g s) := by
  unfold Machine.execEpilogueComplete
  split
  · exact .next h
  · refine .ite (.next h) ?_
    split
    · exact .next (.ite h.quitBal h.dropEpilogue)
    · split
      · exact .next h.dropEpilogue.uncorrThread
      · split
        · exact .next (h.runEpilogue.of_done ‹_›).endEpilogue
        · exact .next (h.runEpilogue.of_more ‹_›).restartBal
        · exact .ite (.next h.dropEpilogue) (.next h.dropEpilogue.trapWaiting)

theorem execPlan {x : TileRef} {a b c : Reg} {m1 n1 : BitVec 6} (h : LStoresCanonical s) :
    NextCanonical (Machine.execPlan x a b c m1 n1 s) := h.performEpilogue

theorem execBal {d a b : Reg} {p : Pair} {x : TileRef} (h : LStoresCanonical s) : NextCanonical (Machine.execBal d a b p x s) :=
  h.performEpilogue

theorem execPlnx {a : Reg} {x : TileRef} (h : LStoresCanonical s) : NextCanonical (Machine.execPlnx a x s) := h.performEpilogue

theorem execPlnd {d : Reg} {cost x : TileRef} (h : LStoresCanonical s) : NextCanonical (Machine.execPlnd d cost x s) := h.performEpilogue

/-! ### Compare and predicate instructions -/

theorem execCmp {p : Pair} {a b : Reg} {ic : IntCond} {cm : Combine} {w32 : Bool} (h : LStoresCanonical s) :
    NextCanonical (Machine.execCmp p a b ic cm w32 s) := h.perform (fun _ _ => h.finishThread)

theorem execCmpi {p : Pair} {a : Reg} {ic : IntCond} {cm : Combine} {imm : BitVec 32} (h : LStoresCanonical s) :
    NextCanonical (Machine.execCmpi p a ic cm imm s) := h.perform (fun _ _ => h.finishThread)

theorem execFcmp {p : Pair} {a b : Reg} {ty : FcmpType} {cond : FCond} {cm : Combine} {sig : Bool} (h : LStoresCanonical s) :
    NextCanonical (Machine.execFcmp p a b ty cond cm sig s) := h.perform (fun _ _ => .ite h.finishTrap h.finishThread)

theorem execPset {value mask : BitVec 8} (h : LStoresCanonical s) : NextCanonical (Machine.execPset value mask s) :=
  h.perform (fun _ _ => h.finishThread)

theorem execPmovPg {d : Reg} (h : LStoresCanonical s) : NextCanonical (Machine.execPmovPg d s) := h.perform (fun _ _ => h.finishReg)

theorem execPmovGp {a : Reg} {mask : BitVec 8} (h : LStoresCanonical s) : NextCanonical (Machine.execPmovGp a mask s) :=
  h.perform (fun _ _ => h.finishThread)

theorem execPlog {pd pa pb pc : BitVec 3} {table : BitVec 8} (h : LStoresCanonical s) :
    NextCanonical (Machine.execPlog pd pa pb pc table s) := h.perform (fun _ _ => h.finishThread)

/-! ### Pre-emption and resuming -/

theorem stopThread {tid : Tid} {slot : Nat} (h : LStoresCanonical s) : LStoresCanonical (Machine.stopThread s tid slot) := by
  unfold Machine.stopThread
  split
  · exact h
  · exact .ite h.setThread.makeReady h

theorem execPreempt {q : Nat} (h : LStoresCanonical s) : NextCanonical (Machine.execPreempt q s) := by
  unfold Machine.execPreempt
  refine .ite (.next h) (h.withCommand (fun _ _ _ h => ?_))
  dsimp only
  split
  · exact h.hostComplete
  · exact .ite h.hostComplete (.ite h.hostComplete (h.foldl (fun _ _ h => h.stopThread)).modLaunch)

theorem withdrawWaits {lid : Nat} (h : LStoresCanonical s) : LStoresCanonical (Machine.withdrawWaits s lid) := by
  unfold Machine.withdrawWaits
  split
  · exact h
  · exact (((h.foldl (fun _ _ h => h.modThread)).foldl (fun _ _ h => h.modThread)).modNet.foldl (fun _ _ h => h.modDie)).foldl (fun _ _
      h => (h.modCore (by simp)).pump)

theorem stopMatrix {g : Nat} (h : LStoresCanonical s) : LStoresCanonical (Machine.stopMatrix s g) := by
  unfold Machine.stopMatrix
  split
  · exact h
  · refine .ite h.modMx (.ite ?_ h.runChunks.modMx)
    dsimp only
    split
    · split
      · exact (h.modCore (by simp)).raiseTile.modMx.raiseThread.resumeThread
      · exact (h.modCore (by simp)).raiseTile.modMx.raiseThread
    · exact (h.modCore (by simp)).raiseTile.modMx.raiseThread

theorem writePieces {at_ : Word} {l : List (Nat × List Byte)} (h : LStoresCanonical s) : SomeCanonical (Machine.writePieces s at_ l) := by
  unfold Machine.writePieces
  refine .foldlM h (fun _ _ h => ?_)
  split
  · exact .some (h.partWrite.of_eq ‹_›)
  · exact .none

/-- An unreadable L-store place is saved as zeros. -/
theorem saveZero {g place : Nat} (h : LStoresCanonical s) : LStoresCanonical (Machine.saveZero s g place) := by
  refine .uncorrEvent (h.modCore_of_wf fun c hc => ?_)
  dsimp only
  split
  · exact Memory.write_wf _ _ _ hc
  · split
    · exact hc
    · split <;> exact hc

theorem saveErrors {l : Launch} {g : Nat} (h : LStoresCanonical s) : LStoresCanonical (Machine.saveErrors s l g) :=
  h.foldl (fun _ _ h => h.saveZero)

theorem saveRecords {lid : Nat} {l : Launch} {area : Word} (h : LStoresCanonical s) : SomeCanonical (Machine.saveRecords s lid l area) := by
  unfold Machine.saveRecords
  refine .bind (.foldlM h (fun _ _ h => h.writePieces)) (fun _ h => .foldlM h (fun _ _ h => ?_))
  split
  · split
    · exact .some (h.writeRecord.of_eq ‹_›)
    · exact .none
  · exact .some h

theorem dropContext {e : Tid × Thread} (h : LStoresCanonical s) : LStoresCanonical (Machine.dropContext s e) := h.leaveQueues.setThread

theorem releaseSaved {lid : Nat} {l : Launch} {area : Word} (h : LStoresCanonical s) :
    LStoresCanonical (Machine.releaseSaved s lid l area) :=
  (((h.foldl (fun _ _ h => h.dropContext)).foldl (fun _ _ h => h.setThread)).foldl (fun _ _ h => h.takeCore)).modNet.modLaunch

theorem execPreemptSave {lid : Nat} (h : LStoresCanonical s) : NextCanonical (Machine.execPreemptSave lid s) := by
  unfold Machine.execPreemptSave
  split
  · exact .next h
  · split
    · refine .ite (.next h.withdrawWaits) ?_
      dsimp only
      split
      · exact .next h.withdrawWaits
      · exact .next (((h.withdrawWaits.foldl (fun _ _ h => h.stopMatrix.saveErrors)).foldl (fun _ _
          h => h.setThread)).saveRecords.of_some ‹_›).releaseSaved.emit.hostComplete
    · exact .next h

theorem readPieces {at_ : Word} {l : List (Nat × Nat)} (h : LStoresCanonical s) : LStoresCanonical (Machine.readPieces s at_ l).1 := by
  refine foldl_proj (π := Prod.fst) h fun acc p h => ?_
  split
  · exact h.partRead.of_eq ‹_›
  · exact h.partRead.of_eq ‹_›

theorem readCore {l : Launch} {area : Word} {g : Nat} (h : LStoresCanonical s) : LStoresCanonical (Machine.readCore s l area g).1 := by
  unfold Machine.readCore
  dsimp only
  split <;> exact h.readPieces.of_eq ‹_›

theorem foldl_write_wf {l : List (Nat × List Byte)} {m : Memory} (h : Memory.wf m = true) :
    Memory.wf (l.foldl (fun m e => m.write e.1 e.2) m) = true := by
  induction l generalizing m with
  | nil => exact h
  | cons e l ih => exact ih (Memory.write_wf m e.1 e.2 h)

/-- A restored L-store is rebuilt by writes from the empty one. -/
theorem restoreCore {lid : Nat} {l : Launch} {g : Nat} {x : CoreImage} (h : LStoresCanonical s) :
    LStoresCanonical (Machine.restoreCore s lid l g x) := by
  unfold Machine.restoreCore
  dsimp only
  split
  · exact .modCore (.pinCore (.setCore h.modLaunch (foldl_write_wf Memory.empty_wf))) (by simp)
  · exact .setCore h.modLaunch (foldl_write_wf Memory.empty_wf)

theorem moveTiles {g : Nat} {es : List (Tid × Thread)} {bases : Tab Nat} (h : LStoresCanonical s) :
    LStoresCanonical (Machine.moveTiles s g es bases) := h.modMx

theorem restoreThread {bases : Tab Nat} {e : Tid × Thread} (h : LStoresCanonical s) : LStoresCanonical (Machine.restoreThread s bases e) :=
  h.loadRecord.setThread

theorem resumeCommands {lid : Nat} {l : Launch} (h : LStoresCanonical s) : LStoresCanonical (Machine.resumeCommands s lid l) :=
  h.map_cores rfl fun _ => rfl

theorem restoreThreadsOn {lid g : Nat} (h : LStoresCanonical s) : LStoresCanonical (Machine.restoreThreadsOn s lid g) :=
  h.moveTiles.foldl (fun _ _ h => h.restoreThread)

theorem rejoin {lid : Nat} (h : LStoresCanonical s) : LStoresCanonical (Machine.rejoin s lid) := by
  unfold Machine.rejoin
  refine ((h.foldl (fun _ _ h => h.makeReady)).foldl (fun _ _ h => ?_)).foldl (fun _ _ h => h.modThread)
  split
  · exact h.requestSlot
  · exact h.requestSlot
  · exact h

theorem restoreCores {lid : Nat} {l : Launch} {area : Word} (h : LStoresCanonical s) :
    SomeCanonical (Machine.restoreCores s lid l area) := by
  unfold Machine.restoreCores
  refine .foldlM h (fun _ _ h => ?_)
  split
  · exact .some (h.readCore.of_eq ‹_›).restoreCore
  · exact .none

theorem resumeLaunch {lid : Nat} {l : Launch} {area : Word} (h : LStoresCanonical s) : SomeCanonical (Machine.resumeLaunch s lid l area) :=
  .map_state h.restoreCores (fun _ h => (h.foldl (fun _ _ h => h.restoreThreadsOn)).modLaunch.resumeCommands.rejoin.emit)

theorem execResume {q : Nat} (h : LStoresCanonical s) : NextCanonical (Machine.execResume q s) := by
  unfold Machine.execResume
  refine .ite (.next h) ?_
  split
  · exact .next h
  · exact .next (h.takeCommand.of_refused ‹_›)
  · dsimp only
    split
    · exact .next (h.takeCommand.of_command ‹_›).hostComplete
    · split
      · refine .ite (.next h) ?_
        split
        · exact .next h.commandWaitsPage
        · split
          · exact .next ((h.takeCommand.of_command ‹_›).gapServed.resumeLaunch.of_some ‹_›).hostComplete
          · exact .next h
      · exact .next (h.takeCommand.of_command ‹_›).hostComplete

theorem execSpill {q : Nat} (h : LStoresCanonical s) : NextCanonical (Machine.execSpill q s) := by
  unfold Machine.execSpill
  refine .ite (.next h) (h.withCommand (fun _ _ _ h => ?_))
  dsimp only
  split
  · exact h.hostComplete
  · exact .ite h.hostComplete (.ite h.hostComplete (h.setLaunch.foldl (fun _ _ h => h.retrySpill)).hostComplete)

/-! ### Bring-up, the host's windows, events and errors -/

theorem execBringUp (h : LStoresCanonical s) : NextCanonical (Machine.execBringUp s) := .ite (.next h) (.next h.writeDiscovery.modHost)

theorem selfTest {found : SelfTest} (h : LStoresCanonical s) : LStoresCanonical (Machine.selfTest s found) := h

theorem execBringUpTested {found : SelfTest} (h : LStoresCanonical s) : NextCanonical (Machine.execBringUpTested found s) :=
  .ite (.next h) h.selfTest.execBringUp

theorem execQtail {q : Nat} {v : BitVec 32} (h : LStoresCanonical s) : NextCanonical (Machine.execQtail q v s) :=
  .ite (.next h.modQueue) (.next h)

theorem execQctl {q : Nat} {v : Word} (h : LStoresCanonical s) : NextCanonical (Machine.execQctl q v s) :=
  .ite (.next h) (.ite (.next h.modQueue) (.ite (.next h) (.next h.modQueue)))

theorem execEvcons {v : Word} (h : LStoresCanonical s) : NextCanonical (Machine.execEvcons v s) := .ite (.next h) (.next h)

theorem execWakeRegister {die : Nat} {t : Tid} (h : LStoresCanonical s) : NextCanonical (Machine.execWakeRegister die t s) :=
  .ite (.next h) (.next h)

theorem execRegisterWrite {offset size : Nat} {v : Word} (h : LStoresCanonical s) :
    NextCanonical (Machine.execRegisterWrite offset size v s) := by
  unfold Machine.execRegisterWrite
  refine .ite (.next h) (.ite ?_ (.ite h.execEvcons (.ite h.execWakeRegister (.next h))))
  split
  · exact .ite (.next h) (.next h.modQueue)
  · exact h.execQctl
  · exact h.execQtail
  · exact .next h

theorem execRegisterRead {offset size : Nat} (h : LStoresCanonical s) : NextCanonical (Machine.execRegisterRead offset size s) := .next h

theorem execHostWindowWrite {die : Nat} {offset : BitVec 48} {bytes : List Byte} (h : LStoresCanonical s) :
    NextCanonical (Machine.execHostWindowWrite die offset bytes s) := by
  unfold Machine.execHostWindowWrite
  split
  · exact .next (h.dieWrite.of_eq ‹_›).dropCode
  · exact .next h

theorem execHostWindowRead {die : Nat} {offset : BitVec 48} {size : Nat} (h : LStoresCanonical s) :
    NextCanonical (Machine.execHostWindowRead die offset size s) := .next h.dieRead.modHost

theorem flushEvents {fuel : Nat} (h : LStoresCanonical s) : LStoresCanonical (Machine.flushEvents fuel s) := by
  induction fuel generalizing s with
  | zero => exact h
  | succ fuel ih =>
    unfold Machine.flushEvents
    refine .ite h ?_
    split
    · exact ih h.storeEvent.modHost
    · exact .ite h h.modHost.emit

theorem execEventAreaSpace (h : LStoresCanonical s) : NextCanonical (Machine.execEventAreaSpace s) := .next h.flushEvents

theorem execThermalTrip {die : Nat} (h : LStoresCanonical s) : NextCanonical (Machine.execThermalTrip die s) :=
  .ite (.next h) (.next h.modDie.emit)

theorem execCorrectedError {die : Nat} (h : LStoresCanonical s) : NextCanonical (Machine.execCorrectedError die s) :=
  .ite (.next h) (.next (.ite h.modDie.emit h))

theorem spoilCore {g place : Nat} (h : LStoresCanonical s) : LStoresCanonical (Machine.spoilCore s g place) := h.modCore (by simp)

theorem spoilPlace {p : HomePlace} (h : LStoresCanonical s) : LStoresCanonical (Machine.spoilPlace s p) := by
  unfold Machine.spoilPlace
  split
  · exact h.spoilCore
  · exact h
  · exact h

theorem threadMet {tid : Tid} {ea : Word} (h : LStoresCanonical s) : LStoresCanonical (Machine.threadMet s tid ea) := by
  unfold Machine.threadMet
  split
  · exact h
  · refine .uncorrThread ?_
    split
    · exact h.spoilPlace
    · exact h

theorem commandMet {g : Nat} {c : EngCmd} {ea : Word} (h : LStoresCanonical s) : LStoresCanonical (Machine.commandMet s g c ea) := by
  unfold Machine.commandMet
  extract_lets s1
  have h1 : LStoresCanonical s1 := by
    unfold s1
    split
    · exact h.spoilPlace
    · exact h
  split
  · exact h1.modCommand.engineMet
  · exact h1.modCommand.engineMet
  · exact h1

theorem execUncorrectableError {site : ErrorSite} (h : LStoresCanonical s) : NextCanonical (Machine.execUncorrectableError site s) := by
  unfold Machine.execUncorrectableError
  split
  · exact .next h.registerError
  · exact .next h.threadMet
  · exact .next h.threadMet
  · split
    · exact .next h.spoilCore.uncorrThread
    · exact .next h
  · split
    · exact .next h.commandMet
    · exact .next h
  · exact .next (.ite h.saveZero h)
  · split
    · exact .ite (.next h.setThread.uncorrEvent) (.next h)
    · exact .next h
  · exact .next h

/-! ### Every instruction and event -/

/-- One arm for each instruction and event. -/
theorem exec {i : Instr} (h : LStoresCanonical s) : NextCanonical (Machine.exec i s) := by
  cases i with
  | nop => exact h.execNop
  | br => exact h.execBr
  | call => exact h.execCall
  | jr => exact h.execJr
  | jalr => exact h.execJalr
  | loop => exact h.execLoop
  | trap => exact h.execTrap
  | eret => exact h.execEret
  | mfs => exact h.execMfs
  | mts => exact h.execMts
  | gsel => exact h.execGsel
  | exit => exact h.execExit
  | step => exact h.execStep
  | fence => exact h.execFence
  | sysRplan => exact h.execSysRplan
  | sysMapver => exact h.execSysMapver
  | sysRepadd => exact h.execSysRepadd
  | sysRepdel => exact h.execSysRepdel
  | sysPath => exact h.execSysPath
  | add => exact h.execAdd
  | sub => exact h.execSub
  | addi => exact h.execAddi
  | mul => exact h.execMul
  | div => exact h.execDiv
  | rem => exact h.execRem
  | logic => exact h.execLogic
  | logi => exact h.execLogi
  | shift => exact h.execShift
  | shifti => exact h.execShifti
  | li => exact h.execLi
  | mnx => exact h.execMnx
  | lea => exact h.execLea
  | bits => exact h.execBits
  | sel => exact h.execSel
  | madd => exact h.execMadd
  | cmp => exact h.execCmp
  | cmpi => exact h.execCmpi
  | fcmp => exact h.execFcmp
  | pset => exact h.execPset
  | pmovPg => exact h.execPmovPg
  | pmovGp => exact h.execPmovGp
  | plog => exact h.execPlog
  | bfx => exact h.execBfx
  | bfi => exact h.execBfi
  | vadd => exact h.execVadd
  | vsub => exact h.execVsub
  | vmul => exact h.execVmul
  | vmnx => exact h.execVmnx
  | vshf => exact h.execVshf
  | vred => exact h.execVred
  | vcmp => exact h.execVcmp
  | fadd => exact h.execFadd
  | fsub => exact h.execFsub
  | fmul => exact h.execFmul
  | fma => exact h.execFma
  | fdiv => exact h.execFdiv
  | fsqrt => exact h.execFsqrt
  | fmnx => exact h.execFmnx
  | fexp2 => exact h.execFexp2
  | flog2 => exact h.execFlog2
  | frcp => exact h.execFrcp
  | frsq => exact h.execFrsq
  | fcvt => exact h.execFcvt
  | icvt => exact h.execIcvt
  | fsgn => exact h.execFsgn
  | fclass => exact h.execFclass
  | fdot => exact h.execFdot
  | ld => exact h.execLd
  | st => exact h.execSt
  | ldf => exact h.execLdf
  | lde => exact h.execLde
  | stf => exact h.execStf
  | fem => exact h.execFem
  | atom => exact h.execAtom
  | tld => exact h.execTld
  | tst => exact h.execTst
  | ldm => exact h.execLdm
  | stm => exact h.execStm
  | linePref => exact h.execLinePref
  | lineZero => exact h.execLineZero
  | lineFlush => exact h.execLineFlush
  | lineDrop => exact h.execLineDrop
  | lineIinv => exact h.execLineIinv
  | mprot => exact h.execMprot
  | xlatProbe => exact h.execXlatProbe
  | xlatInv => exact h.execXlatInv
  | xlatInvall => exact h.execXlatInvall
  | spawn => exact h.execSpawn
  | yield => exact h.execYield
  | park => exact h.execPark
  | wake => exact h.execWake
  | kill => exact h.execKill
  | ctxQuery => exact h.execCtxQuery
  | ctxEvict => exact h.execCtxEvict
  | ctxReseat => exact h.execCtxReseat
  | shipCore => exact h.execShipCore
  | shipSeg => exact h.execShipSeg
  | cargo => exact h.execCargo
  | segq => exact h.execSegq
  | send => exact h.execSend
  | recv => exact h.execRecv
  | probe => exact h.execProbe
  | barr => exact h.execBarr
  | barw => exact h.execBarw
  | barc => exact h.execBarc
  | mma => exact h.execMma
  | mmrLoad => exact h.execMmrLoad
  | mmrPass => exact h.execMmrPass
  | mmrTake => exact h.execMmrTake
  | tzero => exact h.execTzero
  | tscl => exact h.execTscl
  | tact => exact h.execTact
  | tcvt => exact h.execTcvt
  | tred => exact h.execTred
  | topk => exact h.execTopk
  | tkrd => exact h.execTkrd
  | plan => exact h.execPlan
  | bal => exact h.execBal
  | plnx => exact h.execPlnx
  | plnd => exact h.execPlnd
  | tstat => exact h.execTstat
  | tring => exact h.execTring
  | copy => exact h.execCopy
  | copyr => exact h.execCopyr
  | ratom => exact h.execRatom
  | gath => exact h.execGath
  | lgrant => exact h.execLgrant
  | lstat => exact h.execLstat
  | circ => exact h.execCirc
  | mcast => exact h.execMcast
  | strk => exact h.execStrk
  | ringJoin => exact h.execRingJoin
  | ringDissolve => exact h.execRingDissolve
  | ringDissolveSized => exact h.execRingDissolveSized
  | strokeTrap => exact h.execStrokeTrap
  | issueSelect => exact h.execIssueSelect
  | seatAssign => exact h.execSeatAssign
  | quantumEnd => exact h.execQuantumEnd
  | parkTimeout => exact h.execParkTimeout
  | strokeRepetition => exact h.execStrokeRepetition
  | fetchLineLands => exact h.execFetchLineLands
  | istoreParityError => exact h.execIstoreParityError
  | sliceRequest => exact h.execSliceRequest
  | fillLands => exact h.execFillLands
  | stagedStorePerform => exact h.execStagedStorePerform
  | storeAck => exact h.execStoreAck
  | performedNotice => exact h.execPerformedNotice
  | loadReply => exact h.execLoadReply
  | faultReply => exact h.execFaultReply
  | walkComplete => exact h.execWalkComplete
  | faultQueueSpace => exact h.execFaultQueueSpace
  | wakeDelivery => exact h.execWakeDelivery
  | killDelivery => exact h.execKillDelivery
  | exitRetire => exact h.execExitRetire
  | launchComplete => exact h.execLaunchComplete
  | stepRelease => exact h.execStepRelease
  | spawnReply => exact h.execSpawnReply
  | contextGrant => exact h.execContextGrant
  | mmaStart => exact h.execMmaStart
  | mmaComplete => exact h.execMmaComplete
  | epilogueComplete => exact h.execEpilogueComplete
  | latchPassArrival => exact h.execLatchPassArrival
  | engineCommandStart => exact h.execEngineCommandStart
  | engineChunk => exact h.execEngineChunk
  | tokenWrite => exact h.execTokenWrite
  | barrierObjectArrival => exact h.execBarrierObjectArrival
  | reductionContribution => exact h.execReductionContribution
  | reductionRound => exact h.execReductionRound
  | ratomRequest => exact h.execRatomRequest
  | ratomResponse => exact h.execRatomResponse
  | atomicTimeout => exact h.execAtomicTimeout
  | flowItemArrival => exact h.execFlowItemArrival
  | creditGrant => exact h.execCreditGrant
  | markerComplete => exact h.execMarkerComplete
  | markerAck => exact h.execMarkerAck
  | messageArrival => exact h.execMessageArrival
  | sendRetry => exact h.execSendRetry
  | barrierUnitArrival => exact h.execBarrierUnitArrival
  | barrierGeneration => exact h.execBarrierGeneration
  | unitReply => exact h.execUnitReply
  | mapFetchReply => exact h.execMapFetchReply
  | departure => exact h.execDeparture
  | slotGrant => exact h.execSlotGrant
  | gondolaLanding => exact h.execGondolaLanding
  | landingAck => exact h.execLandingAck
  | lgrantDecision => exact h.execLgrantDecision
  | waitingRaiseStart => exact h.execWaitingRaiseStart
  | orderChangeStepA => exact h.execOrderChangeStepA
  | rampEnd => exact h.execRampEnd
  | orderRaiseStepC => exact h.execOrderRaiseStepC
  | flitTransmit => exact h.execFlitTransmit
  | flitReceive => exact h.execFlitReceive
  | ack => exact h.execAck
  | nak => exact h.execNak
  | berWindowEnd => exact h.execBerWindowEnd
  | retrainComplete => exact h.execRetrainComplete
  | lossOfLight => exact h.execLossOfLight
  | ageingScan => exact h.execAgeingScan
  | spoolWatchdogReset => exact h.execSpoolWatchdogReset
  | spoolRestart => exact h.execSpoolRestart
  | bridleItemReceive => exact h.execBridleItemReceive
  | bridleOutputServe => exact h.execBridleOutputServe
  | circuitUp => exact h.execCircuitUp
  | circuitDown => exact h.execCircuitDown
  | windowOpen => exact h.execWindowOpen
  | windowClose => exact h.execWindowClose
  | keyConfirmation => exact h.execKeyConfirmation
  | keyTag => exact h.execKeyTag
  | attestationExchange => exact h.execAttestationExchange
  | keyUpdate => exact h.execKeyUpdate
  | drainLimitExpiry => exact h.execDrainLimitExpiry
  | retopoResume => exact h.execRetopoResume
  | preemptSave => exact h.execPreemptSave
  | correctedError => exact h.execCorrectedError
  | uncorrectableError => exact h.execUncorrectableError
  | eventAreaSpace => exact h.execEventAreaSpace
  | thermalTrip => exact h.execThermalTrip
  | bringUp => exact h.execBringUp
  | bringUpTested => exact h.execBringUpTested
  | launch => exact h.execLaunch
  | preempt => exact h.execPreempt
  | resume => exact h.execResume
  | copyCommand => exact h.execCopyCommand
  | retopo => exact h.execRetopo
  | powerState => exact h.execPowerState
  | powerLaserCap => exact h.execPowerLaserCap
  | grantpol => exact h.execGrantpol
  | attestAllowList => exact h.execAttestAllowList
  | attestStart => exact h.execAttestStart
  | attestEndSession => exact h.execAttestEndSession
  | attestLeafCounter => exact h.execAttestLeafCounter
  | attestNewIdentity => exact h.execAttestNewIdentity
  | resetPackage => exact h.execResetPackage
  | resetConfigure => exact h.execResetConfigure
  | resetFirmware => exact h.execResetFirmware
  | spill => exact h.execSpill
  | qtail => exact h.execQtail
  | qctl => exact h.execQctl
  | evcons => exact h.execEvcons
  | wakeRegister => exact h.execWakeRegister
  | registerWrite => exact h.execRegisterWrite
  | hostWindowWrite => exact h.execHostWindowWrite
  | hostWindowRead => exact h.execHostWindowRead
  | registerRead => exact h.execRegisterRead
  | slotTableAnswer => exact h.execSlotTableAnswer
  | laserModuleReplaced => exact h.execLaserModuleReplaced

/-! ### What follows at once after a step -/

theorem resumeResolved (h : LStoresCanonical s) : LStoresCanonical (Machine.resumeResolved s) := by
  unfold Machine.resumeResolved
  refine h.foldl (fun _ _ h => ?_)
  split
  · split
    · exact h.resumeThread
    · exact h
  · exact h

theorem settleFault {tid : Tid} {t : Thread} (h : LStoresCanonical s) : LStoresCanonical (Machine.settleFault s tid t) := by
  unfold Machine.settleFault
  refine .ite h ?_
  split
  case h_3 => exact .ite h.faultThread h
  case h_6 => exact h
  all_goals exact h.faultThread

theorem settleThreads (h : LStoresCanonical s) : LStoresCanonical (Machine.settleThreads s) :=
  h.with_threads.foldl (fun _ _ h => h.settleFault)

theorem settleColours (h : LStoresCanonical s) : LStoresCanonical (Machine.settleColours s) := h.foldl (fun _ _ h => h.dropColours)

/-- The settling passes touch seats, ports, wait lists and threads in turn. -/
theorem settle (h : LStoresCanonical s) : LStoresCanonical (Machine.settle s) := by
  unfold Machine.settle
  extract_lets s1 s2 s3 s4
  have h1 : LStoresCanonical s1 := h.settleColours
  have h2 : LStoresCanonical s2 := h1.map_cores rfl fun x => settleCore_lstore s1 x.1 x.2
  have h3 : LStoresCanonical s3 := h2.foldl fun _ _ h => h.pump.lserveWaiting.serveTake.servePass_
  have h4 : LStoresCanonical s4 := h3.settleThreads.resumeResolved
  exact h4.map_cores rfl fun x => settleSeats_lstore s4 x.1 x.2

/-! ### One step -/

/-- An event runs, then the instruction of the turn it opened. -/
theorem runTurn {ev : Instr} (h : LStoresCanonical s) : NextCanonical (Machine.runTurn ev s) := by
  have he : NextCanonical (Machine.exec ev { s with issue := none }) := h.with_issue.exec
  unfold Machine.runTurn
  split
  · have ht := he.of_next ‹_›
    split
    · exact ht.exec
    · exact .next ht
  · exact he

theorem runEvent {ev : Instr} (h : LStoresCanonical s) : NextCanonical (Machine.runEvent ev s) := by
  have ht : NextCanonical (Machine.runTurn ev s) := h.runTurn
  unfold Machine.runEvent
  split
  · exact .next (ht.of_next ‹_›).settle
  · exact ht

/-- The next move of the agenda, or one more core cycle where the agenda is empty. -/
theorem step (h : LStoresCanonical s) : NextCanonical (Machine.step s) := by
  unfold Machine.step
  split
  · exact h.advance.runEvent
  · exact .ite h.with_agenda.advanceTo.runEvent .fault

end LStoresCanonical

/-- Settles O57: every table of the reset state is empty, so that a die, a path, a fibre, a queue or a peer reads as its own reset value. -/
theorem resetIsAsTheSpecStates : Obligations.ResetIsAsTheSpecStates :=
  ⟨rfl, rfl, rfl, fun _ => rfl, fun _ => ⟨rfl, rfl, rfl, rfl⟩, fun _ => ⟨rfl, rfl, rfl⟩, fun _ => rfl, fun _ => rfl, rfl, rfl, rfl, rfl, rfl⟩

/-- Settles O60: no core has an entry at reset. -/
theorem resetHasCanonicalLStores : Obligations.ResetHasCanonicalLStores := by
  intro e he
  cases he

/-- Settles O59: a step is an event's instruction, the instruction of the turn it opens, and the settling after both, and each of these
changes an L-store by canonical writes alone. -/
theorem everyStepKeepsLStoresCanonical : Obligations.EveryStepKeepsLStoresCanonical :=
  fun _ _ h e => h.step.of_next e

end Sys2Proof.Claims
end

section
/-! SUPPORT. The IEEE-like layouts (spec/03 R40): the fields of a code, decoding by its fields, and the encoding of a magnitude that is already
a multiple of its own rounding unit. -/

namespace Sys2Proof.Claims

open Sys2Proof.Machine

/-! ### The IEEE-like layouts -/

/-- The formats of the registers, all with an IEEE-like layout (R40). -/
abbrev IeeeLike (f : Fmt) : Prop := f = .f64 ∨ f = .f32 ∨ f = .bf16 ∨ f = .f16

theorem IeeeLike.bits {f : Fmt} (h : IeeeLike f) : f.bits = (layoutOf f).fb + (layoutOf f).eb + 1 := by
  obtain rfl | rfl | rfl | rfl := h <;> rfl

/-- The largest mantissa has every bit of the precision set. -/
theorem IeeeLike.maxM {f : Fmt} (h : IeeeLike f) : (layoutOf f).maxM = 2 ^ ((layoutOf f).fb + 1) - 1 := by
  obtain rfl | rfl | rfl | rfl := h <;> rfl

/-- The largest finite exponent field is one below all ones. -/
theorem IeeeLike.maxE {f : Fmt} (h : IeeeLike f) : (layoutOf f).maxE = 2 ^ (layoutOf f).eb - 2 - (layoutOf f).bias - (layoutOf f).fb := by
  obtain rfl | rfl | rfl | rfl := h <;> simp [layoutOf, Layout.bias]

theorem IeeeLike.emin_le_maxE {f : Fmt} (h : IeeeLike f) : (layoutOf f).emin - (layoutOf f).fb ≤ (layoutOf f).maxE := by
  obtain rfl | rfl | rfl | rfl := h <;> decide

/-! ### The fields of a code -/

/-- The fraction field of a code (R40). -/
def fracField (f : Fmt) (c : Nat) : Nat := c % 2 ^ (layoutOf f).fb

/-- The exponent field of a code (R40). -/
def expField (f : Fmt) (c : Nat) : Nat := c / 2 ^ (layoutOf f).fb % 2 ^ (layoutOf f).eb

/-- The sign of a code, its top bit (R40). -/
def signField (f : Fmt) (c : Nat) : Bool := c / 2 ^ (f.bits - 1) % 2 == 1

theorem fracField_lt (f : Fmt) (c : Nat) : fracField f c < 2 ^ (layoutOf f).fb := Nat.mod_lt _ (Nat.two_pow_pos _)

theorem expField_lt (f : Fmt) (c : Nat) : expField f c < 2 ^ (layoutOf f).eb := Nat.mod_lt _ (Nat.two_pow_pos _)

/-- A code of an IEEE-like format is its three fields, each at its place. -/
theorem IeeeLike.code_eq_fields {f : Fmt} (h : IeeeLike f) {c : Nat} (hc : c < 2 ^ f.bits) :
    signBit f (signField f c) + expField f c * 2 ^ (layoutOf f).fb + fracField f c = c := by
  have hbits : f.bits - 1 = (layoutOf f).fb + (layoutOf f).eb := by rw [h.bits]; rfl
  have hupper : c / 2 ^ (f.bits - 1) = c / 2 ^ (layoutOf f).fb / 2 ^ (layoutOf f).eb := by
    rw [hbits, Nat.pow_add, Nat.div_div_eq_div_mul]
  have htop : c / 2 ^ (f.bits - 1) < 2 := by
    rw [Nat.div_lt_iff_lt_mul (Nat.two_pow_pos _), ← Nat.pow_succ', hbits]
    rw [h.bits] at hc
    exact hc
  have hsign : signBit f (signField f c) = c / 2 ^ (f.bits - 1) * 2 ^ (f.bits - 1) := by
    obtain h0 | h1 : c / 2 ^ (f.bits - 1) = 0 ∨ c / 2 ^ (f.bits - 1) = 1 :=
      Nat.le_one_iff_eq_zero_or_eq_one.1 (Nat.le_of_lt_succ htop)
    · simp [signBit, signField, h0]
    · simp [signBit, signField, h1]
  calc signBit f (signField f c) + expField f c * 2 ^ (layoutOf f).fb + fracField f c
      = (c / 2 ^ (layoutOf f).fb / 2 ^ (layoutOf f).eb * 2 ^ (layoutOf f).eb + expField f c) * 2 ^ (layoutOf f).fb + fracField f c := by
        rw [hsign, hupper, hbits, Nat.add_mul, Nat.mul_assoc, ← Nat.pow_add,
          Nat.add_comm (layoutOf f).eb]
    _ = c / 2 ^ (layoutOf f).fb * 2 ^ (layoutOf f).fb + fracField f c := by rw [expField, Nat.div_add_mod']
    _ = c := Nat.div_add_mod' _ _

/-- The value of a code of an IEEE-like format by its fields: subnormal or zero, infinity, NaN or normal. -/
theorem IeeeLike.decodeF_eq {f : Fmt} (h : IeeeLike f) (c : Nat) :
    decodeF f c =
      if expField f c = 0 then .num (signField f c) (fracField f c) ((layoutOf f).emin - (layoutOf f).fb)
      else if expField f c = 2 ^ (layoutOf f).eb - 1 then
        if fracField f c = 0 then .inf (signField f c) else .nan (fracField f c / 2 ^ ((layoutOf f).fb - 1) == 0)
      else .num (signField f c) (2 ^ (layoutOf f).fb + fracField f c) (expField f c - (layoutOf f).bias - (layoutOf f).fb) := by
  obtain rfl | rfl | rfl | rfl := h <;> rfl

/-! ### Encoding without rounding -/

@[simp] theorem flagIf_false (x : Flags) : flagIf false x = 0 := rfl

/-- A magnitude that is a whole number of its units is not rounded, in any mode. -/
@[simp] theorem roundUnits_self (rm : Mode) (neg : Bool) (m : Nat) (e : Int) : roundUnits rm neg m e e = (m, false) := by
  simp [roundUnits]

theorem exceeds_eq_false_of_le {a b : Nat} {x y : Int} (hab : a ≤ b) (hxy : x ≤ y) : exceeds a x b y = false := by
  have hpow : b ≤ b * 2 ^ (y - x).toNat := Nat.le_mul_of_pos_right b (Nat.two_pow_pos _)
  unfold exceeds
  split
  · have hyx : x = y := by omega
    simpa [hyx] using hab
  · simpa using Nat.le_trans hab hpow

/-- A magnitude given in the unit R42 rounds it to (the weight of its own last place, or the subnormal unit where that is larger) and within
the finite range is encoded exactly. -/
theorem encodeBinary_of_unit {f : Fmt} (rm : Mode) (neg : Bool) {m : Nat} {e : Int}
    (hunit : max (leadExp m e - (layoutOf f).fb) ((layoutOf f).emin - (layoutOf f).fb) = e)
    (hm : m ≤ (layoutOf f).maxM) (he : e ≤ (layoutOf f).maxE) :
    encodeBinary f rm neg m e =
      (signBit f neg + (e - ((layoutOf f).emin - (layoutOf f).fb)).toNat * 2 ^ (layoutOf f).fb + m, 0) := by
  have hq : (if leadExp m e - (layoutOf f).fb < (layoutOf f).emin - (layoutOf f).fb then (layoutOf f).emin - (layoutOf f).fb
      else leadExp m e - (layoutOf f).fb) = e := by
    split <;> omega
  simp only [encodeBinary, hq]
  simp [exceeds_eq_false_of_le hm he]

theorem IeeeLike.encodeF_zero {f : Fmt} (h : IeeeLike f) (rm : Mode) (neg : Bool) (e : Int) :
    encodeF f rm (.num neg 0 e) = (signBit f neg, 0) := by
  obtain rfl | rfl | rfl | rfl := h <;> rfl

theorem IeeeLike.encodeF_num {f : Fmt} (h : IeeeLike f) (rm : Mode) (neg : Bool) {m : Nat} (hm : m ≠ 0) (e : Int) :
    encodeF f rm (.num neg m e) = encodeBinary f rm neg m e := by
  obtain rfl | rfl | rfl | rfl := h <;> exact if_neg hm

theorem IeeeLike.encodeF_inf {f : Fmt} (h : IeeeLike f) (rm : Mode) (neg : Bool) :
    encodeF f rm (.inf neg) = (signBit f neg + (2 ^ (layoutOf f).eb - 1) * 2 ^ (layoutOf f).fb, 0) := by
  obtain rfl | rfl | rfl | rfl := h <;> rfl

/-- A fraction with the exponent of the subnormals is encoded as the fraction, with exponent field 0. -/
theorem IeeeLike.encodeF_subnormal {f : Fmt} (h : IeeeLike f) (rm : Mode) (neg : Bool) {m : Nat} (hm : m < 2 ^ (layoutOf f).fb) :
    encodeF f rm (.num neg m ((layoutOf f).emin - (layoutOf f).fb)) = (signBit f neg + m, 0) := by
  obtain rfl | hm0 := Nat.eq_zero_or_pos m
  · exact h.encodeF_zero rm neg _
  · have hne : m ≠ 0 := Nat.ne_of_gt hm0
    have hlog : Nat.log2 m < (layoutOf f).fb := (Nat.log2_lt hne).2 hm
    have hmax : m ≤ (layoutOf f).maxM := by rw [h.maxM, Nat.pow_succ]; omega
    rw [h.encodeF_num rm neg hne, encodeBinary_of_unit rm neg (by unfold leadExp; omega) hmax h.emin_le_maxE]
    simp

/-- A full significand with the exponent of a finite exponent field x is encoded as that field and the fraction below its leading bit. -/
theorem IeeeLike.encodeF_normal {f : Fmt} (h : IeeeLike f) (rm : Mode) (neg : Bool) {x m : Nat} (hx0 : x ≠ 0)
    (hx : x < 2 ^ (layoutOf f).eb - 1) (hm : m < 2 ^ (layoutOf f).fb) :
    encodeF f rm (.num neg (2 ^ (layoutOf f).fb + m) (x - (layoutOf f).bias - (layoutOf f).fb)) =
      (signBit f neg + x * 2 ^ (layoutOf f).fb + m, 0) := by
  have hne : 2 ^ (layoutOf f).fb + m ≠ 0 := by omega
  have hlog : Nat.log2 (2 ^ (layoutOf f).fb + m) = (layoutOf f).fb := by
    rw [Nat.log2_eq_iff hne, Nat.pow_succ]; omega
  have hmax : 2 ^ (layoutOf f).fb + m ≤ (layoutOf f).maxM := by rw [h.maxM, Nat.pow_succ]; omega
  have hexp : (x : Int) - (layoutOf f).bias - (layoutOf f).fb ≤ (layoutOf f).maxE := by
    have hcast : (x : Int) + 2 ≤ 2 ^ (layoutOf f).eb := by exact_mod_cast (by omega : x + 2 ≤ 2 ^ (layoutOf f).eb)
    rw [h.maxE]; omega
  have hfield : ((x : Int) - (layoutOf f).bias - (layoutOf f).fb - ((layoutOf f).emin - (layoutOf f).fb)).toNat = x - 1 := by
    unfold Layout.emin; omega
  have hlead : (x - 1) * 2 ^ (layoutOf f).fb + 2 ^ (layoutOf f).fb = x * 2 ^ (layoutOf f).fb := by
    rw [← Nat.succ_mul, Nat.succ_eq_add_one, Nat.sub_add_cancel (Nat.pos_of_ne_zero hx0)]
  rw [h.encodeF_num rm neg hne, encodeBinary_of_unit rm neg (by unfold leadExp Layout.emin; omega) hmax hexp, hfield, ← hlead]
  simp only [Nat.add_assoc]

/-- Settles O8: by the exponent field of the code. A subnormal and a normal come back in the unit they are rounded to, so that no mode has a
remainder to round, and an infinity is encoded by its sign alone. -/
theorem encodingADecodedValueGivesItsCode : Obligations.EncodingADecodedValueGivesItsCode := by
  intro f rm c (h : IeeeLike f) hc hnan
  have hcode := h.code_eq_fields hc
  have hfrac := fracField_lt f c
  by_cases hzero : expField f c = 0
  · rw [hzero, Nat.zero_mul, Nat.add_zero] at hcode
    rw [h.decodeF_eq, if_pos hzero, h.encodeF_subnormal rm _ hfrac, hcode]
  · by_cases hones : expField f c = 2 ^ (layoutOf f).eb - 1
    · rw [h.decodeF_eq, if_neg hzero, if_pos hones] at hnan ⊢
      by_cases hinf : fracField f c = 0
      · rw [if_pos hinf, h.encodeF_inf, ← hones, ← Nat.add_zero (_ + _), ← hinf, hcode]
      · rw [if_neg hinf] at hnan
        cases hnan
    · have hfinite : expField f c < 2 ^ (layoutOf f).eb - 1 := by
        have := expField_lt f c
        omega
      rw [h.decodeF_eq, if_neg hzero, if_neg hones, h.encodeF_normal rm _ hzero hfinite hfrac, hcode]

end Sys2Proof.Claims
end
